-- ==== Sys2Proof/Word.lean ====
section
/-!
DEFINITION. The words of the machine: the 32-bit lane, the 64-bit address, the byte, and the
32-lane register value of R31 and R206.
-/
namespace Sys2Proof

/-- One lane of a vector register (R31). -/
abbrev Word := BitVec 32

/-- A virtual address, program counter or 64-bit register (R104). -/
abbrev Addr := BitVec 64

/-- The smallest addressable unit of memory (R4). -/
abbrev Byte := BitVec 8

/-- The 32 lanes of a vector register or latch (R206, R212). -/
abbrev LaneVec := Vector Word 32

/-- A set of lanes: bit L stands for lane L (R254, R255). -/
abbrev LaneMask := BitVec 32

/-- The lane vector whose lane L is `f L`. -/
def LaneVec.of (f : Nat → Word) : LaneVec := Vector.ofFn (fun i => f i.val)

/-- Lane `L` of a vector; a lane number of 32 or more reads zero and is never used by the model. -/
def LaneVec.lane (v : LaneVec) (L : Nat) : Word := v.toList.getD L 0#32

/-- The vector with the same word in every lane. -/
def LaneVec.splat (w : Word) : LaneVec := LaneVec.of (fun _ => w)

/-- Lane `L` belongs to the mask. -/
def LaneMask.has (m : LaneMask) (L : Nat) : Bool := m.getLsbD L

end Sys2Proof
end

