-- ==== Sys2Proof/Syntax.lean ====
section
/-!
DEFINITION. The syntax of the machine: the three instruction forms of R67, R70 and R71, the data that
device events carry, and `Instr`, with one constructor for each row of the opcode table. A row of the
instruction set carries the fields of its form; a row that is an event of the device carries the data
that names what happens, to what.
-/
namespace Sys2Proof

/-- The fields of a C instruction besides its operation (R67). -/
structure CForm where
  s : BitVec 5
  d : BitVec 6
  deriving DecidableEq, Repr

/-- The fields of a W instruction besides its operation (R70). -/
structure WForm where
  y : Bool
  k : Bool
  d : BitVec 6
  a : BitVec 7
  b : BitVec 7
  deriving DecidableEq, Repr

/-- The fields of an L instruction besides its operation (R71). -/
structure LForm where
  y : Bool
  k : Bool
  d : BitVec 6
  a : BitVec 7
  b : BitVec 7
  c : BitVec 7
  ty : BitVec 4
  mode : BitVec 3
  imm : BitVec 16
  deriving DecidableEq, Repr

/-- A packet of a queue (R369); the two reserved fields are kept so that misuse can be seen. -/
structure Packet where
  ptr : Addr
  arg : Word
  rsvdHi : BitVec 19
  obj : Bool
  alla : Bool
  ind : Bool
  irq : Bool
  bar : Bool
  rsvdLo : BitVec 4
  ty : BitVec 4
  deriving DecidableEq, Repr

/-- A queue of a function (R366). -/
structure QueueRef where
  fn : Nat
  q : Nat
  deriving DecidableEq, Repr

/-- A context of a function (R118). -/
structure CtxKey where
  fn : Nat
  id : Nat
  deriving DecidableEq, Repr

/-- The last release that wrote a line or a scratchpad word (R326): scope, and its agent's place. -/
structure RelRec where
  scope : Nat
  fib : Nat
  lane : Nat
  wg : Nat
  core : Nat
  fn : Nat
  peer : Option Nat
  deriving DecidableEq, Repr

/-- What a peer answers for one line of a load or atomic (R311, R312). `fault` is a kind of R112, `rel` the
line's release record (R326). -/
structure PeerReply where
  line : Nat
  data : BitVec 512
  old : List Word
  fault : Option Nat
  rel : Option RelRec
  deriving DecidableEq, Repr

/-- What a peer answers to a pod operation (R151): a fault of R112, a wait, or a status with words; for a DEQ
these are each lane's element and then its own status. `rels` are the release records that lane `k` of it has met (R326). -/
structure PodReply where
  fault : Option Nat
  waits : Bool
  corrupt : Bool
  status : Nat
  words : List Word
  rels : List (Nat × RelRec)
  deriving DecidableEq, Repr

/-- The work that a fabric request asks of its target (R310). A write that releases carries its scope (R326). `wake` is a pod
wake; with `leave` a request that waits at the target's wait table is withdrawn from it (R152; log entry 46). -/
inductive PeerBody where
  | read
  | write (mask : BitVec 64) (data : BitVec 512) (rel : Option Nat)
  | atom (sub : BitVec 4) (ty : BitVec 4) (mode : BitVec 3) (ord scope : Nat) (lanes : List (Nat × Word × Word × BitVec 16))
  | red (ty : BitVec 4) (mode : BitVec 3) (start : Nat) (data : List Byte)
  | podOp (isEnq : Bool) (variant : Nat) (logW : Nat) (ticket : Word) (n : Nat) (scope : Nat) (words : List Word)
  | podInit (config : Word) (scope : Nat)
  | podClose (scope : Nat)
  | podQuery (what : Nat)
  | wake (flight : Nat)
  | leave (flight : Nat)
  deriving DecidableEq, Repr

/-- A request that arrives on the fabric (R309, R310). `fib` is the number within its core of the fibre that a pod wake will
wake (R151). -/
structure PeerReq where
  src : Nat
  ftid : BitVec 16
  ctxid : BitVec 16
  stream : Nat
  seq : BitVec 16
  off : BitVec 48
  body : PeerBody
  fib : Nat := 0
  deriving DecidableEq, Repr

/-- A command of a debug mailbox (R440). -/
structure DbgCmd where
  op : BitVec 8
  sub : BitVec 4
  ctxid : BitVec 16
  tag : BitVec 16
  scope : BitVec 2
  fib : BitVec 2
  slot : BitVec 4
  sched : BitVec 2
  core : BitVec 10
  lanes : LaneMask
  arg0 : Addr
  arg1 : Addr
  deriving DecidableEq, Repr

/-- A debug capability (R439). -/
structure Capability where
  expiry : BitVec 64
  capid : Word
  parent : Word
  ctxid : BitVec 16
  hfn : Nat
  gfn : Nat
  allctx : Bool
  rights : BitVec 6
  deriving DecidableEq, Repr

/-- An entry of a fabric map as FABSET names it (R308); `self` marks it as the device's own. -/
structure FabEntry where
  en : Bool
  pop : Bool
  port : BitVec 4
  self : Bool := false
  deriving DecidableEq, Repr

/-- A signed firmware image (R419, R420): 0 policy core, 1 packet core. -/
structure Image where
  which : Nat
  version : Nat
  bytes : List Byte
  deriving DecidableEq, Repr

/-- A configuration record of the non-volatile memory (R415, R421). -/
structure ConfigRecord where
  ty : Nat
  seq : Nat
  tick : Nat
  payload : List Byte
  block : List Byte
  deriving DecidableEq, Repr

/-- The receiver and protocol errors of the host link that R431 names. -/
inductive LinkErrorKind where
  | receiverError | badTlp | badDllp | replayTimeout | replayRollover
  deriving DecidableEq, Repr

/-- How a completion of the host link ends (R112 kind 8, R431). -/
inductive LinkStatus where
  | ok | unsupported | abort | poisoned
  deriving DecidableEq, Repr

/-- The PF requests of R363. -/
inductive AssignReq where
  | partition (p : Nat) (cores : List (BitVec 10))
  | bind (fn : Nat) (p : Nat)
  | window (fn : Nat) (base : Nat) (gb : Nat)
  deriving DecidableEq, Repr

/-- What a management controller asks on the management port (R448). -/
inductive MgmtReq where
  | temperature | power | errorBank (b i : Nat) | wear (kind : Nat) | measurement
  | firmware (img : Image)
  | readMemory (dpa : Nat) | writeMemory (dpa : Nat)
  deriving DecidableEq, Repr

/-- A merge that fails at a peer (R298): the kind of R112 that its record carries. -/
abbrev MergeFail := Nat

/-- The sample of R401 for one unit: its supply in millivolts, its junction temperature in
millikelvin and its activity in thousandths. -/
structure StressInput where
  unit : Word
  mv : Nat
  milliK : Nat
  act : Nat
  gated : Bool
  deriving DecidableEq, Repr

/-- The rows of the opcode table. -/
inductive Instr where
  | movC (f : CForm)
  | moviC (f : CForm)
  | iaddC (f : CForm)
  | iaddi (f : CForm)
  | isubC (f : CForm)
  | andC (f : CForm)
  | orC (f : CForm)
  | xorC (f : CForm)
  | shli (f : CForm)
  | shri (f : CForm)
  | faddC (f : CForm)
  | fsubC (f : CForm)
  | fmulC (f : CForm)
  | braC (f : CForm)
  | nopC (f : CForm)
  | exitC (f : CForm)
  | iaddW (f : WForm)
  | iaddL (f : LForm)
  | isubW (f : WForm)
  | isubL (f : LForm)
  | imulW (f : WForm)
  | imulL (f : LForm)
  | imulhW (f : WForm)
  | imulhL (f : LForm)
  | idivW (f : WForm)
  | idivL (f : LForm)
  | iremW (f : WForm)
  | iremL (f : LForm)
  | iminW (f : WForm)
  | iminL (f : LForm)
  | imaxW (f : WForm)
  | imaxL (f : LForm)
  | iabsW (f : WForm)
  | iabsL (f : LForm)
  | inegW (f : WForm)
  | inegL (f : LForm)
  | lea (f : LForm)
  | movW (f : WForm)
  | movL (f : LForm)
  | moviW (f : WForm)
  | moviL (f : LForm)
  | andW (f : WForm)
  | andL (f : LForm)
  | orW (f : WForm)
  | orL (f : LForm)
  | xorW (f : WForm)
  | xorL (f : LForm)
  | notW (f : WForm)
  | notL (f : LForm)
  | andnW (f : WForm)
  | andnL (f : LForm)
  | shlW (f : WForm)
  | shlL (f : LForm)
  | shrW (f : WForm)
  | shrL (f : LForm)
  | sarW (f : WForm)
  | sarL (f : LForm)
  | rotW (f : WForm)
  | rotL (f : LForm)
  | popcW (f : WForm)
  | popcL (f : LForm)
  | clzW (f : WForm)
  | clzL (f : LForm)
  | brevW (f : WForm)
  | brevL (f : LForm)
  | faddW (f : WForm)
  | faddL (f : LForm)
  | fsubW (f : WForm)
  | fsubL (f : LForm)
  | fmulW (f : WForm)
  | fmulL (f : LForm)
  | fminW (f : WForm)
  | fminL (f : LForm)
  | fmaxW (f : WForm)
  | fmaxL (f : LForm)
  | frcpW (f : WForm)
  | frcpL (f : LForm)
  | frsqW (f : WForm)
  | frsqL (f : LForm)
  | fsqrtW (f : WForm)
  | fsqrtL (f : LForm)
  | fexp2W (f : WForm)
  | fexp2L (f : LForm)
  | flog2W (f : WForm)
  | flog2L (f : LForm)
  | fsinW (f : WForm)
  | fsinL (f : LForm)
  | fcosW (f : WForm)
  | fcosL (f : LForm)
  | ftanhW (f : WForm)
  | ftanhL (f : LForm)
  | frndW (f : WForm)
  | frndL (f : LForm)
  | fclassW (f : WForm)
  | fclassL (f : LForm)
  | shflSelW (f : WForm)
  | shflSelL (f : LForm)
  | shflLoW (f : WForm)
  | shflLoL (f : LForm)
  | shflHiW (f : WForm)
  | shflHiL (f : LForm)
  | shflXorW (f : WForm)
  | shflXorL (f : LForm)
  | voteAnyW (f : WForm)
  | voteAnyL (f : LForm)
  | voteAllW (f : WForm)
  | voteAllL (f : LForm)
  | voteMaskW (f : WForm)
  | voteMaskL (f : LForm)
  | matchW (f : WForm)
  | matchL (f : LForm)
  | braW (f : WForm)
  | braL (f : LForm)
  | brzW (f : WForm)
  | brzL (f : LForm)
  | brnzW (f : WForm)
  | brnzL (f : LForm)
  | jmpiW (f : WForm)
  | jmpiL (f : LForm)
  | callW (f : WForm)
  | callL (f : LForm)
  | calliW (f : WForm)
  | calliL (f : LForm)
  | retW (f : WForm)
  | retL (f : LForm)
  | rcvW (f : WForm)
  | rcvL (f : LForm)
  | exitW (f : WForm)
  | exitL (f : LForm)
  | nopW (f : WForm)
  | nopL (f : LForm)
  | yldW (f : WForm)
  | yldL (f : LForm)
  | barArvW (f : WForm)
  | barArvL (f : LForm)
  | barWtW (f : WForm)
  | barWtL (f : LForm)
  | barMeetW (f : WForm)
  | barMeetL (f : LForm)
  | fbarW (f : WForm)
  | fbarL (f : LForm)
  | cbarArvW (f : WForm)
  | cbarArvL (f : LForm)
  | cbarWtW (f : WForm)
  | cbarWtL (f : LForm)
  | waitW (f : WForm)
  | waitL (f : LForm)
  | testW (f : WForm)
  | testL (f : LForm)
  | cnclW (f : WForm)
  | cnclL (f : LForm)
  | phaseW (f : WForm)
  | phaseL (f : LForm)
  | fenceW (f : WForm)
  | fenceL (f : LForm)
  | trap (f : LForm)
  | rteW (f : WForm)
  | rteL (f : LForm)
  | srd (f : LForm)
  | swr (f : LForm)
  | boostW (f : WForm)
  | boostL (f : LForm)
  | allocW (f : WForm)
  | allocL (f : LForm)
  | freeW (f : WForm)
  | freeL (f : LForm)
  | shdwW (f : WForm)
  | shdwL (f : LForm)
  | bkptW (f : WForm)
  | bkptL (f : LForm)
  | haltW (f : WForm)
  | haltL (f : LForm)
  | imad (f : LForm)
  | icmp (f : LForm)
  | bfx (f : LForm)
  | bfi (f : LForm)
  | prmb (f : LForm)
  | movh (f : LForm)
  | sel (f : LForm)
  | ffma (f : LForm)
  | fcmp (f : LForm)
  | lred (f : LForm)
  | lscan (f : LForm)
  | cvt (f : LForm)
  | pack (f : LForm)
  | unpk (f : LForm)
  | qnt (f : LForm)
  | dqn (f : LForm)
  | ld (f : LForm)
  | st (f : LForm)
  | lds (f : LForm)
  | sts (f : LForm)
  | ldx (f : LForm)
  | stx (f : LForm)
  | atom (f : LForm)
  | atoms (f : LForm)
  | pref (f : LForm)
  | enq (f : LForm)
  | deq (f : LForm)
  | podi (f : LForm)
  | podq (f : LForm)
  | cpy (f : LForm)
  | cpyx (f : LForm)
  | runs (f : LForm)
  | coll (f : LForm)
  | mld (f : LForm)
  | msw (f : LForm)
  | mxm (f : LForm)
  | mhad (f : LForm)
  | mz (f : LForm)
  | mrd (f : LForm)
  | mst (f : LForm)
  | mqry (f : LForm)
  | xmov (f : LForm)
  | xtil (f : LForm)
  | xgth (f : LForm)
  | xsct (f : LForm)
  | xred (f : LForm)
  | xfil (f : LForm)
  | xsig (f : LForm)
  | xwt (f : LForm)
  | xmxm (f : LForm)
  | xhs (f : LForm)
  | xend (f : LForm)
  /-- R370 -/
  | nopPacket (qr : QueueRef) (p : Packet)
  /-- R370 -/
  | launch (qr : QueueRef) (p : Packet)
  /-- R372 -/
  | chain (qr : QueueRef) (p : Packet)
  /-- R120 -/
  | inval (qr : QueueRef) (p : Packet)
  /-- R370 -/
  | signal (qr : QueueRef) (p : Packet)
  /-- R370 -/
  | waitv (qr : QueueRef) (p : Packet)
  /-- R441 -/
  | dbgOpen (fn : Nat) (c : DbgCmd)
  /-- R441 -/
  | dbgClose (fn : Nat) (c : DbgCmd)
  /-- R441 -/
  | debugHalt (fn : Nat) (c : DbgCmd)
  /-- R441 -/
  | dbgResume (fn : Nat) (c : DbgCmd)
  /-- R459 -/
  | dbgStep (fn : Nat) (c : DbgCmd)
  /-- R441 -/
  | dbgSetbp (fn : Nat) (c : DbgCmd)
  /-- R441 -/
  | dbgClrbp (fn : Nat) (c : DbgCmd)
  /-- R441 -/
  | dbgSetwp (fn : Nat) (c : DbgCmd)
  /-- R441 -/
  | dbgClrwp (fn : Nat) (c : DbgCmd)
  /-- R441 -/
  | dbgRdreg (fn : Nat) (c : DbgCmd)
  /-- R441 -/
  | dbgWrreg (fn : Nat) (c : DbgCmd)
  /-- R441 -/
  | dbgRdmem (fn : Nat) (c : DbgCmd)
  /-- R441 -/
  | dbgWrmem (fn : Nat) (c : DbgCmd)
  /-- R445 -/
  | dbgTrace (fn : Nat) (c : DbgCmd)
  /-- R386 -/
  | trapEntry (fib : Nat)
  /-- R315 -/
  | splitLoad (flt : Nat)
  /-- R341 -/
  | fairnessBurst (fib : Nat)
  /-- R342 -/
  | issueLimitSwitch (slot : Nat)
  /-- R198 -/
  | loadReply (flt : Nat) (rep : Option PeerReply)
  /-- R135 -/
  | atomComplete (flt : Nat) (rep : Option PeerReply)
  /-- R128 -/
  | sliceRead (flt : Nat) (line : Nat)
  /-- R130 -/
  | merge (core : Nat) (ent : Nat)
  /-- R135 -/
  | atomicEvent (flt : Nat) (line : Nat)
  /-- R139 -/
  | taddWake (flt : Nat) (lane : Nat)
  /-- R295 -/
  | phaseBoundary (core : Nat)
  /-- R295 -/
  | mergeAck (core : Nat) (ent : Nat) (fail : Option MergeFail)
  /-- R145 -/
  | podControlEvent (flt : Nat) (rep : Option PodReply)
  /-- R145 -/
  | enqcAdvance (flt : Nat)
  /-- R145 -/
  | deqcAdvance (flt : Nat)
  /-- R149 -/
  | podWake (flt : Nat)
  /-- R149 -/
  | waitTableRetry (flt : Nat)
  /-- R145 -/
  | podPublishTimeout (flt : Nat)
  /-- R154 -/
  | runnerDispatch (grp : Nat)
  /-- R161 -/
  | handleFull (cmd : Nat)
  /-- R163 -/
  | drainSettle (wg : Nat) (h : Nat)
  /-- R178 -/
  | collWaitEnd (cmd : Nat)
  /-- R172 -/
  | followOnCommand (cmd : Nat)
  /-- R273 -/
  | matrixQueueDepart (core : Nat) (cmd : Nat)
  /-- R274 -/
  | matrixCommandComplete (core : Nat) (cmd : Nat)
  /-- R157 -/
  | workgroupEnd (wg : Nat)
  /-- R377 -/
  | workgroupStart (lid : Nat) (core : Nat)
  /-- R381 -/
  | groupTake (fib : Nat)
  /-- R304 -/
  | checkpoint (wg : Nat)
  /-- R303 -/
  | redundantCompare (wg : Nat)
  /-- R303 -/
  | runnerSgcCompare (wg : Nat)
  /-- R305 -/
  | mismatchTimeout (wg : Nat)
  /-- R358 -/
  | watchdogExpiry (wg : Nat) (kind : Nat) (obj : Nat)
  /-- R368 -/
  | dbell (qr : QueueRef) (tail : Word)
  /-- R378 -/
  | launchComplete (lid : Nat)
  /-- R120 -/
  | invalComplete (id : Nat)
  /-- R370 -/
  | waitvRecheck (qr : QueueRef)
  /-- R395 -/
  | preempt (ctx : CtxKey)
  /-- R382 -/
  | quantumExpiry (ctx : CtxKey)
  /-- R396 -/
  | preemptPeerTimeout (flt : Nat)
  /-- R395 -/
  | contextHalted (ctx : CtxKey)
  /-- R399 -/
  | contextSave (ctx : CtxKey)
  /-- R400 -/
  | restore (ctx : CtxKey)
  /-- R395 -/
  | hostEndContext (ctx : CtxKey)
  /-- R332 -/
  | hostRead (fn : Nat) (dpa : Nat) (len : Nat)
  /-- R332 -/
  | hostWrite (fn : Nat) (dpa : Nat) (data : List Byte) (poisoned : Bool)
  /-- R137 -/
  | hostCompletion (flt : Nat) (line : Nat) (data : BitVec 512) (old : List Word) (st : LinkStatus)
  /-- R431 -/
  | completionTimeout (flt : Nat)
  /-- R431 -/
  | linkError (e : LinkErrorKind)
  /-- R311 -/
  | peerRequest (r : PeerReq)
  /-- R313 -/
  | flitRetransmit (peer : Nat) (seq : Nat)
  /-- R314 -/
  | relayForward (dst : Nat) (r : PeerReq)
  /-- R22 -/
  | laneFailure (port : Nat) (lane : Nat)
  /-- R22 -/
  | retrainComplete (port : Nat)
  /-- R28 -/
  | unitFailure (unit : Word)
  /-- R432 -/
  | fatalError (src : BitVec 16) (loc : Nat)
  /-- R101 -/
  | frameRetire (frame : Nat) (uncorrectable : Bool)
  /-- R117 -/
  | faultRecordPost (ctx : CtxKey)
  /-- R114 -/
  | faultReplay (ctx : CtxKey)
  /-- R118 -/
  | faultCancel (ctx : CtxKey)
  /-- R7 -/
  | registerWrite (fn : Nat) (off : Nat) (value : BitVec 64)
  /-- R430 -/
  | errorEntryFree (bank : Nat) (ent : Nat)
  /-- R430 -/
  | errorBankClr (bank : Nat)
  /-- R445 -/
  | traceStart (fn : Nat)
  /-- R445 -/
  | traceStop (fn : Nat)
  /-- R456 -/
  | haltReportPost (fn : Nat)
  /-- R439 -/
  | grantCapability (by_ : Nat) (c : Capability)
  /-- R439 -/
  | revocation (by_ : Nat) (capid : Word)
  /-- R439 -/
  | capabilityExpiry (capid : Word)
  /-- R308 -/
  | fabset (self : Nat) (map : List FabEntry)
  /-- R309 -/
  | fabpart (p : Nat) (ftid fmask : BitVec 16)
  /-- R309 -/
  | fabap (src : Nat) (ftid ctxid : BitVec 16) (target : CtxKey)
  /-- R364 -/
  | preset (p : Nat)
  /-- R363 -/
  | partitionAssign (r : AssignReq)
  /-- R406 -/
  | setTarget (fn : Nat) (hours : Nat)
  /-- R407 -/
  | setShare (p : Nat) (v : Nat)
  /-- R407 -/
  | setLbcap (p : Nat) (v : Word)
  /-- R411 -/
  | setPlim (watts : Nat)
  /-- R412 -/
  | setMaxlvl (p : Nat) (v : Nat)
  /-- R433 -/
  | encreate (slot : Nat) (fn : Nat) (regions : List Nat) (debugok : Bool)
  /-- R433 -/
  | encdestroy (slot : Nat)
  /-- R433 -/
  | enclaveBind (ctx : CtxKey) (slot : Nat)
  /-- R435 -/
  | encimport (slot : Nat) (fn : Nat) (src len dst : Nat)
  /-- R435 -/
  | encexport (slot : Nat) (fn : Nat) (src len dst : Nat) (key : List Byte)
  /-- R437 -/
  | attest (fn : Nat) (nonce : BitVec 384) (ctx : CtxKey)
  /-- R421 -/
  | configRecordWrite (r : ConfigRecord)
  /-- R448 -/
  | firmwareUpdate (img : Image)
  /-- R448 -/
  | managementRequest (r : MgmtReq)
  /-- R401 -/
  | stressSample (samples : List StressInput)
  /-- R407 -/
  | accrual
  /-- R404 -/
  | spareCallup (unit : Word)
  /-- R379 -/
  | remapChange (p : Nat) (l : Nat) (phys : BitVec 10)
  /-- R155 -/
  | runnerGroupMerge (die grp : Nat)
  /-- R414 -/
  | boostEnd (core : Nat)
  /-- R411 -/
  | powerWindow (watts : Nat)
  /-- R411 -/
  | boostResume
  /-- R411 -/
  | thermalLimit (die : Nat) (milliK : Nat)
  /-- R417 -/
  | wearck
  /-- R417 -/
  | logRecordWrite
  /-- R420 -/
  | deviceReset
  /-- R420 -/
  | recoveryImageLoad (img : Image)
  /-- R432 -/
  | functionLevelReset (fn : Nat)
  /-- R417 -/
  | orderlyShutdown
  /-- R417 -/
  | powerLoss
  /-- R181 -/
  | xwtWatchdogTimeout (rnr : Nat)
  /-- R411 -/
  | junctionBelowTjmax (die : Nat) (milliK : Nat)
  /-- R420 -/
  | configurationRequest (fn : Nat) (off : Nat)
  deriving DecidableEq, Repr

end Sys2Proof
end

