-- ==== Sys2Proof/Config.lean ====
section
/-!
DEFINITION. What the implementation fixes and the spec does not state: opaque functions without a body,
so that nothing can be proved of a value of theirs. Each is named in the assumption log.
-/
namespace Sys2Proof.Config

/-- The ticks that one step of the model takes beyond the first (R423; log entry 2). -/
opaque elapsed : Nat → Nat

/-- Which internal candidate moves when the input list is empty (log entry 3). -/
opaque choice : Nat → Nat

/-- Values of the security block's random generator (R48, R436; log entry 6). -/
opaque random : Nat → BitVec 64

/-- SHA-384 of a list of bytes, as 48 bytes (R415, R436; log entry 7). -/
opaque sha384 : List Byte → BitVec 384

/-- Whether the two signatures of a block verify over a payload (R418 to R421; log entry 7). -/
opaque verify : List Byte → List Byte → Bool

/-- The signature of the device's identity key over an attestation report (R437; log entry 7). -/
opaque sign : List Byte → List Byte

/-- AES-GCM as R435 uses it: whether an imported page authenticates, and its plain bytes (log entry 7). -/
opaque openPage : Nat → List Byte → Option (List Byte)

/-- A sealed page under a transport key, and that key wrapped (R435; log entry 7). -/
opaque sealPage : Nat → List Byte → List Byte

opaque wrapKey : Nat → List Byte → List Byte

/-- The exponential function of R401 as the device computes it (R408; log entry 8). -/
opaque exp : Rat → Rat

/-- Choices of the firmware that the spec leaves open: cores without a placement map, twins (log entry 3). -/
opaque place : Nat → Nat

/-- The bytes that one held entry takes in an overflow area (R302), of which the spec gives the size only (log entry 10). -/
opaque spillBytes : Nat

/-- The set of the snapshot cache in which a line is held (R190; log entry 1). -/
opaque snapSet : Nat → Nat

/-- Which line of a full set of the snapshot cache a fill with a line evicts, by step (R190; log entry 1). -/
opaque snapVictim : Nat → Nat → Nat

/-- Whether the link between two other devices of the fabric is up, by tick (R314; log entry 46). -/
opaque farLink : Nat → Nat → Nat → Bool

/-- How many more rows of an MXM have entered its tile when it is stopped, by command (R291; log entry 43). -/
opaque mxRows : Nat → Nat

/-- A byte of host memory as it stood before launches wrote it (R66; log entry 9). -/
opaque hostByte : Nat → Byte

/-- Which entry of a full TLB or walk cache a new one replaces (R110; log entry 49). -/
opaque tlbVictim : Nat → Nat

/-- The bytes of a save or of a checkpoint whose encoding the spec does not give, by save and place (R304, R399; log
entry 10). -/
opaque saveByte : Nat → Nat → Byte

/-- The syndrome that an error record carries (R429; log entry 13). -/
opaque syndrome : Nat → BitVec 64

/-- The tick offsets of a stage record (R445; log entry 14): to the last source read, to execution, to completion. -/
opaque stageTimes : Nat → BitVec 48

/-- The first 8 bytes of the digest of the device's identity keys (R437; log entry 7). -/
opaque deviceId : BitVec 64

/-- The PCI Express configuration space of a function, which the standard defines and the spec does not (R420; log entry
15). -/
opaque configSpace : Nat → Nat → BitVec 64

end Sys2Proof.Config
end

