-- ==== Sys2Proof/Machine/Legal.lean ====
section
/-!
DEFINITION. The form view of an instruction and the rules of step 2 of R88: which opcodes are
assigned (R79), which operations are L-only (R80), where the K bit is defined (R73, R81), and which
values each field of each operation may hold (R42, R43, R83, R85, R86, R87 and the encoding table of
each governing chapter). Fibres and runners share these rules; R82 is checked when the agent is known.
-/
namespace Sys2Proof.Machine

/-- Bits `hi` down to `lo` of a natural number (R9). -/
def bitsOf (x hi lo : Nat) : Nat := (x / 2 ^ lo) % 2 ^ (hi + 1 - lo)

/-- The 4-bit type codes of R42. -/
def Ty.i32 : BitVec 4 := 0#4
def Ty.i16 : BitVec 4 := 1#4
def Ty.i8 : BitVec 4 := 2#4
def Ty.n32 : BitVec 4 := 4#4
def Ty.n16 : BitVec 4 := 5#4
def Ty.n8 : BitVec 4 := 6#4
def Ty.se8 : BitVec 4 := 7#4
def Ty.f32 : BitVec 4 := 8#4
def Ty.h16 : BitVec 4 := 9#4
def Ty.b16 : BitVec 4 := 10#4
def Ty.e4 : BitVec 4 := 12#4
def Ty.e5 : BitVec 4 := 13#4
def Ty.f4 : BitVec 4 := 14#4
def Ty.q4 : BitVec 4 := 15#4

/-- The type `t` is one of the listed codes. -/
def tyIn (t : BitVec 4) (l : List Nat) : Bool := l.contains t.toNat

/-- The six integer types (R228). -/
def intTypes : List Nat := [0, 1, 2, 4, 5, 6]

/-- The three types of float arithmetic (R237). -/
def floatTypes : List Nat := [8, 9, 10]

/-- The types of CVT (R245). -/
def cvtTypes : List Nat := [0, 1, 2, 4, 5, 6, 8, 9, 10, 12, 13, 14]

/-- The types of a global or scratchpad access (R196). -/
def accessTypes : List Nat := [0, 1, 2, 4, 5, 6, 8, 9, 10, 12, 13]

/-- The element types of a copy: every type of R42 but .se8 (R168). -/
def elemTypes : List Nat := [0, 1, 2, 4, 5, 6, 8, 9, 10, 12, 13, 14, 15]

/-- The operations of R81, by opcode8. -/
def latching (op : Nat) : Bool :=
  op < 0x38 || (0x80 ≤ op && op ≤ 0x8A) || (0x90 ≤ op && op ≤ 0x94)

/-- The operations that exist in the L form only (R80). -/
def lOnly (op : Nat) : Bool :=
  (0x80 ≤ op && op ≤ 0xDA) || op == 0x0A || op == 0x60 || op == 0x62 || op == 0x63

/-- A rounding code of R43. -/
def roundingOk (m : BitVec 3) : Bool := m.toNat ≤ 4

/-- The fields `a`, `b`, `c`, `type`, `mode` and `imm16` of an L form are zero where asked. -/
def zeroFields (f : LForm) (d a b c ty mode imm : Bool) : Bool :=
  (!d || f.d == 0#6) && (!a || f.a == 0#7) && (!b || f.b == 0#7) && (!c || f.c == 0#7) &&
  (!ty || f.ty == 0#4) && (!mode || f.mode == 0#3) && (!imm || f.imm == 0#16)

/-- Integer arithmetic (R228): `sat` says whether the operation defines .sat. -/
def legalInt (f : LForm) (sat useB useC : Bool) : Bool :=
  tyIn f.ty intTypes && zeroFields f false false (!useB) (!useC) false true false &&
  (f.imm == 0#16 || (sat && f.imm == 1#16))

/-- Bitwise and shift instructions (R233). -/
def legalBits (f : LForm) (useB : Bool) : Bool :=
  tyIn f.ty [0, 4] && zeroFields f false false (!useB) true false true true

/-- Float instructions (R237) of one, two or three sources. -/
def legalFloat (f : LForm) (types : List Nat) (useB useC rounds : Bool) : Bool :=
  tyIn f.ty types && zeroFields f false false (!useB) (!useC) false false true &&
  (if rounds then roundingOk f.mode else f.mode == 0#3)

/-- LRED and LSCAN (R253): imm[2:0] is the op, imm[3] is .excl of LSCAN. -/
def legalReduce (f : LForm) (scan : Bool) : Bool :=
  let op := bitsOf f.imm.toNat 2 0
  zeroFields f false false true true false false false && f.imm.toNat < (if scan then 16 else 8) &&
  op ≤ 5 && (if op ≤ 2 then tyIn f.ty [0, 4, 8, 9, 10] else tyIn f.ty [0, 4]) &&
  (if op == 0 && tyIn f.ty floatTypes then roundingOk f.mode else f.mode == 0#3)

/-- The conversion class (R245): source type, .acc, headroom, .hi, position and .sat. -/
def Conv.S (f : LForm) : BitVec 4 := f.imm.extractLsb' 0 4
def Conv.acc (f : LForm) : Bool := f.imm.getLsbD 11
def Conv.h (f : LForm) : Nat := bitsOf f.imm.toNat 10 8
def Conv.hi (f : LForm) : Bool := f.imm.getLsbD 7
def Conv.q (f : LForm) : Nat := bitsOf f.imm.toNat 6 5
def Conv.sat (f : LForm) : Bool := f.imm.getLsbD 4

/-- The element types of 16 bits, of 8 bits and of 4 bits among the packed types (R245). -/
def packed16 : List Nat := [1, 5, 9, 10]
def packed8 : List Nat := [2, 6, 12, 13]
def packed4 : List Nat := [14, 15]

def legalCvt (f : LForm) : Bool :=
  tyIn (Conv.S f) cvtTypes && tyIn f.ty cvtTypes && roundingOk f.mode &&
  zeroFields f false false true true false false false && bitsOf f.imm.toNat 15 5 == 0

def legalPack (f : LForm) : Bool :=
  tyIn (Conv.S f) [0, 4, 8] && tyIn f.ty (packed16 ++ packed8 ++ packed4) && roundingOk f.mode &&
  bitsOf f.imm.toNat 15 8 == 0 &&
  (!Conv.hi f || tyIn f.ty packed8) && (Conv.q f == 0 || tyIn f.ty packed4) &&
  (f.c == 0#7 || !tyIn f.ty packed16)

def legalUnpk (f : LForm) : Bool :=
  tyIn (Conv.S f) (packed16 ++ packed8 ++ packed4) && tyIn f.ty [0, 4, 8] && roundingOk f.mode &&
  zeroFields f false false true true false false false && bitsOf f.imm.toNat 15 8 == 0 &&
  !Conv.sat f && (!Conv.hi f || tyIn (Conv.S f) packed4) &&
  (Conv.q f ≤ 1 || !tyIn (Conv.S f) packed16)

def legalQnt (f : LForm) : Bool :=
  tyIn (Conv.S f) [8, 9, 10, 15] && tyIn f.ty [2, 15, 12, 13, 14] && roundingOk f.mode &&
  bitsOf f.imm.toNat 15 11 == 0 && !Conv.sat f && (Conv.h f == 0 || f.ty == Ty.q4) &&
  (!Conv.hi f || tyIn (Conv.S f) packed4 || tyIn f.ty packed4) &&
  (f.b == 0#7 || Conv.S f == Ty.q4)

def legalDqn (f : LForm) : Bool :=
  f.ty == Ty.f32 && roundingOk f.mode && bitsOf f.imm.toNat 15 12 == 0 && Conv.h f == 0 &&
  !Conv.sat f &&
  (if Conv.acc f then Conv.S f == Ty.i32 && !Conv.hi f && Conv.q f == 0
   else tyIn (Conv.S f) [2, 15, 12, 13, 14] && f.c == 0#7 &&
     (!Conv.hi f || tyIn (Conv.S f) packed4))

/-- A handle operand of the L form (R85). -/
def legalHandle (f : LForm) : Bool :=
  f.imm.toNat < 128 && (if f.imm.getLsbD 6 then f.a == 0#7 else f.imm == 0#16)

/-- Fields of the memory class (R83): scope, cache policy, ordering, sub-operation. -/
def Mem.scope (f : LForm) : Nat := bitsOf f.imm.toNat 15 12
def Mem.cache (f : LForm) : Nat := bitsOf f.imm.toNat 11 10
def Mem.ord (f : LForm) : Nat := bitsOf f.imm.toNat 9 8
def Mem.sub (f : LForm) : Nat := bitsOf f.imm.toNat 7 4
def Mem.low (f : LForm) : Nat := bitsOf f.imm.toNat 3 0

/-- Size and type of a load or store (R194, R196). -/
def legalWidth (f : LForm) : Bool :=
  Mem.sub f ≤ 2 && Mem.low f == 0 && tyIn f.ty accessTypes && f.mode == 0#3 &&
  (Mem.sub f == 0 || tyIn f.ty [0, 4, 8])

/-- LD and LDX (R194, R200). -/
def legalLoad (f : LForm) : Bool :=
  legalWidth f && f.c == 0#7 && Mem.cache f ≤ 2 && Mem.ord f ≤ 1 && Mem.scope f ≤ 9 &&
  (Mem.ord f == 1 || Mem.scope f == 0)

/-- ST and STX (R194, R200). -/
def legalStore (f : LForm) : Bool :=
  legalWidth f && f.d == 0#6 && Mem.cache f == 0 && (Mem.ord f == 0 || Mem.ord f == 2) &&
  Mem.scope f ≤ 9 && (Mem.ord f == 2 || Mem.scope f == 0)

/-- ATOM and ATOMS (R132, R133, R134); `top` is the largest scope code. -/
def legalAtom (f : LForm) (top : Nat) : Bool :=
  let sub := Mem.sub f
  Mem.scope f ≤ top && Mem.cache f == 0 && Mem.low f == 0 && sub ≤ 0xC &&
  tyIn f.ty (if [3, 4, 5, 8, 9].contains sub then [0, 4] else [0, 4, 8]) &&
  (if (sub == 0 || sub == 0xC) && f.ty == Ty.f32 then roundingOk f.mode else f.mode == 0#3) &&
  (sub == 7 || sub == 0xC || f.c == 0#7) && (sub != 0xA || f.b == 0#7) &&
  (sub != 0xB || f.d == 0#6) &&
  !(sub == 0xA && Mem.ord f ≥ 2) && !(sub == 0xB && (Mem.ord f == 1 || Mem.ord f == 3))

/-- Fields shared by ENQ, DEQ, PODI and PODQ (R143). -/
def legalPod (f : LForm) : Bool :=
  3 ≤ Mem.scope f && Mem.scope f ≤ 9 && bitsOf f.imm.toNat 11 8 == 0 && Mem.low f == 0 &&
  f.ty == 0#4 && f.mode == 0#3

/-- The variant of ENQ and DEQ (R143): 0 blocking, 1 .nb, 2 .seq. -/
def Pod.variant (f : LForm) : Nat := bitsOf f.imm.toNat 7 6
def Pod.logW (f : LForm) : Nat := bitsOf f.imm.toNat 5 4

/-- Fields of the matrix class (R83, R277). -/
def Mx.T (f : LForm) : BitVec 4 := f.imm.extractLsb' 0 4
def Mx.had (f : LForm) : Nat := bitsOf f.imm.toNat 5 4
def Mx.kc (f : LForm) : Nat := bitsOf f.imm.toNat 10 8
def Mx.bank (f : LForm) : Nat := bitsOf f.imm.toNat 11 11
def Mx.tile (f : LForm) : Nat := bitsOf f.imm.toNat 15 12
def Mx.what (f : LForm) : Nat := bitsOf f.imm.toNat 7 4
def Mx.h (f : LForm) : Nat := bitsOf f.d.toNat 2 0

/-- The source and target types and modes of MLD, MXM and MHAD (R277, R278). -/
def legalQuantSource (f : LForm) (codes : List Nat) : Bool :=
  f.d.toNat < 8 && Mx.kc f ≤ 3 && bitsOf f.imm.toNat 7 6 == 0 &&
  (if tyIn f.ty floatTypes then
     f.mode.toNat ≤ 3 && tyIn (Mx.T f) [2, 15] && (Mx.h f == 0 || Mx.T f == Ty.q4)
   else tyIn f.ty codes && f.mode == 0#3 && Mx.T f == f.ty && Mx.h f == 0)

def legalMld (f : LForm) : Bool :=
  legalQuantSource f [2, 15] && Mx.tile f == 0 && (f.b == 0#7 || !tyIn f.ty floatTypes) &&
  !(Mx.kc f == 3 && Mx.T f == Ty.i8)

def legalMxm (f : LForm) : Bool :=
  legalQuantSource f [1, 2, 15] && (f.b == 0#7 || !tyIn f.ty floatTypes)

def legalMhad (f : LForm) : Bool :=
  legalQuantSource f [] && Mx.tile f == 0 && Mx.bank f == 0

/-- The type and rounding of MRD and MST (R277, R278). -/
def legalRead (f : LForm) : Bool :=
  (f.ty == Ty.f32 && f.mode.toNat ≤ 3) || (f.ty == Ty.i32 && f.mode == 0#3)

def legalMqry (f : LForm) : Bool :=
  zeroFields f false true true true true true false && Mx.what f ≤ 3 && Mx.kc f == 0 &&
  bitsOf f.imm.toNat 3 0 == 0 && (Mx.what f == 0 || Mx.tile f == 0) &&
  (Mx.what f == 1 || Mx.bank f == 0)

/-- XMOV (R174, R175). -/
def legalXmov (f : LForm) : Bool :=
  f.ty == 0#4 &&
  (match f.mode.toNat with
   | 0 => zeroFields f false false true true false false false
   | 1 => zeroFields f true false true false false false false
   | 2 => zeroFields f false false true true false false false
   | 3 => zeroFields f true false true false false false false
   | 4 | 5 | 6 => zeroFields f true false false false false false true
   | _ => false)

/-- What step 2 of R88 asks of the fields of an L instruction, K apart. -/
def legalFieldsL (op : Nat) (f : LForm) : Bool :=
  match op with
  | 0x00 | 0x01 | 0x02 | 0x04 => legalInt f true true false
  | 0x03 | 0x05 | 0x06 | 0x07 => legalInt f false true false
  | 0x08 | 0x09 => legalInt f true false false
  | 0x0A => tyIn f.ty [0, 4] && f.c == 0#7
  | 0x0B => zeroFields f false false true true true true true
  | 0x0C => zeroFields f false true true true true true false
  | 0x10 | 0x11 | 0x12 | 0x14 | 0x15 | 0x16 | 0x17 | 0x18 => legalBits f true
  | 0x13 | 0x19 | 0x1A | 0x1B => legalBits f false
  | 0x20 | 0x21 | 0x22 => legalFloat f floatTypes true false true
  | 0x23 | 0x24 => legalFloat f floatTypes true false false
  | 0x25 | 0x26 | 0x27 | 0x28 | 0x29 | 0x2A | 0x2B | 0x2C | 0x2D => legalFloat f floatTypes false false true
  | 0x2E => legalFloat f [8, 9, 10, 12, 13, 14] false false false
  | 0x30 | 0x31 | 0x32 | 0x33 => f.ty == 0#4 && f.mode == 0#3 && f.imm.toNat ≤ 4
  | 0x34 | 0x35 | 0x36 | 0x37 => zeroFields f false false true true true true true
  | 0x40 | 0x44 => zeroFields f true true false false true true false
  | 0x41 | 0x42 => zeroFields f true false false false true true false
  | 0x43 | 0x45 => zeroFields f true false true true true true true
  | 0x46 | 0x47 | 0x48 | 0x49 | 0x4A => zeroFields f true true true true true true true
  | 0x50 | 0x52 | 0x55 => zeroFields f true false false true true true true
  | 0x51 | 0x53 => zeroFields f true false true true true true true
  | 0x54 => zeroFields f true false false true true false true && f.mode.toNat ≤ 1
  | 0x56 | 0x58 => zeroFields f true false true true true true false && legalHandle f
  | 0x57 => zeroFields f false false true true true true false && legalHandle f
  | 0x59 => f.d.toNat ≤ 9 && zeroFields f false true true true true true true
  | 0x5A => f.d.toNat ≤ 9 && f.mode.toNat ≤ 2 && zeroFields f false true true true true false true
  | 0x60 => zeroFields f true true true true true true false && f.imm.toNat < 256
  | 0x61 | 0x68 | 0x69 => zeroFields f true true true true true true true
  | 0x62 => zeroFields f false true true true true true false && f.imm.toNat < 4096
  | 0x63 => zeroFields f true false true true true true false && f.imm.toNat < 4096
  | 0x64 => zeroFields f false false false true true true true
  | 0x65 => zeroFields f false false true true true true true
  | 0x66 | 0x67 => zeroFields f true false true true true true true
  | 0x80 => legalInt f true true true
  | 0x81 => tyIn f.ty intTypes && f.mode.toNat ≤ 5 && zeroFields f false false false true false false true
  | 0x82 => tyIn f.ty [0, 4] && zeroFields f false false false true false true true
  | 0x83 => tyIn f.ty [0, 4] && zeroFields f false false false false false true true
  | 0x84 | 0x86 => zeroFields f false false false false true true true
  | 0x85 => zeroFields f false false true true true true false
  | 0x87 => legalFloat f floatTypes true true true
  | 0x88 => tyIn f.ty floatTypes && zeroFields f false false false true false false true
  | 0x89 => legalReduce f false
  | 0x8A => legalReduce f true
  | 0x90 => legalCvt f
  | 0x91 => legalPack f
  | 0x92 => legalUnpk f
  | 0x93 => legalQnt f
  | 0x94 => legalDqn f
  | 0xA0 | 0xA4 => legalLoad f
  | 0xA1 | 0xA5 => legalStore f
  | 0xA2 => legalWidth f && f.c == 0#7 && bitsOf f.imm.toNat 15 8 == 0
  | 0xA3 => legalWidth f && f.d == 0#6 && bitsOf f.imm.toNat 15 8 == 0
  | 0xA6 => legalAtom f 9
  | 0xA7 => legalAtom f 3
  | 0xA8 => zeroFields f true false false true true true false && Mem.scope f == 0 && Mem.cache f ≤ 1 &&
      bitsOf f.imm.toNat 9 0 == 0
  | 0xA9 => legalPod f && Pod.variant f ≤ 2 && (Pod.variant f == 2 || f.c == 0#7)
  | 0xAA => legalPod f && Pod.variant f ≤ 2 && (Pod.variant f == 2 || f.c == 0#7) && f.b == 0#7
  | 0xAB => legalPod f && Mem.sub f ≤ 1 && f.c == 0#7 && (Mem.sub f == 0 || f.b == 0#7)
  | 0xAC => legalPod f && Mem.sub f ≤ 4 && f.c == 0#7 && f.b == 0#7
  | 0xB0 => tyIn f.ty elemTypes && zeroFields f false false true true false false false
  | 0xB1 => tyIn f.ty elemTypes && f.c == 0#7 && !f.mode.getLsbD 0
  | 0xB2 => zeroFields f false false false true true true true
  | 0xB3 => zeroFields f false false true true false false false && f.mode.toNat ≤ 3 &&
      tyIn f.ty (if f.mode.toNat == 1 || f.mode.toNat == 2 then [0, 4, 8] else accessTypes)
  | 0xC0 => legalMld f
  | 0xC1 => zeroFields f true true true true true true true
  | 0xC2 => legalMxm f
  | 0xC3 => legalMhad f
  | 0xC4 => zeroFields f true false true true true true false && bitsOf f.imm.toNat 11 0 == 0
  | 0xC5 => legalRead f && bitsOf f.imm.toNat 11 0 == 0 &&
      (f.ty == Ty.f32 || (f.b == 66#7 && f.c == 66#7))
  | 0xC6 => legalRead f && f.d == 0#6 && bitsOf f.imm.toNat 11 8 == 0 && bitsOf f.imm.toNat 6 0 == 0
  | 0xC7 => legalMqry f
  | 0xD0 => legalXmov f
  | 0xD1 => tyIn f.ty elemTypes && zeroFields f true false true true false false false && f.mode.toNat ≤ 3
  | 0xD2 | 0xD3 => tyIn f.ty elemTypes && f.d == 0#6 && f.mode.toNat ≤ 1
  | 0xD4 => tyIn f.ty [0, 4, 8] && zeroFields f true false false false false false true && f.mode.toNat ≤ 3
  | 0xD5 => zeroFields f true false false false true false true && f.mode.toNat ≤ 1
  | 0xD6 => zeroFields f true false false true true false true && f.mode.toNat ≤ 1
  | 0xD7 => zeroFields f false false false true true true true
  | 0xD8 => zeroFields f true false false true true true true
  | 0xD9 => f.ty == 0#4 && f.imm == 0#16 &&
      (match f.mode.toNat with
       | 0 => zeroFields f false true true true false false false
       | 1 => zeroFields f true false true true false false false
       | _ => false)
  | 0xDA => zeroFields f true true true true true true true
  | _ => false

/-- A legal L instruction: its fields, and K only on a latching operation (R73). -/
def legalL (op : Nat) (f : LForm) : Bool := legalFieldsL op f && (!f.k || latching op)

/-- The default type of a W instruction (R75). -/
def defaultType (op : Nat) : BitVec 4 := if 0x20 ≤ op ∧ op ≤ 0x2F then Ty.f32 else Ty.i32

/-- The L instruction whose effect a W instruction has (R75): SHFL is the only operation with a W form
that reads c as a source. -/
def expandW (op : Nat) (f : WForm) : LForm :=
  { y := f.y, k := f.k, d := f.d, a := f.a, b := f.b,
    c := if 0x30 ≤ op ∧ op ≤ 0x33 then 66#7 else 0#7,
    ty := defaultType op, mode := 0#3, imm := 0#16 }

/-- The W operations that lay out their bits in their own way (R75, R83, R84). -/
def ownLayoutW (op : Nat) : Bool := [0x0C, 0x40, 0x41, 0x42, 0x44].contains op

/-- A legal W instruction. -/
def legalW (op : Nat) (f : WForm) : Bool :=
  !lOnly op && (!f.k || latching op) && (ownLayoutW op || legalFieldsL op (expandW op f))

/-- A legal C instruction: NOP and EXIT reserve d and s5 (R68). -/
def legalC (op : Nat) (f : CForm) : Bool := op < 14 || (f.s == 0#5 && f.d == 0#6)

/-- An instruction seen as an operation and its form. -/
inductive View where
  | c (op : Nat) (f : CForm)
  | w (op : Nat) (f : WForm)
  | l (op : Nat) (f : LForm)
  | event
  deriving DecidableEq, Repr

/-- The opcode map of R68 and R79, read from an instruction. -/
def viewOf (i : Instr) : View :=
  match i with
  | .movC f => .c 0x00 f
  | .moviC f => .c 0x01 f
  | .iaddC f => .c 0x02 f
  | .iaddi f => .c 0x03 f
  | .isubC f => .c 0x04 f
  | .andC f => .c 0x05 f
  | .orC f => .c 0x06 f
  | .xorC f => .c 0x07 f
  | .shli f => .c 0x08 f
  | .shri f => .c 0x09 f
  | .faddC f => .c 0x0A f
  | .fsubC f => .c 0x0B f
  | .fmulC f => .c 0x0C f
  | .braC f => .c 0x0D f
  | .nopC f => .c 0x0E f
  | .exitC f => .c 0x0F f
  | .iaddW f => .w 0x00 f
  | .iaddL f => .l 0x00 f
  | .isubW f => .w 0x01 f
  | .isubL f => .l 0x01 f
  | .imulW f => .w 0x02 f
  | .imulL f => .l 0x02 f
  | .imulhW f => .w 0x03 f
  | .imulhL f => .l 0x03 f
  | .idivW f => .w 0x04 f
  | .idivL f => .l 0x04 f
  | .iremW f => .w 0x05 f
  | .iremL f => .l 0x05 f
  | .iminW f => .w 0x06 f
  | .iminL f => .l 0x06 f
  | .imaxW f => .w 0x07 f
  | .imaxL f => .l 0x07 f
  | .iabsW f => .w 0x08 f
  | .iabsL f => .l 0x08 f
  | .inegW f => .w 0x09 f
  | .inegL f => .l 0x09 f
  | .lea f => .l 0x0A f
  | .movW f => .w 0x0B f
  | .movL f => .l 0x0B f
  | .moviW f => .w 0x0C f
  | .moviL f => .l 0x0C f
  | .andW f => .w 0x10 f
  | .andL f => .l 0x10 f
  | .orW f => .w 0x11 f
  | .orL f => .l 0x11 f
  | .xorW f => .w 0x12 f
  | .xorL f => .l 0x12 f
  | .notW f => .w 0x13 f
  | .notL f => .l 0x13 f
  | .andnW f => .w 0x14 f
  | .andnL f => .l 0x14 f
  | .shlW f => .w 0x15 f
  | .shlL f => .l 0x15 f
  | .shrW f => .w 0x16 f
  | .shrL f => .l 0x16 f
  | .sarW f => .w 0x17 f
  | .sarL f => .l 0x17 f
  | .rotW f => .w 0x18 f
  | .rotL f => .l 0x18 f
  | .popcW f => .w 0x19 f
  | .popcL f => .l 0x19 f
  | .clzW f => .w 0x1A f
  | .clzL f => .l 0x1A f
  | .brevW f => .w 0x1B f
  | .brevL f => .l 0x1B f
  | .faddW f => .w 0x20 f
  | .faddL f => .l 0x20 f
  | .fsubW f => .w 0x21 f
  | .fsubL f => .l 0x21 f
  | .fmulW f => .w 0x22 f
  | .fmulL f => .l 0x22 f
  | .fminW f => .w 0x23 f
  | .fminL f => .l 0x23 f
  | .fmaxW f => .w 0x24 f
  | .fmaxL f => .l 0x24 f
  | .frcpW f => .w 0x25 f
  | .frcpL f => .l 0x25 f
  | .frsqW f => .w 0x26 f
  | .frsqL f => .l 0x26 f
  | .fsqrtW f => .w 0x27 f
  | .fsqrtL f => .l 0x27 f
  | .fexp2W f => .w 0x28 f
  | .fexp2L f => .l 0x28 f
  | .flog2W f => .w 0x29 f
  | .flog2L f => .l 0x29 f
  | .fsinW f => .w 0x2A f
  | .fsinL f => .l 0x2A f
  | .fcosW f => .w 0x2B f
  | .fcosL f => .l 0x2B f
  | .ftanhW f => .w 0x2C f
  | .ftanhL f => .l 0x2C f
  | .frndW f => .w 0x2D f
  | .frndL f => .l 0x2D f
  | .fclassW f => .w 0x2E f
  | .fclassL f => .l 0x2E f
  | .shflSelW f => .w 0x30 f
  | .shflSelL f => .l 0x30 f
  | .shflLoW f => .w 0x31 f
  | .shflLoL f => .l 0x31 f
  | .shflHiW f => .w 0x32 f
  | .shflHiL f => .l 0x32 f
  | .shflXorW f => .w 0x33 f
  | .shflXorL f => .l 0x33 f
  | .voteAnyW f => .w 0x34 f
  | .voteAnyL f => .l 0x34 f
  | .voteAllW f => .w 0x35 f
  | .voteAllL f => .l 0x35 f
  | .voteMaskW f => .w 0x36 f
  | .voteMaskL f => .l 0x36 f
  | .matchW f => .w 0x37 f
  | .matchL f => .l 0x37 f
  | .braW f => .w 0x40 f
  | .braL f => .l 0x40 f
  | .brzW f => .w 0x41 f
  | .brzL f => .l 0x41 f
  | .brnzW f => .w 0x42 f
  | .brnzL f => .l 0x42 f
  | .jmpiW f => .w 0x43 f
  | .jmpiL f => .l 0x43 f
  | .callW f => .w 0x44 f
  | .callL f => .l 0x44 f
  | .calliW f => .w 0x45 f
  | .calliL f => .l 0x45 f
  | .retW f => .w 0x46 f
  | .retL f => .l 0x46 f
  | .rcvW f => .w 0x47 f
  | .rcvL f => .l 0x47 f
  | .exitW f => .w 0x48 f
  | .exitL f => .l 0x48 f
  | .nopW f => .w 0x49 f
  | .nopL f => .l 0x49 f
  | .yldW f => .w 0x4A f
  | .yldL f => .l 0x4A f
  | .barArvW f => .w 0x50 f
  | .barArvL f => .l 0x50 f
  | .barWtW f => .w 0x51 f
  | .barWtL f => .l 0x51 f
  | .barMeetW f => .w 0x52 f
  | .barMeetL f => .l 0x52 f
  | .fbarW f => .w 0x53 f
  | .fbarL f => .l 0x53 f
  | .cbarArvW f => .w 0x54 f
  | .cbarArvL f => .l 0x54 f
  | .cbarWtW f => .w 0x55 f
  | .cbarWtL f => .l 0x55 f
  | .waitW f => .w 0x56 f
  | .waitL f => .l 0x56 f
  | .testW f => .w 0x57 f
  | .testL f => .l 0x57 f
  | .cnclW f => .w 0x58 f
  | .cnclL f => .l 0x58 f
  | .phaseW f => .w 0x59 f
  | .phaseL f => .l 0x59 f
  | .fenceW f => .w 0x5A f
  | .fenceL f => .l 0x5A f
  | .trap f => .l 0x60 f
  | .rteW f => .w 0x61 f
  | .rteL f => .l 0x61 f
  | .srd f => .l 0x62 f
  | .swr f => .l 0x63 f
  | .boostW f => .w 0x64 f
  | .boostL f => .l 0x64 f
  | .allocW f => .w 0x65 f
  | .allocL f => .l 0x65 f
  | .freeW f => .w 0x66 f
  | .freeL f => .l 0x66 f
  | .shdwW f => .w 0x67 f
  | .shdwL f => .l 0x67 f
  | .bkptW f => .w 0x68 f
  | .bkptL f => .l 0x68 f
  | .haltW f => .w 0x69 f
  | .haltL f => .l 0x69 f
  | .imad f => .l 0x80 f
  | .icmp f => .l 0x81 f
  | .bfx f => .l 0x82 f
  | .bfi f => .l 0x83 f
  | .prmb f => .l 0x84 f
  | .movh f => .l 0x85 f
  | .sel f => .l 0x86 f
  | .ffma f => .l 0x87 f
  | .fcmp f => .l 0x88 f
  | .lred f => .l 0x89 f
  | .lscan f => .l 0x8A f
  | .cvt f => .l 0x90 f
  | .pack f => .l 0x91 f
  | .unpk f => .l 0x92 f
  | .qnt f => .l 0x93 f
  | .dqn f => .l 0x94 f
  | .ld f => .l 0xA0 f
  | .st f => .l 0xA1 f
  | .lds f => .l 0xA2 f
  | .sts f => .l 0xA3 f
  | .ldx f => .l 0xA4 f
  | .stx f => .l 0xA5 f
  | .atom f => .l 0xA6 f
  | .atoms f => .l 0xA7 f
  | .pref f => .l 0xA8 f
  | .enq f => .l 0xA9 f
  | .deq f => .l 0xAA f
  | .podi f => .l 0xAB f
  | .podq f => .l 0xAC f
  | .cpy f => .l 0xB0 f
  | .cpyx f => .l 0xB1 f
  | .runs f => .l 0xB2 f
  | .coll f => .l 0xB3 f
  | .mld f => .l 0xC0 f
  | .msw f => .l 0xC1 f
  | .mxm f => .l 0xC2 f
  | .mhad f => .l 0xC3 f
  | .mz f => .l 0xC4 f
  | .mrd f => .l 0xC5 f
  | .mst f => .l 0xC6 f
  | .mqry f => .l 0xC7 f
  | .xmov f => .l 0xD0 f
  | .xtil f => .l 0xD1 f
  | .xgth f => .l 0xD2 f
  | .xsct f => .l 0xD3 f
  | .xred f => .l 0xD4 f
  | .xfil f => .l 0xD5 f
  | .xsig f => .l 0xD6 f
  | .xwt f => .l 0xD7 f
  | .xmxm f => .l 0xD8 f
  | .xhs f => .l 0xD9 f
  | .xend f => .l 0xDA f
  | .trapEntry _ => .event
  | .splitLoad _ => .event
  | .fairnessBurst _ => .event
  | .issueLimitSwitch _ => .event
  | .loadReply _ _ => .event
  | .atomComplete _ _ => .event
  | .sliceRead _ _ => .event
  | .merge _ _ => .event
  | .atomicEvent _ _ => .event
  | .taddWake _ _ => .event
  | .phaseBoundary _ => .event
  | .mergeAck _ _ _ => .event
  | .podControlEvent _ _ => .event
  | .enqcAdvance _ => .event
  | .deqcAdvance _ => .event
  | .podWake _ => .event
  | .waitTableRetry _ => .event
  | .podPublishTimeout _ => .event
  | .runnerDispatch _ => .event
  | .handleFull _ => .event
  | .drainSettle _ _ => .event
  | .collWaitEnd _ => .event
  | .followOnCommand _ => .event
  | .matrixQueueDepart _ _ => .event
  | .matrixCommandComplete _ _ => .event
  | .workgroupEnd _ => .event
  | .workgroupStart _ _ => .event
  | .groupTake _ => .event
  | .checkpoint _ => .event
  | .redundantCompare _ => .event
  | .runnerSgcCompare _ => .event
  | .mismatchTimeout _ => .event
  | .watchdogExpiry _ _ _ => .event
  | .dbell _ _ => .event
  | .nopPacket _ _ => .event
  | .launch _ _ => .event
  | .launchComplete _ => .event
  | .chain _ _ => .event
  | .inval _ _ => .event
  | .invalComplete _ => .event
  | .signal _ _ => .event
  | .waitv _ _ => .event
  | .waitvRecheck _ => .event
  | .preempt _ => .event
  | .quantumExpiry _ => .event
  | .preemptPeerTimeout _ => .event
  | .contextHalted _ => .event
  | .contextSave _ => .event
  | .restore _ => .event
  | .hostEndContext _ => .event
  | .hostRead _ _ _ => .event
  | .hostWrite _ _ _ _ => .event
  | .hostCompletion _ _ _ _ _ => .event
  | .completionTimeout _ => .event
  | .linkError _ => .event
  | .peerRequest _ => .event
  | .flitRetransmit _ _ => .event
  | .relayForward _ _ => .event
  | .laneFailure _ _ => .event
  | .retrainComplete _ => .event
  | .unitFailure _ => .event
  | .fatalError _ _ => .event
  | .frameRetire _ _ => .event
  | .faultRecordPost _ => .event
  | .faultReplay _ => .event
  | .faultCancel _ => .event
  | .registerWrite _ _ _ => .event
  | .errorEntryFree _ _ => .event
  | .errorBankClr _ => .event
  | .dbgOpen _ _ => .event
  | .dbgClose _ _ => .event
  | .debugHalt _ _ => .event
  | .dbgResume _ _ => .event
  | .dbgStep _ _ => .event
  | .dbgSetbp _ _ => .event
  | .dbgClrbp _ _ => .event
  | .dbgSetwp _ _ => .event
  | .dbgClrwp _ _ => .event
  | .dbgRdreg _ _ => .event
  | .dbgWrreg _ _ => .event
  | .dbgRdmem _ _ => .event
  | .dbgWrmem _ _ => .event
  | .dbgTrace _ _ => .event
  | .traceStart _ => .event
  | .traceStop _ => .event
  | .haltReportPost _ => .event
  | .grantCapability _ _ => .event
  | .revocation _ _ => .event
  | .capabilityExpiry _ => .event
  | .fabset _ _ => .event
  | .fabpart _ _ _ => .event
  | .fabap _ _ _ _ => .event
  | .preset _ => .event
  | .partitionAssign _ => .event
  | .setTarget _ _ => .event
  | .setShare _ _ => .event
  | .setLbcap _ _ => .event
  | .setPlim _ => .event
  | .setMaxlvl _ _ => .event
  | .encreate _ _ _ _ => .event
  | .encdestroy _ => .event
  | .enclaveBind _ _ => .event
  | .encimport _ _ _ _ _ => .event
  | .encexport _ _ _ _ _ _ => .event
  | .attest _ _ _ => .event
  | .configRecordWrite _ => .event
  | .firmwareUpdate _ => .event
  | .managementRequest _ => .event
  | .stressSample _ => .event
  | .accrual => .event
  | .spareCallup _ => .event
  | .remapChange _ _ _ => .event
  | .runnerGroupMerge _ _ => .event
  | .boostEnd _ => .event
  | .powerWindow _ => .event
  | .boostResume => .event
  | .thermalLimit _ _ => .event
  | .wearck => .event
  | .logRecordWrite => .event
  | .deviceReset => .event
  | .recoveryImageLoad _ => .event
  | .functionLevelReset _ => .event
  | .orderlyShutdown => .event
  | .powerLoss => .event
  | .xwtWatchdogTimeout _ => .event
  | .junctionBelowTjmax _ _ => .event
  | .configurationRequest _ _ => .event
end Sys2Proof.Machine
end

