-- ==== Sys2Proof/WellFormed.lean ====
section
/-!
DEFINITION. A well-formed instruction passes step 2 of R88, R82 apart. An event carries data of its own
types and is always well formed; what its data must satisfy is checked where the event happens.
-/
namespace Sys2Proof

open Machine

/-- The check of R88 step 2 on the fields of an instruction. -/
def Instr.wellFormed (i : Instr) : Bool :=
  match viewOf i with
  | .c op f => legalC op f
  | .w op f => legalW op f
  | .l op f => legalL op f
  | .event => true

end Sys2Proof
end

