-- ==== Sys2Proof/Decode.lean ====
section
/-!
DEFINITION. Decoding and encoding (R64, R67, R70, R71, R72, R79). `decode` is total on any bytes and
refuses by name; `encode` is written from the same layouts. Packets (R369) and debug commands (R440) are
decoded from their own records here too.
-/
namespace Sys2Proof

open Machine

/-- Why bytes are no instruction. Each is the illegal-instruction check of R88 step 2, except
`truncated`, which says that fewer bytes than the instruction needs were given. -/
inductive DecodeError where
  | truncated
  | unassigned (op : Nat)
  | unassignedPage (page : Nat)
  | lOnlyOperation (op : Nat)
  | illegalFields (op : Nat)
  deriving DecidableEq, Repr

/-- The C operations of R68. -/
def ofC (op : Nat) (f : CForm) : Option Instr :=
  match op with
  | 0x00 => some (.movC f)
  | 0x01 => some (.moviC f)
  | 0x02 => some (.iaddC f)
  | 0x03 => some (.iaddi f)
  | 0x04 => some (.isubC f)
  | 0x05 => some (.andC f)
  | 0x06 => some (.orC f)
  | 0x07 => some (.xorC f)
  | 0x08 => some (.shli f)
  | 0x09 => some (.shri f)
  | 0x0A => some (.faddC f)
  | 0x0B => some (.fsubC f)
  | 0x0C => some (.fmulC f)
  | 0x0D => some (.braC f)
  | 0x0E => some (.nopC f)
  | 0x0F => some (.exitC f)
  | _ => none

/-- The operations of R79 that have a W form. -/
def ofW (op : Nat) (f : WForm) : Option Instr :=
  match op with
  | 0x00 => some (.iaddW f)
  | 0x01 => some (.isubW f)
  | 0x02 => some (.imulW f)
  | 0x03 => some (.imulhW f)
  | 0x04 => some (.idivW f)
  | 0x05 => some (.iremW f)
  | 0x06 => some (.iminW f)
  | 0x07 => some (.imaxW f)
  | 0x08 => some (.iabsW f)
  | 0x09 => some (.inegW f)
  | 0x0B => some (.movW f)
  | 0x0C => some (.moviW f)
  | 0x10 => some (.andW f)
  | 0x11 => some (.orW f)
  | 0x12 => some (.xorW f)
  | 0x13 => some (.notW f)
  | 0x14 => some (.andnW f)
  | 0x15 => some (.shlW f)
  | 0x16 => some (.shrW f)
  | 0x17 => some (.sarW f)
  | 0x18 => some (.rotW f)
  | 0x19 => some (.popcW f)
  | 0x1A => some (.clzW f)
  | 0x1B => some (.brevW f)
  | 0x20 => some (.faddW f)
  | 0x21 => some (.fsubW f)
  | 0x22 => some (.fmulW f)
  | 0x23 => some (.fminW f)
  | 0x24 => some (.fmaxW f)
  | 0x25 => some (.frcpW f)
  | 0x26 => some (.frsqW f)
  | 0x27 => some (.fsqrtW f)
  | 0x28 => some (.fexp2W f)
  | 0x29 => some (.flog2W f)
  | 0x2A => some (.fsinW f)
  | 0x2B => some (.fcosW f)
  | 0x2C => some (.ftanhW f)
  | 0x2D => some (.frndW f)
  | 0x2E => some (.fclassW f)
  | 0x30 => some (.shflSelW f)
  | 0x31 => some (.shflLoW f)
  | 0x32 => some (.shflHiW f)
  | 0x33 => some (.shflXorW f)
  | 0x34 => some (.voteAnyW f)
  | 0x35 => some (.voteAllW f)
  | 0x36 => some (.voteMaskW f)
  | 0x37 => some (.matchW f)
  | 0x40 => some (.braW f)
  | 0x41 => some (.brzW f)
  | 0x42 => some (.brnzW f)
  | 0x43 => some (.jmpiW f)
  | 0x44 => some (.callW f)
  | 0x45 => some (.calliW f)
  | 0x46 => some (.retW f)
  | 0x47 => some (.rcvW f)
  | 0x48 => some (.exitW f)
  | 0x49 => some (.nopW f)
  | 0x4A => some (.yldW f)
  | 0x50 => some (.barArvW f)
  | 0x51 => some (.barWtW f)
  | 0x52 => some (.barMeetW f)
  | 0x53 => some (.fbarW f)
  | 0x54 => some (.cbarArvW f)
  | 0x55 => some (.cbarWtW f)
  | 0x56 => some (.waitW f)
  | 0x57 => some (.testW f)
  | 0x58 => some (.cnclW f)
  | 0x59 => some (.phaseW f)
  | 0x5A => some (.fenceW f)
  | 0x61 => some (.rteW f)
  | 0x64 => some (.boostW f)
  | 0x65 => some (.allocW f)
  | 0x66 => some (.freeW f)
  | 0x67 => some (.shdwW f)
  | 0x68 => some (.bkptW f)
  | 0x69 => some (.haltW f)
  | _ => none

/-- The operations of R79 in their L form. -/
def ofL (op : Nat) (f : LForm) : Option Instr :=
  match op with
  | 0x00 => some (.iaddL f)
  | 0x01 => some (.isubL f)
  | 0x02 => some (.imulL f)
  | 0x03 => some (.imulhL f)
  | 0x04 => some (.idivL f)
  | 0x05 => some (.iremL f)
  | 0x06 => some (.iminL f)
  | 0x07 => some (.imaxL f)
  | 0x08 => some (.iabsL f)
  | 0x09 => some (.inegL f)
  | 0x0A => some (.lea f)
  | 0x0B => some (.movL f)
  | 0x0C => some (.moviL f)
  | 0x10 => some (.andL f)
  | 0x11 => some (.orL f)
  | 0x12 => some (.xorL f)
  | 0x13 => some (.notL f)
  | 0x14 => some (.andnL f)
  | 0x15 => some (.shlL f)
  | 0x16 => some (.shrL f)
  | 0x17 => some (.sarL f)
  | 0x18 => some (.rotL f)
  | 0x19 => some (.popcL f)
  | 0x1A => some (.clzL f)
  | 0x1B => some (.brevL f)
  | 0x20 => some (.faddL f)
  | 0x21 => some (.fsubL f)
  | 0x22 => some (.fmulL f)
  | 0x23 => some (.fminL f)
  | 0x24 => some (.fmaxL f)
  | 0x25 => some (.frcpL f)
  | 0x26 => some (.frsqL f)
  | 0x27 => some (.fsqrtL f)
  | 0x28 => some (.fexp2L f)
  | 0x29 => some (.flog2L f)
  | 0x2A => some (.fsinL f)
  | 0x2B => some (.fcosL f)
  | 0x2C => some (.ftanhL f)
  | 0x2D => some (.frndL f)
  | 0x2E => some (.fclassL f)
  | 0x30 => some (.shflSelL f)
  | 0x31 => some (.shflLoL f)
  | 0x32 => some (.shflHiL f)
  | 0x33 => some (.shflXorL f)
  | 0x34 => some (.voteAnyL f)
  | 0x35 => some (.voteAllL f)
  | 0x36 => some (.voteMaskL f)
  | 0x37 => some (.matchL f)
  | 0x40 => some (.braL f)
  | 0x41 => some (.brzL f)
  | 0x42 => some (.brnzL f)
  | 0x43 => some (.jmpiL f)
  | 0x44 => some (.callL f)
  | 0x45 => some (.calliL f)
  | 0x46 => some (.retL f)
  | 0x47 => some (.rcvL f)
  | 0x48 => some (.exitL f)
  | 0x49 => some (.nopL f)
  | 0x4A => some (.yldL f)
  | 0x50 => some (.barArvL f)
  | 0x51 => some (.barWtL f)
  | 0x52 => some (.barMeetL f)
  | 0x53 => some (.fbarL f)
  | 0x54 => some (.cbarArvL f)
  | 0x55 => some (.cbarWtL f)
  | 0x56 => some (.waitL f)
  | 0x57 => some (.testL f)
  | 0x58 => some (.cnclL f)
  | 0x59 => some (.phaseL f)
  | 0x5A => some (.fenceL f)
  | 0x60 => some (.trap f)
  | 0x61 => some (.rteL f)
  | 0x62 => some (.srd f)
  | 0x63 => some (.swr f)
  | 0x64 => some (.boostL f)
  | 0x65 => some (.allocL f)
  | 0x66 => some (.freeL f)
  | 0x67 => some (.shdwL f)
  | 0x68 => some (.bkptL f)
  | 0x69 => some (.haltL f)
  | 0x80 => some (.imad f)
  | 0x81 => some (.icmp f)
  | 0x82 => some (.bfx f)
  | 0x83 => some (.bfi f)
  | 0x84 => some (.prmb f)
  | 0x85 => some (.movh f)
  | 0x86 => some (.sel f)
  | 0x87 => some (.ffma f)
  | 0x88 => some (.fcmp f)
  | 0x89 => some (.lred f)
  | 0x8A => some (.lscan f)
  | 0x90 => some (.cvt f)
  | 0x91 => some (.pack f)
  | 0x92 => some (.unpk f)
  | 0x93 => some (.qnt f)
  | 0x94 => some (.dqn f)
  | 0xA0 => some (.ld f)
  | 0xA1 => some (.st f)
  | 0xA2 => some (.lds f)
  | 0xA3 => some (.sts f)
  | 0xA4 => some (.ldx f)
  | 0xA5 => some (.stx f)
  | 0xA6 => some (.atom f)
  | 0xA7 => some (.atoms f)
  | 0xA8 => some (.pref f)
  | 0xA9 => some (.enq f)
  | 0xAA => some (.deq f)
  | 0xAB => some (.podi f)
  | 0xAC => some (.podq f)
  | 0xB0 => some (.cpy f)
  | 0xB1 => some (.cpyx f)
  | 0xB2 => some (.runs f)
  | 0xB3 => some (.coll f)
  | 0xC0 => some (.mld f)
  | 0xC1 => some (.msw f)
  | 0xC2 => some (.mxm f)
  | 0xC3 => some (.mhad f)
  | 0xC4 => some (.mz f)
  | 0xC5 => some (.mrd f)
  | 0xC6 => some (.mst f)
  | 0xC7 => some (.mqry f)
  | 0xD0 => some (.xmov f)
  | 0xD1 => some (.xtil f)
  | 0xD2 => some (.xgth f)
  | 0xD3 => some (.xsct f)
  | 0xD4 => some (.xred f)
  | 0xD5 => some (.xfil f)
  | 0xD6 => some (.xsig f)
  | 0xD7 => some (.xwt f)
  | 0xD8 => some (.xmxm f)
  | 0xD9 => some (.xhs f)
  | 0xDA => some (.xend f)
  | _ => none

/-- The fields of a C halfword (R67). -/
def fieldsC (w : BitVec 16) : CForm := { s := w.extractLsb' 11 5, d := w.extractLsb' 5 6 }

/-- The fields of a W word (R70). -/
def fieldsW (w : BitVec 32) : WForm :=
  { y := w.getLsbD 3, k := w.getLsbD 2, d := w.extractLsb' 12 6, a := w.extractLsb' 18 7,
    b := w.extractLsb' 25 7 }

/-- The fields of an L doubleword (R71). -/
def fieldsL (w : BitVec 64) : LForm :=
  { y := w.getLsbD 3, k := w.getLsbD 2, d := w.extractLsb' 14 6, a := w.extractLsb' 20 7,
    b := w.extractLsb' 27 7, c := w.extractLsb' 34 7, ty := w.extractLsb' 41 4,
    mode := w.extractLsb' 45 3, imm := w.extractLsb' 48 16 }

/-- Decode a C halfword. -/
def decodeC (w : BitVec 16) : Except DecodeError Instr :=
  let op := (w.extractLsb' 1 4).toNat
  match ofC op (fieldsC w) with
  | none => .error (.unassigned op)
  | some i => if legalC op (fieldsC w) then .ok i else .error (.illegalFields op)

/-- Decode a W word (R79, R80). -/
def decodeW (w : BitVec 32) : Except DecodeError Instr :=
  let op := (w.extractLsb' 4 8).toNat
  if lOnly op then .error (.lOnlyOperation op)
  else match ofW op (fieldsW w) with
    | none => .error (.unassigned op)
    | some i => if legalW op (fieldsW w) then .ok i else .error (.illegalFields op)

/-- Decode an L doubleword (R72, R79). -/
def decodeL (w : BitVec 64) : Except DecodeError Instr :=
  let op := (w.extractLsb' 4 8).toNat
  let page := (w.extractLsb' 12 2).toNat
  if page != 0 then .error (.unassignedPage page)
  else match ofL op (fieldsL w) with
    | none => .error (.unassigned op)
    | some i => if legalL op (fieldsL w) then .ok i else .error (.illegalFields op)

/-- The little-endian value of bytes (R4, R64). -/
def leValue : List Byte → Nat
  | [] => 0
  | b :: r => b.toNat + 256 * leValue r

/-- The `n` little-endian bytes of a value (R4). -/
def leBytes (x : Nat) : Nat → List Byte
  | 0 => []
  | n + 1 => BitVec.ofNat 8 x :: leBytes (x / 256) n

/-- The length in bytes of the instruction whose first byte is `b` (R64). -/
def lengthOf (b : Byte) : Nat :=
  if b.getLsbD 0 then (if b.getLsbD 1 then 8 else 4) else 2

/-- Decode the instruction at the head of the bytes; the length it takes comes with it. -/
def decode (bs : List Byte) : Except DecodeError (Instr × Nat) :=
  match bs with
  | [] => .error .truncated
  | b :: _ =>
    let n := lengthOf b
    if bs.length < n then .error .truncated
    else
      let v := leValue (bs.take n)
      let r := if n == 2 then decodeC (BitVec.ofNat 16 v)
        else if n == 4 then decodeW (BitVec.ofNat 32 v) else decodeL (BitVec.ofNat 64 v)
      match r with
      | .ok i => .ok (i, n)
      | .error e => .error e

/-- One bit as a bit vector. -/
def bit1 (b : Bool) : BitVec 1 := BitVec.ofBool b

/-- The halfword of a C operation (R67). -/
def wordC (op : Nat) (f : CForm) : BitVec 16 := f.s ++ f.d ++ BitVec.ofNat 4 op ++ 0#1

/-- The word of a W operation (R70). -/
def wordW (op : Nat) (f : WForm) : BitVec 32 :=
  f.b ++ f.a ++ f.d ++ BitVec.ofNat 8 op ++ bit1 f.y ++ bit1 f.k ++ 1#2

/-- The doubleword of an L operation of page 0 (R71, R72). -/
def wordL (op : Nat) (f : LForm) : BitVec 64 :=
  f.imm ++ f.mode ++ f.ty ++ f.c ++ f.b ++ f.a ++ f.d ++ 0#2 ++ BitVec.ofNat 8 op ++
    bit1 f.y ++ bit1 f.k ++ 3#2

/-- The length in bytes and the value of an instruction; an event has none. -/
def encode (i : Instr) : Option (Nat × Nat) :=
  match viewOf i with
  | .c op f => some (2, (wordC op f).toNat)
  | .w op f => some (4, (wordW op f).toNat)
  | .l op f => some (8, (wordL op f).toNat)
  | .event => none

/-- The bytes of an instruction as they stand in memory (R64). -/
def encodeBytes (i : Instr) : Option (List Byte) :=
  match encode i with
  | none => none
  | some (n, v) => some (leBytes v n)

/-- What the decoder reads from an instruction whose bits are `w`, every bit above `nbits` zero. -/
def decodeTableWord (nbits w : Nat) : Option Instr :=
  match decode (leBytes (w % 2 ^ nbits) 8) with
  | .ok (i, _) => some i
  | .error _ => none

/-- The fields of a packet (R369). -/
def decodePacket (w : BitVec 128) : Packet :=
  { ptr := w.extractLsb' 64 64, arg := w.extractLsb' 32 32, rsvdHi := w.extractLsb' 13 19,
    obj := w.getLsbD 12, alla := w.getLsbD 11, ind := w.getLsbD 10, irq := w.getLsbD 9,
    bar := w.getLsbD 8, rsvdLo := w.extractLsb' 4 4, ty := w.extractLsb' 0 4 }

/-- The bits of a packet (R369). -/
def encodePacket (p : Packet) : BitVec 128 :=
  p.ptr ++ p.arg ++ p.rsvdHi ++ bit1 p.obj ++ bit1 p.alla ++ bit1 p.ind ++ bit1 p.irq ++
    bit1 p.bar ++ p.rsvdLo ++ p.ty

/-- The fields of a debug command (R440). -/
def decodeDbg (w : BitVec 256) : DbgCmd :=
  { op := w.extractLsb' 0 8, sub := w.extractLsb' 8 4, ctxid := w.extractLsb' 32 16,
    tag := w.extractLsb' 48 16, scope := w.extractLsb' 64 2, fib := w.extractLsb' 78 2,
    slot := w.extractLsb' 80 4, sched := w.extractLsb' 84 2, core := w.extractLsb' 86 10,
    lanes := w.extractLsb' 96 32, arg0 := w.extractLsb' 128 64, arg1 := w.extractLsb' 192 64 }

/-- The bits of a debug command (R440), its reserved bits zero. -/
def encodeDbg (c : DbgCmd) : BitVec 256 :=
  c.arg1 ++ c.arg0 ++ c.lanes ++ c.core ++ c.sched ++ c.slot ++ c.fib ++ 0#12 ++ c.scope ++
    c.tag ++ c.ctxid ++ 0#20 ++ c.sub ++ c.op

/-- The packet event of a fetched packet (R370): types 6 to 15 are no packet. -/
def packetEvent (q : QueueRef) (p : Packet) : Option Instr :=
  match p.ty.toNat with
  | 0 => some (.nopPacket q p)
  | 1 => some (.launch q p)
  | 2 => some (.chain q p)
  | 3 => some (.inval q p)
  | 4 => some (.signal q p)
  | 5 => some (.waitv q p)
  | _ => none

/-- The event of a debug command (R441): an unlisted OP is no command. -/
def dbgEvent (fn : Nat) (c : DbgCmd) : Option Instr :=
  match c.op.toNat with
  | 0x01 => some (.dbgOpen fn c)
  | 0x02 => some (.dbgClose fn c)
  | 0x10 => some (.debugHalt fn c)
  | 0x11 => some (.dbgResume fn c)
  | 0x12 => some (.dbgStep fn c)
  | 0x20 => some (.dbgSetbp fn c)
  | 0x21 => some (.dbgClrbp fn c)
  | 0x22 => some (.dbgSetwp fn c)
  | 0x23 => some (.dbgClrwp fn c)
  | 0x30 => some (.dbgRdreg fn c)
  | 0x31 => some (.dbgWrreg fn c)
  | 0x32 => some (.dbgRdmem fn c)
  | 0x33 => some (.dbgWrmem fn c)
  | 0x40 => some (.dbgTrace fn c)
  | _ => none

end Sys2Proof
end

