-- ==== Sys2Proof/Machine/State.lean ====
section
/-!
DEFINITION. The state of the machine, as plain data. Names follow the spec's; each structure cites the
rules that give it. The machine's own bookkeeping (counters, the input list, the agent being issued) is
marked as the model's.
-/
namespace Sys2Proof.Machine

/-- A table by number, in the order in which its entries were added. -/
abbrev Tbl (α : Type) := List (Nat × α)

/-- Bytes by address, strictly rising, with no zero byte listed: an unlisted byte reads 0 (log entry 4). -/
abbrev Bytes := List Host.Cell

/-! ### Registers, threads and fibres -/

/-- A vector register or latch (R206, R223): the data, the shadow tags, and for each lane whose check bits
do not belong to its data the bits in which it is wrong: of the 32 data bits those in which the data differs from the word
the check bits were made of, and above them the wrong ones of the 7 check bits. -/
structure Reg where
  val : LaneVec
  tag : LaneMask
  flips : Tbl (BitVec 39)
  deriving DecidableEq, Repr

/-- A latch (R212). -/
structure Latch where
  reg : Reg
  valid : Bool
  deriving DecidableEq, Repr

/-- What a thread in state 1 or 2 waits for (R345). -/
inductive Wait where
  | none
  | bar (x : Nat)
  | fbar (m : Nat)
  | cbar (x : Nat) (g : BitVec 16)
  | rcv
  | rte
  | late (flt : Nat)
  | park (target : Addr)
  deriving DecidableEq, Repr

/-- A thread (R338, R347, R352, R46, R336). `stack` holds the on-chip entries, top first; `wlen` is the
length of the instruction at which it waits. -/
structure Thread where
  st : BitVec 4
  pc : Addr
  depth : Nat
  stack : List Addr
  token : Option (Nat × BitVec 16)
  rstate : BitVec 64
  tid : Nat
  crd0 : Nat
  wait : Wait
  wlen : Nat
  since : Nat
  record : Option Nat
  deriving DecidableEq, Repr

/-- A trap as R386 takes it. -/
structure Trap where
  code : BitVec 8
  cause : BitVec 8
  addr : Addr
  fm : LaneMask
  num : BitVec 8
  deriving DecidableEq, Repr

/-- A fault of R112 met by one access, with what its record carries (R116). -/
structure AccFault where
  kind : Nat
  va : Addr
  acc : Nat
  obj : Nat
  lane : Nat
  replayable : Bool
  deriving DecidableEq, Repr

/-- Handler mode (R388): the code of the trap being served, the index of its frame (R386, R397), the waits from which the
threads were withdrawn at entry (R386), which RTE lets them enter again (R391), and the threads that had exited before. -/
structure Handler where
  code : BitVec 8
  frame : Nat
  waits : List (Wait × Nat)
  gone : LaneMask
  deriving DecidableEq, Repr

/-- A fairness burst (R341). -/
structure Burst where
  set : LaneMask
  left : Nat
  deriving DecidableEq, Repr

/-- What keeps a fibre from issuing although its threads are ready or in a fibre wait (R345, R274, R322,
R200, R304). `flight`, `cmd` and `boundary` name the work; the fibre goes on when it ends. -/
inductive Hold where
  | none
  | handle (h len : Nat) (m : LaneMask)
  | flight (flt : Nat)
  | alloc
  | boundary (id : Nat)
  | matrix (cmd : Nat)
  | checkpoint (k len : Nat) (m : LaneMask) (scope : Nat) (flt : Option Nat)
  | compare (k : Nat)
  deriving DecidableEq, Repr

/-- A fence obligation (R323, R200): what must end before the next memory instruction, one acquire load when
`flt` names it, and whether the core refreshes before it. -/
structure FenceOb where
  rel : Bool
  acq : Bool
  scope : Nat
  refresh : Bool
  flt : Option Nat
  deriving DecidableEq, Repr

/-- An open split of a fibre (R315): the load and the late set. -/
structure Split where
  flt : Nat
  late : LaneMask
  deriving DecidableEq, Repr

/-- Where a translated line lies (R104, R107): device memory with its key slot, host memory, or a peer. -/
inductive Place where
  | dev (dpa : Nat) (key : Nat)
  | sys (addr : Nat)
  | peer (p : Nat) (off : Nat)
  deriving DecidableEq, Repr

/-- The sources of an instruction that waits and begins again, as its first issue read them (R214), with the global
tick that it read. -/
structure Kept where
  pc : Addr
  mask : LaneMask
  src : List LaneVec
  tick : BitVec 64
  deriving DecidableEq, Repr

/-- A fibre. `yield` says that a Y mark lets its slot pass on while it is held (R74); `kept` are the sources of
instructions that wait and begin again; `got` are lines of host memory or of a peer that its instruction has read. -/
structure Fibre where
  slot : Nat
  idx : Nat
  wg : Nat
  regs : List Reg
  l0 : Latch
  l1 : Latch
  fpst : BitVec 32
  energy : BitVec 64
  threads : List Thread
  crd : List Nat
  lastSet : LaneMask
  ft : Nat
  rv : Addr
  burst : Option Burst
  splits : List Split
  shadow : Nat
  hold : Hold
  heldSince : Nat
  frozen : List AccFault
  fences : List FenceOb
  relMark : Option Nat
  seenRel : List (Nat × RelRec)
  handler : Option Handler
  trap : Option Trap
  halted : Option Nat
  skipBp : Bool
  yield : Bool
  haltReq : Bool
  stepping : Option (BitVec 16)
  stores : Word
  phases : Nat
  kept : List Kept
  got : List (Place × BitVec 512)
  deriving DecidableEq, Repr

/-- A slot (R208, R342, R170). -/
structure Slot where
  wg : Nat
  ord : Nat
  cur : Nat
  nfib : Nat
  shared : List Reg
  consec : Nat
  copies : Nat
  lastIssue : Nat
  deriving DecidableEq, Repr

/-! ### Workgroups -/

/-- A workgroup barrier (R352). -/
structure Barrier where
  gen : BitVec 16
  arr : Nat
  req : Nat
  deriving DecidableEq, Repr

/-- A counted barrier (R164). -/
structure CBar where
  gen : BitVec 16
  count : BitVec 16
  target : BitVec 16
  deriving DecidableEq, Repr

/-- The state of a handle (R160). -/
inductive HSt where
  | free | filling | full | draining | error
  deriving DecidableEq, Repr

/-- A buffer handle (R160, R163): the command in progress or the runner that opened it. -/
structure Handle where
  st : HSt
  cause : BitVec 8
  cmd : Option Nat
  owner : Option Nat
  deriving DecidableEq, Repr

/-- An accumulator tile (R263, R270): its elements that are not zero, by 64 * row + column. -/
structure Tile where
  elems : Tbl Word
  word : BitVec 32
  deriving DecidableEq, Repr

/-- A macro bank (R263, R271): codes by byte place, scales by byte place, and its state word. -/
structure Bank where
  codes : Bytes
  scales : Bytes
  word : BitVec 32
  deriving DecidableEq, Repr

/-- An open collective copy (R170, R171): its number, its handle (none when none was free), the slots
that have joined and the commands still to land. -/
structure Collective where
  k : Nat
  handle : Option Nat
  joined : List Nat
  pending : List Nat
  follow : Option (Nat × BitVec 64 × Word × Word × Word)
  cancelled : Bool
  deriving DecidableEq, Repr

/-- A performed-once operation or runner command of redundant mode, with the reply given (R303, R305). -/
structure ReplayEntry where
  fib : Nat
  ops : List Nat
  reply : List Word
  deriving DecidableEq, Repr

/-- The context page (R385) as it was read at placement. `remote` says that the handler's header lies in host memory or at a
peer, and is read when a trap is taken. -/
structure CtxPage where
  hdlr : Addr
  tfa : Addr
  savea : Addr
  savesz : Nat
  magic : Bool
  usable : Bool
  remote : Bool
  deriving DecidableEq, Repr

/-! ### Work in flight -/

/-- One line of a load or atomic in flight: its place, the bytes that the core's own stores supply (R192
rule 1), and the line's data once read. -/
structure LineReq where
  va : Addr
  place : Place
  ownMask : BitVec 64
  own : BitVec 512
  data : Option (BitVec 512)
  deriving DecidableEq, Repr

/-- One lane of a memory instruction in flight with its operands; `rs` is the rounding state from which its draw was taken. -/
structure LaneReq where
  lane : Nat
  va : Addr
  place : Place
  x : Word
  y : Word
  u : Nat
  ret : Option Word
  rs : Option (BitVec 64) := none
  deriving DecidableEq, Repr

/-- The stage of an operation in flight: of a redundant workgroup, waiting for the comparator or for the twin
that performs it (R303); of a pod operation, its place at its control slice (R145). -/
inductive PodStage where
  | compare
  | mirror
  | request
  | waiting
  | reserved (base : Nat)
  deriving DecidableEq, Repr

/-- The kinds of work in flight: a load, an atomic, a ticketed add in memory or in the scratchpad, a pod operation, the
unbuffered write of an ST.rel, the fetch of a line of host memory, the read of lines elsewhere that a control instruction or a
trap makes, and a runner's reads of lines elsewhere and its writes (R65, R135, R139, R145, R156, R179, R198, R200). -/
inductive FKind where
  | load (w : Nat) (ty : BitVec 4) (policy : Nat) (acq : Bool)
  | atom (sub : Nat) (ty : BitVec 4) (mode : Nat)
  | tadd (ty : BitVec 4) (mode : Nat)
  | tadds (ty : BitVec 4) (mode : Nat)
  | enq (variant logW : Nat) (ticket : Word) (elems : List (List Word))
  | deq (variant logW : Nat) (ticket : Word)
  | podInit (config : Word)
  | podClose
  | podQuery (what : Nat)
  | relStore
  | fetch
  | device
  | gather
  | putLines
  deriving DecidableEq, Repr

/-- A memory instruction in flight. `dst` lists the registers it will write, as places: private register i
as i and shared register i as 64 + i. `scope` and `ord` are its release and acquire modifiers; `done` are
lanes of a split load already written; `flags` gathers float flags until completion. A flight of a runner or
of its command names the command in `cmd`, and its `fib` names no fibre. `rels` are the release records that
the lanes of a peer's operation have met (R326), `blocked` the tick since when it waits for another agent (R149). -/
structure Flight where
  kind : FKind
  fib : Nat
  cmd : Option Nat
  ctx : CtxKey
  core : Nat
  pc : Addr
  len : Nat
  mask : LaneMask
  dst : List Nat
  scope : Nat
  ord : Nat
  lanes : List LaneReq
  lines : List LineReq
  stage : PodStage
  done : LaneMask
  flags : BitVec 5
  since : Nat
  retry : Nat
  split : Bool
  fault : Option AccFault
  waiters : Nat
  rels : List (Nat × RelRec) := []
  blocked : Option Nat := none
  deriving DecidableEq, Repr

/-- An entry of a store path (R293): its sequence number is its key in the table. `fibs` are the fibres whose
stores it holds and `lids` their launches (R66), `rel` names the ST.rel in
flight whose unbuffered write the entry carries (R200). -/
structure PathEntry where
  va : Addr
  place : Place
  ctx : CtxKey
  wg : Option Nat
  mask : BitVec 64
  data : BitVec 512
  fibs : List Nat
  marked : Bool
  performed : Bool
  acked : Bool
  spilled : Bool
  rel : Option Nat
  lids : List Nat := []
  deriving DecidableEq, Repr

/-- A boundary in progress or asked for (R295) and what waits for it: a fibre's PHASE or capacity stall, an
ST.rel in flight, a pre-emption of a context, or a launch whose workgroup has ended. -/
structure Boundary where
  id : Nat
  fib : Option Nat
  len : Nat
  mask : LaneMask
  flt : Option Nat
  scope : Nat
  ctx : Option CtxKey
  lid : Option Nat
  started : Bool
  deriving DecidableEq, Repr

/-- A copy descriptor (R166). -/
structure CopyDesc where
  org : List Nat
  tex : List Nat
  spoff : Nat
  pitch : Nat
  scoff : Nat
  deriving DecidableEq, Repr

/-- A tensor object entry (R123). -/
structure ObjEntry where
  base : Addr
  ext : List Nat
  str : List Nat
  scale : Addr
  owner : BitVec 16
  mx : Bool
  wr : Bool
  rd : Bool
  ndim : Nat
  fmt : BitVec 4
  index : Nat
  deriving DecidableEq, Repr

/-- A matrix command with the values its sources read (R172, R273): the fields of its L form, the values
of a, b and c in every lane, and the lanes that read or write registers. Of a follow-on command `handle` is its
handle and `cmd` its copy. `swap` is the mapping of the banks at its acceptance (R281), `seen` the bytes that its
check pass read (R275), `pages` the lines that it stores to, `rows` its progress (R291). -/
structure MxCmd where
  op : Nat
  f : LForm
  a : LaneVec
  a2 : LaneVec
  b : LaneVec
  c : LaneVec
  mask : LaneMask
  wg : Nat
  fib : Option Nat
  cmd : Option Nat
  handle : Option Nat
  swap : Bool
  departed : Bool
  rows : Nat
  pages : List Place
  seen : List Byte
  deriving DecidableEq, Repr

/-- The kinds of command that a runner group serves (R168). -/
inductive CmdKind where
  | copy (desc : CopyDesc) (obj : ObjEntry) (ty : BitVec 4) (st pad : Bool)
    (follow : Option (BitVec 64 × Word × Word × Word)) (coll : Option Nat)
  | program (entry : Addr) (p : Nat) (args : LaneVec)
  | coll (op : Nat) (ty : BitVec 4) (n rank count expect : Nat) (grp : Addr) (obj : ObjEntry)
  deriving DecidableEq, Repr

/-- Where a command stands. -/
inductive CmdStage where
  | queued
  | running (runner : Nat)
  | landed
  | waiting
  | accepted
  | frozen (f : AccFault)
  deriving DecidableEq, Repr

/-- A command of a runner group (R154): its group, workgroup, context, handle and progress (R182), the runner that has
served it and the tick in which it ended. -/
structure Cmd where
  kind : CmdKind
  stage : CmdStage
  grp : Nat
  wg : Nat
  handle : Nat
  sent : Nat
  cancelled : Bool
  sgc : Option (BitVec 64)
  held : List (Addr × Byte)
  served : Nat := 0
  landedAt : Nat := 0
  deriving DecidableEq, Repr

/-- A runner (R158). -/
structure Runner where
  grp : Nat
  wg : Nat
  cmd : Nat
  regs : List Word
  pc : Addr
  opened : List Nat
  lines : List Nat
  xwt : Option (Nat × BitVec 16)
  since : Nat
  frozen : List AccFault
  deriving DecidableEq, Repr

/-- A runner group (R154, R155). -/
structure Group where
  active : List Nat
  servedBy : Nat
  deriving DecidableEq, Repr

/-! ### Launches, queues, contexts, functions -/

/-- A kernel header (R96). -/
structure Header where
  entry : Addr
  priv : Nat
  shared : Nat
  nfib : Nat
  scratch : Nat
  roles : List Nat
  codesz : Nat
  kind : Nat
  trapent : Option Nat
  nlev : Nat
  lvl : List (BitVec 8)
  shdw : Bool
  rdnc : Bool
  detc : Bool
  deriving DecidableEq, Repr

/-- A launch record (R374) beside the fields that the header repeats. -/
structure Record where
  addr : Addr
  stksz : Nat
  g : Nat
  x : List Nat
  fairlim : Nat
  wdt : Nat
  cbars : Nat
  banks : Nat
  tiles : Nat
  pool : Bool
  shoff : Bool
  rdn : Bool
  det : Bool
  auxa : Addr
  pmapa : Addr
  cpla : Addr
  wda : Addr
  stkbase : Addr
  seed : BitVec 64
  fbase : Nat
  ccnt : Nat
  deriving DecidableEq, Repr

/-- A parked or initial continuation record waiting in a bin (R381). -/
structure Parked where
  idx : Nat
  pc : Addr
  since : Nat
  bin : Nat
  deriving DecidableEq, Repr

/-- An accepted launch (R374 to R381). `remap` is the core table in force at its acceptance (R379), `ahead` holds the workgroups
started out of order, `units` the logical cluster or die of each bound unit that has started. `code` is
device memory at its acceptance, from which it fetches (R66), and `codeSys` the lines of host memory that it
has fetched; `sysWrote` are the bytes of host memory that it has written, and `sysHidden` those of any launch that it may not
see as code. -/
structure Launch where
  ctx : CtxKey
  qr : QueueRef
  pkt : Nat
  part : Nat
  lr : Record
  hdr : Header
  lseq : Nat
  total : Nat
  next : Nat
  ahead : List Nat
  ended : Nat
  units : Tbl Nat
  map : List Nat
  remap : List Nat
  parked : List Parked
  live : Nat
  xl : List (BitVec 32)
  code : Bytes
  codeSys : Tbl (BitVec 512)
  sysWrote : List Nat := []
  sysHidden : List Nat := []
  deriving DecidableEq, Repr

/-- Redundant-mode state of a workgroup (R300 to R306); `endedAt` is the tick in which its last fibre exited. -/
structure Redundant where
  primary : Bool
  twin : Nat
  sg : BitVec 64
  ck : Nat
  mismatch : Nat
  rerun : Nat
  log : List ReplayEntry
  reads : List (Nat × BitVec 64)
  endedAt : Nat := 0
  deriving DecidableEq, Repr

/-- What a workgroup holds of its core under numbers of the core (R184, R264, R300): the offset of its scratchpad, its tiles,
banks and counted barriers. -/
structure CoreGrant where
  spad : Nat
  tiles : List Nat
  banks : List Nat
  cbars : List Nat
  deriving DecidableEq, Repr

/-- A resident workgroup. -/
structure Workgroup where
  lid : Nat
  ctx : CtxKey
  w : Nat
  core : Nat
  lcore : Nat
  slots : List Nat
  scratch : Nat
  spad : Bytes
  spadPoison : List Nat
  spadRel : Tbl RelRec
  bars : List Barrier
  cbars : List CBar
  handles : List Handle
  tiles : List Tile
  banks : List Bank
  swap : Bool
  colls : List Collective
  ending : Bool
  red : Option Redundant
  held : CoreGrant := { spad := 0, tiles := [], banks := [], cbars := [] }
  spadWeak : Tbl (BitVec 39) := []
  deriving DecidableEq, Repr

/-- Everything saved of one workgroup (R399), kept as data (log entry 10). -/
structure SavedWg where
  id : Nat
  wg : Workgroup
  slots : Tbl Slot
  fibs : Tbl Fibre
  flights : Tbl Flight
  runners : Tbl Runner
  cmds : Tbl Cmd
  mq : Tbl MxCmd
  deriving DecidableEq, Repr

/-- The last checkpoint of a redundant workgroup (R304): saved state by workgroup. -/
abbrev Checkpoints := Tbl SavedWg

/-- A boost in force on a core (R412, R414). `byPower` says that the power limit has suspended it (R411). -/
structure Boost where
  ctx : CtxKey
  part : Nat
  level : Nat
  dur : Nat
  start : Nat
  cost : Nat
  susp : Option Nat
  suspended : Nat
  order : Nat
  byPower : Bool
  deriving DecidableEq, Repr

/-- An ALLOC request waiting in a scheduler (R218): its fibre, the count it asks for, its destination. -/
structure AllocReq where
  fib : Nat
  n : Nat
  d : Nat
  mask : LaneMask
  len : Nat
  deriving DecidableEq, Repr

/-- A core: snapshot cache (R190), store path (R293), boundaries (R295), matrix queue (R273), free
registers and ALLOC queues of its four schedulers (R206, R218), boost (R412). -/
structure Core where
  snap : Tbl (BitVec 512)
  path : Tbl PathEntry
  bounds : List Boundary
  mq : Tbl MxCmd
  regFree : List Nat
  allocs : List (List AllocReq)
  boost : Option Boost
  bprice : BitVec 32
  deriving DecidableEq, Repr

/-- A breakpoint or watchpoint of a context (R443). -/
structure BreakPt where
  n : Nat
  va : Addr
  len : Nat
  access : Nat
  lanes : LaneMask
  deriving DecidableEq, Repr

/-- The residency of a context (R395 to R400): resident since a tick, being stopped for pre-emption, halted, or saved;
`refused` is RSTAT 1. -/
inductive Residency where
  | idle
  | resident (since : Nat)
  | stopping (since : Nat)
  | halted (tick : Nat)
  | saved (tick : Nat) (refused : Bool)
  deriving DecidableEq, Repr

/-- A context (R118, R299, R328, R385, R395, R433, R441, R443, R445). `xl` holds the registers as written,
`force` those in force, both in ascending register number, sr.fqctl apart; `entry` is its entry of the
context table as the device last read it. -/
structure Ctx where
  xlroot : BitVec 32
  xlctl : BitVec 32
  objtab : BitVec 32
  objcnt : BitVec 32
  fqbase : BitVec 32
  fqhead : BitVec 12
  fqtail : BitVec 12
  fqlogn : BitVec 4
  force : List (BitVec 32)
  entry : BitVec 512
  wbst : BitVec 32
  scopemiss : BitVec 32
  encl : BitVec 32
  page : Option CtxPage
  res : Residency
  saved : List SavedWg
  breaks : List BreakPt
  watches : List BreakPt
  deriving DecidableEq, Repr

/-- The structures that hold translations (R110): a core's instruction and data TLB, a cluster's, a runner group's, and
the walk cache of a compute die. -/
inductive TlbLoc where
  | inst (core : Nat)
  | data (core : Nat)
  | cluster (n : Nat)
  | group (g : Nat)
  | walk (die : Nat)
  deriving DecidableEq, Repr

/-- A translation that one of them holds, tagged with its function and ASID (R110): the leaf of a page, or in a walk
cache the table that serves the addresses from `vbase` on. -/
structure TlbEntry where
  loc : TlbLoc
  fn : Nat
  asid : BitVec 12
  vbase : Nat
  size : Nat
  pa : Nat
  entry : BitVec 64
  deriving DecidableEq, Repr

/-- A packet that has begun and not completed (R371), or a CHAIN and its block position (R372); a SIGNAL names the
flight of its write, if one is under way. -/
inductive PktKind where
  | launch (lid : Nat)
  | chain (block : Addr) (count next : Nat)
  | inval (id : Nat)
  | waitv (va : Addr) (arg : Word)
  | signal (flt : Option Nat)
  deriving DecidableEq, Repr

/-- `head` is the count of packets fetched when it, or the ring's CHAIN that holds it, was fetched (R370, R372). -/
structure Pkt where
  id : Nat
  kind : PktKind
  irq : Bool
  depth : Nat
  parent : Option Nat
  head : Nat := 0
  deriving DecidableEq, Repr

/-- The device's own progress on a queue (R367 to R372), and the group count that its LAUNCH at the head has latched (R373). -/
structure Queue where
  pkts : List Pkt
  latch : Option Nat := none
  deriving DecidableEq, Repr

/-- An invalidation in progress (R120): what it names and the work it waits for. -/
structure Inval where
  qr : QueueRef
  pkt : Nat
  flights : List Nat
  entries : List (Nat × Nat)
  cmds : List Nat
  mx : List (Nat × Nat) := []
  deriving DecidableEq, Repr

/-- An armed trace (R445, R446): its start and stop conditions, target, rate, the ticks in which the conditions became
true, the issues counted in each fibre, and the records written and dropped. -/
structure Trace where
  start : BitVec 64
  stop : BitVec 64
  ctx : CtxKey
  scope : Nat
  fib : Nat
  rate : Nat
  began : Option Nat
  ended : Option Nat
  counts : Tbl Nat
  out : Nat
  drop : Nat
  deriving DecidableEq, Repr

/-- A function (R362, R363, R366, R455). -/
structure Fn where
  part : Nat
  base : Nat
  gb : Nat
  qtab : BitVec 64
  ctxtab : BitVec 64
  dbgcmd : BitVec 64
  dbghlt : BitVec 64
  dbgrep : BitVec 64
  dbgbuf : BitVec 64
  dbgdb : BitVec 64
  dbgst : BitVec 64
  dbgack : BitVec 64
  session : Option Word
  aer : BitVec 32
  trace : Option Trace
  deriving DecidableEq, Repr

/-- A partition (R363, R365, R379, R309, R407, R409, R412). `remap` lists the physical cores in logical order; `served` is the queue
served last, from which the next of its priority is counted (R382). -/
structure Part where
  cores : List Nat
  remap : List Nat
  lifebud : BitVec 32
  share : Nat
  lbcap : BitVec 32
  maxlvl : Nat
  ftid : BitVec 16
  fmask : BitVec 16
  served : Nat := 0
  deriving DecidableEq, Repr

/-- A fabric map entry (R308) with the state of its link. -/
structure FabRow where
  link : Nat
  self : Bool
  en : Bool
  pop : Bool
  port : BitVec 4
  deriving DecidableEq, Repr

/-- A fabric aperture bound at this device (R309). -/
structure Aperture where
  src : Nat
  ftid : BitVec 16
  ctxid : BitVec 16
  target : CtxKey
  deriving DecidableEq, Repr

/-- A request sent to a peer and not yet acknowledged (R310, R313), with the intermediate that relays it (R314). -/
structure PeerSent where
  peer : Nat
  stream : Nat
  seq : BitVec 16
  off : BitVec 48
  ctx : CtxKey
  body : PeerBody
  relay : Option Nat
  fib : Nat := 0
  deriving DecidableEq, Repr

/-- An incoming stream (R310): the next sequence number and the window of early requests. -/
structure InStream where
  src : Nat
  stream : Nat
  next : BitVec 16
  window : List PeerReq
  deriving DecidableEq, Repr

/-- A reply sent to a peer (R311, R312); for a pod operation with its status, or that it waits or has found the
block corrupt (R151). `rels` are the release records that its lanes, counted from 0, have met (R326). -/
structure PeerOut where
  src : Nat
  stream : Nat
  seq : BitVec 16
  fault : Option Nat
  waits : Bool
  corrupt : Bool
  status : Nat
  words : List Word
  data : BitVec 512
  rels : List (Nat × RelRec)
  deriving DecidableEq, Repr

/-- How a request to the policy core or to the security block ends (R308, R364, R435, R466). -/
inductive Answer where
  | done
  | refused
  | busy
  | rangeError
  deriving DecidableEq, Repr

/-- The 32-bit AtomicOps of PCI Express (R137). -/
inductive HostAtomic where
  | fetchAdd
  | swap
  | cas
  deriving DecidableEq, Repr

/-- What the device sends on the host link (R296, R430, R431, R378). `refuse` answers a host access with Completer
Abort, or as an unsupported request. -/
inductive HostMsg where
  | write (addr : Nat) (data : List Byte)
  | read (addr : Nat) (len : Nat) (flt : Nat)
  | atomic (addr : Nat) (op : HostAtomic) (x y : Word) (flt lane : Nat)
  | completion (fn : Nat) (data : List Byte) (poisoned : Bool)
  | msix (fn : Nat) (vec : Nat)
  | refuse (fn : Nat) (abort : Bool)
  | errorMsg (fatal nonfatal : Bool)
  | answer (fn : Nat) (status : Answer) (data : List Byte)
  | config (fn : Nat) (retry : Bool) (value : BitVec 64)
  | mgmt (data : List Byte)
  deriving DecidableEq, Repr

/-- An error record (R428); `valid` is cleared when software frees its entry, which keeps the other fields (R7). -/
structure ErrRec where
  tick : Nat
  d0 : Nat
  d1 : Nat
  d2 : Nat
  unit : Word
  ctxid : BitVec 16
  fn : Nat
  src : Nat
  tcode : BitVec 8
  seq : Nat
  cls : Nat
  ovwr : Bool
  valid : Bool := true
  deriving DecidableEq, Repr

/-- An error bank (R430): 512 entries by index, its count of records, and the dropped count. -/
structure ErrBank where
  entries : Tbl ErrRec
  seq : Nat
  drop : Nat
  vec : Nat
  deriving DecidableEq, Repr

/-- A fault record waiting for ring space (R116, R117). -/
structure FaultRec where
  tick : Nat
  va : Addr
  obj : Nat
  asid : BitVec 12
  kind : Nat
  acc : Nat
  run : Bool
  req : Nat
  lanes : LaneMask
  rpl : Bool
  deriving DecidableEq, Repr

/-- A wear record (R402), its counters at the internal precision of R401 (units of 2^-24 µrh). `last` is the stress of
the accrual interval under way, `boostEx` the boost excess in it (R408), `env` the temperature and activity sampled last. -/
structure Wear where
  unit : Word
  bti : Nat
  hci : Nat
  em : Nat
  btir : Nat
  st : Nat
  gatedAt : Nat
  last : Nat × Nat × Nat
  boostEx : Nat × Nat × Nat
  env : Nat × Nat
  deriving DecidableEq, Repr

/-- A swap that R404 has decided and R405 has not yet let take effect. -/
structure Swap where
  up : Word
  down : Word
  reason : Nat
  deriving DecidableEq, Repr

/-- A record of the non-volatile log (R415). -/
structure NvRec where
  tick : Nat
  seq : Nat
  ty : Nat
  payload : List Byte
  digest : List Byte
  deriving DecidableEq, Repr

/-- The LIFECFG record in use (R416): the constants of R401 as binary64 values, LIMIT_m at the internal precision by
3 * kind + mechanism, ROTGAP as a fraction. -/
structure LifeCfg where
  consts : List (BitVec 64)
  limits : List Nat
  trmin : Nat
  trfull : Nat
  rfrac : Nat
  rotgap : Nat × Nat
  target : Nat
  tjmax : Nat
  area : Nat
  deriving DecidableEq, Repr

/-- An enclave slot (R433, R436). -/
structure Enclave where
  slot : Nat
  fn : Nat
  regions : List Nat
  debugok : Bool
  measure : List Byte
  key : Nat
  tkey : Nat
  deriving DecidableEq, Repr

/-- A record that waits for its ring of a function's debug mailbox, in event order (R456): a halt report, or a reply. -/
structure DbgOut where
  fn : Nat
  halt : Bool
  bits : BitVec 256
  deriving DecidableEq, Repr

/-- A HALT or STEP whose reply waits until the fibres have halted (R456, R459). -/
structure DbgPend where
  ctx : CtxKey
  tag : BitVec 16
  fibs : List Nat
  deriving DecidableEq, Repr

/-- The boot phases of R420 that the host can see. -/
inductive Boot where
  | held
  | recovery
  | up
  deriving DecidableEq, Repr

/-! ### The model's own bookkeeping -/

/-- The agent whose instruction is being executed. -/
inductive Agent where
  | none
  | fib (id : Nat)
  | runner (id : Nat)
  deriving DecidableEq, Repr

/-- The issue in progress: its agent, active lanes and address, and whether it stalled instead; `writer` are the launches whose
writes the step makes (R66). -/
structure Cur where
  agent : Agent
  mask : LaneMask
  pc : Addr
  stalled : Bool
  writer : List Nat := []
  deriving DecidableEq, Repr

/-- An error that comes upon stored bits (R187, R223, R290): the lane bits of a register by its place, or of a latch, that
turn over, of the 32 data bits and the 7 check bits; a word of a scratchpad allocation with the bits that turn over; a tile,
a bank, or a line of a home slice with the syndrome of a single bit, or none when it cannot be corrected. -/
inductive Upset where
  | reg (fib place lane : Nat) (bits : BitVec 39)
  | latch (fib i lane : Nat) (bits : BitVec 39)
  | spad (wg off : Nat) (bits : BitVec 39)
  | tile (wg t : Nat) (bit : Option Nat)
  | bank (wg b : Nat) (bit : Option Nat)
  | slice (dpa : Nat) (bit : Nat)
  deriving DecidableEq, Repr

/-- An entry of the input list: something from outside, or which internal candidate moves next. -/
inductive Input where
  | event (i : Instr)
  | upset (u : Upset)
  | choose (n : Nat)
  deriving DecidableEq, Repr

/-- The state of the device. `unseen` are the bytes that running launches have written, each with the launch and the byte as
instruction fetch still sees it (R66). -/
structure State where
  tick : Nat
  steps : Nat
  free : Nat
  ids : Nat
  inbox : List Input
  cur : Cur
  boot : Boot
  nvImages : Tbl Image
  nvActive : List Nat
  running : List Image
  nvConfig : List ConfigRecord
  logbrk : Bool
  contained : Bool
  memsz : BitVec 10
  mem : Bytes
  unseen : List (Nat × Nat × Byte)
  lineRel : Tbl RelRec
  poisonLines : List Nat
  poisonFrames : List Nat
  retired : Tbl Nat
  poolUsed : Nat
  poolRemap : Nat
  correctable : Tbl Nat
  withdrawn : List Nat
  slices : List (List Nat)
  self : Nat
  fabric : List FabRow
  apertures : List Aperture
  streams : List (Nat × Nat × BitVec 16)
  sent : List PeerSent
  incoming : List InStream
  replies : List PeerOut
  relays : List (Nat × PeerReq)
  laneUp : List (Nat × List Nat)
  hostOut : List HostMsg
  power : Nat
  errs : List ErrBank
  faultQ : List (CtxKey × FaultRec)
  fns : Tbl Fn
  parts : Tbl Part
  ctxs : List (CtxKey × Ctx)
  tlb : List TlbEntry
  objs : List (CtxKey × BitVec 32 × ObjEntry)
  queues : List (QueueRef × Queue)
  invals : Tbl Inval
  launches : Tbl Launch
  lseq : Nat
  cores : Tbl Core
  wgs : Tbl Workgroup
  slots : Tbl Slot
  fibs : Tbl Fibre
  flights : Tbl Flight
  podWait : List (Nat × Nat)
  groups : Tbl Group
  cmds : Tbl Cmd
  runners : Tbl Runner
  checkpoints : Checkpoints
  wear : List Wear
  accrued : List Wear
  swaps : List Swap
  spared : List (Word × Word)
  target : Nat
  elapsed : Nat
  plim : Nat
  throttled : Bool
  powerOk : Nat
  hot : List Nat
  life : LifeCfg
  boostSeq : Nat
  accrualAt : Nat
  wearckAt : Nat
  nvLog : List NvRec
  nvPending : List (Nat × List Byte)
  nvSeq : Nat
  enclaves : List Enclave
  caps : List Capability
  capids : List Word
  ceframe : Nat
  dbgOut : List DbgOut
  dbgPend : List DbgPend
  deriving DecidableEq, Repr

/-- Why the machine stops with a fault. -/
inductive Fault where
  /-- An instruction of the instruction set is asked to execute while no fibre and no runner is being
  issued. Raised by the meaning of every such instruction; safe: `step` never brings it about. -/
  | noAgent
  deriving DecidableEq, Repr

/-- Why the machine gives an instruction no meaning. -/
inductive Refusal where
  /-- An arm of `exec` that has no meaning yet. Safe. -/
  | notModelled (mnemonic : String)
  deriving DecidableEq, Repr

/-- The result of a step of this machine. -/
abbrev Out := Host.Outcome State Fault Refusal

/-! ### Reset -/

/-- No issue in progress. -/
def Cur.idle : Cur := { agent := .none, mask := 0#32, pc := 0#64, stalled := false }

/-- An error bank after reset (R430). -/
def ErrBank.reset : ErrBank := { entries := [], seq := 0, drop := 0, vec := 0 }

/-- A row of the fabric map after reset (R6, R308): no entry is the device's own, present or enabled. -/
def FabRow.empty (_p : Nat) : FabRow :=
  { link := 3, self := false, en := false, pop := false, port := 0xF#4 }

/-- The physical function after reset: partition 0 and the whole addressable memory (log entry 5). -/
def Fn.reset : Fn :=
  { part := 0, base := 0, gb := 752, qtab := 0#64, ctxtab := 0#64, dbgcmd := 0#64, dbghlt := 0#64,
    dbgrep := 0#64, dbgbuf := 0#64, dbgdb := 0#64, dbgst := 0#64, dbgack := 0#64, session := none,
    aer := 0#32, trace := none }

/-- A virtual function before the PF has bound it or given it a window (R362, R366). -/
def Fn.absent : Fn := { Fn.reset with gb := 0 }

/-- A partition at its creation (R406, R407, R412). -/
def Part.reset : Part :=
  { cores := [], remap := [], lifebud := 0#32, share := 256, lbcap := 0xFFFFFFFF#32, maxlvl := 3,
    ftid := 0#16, fmask := 0#16 }

/-- The defaults of R416. ROTGAP is a fraction. -/
def LifeCfg.default : LifeCfg :=
  { consts := [0x4022000000000000#64, 0x3FDCCCCCCCCCCCCD#64, 0x402C000000000000#64, 0x3FEB333333333333#64],
    limits := List.replicate 18 (131400 * 10 ^ 6 * 2 ^ 24), trmin := 2 ^ 36, trfull := 2 ^ 40, rfrac := 64, rotgap := (2, 100),
    target := 87600, tjmax := 105, area := 8 * 2 ^ 20 }

/-- A context as its table entry of zeros gives it (R118, R366). -/
def Ctx.reset : Ctx :=
  { xlroot := 0#32, xlctl := 0#32, objtab := 0#32, objcnt := 0#32, fqbase := 0#32, fqhead := 0#12,
    fqtail := 0#12, fqlogn := 4#4, force := [0#32, 0#32, 0#32, 0#32, 0#32],
    entry := 0#512, wbst := 0#32,
    scopemiss := 0#32, encl := 0#32, page := none, res := .idle, saved := [], breaks := [],
    watches := [] }

/-- The device after the boot of R420: one function, no partition with cores, no context. -/
def State.reset : State :=
  { tick := 0, steps := 0, free := 0, ids := 0, inbox := [], cur := Cur.idle, boot := .up, nvImages := [(0, ⟨0, 0, []⟩), (2, ⟨1, 0, []⟩)], nvActive := [0, 0],
    running := [⟨0, 0, []⟩, ⟨1, 0, []⟩],
    nvConfig := [], logbrk := false, contained := false,
    memsz := 752#10, mem := [], unseen := [], lineRel := [], poisonLines := [], poisonFrames := [], retired := [],
    poolUsed := 0, poolRemap := 0, correctable := [], withdrawn := [],
    slices := List.replicate 4 (List.range 12 ++ (List.range 12).map (· + 16)), self := 0,
    fabric := (List.range 16).map FabRow.empty, apertures := [], streams := [], sent := [],
    incoming := [], replies := [], relays := [], laneUp := [], hostOut := [], power := 0,
    errs := List.replicate 5 ErrBank.reset, faultQ := [], fns := [(0, Fn.reset)],
    parts := [(0, Part.reset)], ctxs := [], tlb := [], objs := [], queues := [], invals := [],
    launches := [], lseq := 1, cores := [], wgs := [], slots := [], fibs := [], flights := [],
    podWait := [], groups := [], cmds := [], runners := [], checkpoints := [], wear := [], accrued := [], swaps := [],
    spared := [], target := 87600, elapsed := 0, plim := 2400, throttled := false,
    powerOk := 0, hot := [], life := LifeCfg.default, boostSeq := 0, accrualAt := 2 ^ 32,
    wearckAt := 2 ^ 40, nvLog := [], nvPending := [], nvSeq := 1, enclaves := [], caps := [], capids := [],
    ceframe := 16, dbgOut := [], dbgPend := [] }

end Sys2Proof.Machine
end

