-- ==== Sys2Proof/Machine/Tables.lean ====
section
/-!
DEFINITION. Tables by number and byte memories. A byte memory lists its bytes that are not zero, in
strictly rising order of address; every write keeps that form, so equal memories are equal data.
-/
namespace Sys2Proof.Machine

/-- The entry of a table. -/
def tget {α : Type} : Tbl α → Nat → Option α
  | [], _ => none
  | (k', v) :: r, k => if k' = k then some v else tget r k

/-- Replace the entry, or add it at the end. -/
def tset {α : Type} : Tbl α → Nat → α → Tbl α
  | [], k, v => [(k, v)]
  | (k', v') :: r, k, v => if k' = k then (k, v) :: r else (k', v') :: tset r k v

/-- Remove the entry. -/
def tdel {α : Type} (t : Tbl α) (k : Nat) : Tbl α := t.filter (fun e => e.1 != k)

/-- Change the entry if there is one. -/
def tmod {α : Type} (t : Tbl α) (k : Nat) (f : α → α) : Tbl α :=
  match tget t k with
  | some v => tset t k (f v)
  | none => t

/-- The entry with a key of any kind. -/
def kget {κ α : Type} [DecidableEq κ] : List (κ × α) → κ → Option α
  | [], _ => none
  | (k', v) :: r, k => if k' = k then some v else kget r k

/-- Replace the entry with a key of any kind, or add it at the end. -/
def kset {κ α : Type} [DecidableEq κ] : List (κ × α) → κ → α → List (κ × α)
  | [], k, v => [(k, v)]
  | (k', v') :: r, k, v => if k' = k then (k, v) :: r else (k', v') :: kset r k v

/-- Replace one element of a list. -/
def lset {α : Type} (l : List α) (n : Nat) (v : α) : List α := l.set n v

/-! ### Byte memories -/

/-- One byte; an unlisted byte reads 0 (log entry 4). -/
def readByte (m : Bytes) (a : Nat) : Byte :=
  match tget m a with
  | some b => b
  | none => 0#8

/-- The listed cells from `a` up to but not including `a + n`. -/
def cellsIn (m : Bytes) (a n : Nat) : Bytes := m.filter (fun c => decide (a ≤ c.1 ∧ c.1 < a + n))

/-- `n` bytes from address `a` on. -/
def readBytes (m : Bytes) (a n : Nat) : List Byte :=
  let seg := cellsIn m a n
  (List.range n).map (fun i => readByte seg (a + i))

/-- The cells of a list of bytes laid from `a` on, zero bytes left out. -/
def cellsOf : Nat → List Byte → Bytes
  | _, [] => []
  | a, b :: r => if b = 0#8 then cellsOf (a + 1) r else (a, b) :: cellsOf (a + 1) r

/-- Write bytes from `a` on. -/
def writeBytes (m : Bytes) (a : Nat) (bs : List Byte) : Bytes :=
  m.filter (fun c => decide (c.1 < a)) ++ (cellsOf a bs ++ m.filter (fun c => decide (a + bs.length ≤ c.1)))

/-- The canonical form: strictly rising addresses and no zero byte. -/
def bytesWf : Bytes → Bool
  | [] => true
  | [c] => c.2 != 0#8
  | c :: d :: r => c.2 != 0#8 && decide (c.1 < d.1) && bytesWf (d :: r)

/-- The little-endian number of `n` bytes (R4). -/
def readNat (m : Bytes) (a n : Nat) : Nat := leValue (readBytes m a n)

/-- Write a number as `n` little-endian bytes (R4). -/
def writeNat (m : Bytes) (a n x : Nat) : Bytes := writeBytes m a (leBytes x n)

/-- The 32-bit word at an address. -/
def readWord (m : Bytes) (a : Nat) : Word := BitVec.ofNat 32 (readNat m a 4)

/-- The line that starts at an address. -/
def readLine (m : Bytes) (a : Nat) : BitVec 512 := BitVec.ofNat 512 (readNat m a 64)

/-- The byte `i` of a line. -/
def lineByte (l : BitVec 512) (i : Nat) : Byte := l.extractLsb' (8 * i) 8

/-- The 512-bit mask of a 64-bit byte mask. -/
def widenMask (k : BitVec 64) : BitVec 512 :=
  BitVec.ofNat 512 ((List.range 64).foldl (fun a i => if k.getLsbD i then a + 255 * 2 ^ (8 * i) else a) 0)

/-- A line with the masked bytes replaced (R130). -/
def mergeLine (old new : BitVec 512) (k : BitVec 64) : BitVec 512 :=
  let w := widenMask k
  (old &&& ~~~ w) ||| (new &&& w)

/-- Write the masked bytes of a line (R130). -/
def writeLine (m : Bytes) (a : Nat) (new : BitVec 512) (k : BitVec 64) : Bytes :=
  writeNat m a 64 (mergeLine (readLine m a) new k).toNat

/-- The mask of `n` bytes from offset `o` of a line; bytes past the line are not of it. -/
def byteMask (o n : Nat) : BitVec 64 := BitVec.ofNat 64 ((2 ^ n - 1) * 2 ^ o)

/-- `n` bytes from offset `o` of a line as a number. -/
def lineNat (l : BitVec 512) (o n : Nat) : Nat := l.toNat / 2 ^ (8 * o) % 2 ^ (8 * n)

/-- A line with `n` bytes from offset `o` replaced by a number. -/
def putLineNat (l : BitVec 512) (o n x : Nat) : BitVec 512 :=
  mergeLine l (BitVec.ofNat 512 (x % 2 ^ (8 * n) * 2 ^ (8 * o))) (byteMask o n)

end Sys2Proof.Machine
end

