-- ==== Sys2Proof/Machine/Memory.lean ====
section
/-!
DEFINITION. Device memory as an address reaches it: the channel map (R99), poison (R102), error records
(R427 to R432), functions' windows (R362), page walks and permission (R104 to R111, R434), and the
reads and writes that a home slice performs (R128, R130, R297, R326).
-/
namespace Sys2Proof.Machine

/-! ### The host link -/

/-- A message of the device's own that asks something of the host. -/
def HostMsg.isRequest : HostMsg → Bool
  | .write _ _ => true
  | .read _ _ _ => true
  | .atomic _ _ _ _ _ _ => true
  | .msix _ _ => true
  | .errorMsg _ _ => true
  | _ => false

/-- The bytes of host memory that a message writes. -/
def HostMsg.writes : HostMsg → List Nat
  | .write a bs => (List.range bs.length).map (a + ·)
  | .atomic a _ _ _ _ _ => (List.range 4).map (a + ·)
  | _ => []

/-- The function of a running launch. -/
def launchFn (s : State) (lid : Nat) : Option Nat :=
  match tget s.launches lid with
  | some l => some l.ctx.fn
  | none => none

/-- Launches write bytes of their function's host memory: no launch of it that runs now sees them there as code (R66). -/
def State.noteHost (s : State) (as : List Nat) : State :=
  if as.isEmpty || s.cur.writer.isEmpty then s
  else
    let fns := s.cur.writer.map (launchFn s)
    { s with launches := s.launches.map (fun ((i, l) : Nat × Launch) =>
        (i, { l with sysWrote := if s.cur.writer.contains i then l.sysWrote ++ as else l.sysWrote,
                     sysHidden := if fns.contains (some l.ctx.fn) then l.sysHidden ++ as else l.sysHidden })) }

/-- Send a message on the host link; after a class-F record the device issues no further request (R432). -/
def State.send (s : State) (m : HostMsg) : State :=
  if s.contained && m.isRequest then s else { s.noteHost m.writes with hostOut := s.hostOut ++ [m] }

/-! ### Functions, partitions, contexts -/

/-- A function: the PF or one of the 64 VFs, which the host link presents always (R362). -/
def fnRec (s : State) (fn : Nat) : Option Fn :=
  match tget s.fns fn with
  | some f => some f
  | none => if fn ≤ 64 then some Fn.absent else none

/-- Change a function. -/
def State.modFn (s : State) (fn : Nat) (f : Fn → Fn) : State :=
  match fnRec s fn with
  | some x => { s with fns := tset s.fns fn (f x) }
  | none => s

/-- A function's window: its base and its size in bytes (R362). -/
def fnWindow (s : State) (fn : Nat) : Nat × Nat :=
  match fnRec s fn with
  | some f => (f.base, f.gb * 2 ^ 30)
  | none => (0, 0)

/-- The device address of `n` bytes at an address of a function, where its window holds them (R362). -/
def fnAddr (s : State) (fn a n : Nat) : Option Nat :=
  let (b, size) := fnWindow s fn
  if a + n ≤ size then some (b + a) else none

/-- sr.memsz as a function sees it (R118, R362): its window, never more than the addressable memory. -/
def fnMemsz (s : State) (fn : Nat) : Nat :=
  match fnRec s fn with
  | some f => if f.gb < s.memsz.toNat then f.gb else s.memsz.toNat
  | none => 0

/-- A context; one that is not there reads as its reset. -/
def ctxOf (s : State) (c : CtxKey) : Ctx :=
  match kget s.ctxs c with
  | some x => x
  | none => Ctx.reset

/-- Change a context. -/
def State.setCtx (s : State) (c : CtxKey) (x : Ctx) : State := { s with ctxs := kset s.ctxs c x }

/-- Change a context by a function. -/
def State.modCtx (s : State) (c : CtxKey) (f : Ctx → Ctx) : State := s.setCtx c (f (ctxOf s c))

/-- The partition number of a function (R363). -/
def partOf (s : State) (fn : Nat) : Nat :=
  match fnRec s fn with
  | some f => f.part
  | none => 0

/-- The partition of a function. -/
def partRec (s : State) (fn : Nat) : Part :=
  match tget s.parts (partOf s fn) with
  | some p => p
  | none => Part.reset

/-- CTXID as sr.xlctl holds it. -/
def xlCtxid (xl : List (BitVec 32)) : BitVec 16 := (xl.getD 1 0#32).extractLsb' 16 16

/-- ASID as sr.xlctl holds it. -/
def xlAsid (xl : List (BitVec 32)) : BitVec 12 := (xl.getD 1 0#32).extractLsb' 4 12

/-- RPLY as sr.xlctl holds it. -/
def xlRply (xl : List (BitVec 32)) : Bool := (xl.getD 1 0#32).getLsbD 0

/-! ### Channels, slices, poison -/

/-- The channel of a device physical address (R99). -/
def channelOf (dpa : Nat) : Nat :=
  let g := dpa / 256
  (g % 384 + g / 384) % 384

/-- The die on which an address is homed (R99). -/
def dieOf (dpa : Nat) : Nat := channelOf dpa / 96

/-- The HBM stack and the channel of that stack that hold an address (R99). -/
def stackOf (dpa : Nat) : Nat := 3 * dieOf dpa + channelOf dpa % 96 / 32
def stackChannel (dpa : Nat) : Nat := channelOf dpa % 96 % 32

/-- The logical home slice of an address on its die (R99). -/
def lsliceOf (dpa : Nat) : Nat := channelOf dpa % 96 / 4

/-- The physical home slice of an address by the slice map (R100). -/
def homeSlice (s : State) (dpa : Nat) : Nat :=
  let m := s.slices.getD (dieOf dpa) []
  let l := lsliceOf dpa
  if l < m.length then m.getD l 0 else m.getD (l % (if m.length == 0 then 1 else m.length)) 0

/-- The byte offset of an address within its channel (R99). -/
def channelOffset (dpa : Nat) : Nat := dpa / 256 / 384 * 256 + dpa % 256

/-- The start of the line of an address. -/
def lineBase (a : Nat) : Nat := a / 64 * 64

/-- The frame of an address is poisoned as a whole (R102). -/
def framePoisoned (s : State) (dpa : Nat) : Bool := s.poisonFrames.contains (dpa / 4096 * 4096)

/-- The line of an address is poisoned, alone or with its frame (R102). -/
def poisoned (s : State) (dpa : Nat) : Bool :=
  s.poisonLines.contains (lineBase dpa) || framePoisoned s dpa

/-! ### Error records -/

/-- The rank of a class (R427). -/
def classRank (cls : Nat) : Nat := cls + 1

/-- Index of the lowest free entry of a bank, if one is free (R430). -/
def freeEntry (b : ErrBank) : Option Nat :=
  if (b.entries.filter (fun (_, r) => r.valid)).length < 512 then
    (List.range 512).find? (fun i => match tget b.entries i with
      | some r => !r.valid
      | none => true)
  else none

/-- The entry that a record of a rank overwrites: the oldest of the lowest rank, if that rank is no higher (R430). -/
def victimEntry (b : ErrBank) (rank : Nat) : Option Nat :=
  let best := b.entries.foldl (fun (a : Option (Nat × ErrRec)) e =>
    match a with
    | none => some e
    | some (i, r) =>
      if classRank e.2.cls < classRank r.cls ∨ (e.2.cls = r.cls ∧ e.2.seq < r.seq) then some e
      else some (i, r)) none
  match best with
  | some (i, r) => if classRank r.cls ≤ rank then some i else none
  | none => none

/-- A record enters its bank, or is dropped (R428, R430). The second answer says whether it entered. -/
def bankPut (b : ErrBank) (r : ErrRec) : ErrBank × Bool :=
  let r := { r with seq := b.seq }
  match freeEntry b with
  | some i => ({ b with entries := tset b.entries i r, seq := b.seq + 1 }, true)
  | none =>
    match victimEntry b (classRank r.cls) with
    | some i => ({ b with entries := tset b.entries i { r with ovwr := true }, seq := b.seq + 1 }, true)
    | none => ({ b with drop := if b.drop < 0xFFFF then b.drop + 1 else b.drop }, false)

/-- The model's own numbers for the AER statuses of R431. -/
def aerBit (n : Nat) : BitVec 32 := 1#32 <<< n

/-- Set an AER status of a function (R431). -/
def State.setAer (s : State) (fn n : Nat) : State := s.modFn fn (fun (f : Fn) => { f with aer := f.aer ||| aerBit n })

/-- Write an error record on a die's bank, with its interrupt and its AER report (R427 to R431). -/
def State.errorRecord (s : State) (bank src cls d0 d1 d2 : Nat) (unit : Word) (c : Option CtxKey)
    (tcode : BitVec 8) : State :=
  let fn := match c with | some k => k.fn | none => 0
  let id := match c with | some k => k.id | none => 0
  let b := s.errs.getD bank ErrBank.reset
  let r : ErrRec :=
    { tick := s.tick, d0 := d0, d1 := d1, d2 := d2, unit := unit, ctxid := BitVec.ofNat 16 id,
      fn := fn, src := src, tcode := tcode, seq := 0, cls := cls, ovwr := false }
  let (b', entered) := bankPut b r
  let s := { s with errs := s.errs.set bank b' }
  let s := if entered then s.send (.msix 0 b'.vec) else s
  if cls ≤ 1 then
    let s := s.setAer 0 0
    let s := if fn == 0 then s else s.setAer fn 0
    s.send (.errorMsg false false)
  else s

/-! ### Translation -/

/-- What an access does (R109); `readWrite` is XRED's (R176). -/
inductive Acc where
  | read | write | atomic | fetch | readWrite
  deriving DecidableEq, Repr

/-- The ACC code of a fault record (R116). -/
def accCode : Acc → Nat
  | .read => 0
  | .write => 1
  | .readWrite => 1
  | .atomic => 2
  | .fetch => 3

/-- A leaf found by a walk: the base of its page in the function's view, the size and the entry. -/
structure Leaf where
  pa : Nat
  size : Nat
  entry : BitVec 64
  deriving DecidableEq, Repr

/-- The PFN field of a table entry (R107). -/
def entryPfn (e : BitVec 64) : Nat := (e.extractLsb' 12 40).toNat

/-- The KEY field of a table entry (R107). -/
def entryKey (e : BitVec 64) : Nat := (e.extractLsb' 52 8).toNat

/-- Malformed by the entry itself, at a level, for an address; `limit` is the end of the function's memory (R108). -/
def malformed (e : BitVec 64) (lev va limit : Nat) : Bool :=
  let leaf := e.getLsbD 1
  let pfn := entryPfn e
  let cont := e.getLsbD 11
  let sys := e.getLsbD 7
  (e.extractLsb' 60 3 != 0#3) || (e.extractLsb' 8 3 != 0#3) || e.getLsbD 2 ||
  (!leaf && (e.getLsbD 63 || entryKey e != 0 || sys || e.getLsbD 6 || e.getLsbD 5 || e.getLsbD 4 ||
    e.getLsbD 3)) ||
  (leaf && lev == 3) || (!leaf && lev == 0) || (cont && !(leaf && lev == 0)) ||
  (leaf && lev == 2 && pfn % 2 ^ 18 != 0) || (leaf && lev == 1 && pfn % 2 ^ 9 != 0) ||
  (cont && pfn % 16 != bitsOf va 15 12) ||
  ((!leaf || !sys) && pfn * 4096 ≥ limit)

/-- The first of the 16 entries of the CONT run that maps an address (R107). -/
def contFirst (tbl va : Nat) : Nat := tbl + 8 * (bitsOf va 20 12 / 16 * 16)

/-- The 16 entries of a CONT run agree but for PFN bits 3:0 (R108). -/
def contAgrees (s : State) (base tbl va : Nat) (e : BitVec 64) : Bool :=
  (List.range 16).all (fun i =>
    let x := BitVec.ofNat 64 (readNat s.mem (base + contFirst tbl va + 8 * i) 8)
    (x &&& ~~~ 0xF000#64) == (e &&& ~~~ 0xF000#64))

/-- A line of a CONT run is poisoned (R102, R108). -/
def contPoisoned (s : State) (base tbl va : Nat) : Bool :=
  poisoned s (base + contFirst tbl va) || poisoned s (base + contFirst tbl va + 64)

/-- The leaf that an entry makes at a level: of a CONT run, the 64 KiB page that its 16 entries map (R107). -/
def leafOf (e : BitVec 64) (lev : Nat) : Leaf :=
  if e.getLsbD 11 then { pa := entryPfn e / 16 * 16 * 4096, size := 2 ^ 16, entry := e }
  else { pa := entryPfn e * 4096, size := 2 ^ (12 + 9 * lev), entry := e }

/-- A table that a walk has come to: the level above it whose entry names it, and where it lies. -/
abbrev WalkStep := Nat × Nat

/-- The walk of R109 from a table at level `n - 1`, before the permission check, with the tables that it comes to; an
answer of `error k` is a fault of kind k (R112). -/
def walkFrom (s : State) (base limit va : Nat) : Nat → Nat → List WalkStep → Except Nat (Leaf × List WalkStep)
  | 0, _, _ => .error 2
  | lev + 1, tbl, seen =>
    let a := tbl + 8 * bitsOf va (20 + 9 * lev) (12 + 9 * lev)
    if poisoned s (base + a) then .error 6
    else
      let e := BitVec.ofNat 64 (readNat s.mem (base + a) 8)
      if !e.getLsbD 0 then .error 0
      else if malformed e lev va limit then .error 2
      else if e.getLsbD 11 && contPoisoned s base tbl va then .error 6
      else if e.getLsbD 11 && !contAgrees s base tbl va e then .error 2
      else if e.getLsbD 1 then .ok (leafOf e lev, seen)
      else walkFrom s base limit va lev (entryPfn e * 4096) (seen ++ [(lev, entryPfn e * 4096)])

/-- The region of an owned 2 MiB piece of memory and its slot (R433). -/
def ownerOf (s : State) (dpa : Nat) : Nat :=
  match s.enclaves.find? (fun e => e.regions.contains (dpa / 2 ^ 21 * 2 ^ 21)) with
  | some e => e.slot
  | none => 0

/-- The permission check of R109 and the key check of R434 on a leaf, for the byte at a device address. -/
def permitted (s : State) (encl : Nat) (e : BitVec 64) (priv : Bool) (acc : Acc) (dpa : Nat) : Bool :=
  let u := e.getLsbD 3
  let r := e.getLsbD 4
  let w := e.getLsbD 5
  let at_ := e.getLsbD 6
  let rights := match acc with
    | .read => r
    | .write => w
    | .readWrite => r && w
    | .atomic => r && w && at_
    | .fetch => r && !e.getLsbD 63
  let own := if e.getLsbD 7 then 0 else ownerOf s dpa
  (u || priv) && rights && entryKey e == own && (own == 0 || own == encl)

/-- The direct link to a fabric number is up (R308). -/
def linkUp (s : State) (p : Nat) : Bool := (s.fabric.getD p (FabRow.empty p)).link == 0

/-- The lowest-numbered device, other than this one and P, whose links to both are up (R314). The link between two other
devices is not of this device's state (log entry 46). -/
def intermediate (s : State) (p : Nat) : Option Nat :=
  (List.range 16).find? (fun q =>
    let r := s.fabric.getD q (FabRow.empty q)
    q != p && q != s.self && r.pop && r.en && !r.self && linkUp s q && Config.farLink s.tick q p)

/-- A path to a peer exists: its link, or an intermediate (R314). -/
def pathTo (s : State) (p : Nat) : Bool := linkUp s p || (intermediate s p).isSome

/-- The intermediate that a request to a peer takes now (R314). -/
def relayTo (s : State) (p : Nat) : Option Nat := if linkUp s p then none else intermediate s p

/-- A peer number is usable by a context (R106, R309, R314). -/
def peerUsable (s : State) (fn p : Nat) : Bool :=
  let row := s.fabric.getD p (FabRow.empty p)
  p != s.self && row.pop && row.en && !row.self && (partRec s fn).ftid != 0#16 && (partRec s fn).fmask.getLsbD p &&
  pathTo s p

/-! ### Held translations (R110) -/

/-- Who translates: a core, a runner group, or a unit that has no TLB of its own. -/
inductive Walker where
  | core (n : Nat)
  | group (n : Nat)
  | device
  deriving DecidableEq, Repr

/-- Who translates for the instruction being executed. -/
def curWalker (s : State) : Walker :=
  match s.cur.agent with
  | .none => .device
  | .fib i => .core (i / 256)
  | .runner r =>
    match tget s.runners r with
    | some x => .group x.grp
    | none => .device

/-- The TLBs in which a requester looks, in order (R110). -/
def Walker.tlbs (w : Walker) (acc : Acc) : List TlbLoc :=
  match w with
  | .core n => [if acc == .fetch then .inst n else .data n, .cluster (n / 16)]
  | .group g => [.group g]
  | .device => []

/-- The walk cache that serves a requester: that of its compute die (R110). -/
def Walker.walks (w : Walker) : Option TlbLoc :=
  match w with
  | .core n => some (.walk (n / 256))
  | .group g => some (.walk (g / 4))
  | .device => none

/-- The entries of a structure (R110). -/
def tlbSize : TlbLoc → Nat
  | .inst _ => 32
  | .data _ => 128
  | .cluster _ => 4096
  | .group _ => 1024
  | .walk _ => 512

/-- An entry serves an address of an address space. -/
def TlbEntry.serves (t : TlbEntry) (fn : Nat) (asid : BitVec 12) (va : Nat) : Bool :=
  t.fn == fn && t.asid == asid && decide (t.vbase ≤ va) && decide (va < t.vbase + t.size)

/-- The translation that a structure holds for an address. -/
def heldIn (s : State) (l : TlbLoc) (fn : Nat) (asid : BitVec 12) (va : Nat) : Option TlbEntry :=
  s.tlb.find? (fun t => t.loc == l && t.serves fn asid va)

/-- The lowest table for an address that a walk cache holds: the entry of the smallest span. -/
def heldTable (s : State) (l : Option TlbLoc) (fn : Nat) (asid : BitVec 12) (va : Nat) : Option TlbEntry :=
  (s.tlb.filter (fun t => some t.loc == l && t.serves fn asid va)).foldl (fun (a : Option TlbEntry) t =>
    match a with
    | none => some t
    | some x => some (if t.size < x.size then t else x)) none

/-- The level below that whose entries span `n` bytes. -/
def levelOf (n : Nat) : Nat := if n == 2 ^ 39 then 3 else if n == 2 ^ 30 then 2 else 1

/-- A structure takes an entry, in place of another when it is full; which one goes the spec does not say (log entry 49). -/
def State.tlbPut (s : State) (e : TlbEntry) : State :=
  if s.tlb.any (fun t => t.loc == e.loc && t.serves e.fn e.asid e.vbase && t.size == e.size) then s
  else
    let here := s.tlb.filter (fun t => t.loc == e.loc)
    let rest := if here.length < tlbSize e.loc then s.tlb
      else match here[Config.tlbVictim s.steps % here.length]? with
        | some x => s.tlb.erase x
        | none => s.tlb
    { s with tlb := rest ++ [e] }

/-- The walk for a local address: from the lowest table that the walk cache holds, or from the root (R109, R110). -/
def walkLeaf (s : State) (w : Walker) (c : CtxKey) (xl : List (BitVec 32)) (va : Nat) : Except Nat (Leaf × List WalkStep) :=
  let limit := fnMemsz s c.fn * 2 ^ 30
  let tbl := ((xl.getD 0 0#32).extractLsb' 0 28).toNat * 4096
  match heldTable s w.walks c.fn (xlAsid xl) va with
  | some t => walkFrom s (fnWindow s c.fn).1 limit va (levelOf t.size) t.pa []
  | none => if tbl ≥ limit then .error 2 else walkFrom s (fnWindow s c.fn).1 limit va 4 tbl []

/-- The leaf of a local address: a held translation, or a walk (R109, R110). -/
def findLeaf (s : State) (w : Walker) (acc : Acc) (c : CtxKey) (xl : List (BitVec 32)) (va : Nat) : Except Nat Leaf :=
  match (w.tlbs acc).findSome? (fun l => heldIn s l c.fn (xlAsid xl) va) with
  | some t => .ok { pa := t.pa, size := t.size, entry := t.entry }
  | none =>
    match walkLeaf s w c xl va with
    | .ok (l, _) => .ok l
    | .error k => .error k

/-- Translate one byte address of a context for a requester (R104 to R109, R434); `error k` is a fault of kind k. -/
def translateBy (s : State) (by_ : Walker) (c : CtxKey) (xl : List (BitVec 32)) (priv : Bool) (acc : Acc) (va : Addr) :
    Except Nat Place :=
  let v := va.toNat
  if bitsOf v 63 57 != 0 || bitsOf v 51 48 != 0 then .error 3
  else if va.getLsbD 56 then
    let p := bitsOf v 55 52
    if acc == .fetch then .error 4
    else if peerUsable s c.fn p then .ok (.peer p (v % 2 ^ 48)) else .error 4
  else if bitsOf v 55 52 != 0 then .error 3
  else
    match findLeaf s by_ acc c xl v with
    | .error k => .error k
    | .ok l =>
      let rel := l.pa + v % l.size
      let sys := l.entry.getLsbD 7
      let dpa := (fnWindow s c.fn).1 + rel
      if !permitted s (((ctxOf s c).encl.extractLsb' 0 8).toNat) l.entry priv acc dpa then .error 1
      else if sys then .ok (.sys rel) else .ok (.dev dpa (entryKey l.entry))

/-- Translate for the instruction being executed. -/
def translate (s : State) (c : CtxKey) (xl : List (BitVec 32)) (priv : Bool) (acc : Acc) (va : Addr) : Except Nat Place :=
  translateBy s (curWalker s) c xl priv acc va

/-- The structures that serve a requester hold the translation of an address, and its walk cache the tables that a walk for
it came to (R110). -/
def State.holdBy (s : State) (by_ : Walker) (acc : Acc) (c : CtxKey) (xl : List (BitVec 32)) (va : Addr) : State :=
  let v := va.toNat
  let asid := xlAsid xl
  let put := fun (s : State) (l : Leaf) => (by_.tlbs acc).foldl (fun (s : State) at_ =>
    s.tlbPut { loc := at_, fn := c.fn, asid := asid, vbase := v / l.size * l.size, size := l.size, pa := l.pa, entry := l.entry }) s
  if va.getLsbD 56 then s
  else
    match (by_.tlbs acc).findSome? (fun l => heldIn s l c.fn asid v) with
    | some t => put s { pa := t.pa, size := t.size, entry := t.entry }
    | none =>
      match walkLeaf s by_ c xl v with
      | .error _ => s
      | .ok (l, steps) =>
        let s := match by_.walks with
          | none => s
          | some at_ => steps.foldl (fun (s : State) (st : WalkStep) =>
              let n := 2 ^ (12 + 9 * st.1)
              s.tlbPut { loc := at_, fn := c.fn, asid := asid, vbase := v / n * n, size := n, pa := st.2, entry := 0#64 }) s
        put s l

/-- Hold the translations of several addresses for the instruction being executed. -/
def State.holdAll (s : State) (acc : Acc) (c : CtxKey) (xl : List (BitVec 32)) (vas : List Addr) : State :=
  vas.foldl (fun s va => s.holdBy (curWalker s) acc c xl va) s

/-- The size of the leaf page that maps an address, for a local address (R141). -/
def pageSize (s : State) (by_ : Walker) (c : CtxKey) (xl : List (BitVec 32)) (va : Addr) : Nat :=
  match findLeaf s by_ .atomic c xl va.toNat with
  | .ok l => l.size
  | .error _ => 4096

/-- The place of the line that holds a byte at a place. -/
def Place.line : Place → Place
  | .dev a k => .dev (lineBase a) k
  | .sys a => .sys (lineBase a)
  | .peer p o => .peer p (lineBase o)

/-! ### Bytes as instruction fetch sees them (R66) -/

/-- A byte is written by launches: each notes what stood there, unless it wrote the byte last. -/
def noteByte (ws : List Nat) (mem : Bytes) (xs : List (Nat × Nat × Byte)) (a : Nat) : List (Nat × Nat × Byte) :=
  ws.foldl (fun (xs : List (Nat × Nat × Byte)) lid =>
    if (xs.filter (fun x => x.2.1 == a)).getLast?.map (·.1) == some lid then xs else xs ++ [(lid, a, readByte mem a)]) xs

/-- Bytes of device memory are about to be written: by running launches, whose writes no launch sees as code until they have
completed, or by something else, whose writes the next launch sees (R66). -/
def State.noteCode (s : State) (as : List Nat) : State :=
  if s.cur.writer.isEmpty then { s with unseen := s.unseen.filter (fun x => !as.contains x.2.1) }
  else { s with unseen := as.foldl (noteByte s.cur.writer s.mem) s.unseen }

/-- Device memory as the code of a launch accepted now. -/
def codeNow (s : State) : Bytes := s.unseen.foldr (fun x m => writeBytes m x.2.1 [x.2.2]) s.mem

/-- A launch has completed: what it wrote, over what was written before it, is seen by the next. -/
def seenOf (lid : Nat) (xs : List (Nat × Nat × Byte)) : List (Nat × Nat × Byte) :=
  (xs.zipIdx.filter (fun (x, i) =>
    !(xs.zipIdx.any (fun (y, j) => y.1 == lid && y.2.1 == x.2.1 && decide (i ≤ j))))).map (·.1)

/-- Write bytes at a home slice. -/
def State.putMem (s : State) (a : Nat) (bs : List Byte) : State :=
  { s.noteCode ((List.range bs.length).map (a + ·)) with mem := writeBytes s.mem a bs }

/-- Something happens as the work of some launches: what it writes is theirs (R66). -/
def State.asWriter (s : State) (ws : List Nat) (f : State → State) : State :=
  let t := f { s with cur := { s.cur with writer := ws } }
  { t with cur := { t.cur with writer := s.cur.writer } }

/-! ### Events at a home slice -/

/-- The release record of a line is forgotten (R326). -/
def State.clearRel (s : State) (dpa : Nat) : State := { s with lineRel := tdel s.lineRel (lineBase dpa) }

/-- The release record of a line. -/
def State.setRel (s : State) (dpa : Nat) (r : Option RelRec) : State :=
  match r with
  | some x => { s with lineRel := tset s.lineRel (lineBase dpa) x }
  | none => s

/-- Write bytes of one line as one event at its home slice, and forget its release record; the line's
poison is cleared when the write covers it whole (R102, R130). -/
def State.sliceWrite (s : State) (dpa : Nat) (data : BitVec 512) (mask : BitVec 64) : State :=
  let a := lineBase dpa
  let s := (s.clearRel a).noteCode (((List.range 64).filter (fun i => mask.getLsbD i)).map (a + ·))
  { s with mem := writeLine s.mem a data mask,
           poisonLines := if mask == BitVec.allOnes 64 then s.poisonLines.filter (· != a) else s.poisonLines }

/-- A masked write may be performed on the line: it is not poisoned, or the write covers the line whole
and the frame is not poisoned (R102, R297). -/
def writeLands (s : State) (dpa : Nat) (mask : BitVec 64) : Bool :=
  !framePoisoned s dpa && (mask == BitVec.allOnes 64 || !s.poisonLines.contains (lineBase dpa))

/-- A small aligned write at a home slice. -/
def State.sliceWriteNat (s : State) (dpa n x : Nat) : State :=
  let o := dpa % 64
  s.sliceWrite dpa (putLineNat 0#512 o n x) (byteMask o n)

/-- Post a fault record (R116); FAULT_RECORD_POST moves it into the ring as space allows (R117). -/
def State.postFault (s : State) (c : CtxKey) (r : FaultRec) : State := { s with faultQ := s.faultQ ++ [(c, r)] }

end Sys2Proof.Machine
end

