-- ==== Sys2Proof/Machine/Base.lean ====
section
/-!
DEFINITION. The plain operations on the state that every family uses: reading and changing fibres,
workgroups and cores; the view that a fibre has of its launch; reads and writes of virtual memory by the
device itself; queue descriptors, completion records and the end of a launch (R367, R378); the end of a
boost (R414).
-/
namespace Sys2Proof.Machine

/-! ### Changing parts of the state -/

def State.setFib (s : State) (i : Nat) (f : Fibre) : State := { s with fibs := tset s.fibs i f }
def State.modFib (s : State) (i : Nat) (f : Fibre → Fibre) : State := { s with fibs := tmod s.fibs i f }
def State.setSlot (s : State) (i : Nat) (x : Slot) : State := { s with slots := tset s.slots i x }
def State.modSlot (s : State) (i : Nat) (f : Slot → Slot) : State := { s with slots := tmod s.slots i f }
def State.setWg (s : State) (i : Nat) (x : Workgroup) : State := { s with wgs := tset s.wgs i x }
def State.modWg (s : State) (i : Nat) (f : Workgroup → Workgroup) : State := { s with wgs := tmod s.wgs i f }
def State.setCore (s : State) (i : Nat) (x : Core) : State := { s with cores := tset s.cores i x }
def State.modCore (s : State) (i : Nat) (f : Core → Core) : State := { s with cores := tmod s.cores i f }
def State.setFlight (s : State) (i : Nat) (x : Flight) : State := { s with flights := tset s.flights i x }
def State.modFlight (s : State) (i : Nat) (f : Flight → Flight) : State := { s with flights := tmod s.flights i f }
def State.dropFlight (s : State) (i : Nat) : State := { s with flights := tdel s.flights i }
def State.setRunner (s : State) (i : Nat) (x : Runner) : State := { s with runners := tset s.runners i x }
def State.modRunner (s : State) (i : Nat) (f : Runner → Runner) : State := { s with runners := tmod s.runners i f }
def State.setCmd (s : State) (i : Nat) (x : Cmd) : State := { s with cmds := tset s.cmds i x }
def State.modCmd (s : State) (i : Nat) (f : Cmd → Cmd) : State := { s with cmds := tmod s.cmds i f }
def State.modLaunch (s : State) (i : Nat) (f : Launch → Launch) : State := { s with launches := tmod s.launches i f }

/-- A fresh number of the model's own, and the state in which it is used up. -/
def State.newId (s : State) : Nat × State := (s.ids, { s with ids := s.ids + 1 })

/-- The next free value's argument, and the state in which it is used up. -/
def State.draw (s : State) : Nat × State := (s.free, { s with free := s.free + 1 })

/-! ### Numbers of fibres, slots and cores -/

/-- A slot number: core, scheduler and index (R116). -/
def slotId (core sched idx : Nat) : Nat := (core * 4 + sched) * 16 + idx

/-- A fibre number: its slot and its index there; as a number it is the REQ field of R116. -/
def fibId (slot idx : Nat) : Nat := slot * 4 + idx

/-- The core, scheduler and slot index of a fibre number. -/
def fibCore (i : Nat) : Nat := i / 256
def fibSched (i : Nat) : Nat := i / 64 % 4
def fibSlotIdx (i : Nat) : Nat := i / 4 % 16

/-- The cluster of a physical core code (R17): 9 sites. -/
def coreDie (c : Nat) : Nat := c / 256

/-- The unit identifier of a core (R402). -/
def coreUnit (core : Nat) : Word := BitVec.ofNat 32 (coreDie core * 2 ^ 26 + core)

/-! ### A fibre's view -/

/-- The threads whose state is `k`, as a mask. -/
def maskOfSt (f : Fibre) (k : BitVec 4) : LaneMask :=
  BitVec.ofNat 32 (f.threads.zipIdx.foldl (fun a (t, i) => if t.st == k then a + 2 ^ i else a) 0)

/-- The threads that have not exited and were launched. -/
def liveMask (f : Fibre) : LaneMask :=
  BitVec.ofNat 32 (f.threads.zipIdx.foldl (fun a (t, i) => if t.st == 3#4 || t.st == 6#4 then a else a + 2 ^ i) 0)

/-- The fibre has exited (R222, R335). -/
def Fibre.exited (f : Fibre) : Bool := f.threads.all (fun t => t.st == 3#4 || t.st == 6#4)

/-- Lanes of a mask in ascending order. -/
def lanesOf (m : LaneMask) : List Nat := (List.range 32).filter (fun i => m.getLsbD i)

/-- The lowest lane of a mask; 0 for an empty one. -/
def lowestLane (m : LaneMask) : Nat :=
  match lanesOf m with
  | [] => 0
  | l :: _ => l

/-- The lanes of a mask counted. -/
def popMask (m : LaneMask) : Nat := (lanesOf m).length

/-- Change the threads of a mask. -/
def modThreads (f : Fibre) (m : LaneMask) (g : Nat → Thread → Thread) : Fibre :=
  { f with threads := f.threads.zipIdx.map (fun (t, i) => if m.getLsbD i then g i t else t) }

/-- The workgroup of a fibre. -/
def wgOf (s : State) (f : Fibre) : Option Workgroup := tget s.wgs f.wg

/-- The launch of a workgroup. -/
def launchOf (s : State) (w : Workgroup) : Option Launch := tget s.launches w.lid

/-- The launch of a fibre, as a list. -/
def fibLids (s : State) (fid : Nat) : List Nat :=
  match tget s.fibs fid with
  | some f =>
    match wgOf s f with
    | some w => [w.lid]
    | none => []
  | none => []

/-- The launch of a runner's command, as a list; the packet cores' accesses are no launch's. -/
def cmdLids (s : State) (cid : Nat) : List Nat :=
  match tget s.cmds cid with
  | some c =>
    match tget s.wgs c.wg with
    | some w => [w.lid]
    | none => []
  | none => []

/-- The launch of a flight, as a list; a flight that serves a peer has none. -/
def flightLids (s : State) (fl : Flight) : List Nat :=
  match fl.cmd with
  | some c => cmdLids s c
  | none => fibLids s fl.fib

/-- What a flight does is its launch's work. -/
def State.asFlight (s : State) (id : Nat) (f : State → State) : State :=
  match tget s.flights id with
  | some fl => s.asWriter (flightLids s fl) f
  | none => f s

/-- The translation registers in force for a workgroup's launch (R118). -/
def xlOf (s : State) (w : Workgroup) : List (BitVec 32) :=
  match launchOf s w with
  | some l => l.xl
  | none => (ctxOf s w.ctx).force

/-- The core of a number; one that is not there is empty. -/
def coreOf (s : State) (i : Nat) : Core :=
  match tget s.cores i with
  | some c => c
  | none => { snap := [], path := [], bounds := [], mq := [], regFree := [1024, 1024, 1024, 1024],
              allocs := [[], [], [], []], boost := none, bprice := 0#32 }

/-- The core discards every held line (R191). -/
def State.refresh (s : State) (core : Nat) : State := s.modCore core (fun c => { c with snap := [] })

/-! ### Virtual memory as the device itself reads and writes it -/

/-- Pieces of a range that lie within one line each: address and length, on fuel. -/
def linePieces : Nat → Nat → Nat → List (Nat × Nat)
  | 0, _, _ => []
  | fuel + 1, a, n =>
    if n == 0 then []
    else
      let room := 64 - a % 64
      let k := if n < room then n else room
      (a, k) :: linePieces fuel (a + k) (n - k)

/-- Lines of host memory and of peers that an instruction has read, or has written at a peer (R193, R310). -/
abbrev Got := List (Place × BitVec 512)

/-- Read bytes under a context's translation, at home slices and from the lines that have been fetched; `error k` is a
fault of kind k (R112), which for a line that nothing has fetched is that of its link. -/
def readGot (s : State) (got : Got) (c : CtxKey) (xl : List (BitVec 32)) (priv : Bool) (acc : Acc) (va n : Nat) :
    Except Nat (List Byte) :=
  (linePieces (n + 1) va n).foldlM (fun acc' (a, k) =>
    match translate s c xl priv acc (BitVec.ofNat 64 a) with
    | .error e => .error e
    | .ok (.dev d _) => if poisoned s d then .error 6 else .ok (acc' ++ readBytes s.mem d k)
    | .ok p =>
      match kget got p.line with
      | some x => .ok (acc' ++ leBytes (lineNat x (a % 64) k) k)
      | none => .error (match p with | .sys _ => 8 | _ => 4)) []

/-- Read bytes at home slices. -/
def readVirtual (s : State) (c : CtxKey) (xl : List (BitVec 32)) (priv : Bool) (acc : Acc) (va n : Nat) :
    Except Nat (List Byte) :=
  readGot s [] c xl priv acc va n

/-- A list of bytes as a line image starting at an offset. -/
def bytesLine (o : Nat) (bs : List Byte) : BitVec 512 := BitVec.ofNat 512 (leValue bs * 2 ^ (8 * o))

/-- Write the bytes that lie within one line, from address `x.1` on, of a range that starts at `va`, performed at its home slice.
Host memory takes a posted write (R296); a line of a peer that has been written there is passed over. -/
def writePiece (got : Got) (c : CtxKey) (xl : List (BitVec 32)) (priv : Bool) (va : Nat) (bs : List Byte) (s : State)
    (x : Nat × Nat) : Except Nat State :=
  match translate s c xl priv .write (BitVec.ofNat 64 x.1) with
  | .error e => .error e
  | .ok (.dev d _) =>
    if writeLands s d (byteMask (d % 64) x.2) then
      .ok (s.sliceWrite d (bytesLine (d % 64) ((bs.drop (x.1 - va)).take x.2)) (byteMask (d % 64) x.2))
    else .error 6
  | .ok (.sys h) => .ok (s.send (.write h ((bs.drop (x.1 - va)).take x.2)))
  | .ok p => if (kget got p.line).isSome then .ok s else .error 4

/-- Write bytes line by line; a fault of any kind leaves the remaining lines unwritten and answers `error`. -/
def writeGot (s : State) (got : Got) (c : CtxKey) (xl : List (BitVec 32)) (priv : Bool) (va : Nat) (bs : List Byte) :
    Except Nat State :=
  (linePieces (bs.length + 1) va bs.length).foldlM (writePiece got c xl priv va bs) s

/-- Write bytes with no line of a peer among them. -/
def writeVirtual (s : State) (c : CtxKey) (xl : List (BitVec 32)) (priv : Bool) (va : Nat) (bs : List Byte) :
    Except Nat State :=
  writeGot s [] c xl priv va bs

/-- Write `n` bytes of a record whose encoding the spec leaves open: free values (log entry 10). -/
def State.writeFree (s : State) (c : CtxKey) (xl : List (BitVec 32)) (va n : Nat) : Except Nat State :=
  let (k, s) := s.draw
  writeVirtual s c xl true va ((List.range n).map (fun i => Config.saveByte k i))

/-- The lines of host memory and of peers among the bytes from an address on that have yet to be fetched or written. -/
def remoteLines (s : State) (got : Got) (sys : Bool) (c : CtxKey) (xl : List (BitVec 32)) (priv : Bool) (acc : Acc)
    (va n : Nat) : List (Addr × Place) :=
  (linePieces (n + 1) va n).filterMap (fun (a, _) =>
    match translate s c xl priv acc (BitVec.ofNat 64 a) with
    | .ok (.sys h) => if sys && (kget got (Place.sys h).line).isNone then some (BitVec.ofNat 64 (a / 64 * 64), (Place.sys h).line) else none
    | .ok (.peer p o) => if (kget got (Place.peer p o).line).isNone then some (BitVec.ofNat 64 (a / 64 * 64), (Place.peer p o).line) else none
    | _ => none)

/-! ### Requests to peers and to the host -/

/-- A request goes to a peer, with the next number of its stream (R310); one of a fibre's pod operation names the fibre (R151). -/
def State.sendPeerFor (s : State) (fib source peer off : Nat) (c : CtxKey) (body : PeerBody) : State :=
  let seq := match s.streams.find? (fun x => x.1 == source && x.2.1 == peer) with
    | some x => x.2.2
    | none => 0#16
  let rest := s.streams.filter (fun x => !(x.1 == source && x.2.1 == peer))
  { s with
    streams := rest ++ [(source, peer, seq + 1#16)]
    sent := s.sent ++ [{ peer := peer, stream := source, seq := seq, off := BitVec.ofNat 48 off, ctx := c, body := body,
                         relay := relayTo s peer, fib := fib }] }

def State.sendPeer (s : State) (source peer off : Nat) (c : CtxKey) (body : PeerBody) : State :=
  s.sendPeerFor 0 source peer off c body

/-- A flight that reads lines for a fibre's control instruction or trap, or that writes lines at peers. -/
def deviceFlight (s : State) (fid : Nat) (c : CtxKey) (pc : Addr) (m : LaneMask) (kind : FKind) (lanes : List LaneReq)
    (lines : List LineReq) : Flight :=
  { kind := kind, fib := fid, cmd := none, ctx := c, core := fibCore fid, pc := pc, len := 0, mask := m, dst := [],
    scope := 0, ord := 0, lanes := lanes, lines := lines, stage := .request, done := 0#32, flags := 0#5, since := s.tick,
    retry := 0, split := false, fault := none, waiters := 0 }

/-- Lines are read for a fibre: each once (R193, R310). -/
def State.readLines (s : State) (fid : Nat) (c : CtxKey) (pc : Addr) (m : LaneMask) (lanes : List LaneReq)
    (ls : List (Addr × Place)) : Nat × State :=
  let (id, s) := s.newId
  let lines := ls.eraseDups.map (fun (x : Addr × Place) =>
    ({ va := x.1, place := x.2, ownMask := 0#64, own := 0#512, data := none } : LineReq))
  let s := s.setFlight id (deviceFlight s fid c pc m .device lanes lines)
  (id, lines.foldl (fun (s : State) ln =>
    match ln.place with
    | .sys a => s.send (.read a 64 id)
    | .peer p o => s.sendPeer (fibCore fid) p o c .read
    | .dev _ _ => s) s)

/-- Bytes are written to lines of peers for a fibre. -/
def State.writePeerLines (s : State) (fid : Nat) (c : CtxKey) (pc : Addr) (m : LaneMask) (lanes : List LaneReq)
    (ls : List (Addr × Place × BitVec 64 × BitVec 512)) : Nat × State :=
  let (id, s) := s.newId
  let lines := ls.map (fun (x : Addr × Place × BitVec 64 × BitVec 512) =>
    ({ va := x.1, place := x.2.1, ownMask := x.2.2.1, own := x.2.2.2, data := none } : LineReq))
  let s := s.setFlight id (deviceFlight s fid c pc m .putLines lanes lines)
  (id, lines.foldl (fun (s : State) ln =>
    match ln.place with
    | .peer p o => s.sendPeer (fibCore fid) p o c (.write ln.ownMask ln.own none)
    | _ => s) s)

/-! ### Registers returned, fibres and workgroups removed -/

/-- Registers of a scheduler are returned to its file (R207, R222). -/
def State.returnRegs (s : State) (core sched n : Nat) : State :=
  s.modCore core (fun c => { c with regFree := c.regFree.set sched (c.regFree.getD sched 0 + n) })

/-- The source number under which the device sends pod wakes. -/
def wakeSource : Nat := 2047

/-- Wake one recorded waiter: here it will begin again by POD_WAKE; at a peer a wake travels back (R149, R151). -/
def State.wakeOne (s : State) (w : Nat) : State :=
  if w < 2 ^ 60 then s.modFlight w (fun fl => { fl with waiters := 1 })
  else s.sendPeer wakeSource ((w - 2 ^ 60) / 2 ^ 40) 0 { fn := 0, id := 0 } (.wake (w % 2 ^ 32))

/-- Flights leave the wait tables of this device; the waiters behind them look again (R149, R152). -/
def State.leaveWaits (s : State) (ids : List Nat) : State :=
  let gone := s.podWait.filter (fun e => ids.contains e.2)
  let s := { s with podWait := s.podWait.filter (fun e => !ids.contains e.2) }
  (s.podWait.filter (fun e => gone.any (fun x => x.1 == e.1))).foldl (fun s e => s.wakeOne e.2) s

/-- A flight recorded in a wait table of a peer is withdrawn from it (R152). -/
def State.leavePeer (s : State) (fl : Flight) : State :=
  if fl.stage != .waiting || fl.waiters != 0 then s
  else
    match fl.lanes with
    | x :: _ =>
      match x.place with
      | .peer p _ => s.sendPeer wakeSource p 0 fl.ctx (.leave fl.retry)
      | _ => s
    | [] => s

/-- The number that a flight names as its fibre when its context has ended and its reservation still stands (R152). -/
def orphanFib : Nat := 2 ^ 48

/-- The flights of a workgroup. -/
def wgFlights (s : State) (wid : Nat) : Tbl Flight :=
  s.flights.filter (fun (_, fl) =>
    match fl.cmd with
    | some c =>
      match tget s.cmds c with
      | some x => x.wg == wid
      | none => decide (c < 2 ^ 41)
    | none =>
      match tget s.fibs fl.fib with
      | some f => f.wg == wid
      | none => false)

/-- The flights of a workgroup that goes end and leave every wait table; a pod reservation among them runs to its end, and
writes no register (R152). -/
def State.endFlights (s : State) (wid : Nat) : State :=
  let mine := wgFlights s wid
  let ids := mine.map (·.1)
  let reserved := fun (fl : Flight) => match fl.stage with | .reserved _ => true | _ => false
  let s := mine.foldl (fun (s : State) (_, fl) => s.leavePeer fl) (s.leaveWaits ids)
  { s with flights := (s.flights.filter (fun (i, fl) => !ids.contains i || reserved fl)).map (fun (i, fl) =>
      (i, if ids.contains i then { fl with fib := orphanFib, dst := [] } else fl)) }

/-- Remove a workgroup with its slots, fibres, flights, runners and commands, returning its registers: those of a
place of a continuation pool are held until then (R381). -/
def State.removeWg (s : State) (wid : Nat) : State :=
  match tget s.wgs wid with
  | none => s
  | some w =>
    let pool := match tget s.launches w.lid with
      | some l => l.lr.pool
      | none => false
    let s := w.slots.foldl (fun s sl =>
      match tget s.slots sl with
      | none => s
      | some x =>
        let fs := s.fibs.filter (fun (_, f) => f.slot == sl)
        let n := fs.foldl (fun a (_, f) => if f.exited && !pool then a else a + f.regs.length) 0
        let live := pool || fs.any (fun (_, f) => !f.exited)
        s.returnRegs w.core (sl / 16 % 4) (n + (if live then x.shared.length else 0))) s
    let s := s.endFlights wid
    { s with
      wgs := tdel s.wgs wid
      slots := s.slots.filter (fun (_, x) => x.wg != wid)
      fibs := s.fibs.filter (fun (_, f) => f.wg != wid)
      runners := s.runners.filter (fun (_, r) => r.wg != wid)
      cmds := s.cmds.filter (fun (_, c) => c.wg != wid)
      checkpoints := tdel s.checkpoints wid
      cores := tmod s.cores w.core (fun c =>
        { c with mq := c.mq.filter (fun (_, m) => m.wg != wid)
                 path := c.path.filter (fun (_, e) => e.wg != some wid)
                 allocs := c.allocs.map (fun q => q.filter (fun r =>
                   match tget s.fibs r.fib with
                   | some f => f.wg != wid
                   | none => false)) }) }

/-! ### Queues and completion -/

/-- The address of a queue's descriptor (R366, R367), in the function's device memory. -/
def descAddr (s : State) (q : QueueRef) : Option Nat :=
  match fnRec s q.fn with
  | some f => fnAddr s q.fn ((f.qtab.extractLsb' 6 34).toNat * 64 + 64 * q.q) 64
  | none => none

/-- A field of a queue descriptor by its bit numbers (R367); a descriptor beyond the window reads zero. -/
def descField (s : State) (q : QueueRef) (hi lo : Nat) : Nat :=
  match descAddr s q with
  | some a => bitsOf (readNat s.mem a 64) hi lo
  | none => 0

/-- Write a field of a queue descriptor. -/
def State.setDesc (s : State) (q : QueueRef) (hi lo x : Nat) : State :=
  match descAddr s q with
  | none => s
  | some a =>
    let v := readNat s.mem a 64
    let m := 2 ^ (hi + 1 - lo)
    let v' := v - bitsOf v hi lo * 2 ^ lo + x % m * 2 ^ lo
    s.sliceWrite a (BitVec.ofNat 512 v') (byteMask (lo / 8) (hi / 8 + 1 - lo / 8))

/-- A queue's own progress. -/
def queueOf (s : State) (q : QueueRef) : Queue :=
  match kget s.queues q with
  | some x => x
  | none => { pkts := [] }

def State.setQueue (s : State) (q : QueueRef) (x : Queue) : State := { s with queues := kset s.queues q x }

/-- A CHAIN of a queue has run its whole block (R372). -/
def chainDone (x : Queue) (id : Nat) : Bool :=
  x.pkts.any (fun p => p.id == id && (match p.kind with
    | .chain _ count next => decide (count ≤ next)
    | _ => false)) && !(x.pkts.any (fun p => p.parent == some id))

/-- A packet of a queue has completed (R369, R371, R372): it leaves the list, its interrupt is raised, and the
CHAIN that it ends completes too, on fuel. -/
def State.completeChain : Nat → State → QueueRef → Nat → State
  | 0, s, _, _ => s
  | fuel + 1, s, q, id =>
    let x := queueOf s q
    match x.pkts.find? (fun p => p.id == id) with
    | none => s
    | some p =>
      let y : Queue := { x with pkts := x.pkts.filter (fun p => p.id != id) }
      let s := s.setQueue q y
      let s := if p.irq then s.send (.msix q.fn (descField s q 321 311)) else s
      match p.parent with
      | some c => if chainDone y c then s.completeChain fuel q c else s
      | none => s

def State.completePkt (s : State) (q : QueueRef) (id : Nat) : State := s.completeChain 6 q id

/-- The completion record's 16 bytes (R378). -/
def completionBytes (tick lseq sub status : Nat) : List Byte :=
  leBytes (status + sub % 65536 * 2 ^ 16 + lseq % 2 ^ 32 * 2 ^ 32 + tick % 2 ^ 64 * 2 ^ 64) 16

/-- The release record of the service die's cores for a function, at .sys (R326, R371, R455). -/
def serviceRel (fn : Nat) : RelRec :=
  { scope := 9, fib := 2 ^ 41, lane := 0, wg := 2 ^ 41, core := 2 ^ 41, fn := fn, peer := none }

/-- Bytes of a context that have been written there as a release leave its record with their lines of device memory. -/
def State.releaseBytes (s : State) (c : CtxKey) (xl : List (BitVec 32)) (va n : Nat) : State :=
  (linePieces (n + 1) va n).foldl (fun (s : State) (a, _) =>
    match translate s c xl false .write (BitVec.ofNat 64 a) with
    | .ok (.dev d _) => s.setRel d (some (serviceRel c.fn))
    | _ => s) s

/-- Write a completion record, a release at .sys (R371), and FAILW for statuses 2 to 4 (R374, R378). A write that fails changes nothing. -/
def State.writeCompletion (s : State) (c : CtxKey) (xl : List (BitVec 32)) (recAddr cpla : Addr)
    (lseq sub status failw : Nat) : State :=
  let s := if 2 ≤ status ∧ status ≤ 4 then
      match writeVirtual s c xl false (recAddr.toNat + 124) (leBytes failw 4) with
      | .ok s' => s'
      | .error _ => s
    else s
  if cpla == 0#64 then s
  else
    match writeVirtual s c xl false cpla.toNat (completionBytes s.tick lseq sub status) with
    | .ok s' => s'.releaseBytes c xl cpla.toNat 16
    | .error _ => s

/-- A launch completes with a status (R378): its record, its packet, its entry. -/
def State.completeLaunch (s : State) (lid status sub failw : Nat) : State :=
  match tget s.launches lid with
  | none => s
  | some l =>
    let s := s.writeCompletion l.ctx l.xl l.lr.addr l.lr.cpla l.lseq sub status failw
    let s := { s with launches := tdel s.launches lid, unseen := seenOf lid s.unseen }
    s.completePkt l.qr l.pkt

/-- The SUB field of statuses 2 to 4 (R378). -/
def subOfW (w : Nat) : Nat := if w < 0xFFFF then w else 0xFFFF

/-! ### The end of a boost -/

/-- A record of the non-volatile log waits to be written (R417). -/
def State.nvRecord (s : State) (ty : Nat) (payload : List Byte) : State :=
  { s with nvPending := s.nvPending ++ [(ty, payload)] }

/-- The tick in which a boost's duration runs out (R412, R414). -/
def Boost.stop (b : Boost) : Nat := b.start + b.dur

/-- The ticks for which a boost has been suspended up to now, within its duration (R411, R414). -/
def boostSuspended (s : State) (b : Boost) : Nat :=
  b.suspended + (match b.susp with | some t => min s.tick b.stop - t | none => 0)

/-- End the boost of a core with its refund (R414). -/
def State.endBoost (s : State) (core : Nat) : State :=
  match (coreOf s core).boost with
  | none => s
  | some b =>
    let refund := b.cost * (b.stop - s.tick + boostSuspended s b) / b.dur
    let s := s.modCore core (fun c => { c with boost := none })
    match tget s.parts b.part with
    | none => s
    | some p =>
      let bud := if p.lifebud.toNat + refund < 2 ^ 32 then p.lifebud.toNat + refund else 2 ^ 32 - 1
      let s := { s with parts := tset s.parts b.part { p with lifebud := BitVec.ofNat 32 bud } }
      if refund == 0 then s
      else s.nvRecord 0x12 (leBytes core 2 ++ leBytes b.ctx.id 2 ++ leBytes b.part 1 ++ leBytes b.level 1 ++
        leBytes 0 2 ++ leBytes b.dur 4 ++ leBytes refund 4 ++ leBytes bud 4)

end Sys2Proof.Machine
end

