-- ==== Sys2Proof/Machine/Header.lean ====
section
/-!
DEFINITION. The header that stands before an entry point, and the checks of R97 on it.
-/
namespace Sys2Proof.Machine

/-- The sum of the sixteen words of a header (R96, CHECK). -/
def headerSum (n : Nat) : Nat := ((List.range 16).map (fun i => n / 2 ^ (32 * i) % 2 ^ 32)).sum % 2 ^ 32

/-- A level descriptor holds no reserved code (R86, R96). -/
def levelOk (d : Nat) : Bool := bitsOf d 7 7 == 0 && bitsOf d 6 3 ≤ 9 && bitsOf d 2 0 ≤ 5

/-- The checks of R97 on a header as a number, the use apart; the level descriptors of `nlev` and `lvl`. R96 says that CODESZ
is an even number and R97 does not name it: DEDUCED, an odd one is rejected (log entry 51). -/
def headerOk (n : Nat) : Bool :=
  let nfib := bitsOf n 74 72 + 1
  let lvl := (List.range 6).map (fun i => bitsOf n (255 + 8 * i) (248 + 8 * i))
  let nlev := bitsOf n 242 240
  let codesz := bitsOf n 127 96
  bitsOf n 31 0 == 0x584B4844 && bitsOf n 47 32 == 1 && headerSum n == 0 && bitsOf n 63 56 ≤ 1 &&
  bitsOf n 479 296 == 0 && bitsOf n 247 243 == 0 && bitsOf n 223 209 == 0 && bitsOf n 95 92 == 0 &&
  bitsOf n 79 78 == 0 && bitsOf n 55 50 == 0 &&
  bitsOf n 67 64 != 0 && bitsOf n 67 64 + bitsOf n 71 68 ≤ 8 && bitsOf n 91 80 ≤ 2048 && nfib ≤ 4 &&
  codesz % 2 == 0 &&
  (List.range 4).all (fun k =>
    let r := bitsOf n (143 + 16 * k) (128 + 16 * k)
    if k < nfib then decide (r < codesz / 2) else r == 0) &&
  (bitsOf n 208 208 == 0 || decide (bitsOf n 207 192 < codesz / 2)) &&
  nlev ≤ 6 && lvl.zipIdx.all (fun (d, i) => if i < nlev then levelOk d else d == 0)

/-- The fields of a header at an entry point (R96): registers in units of one, SCRATCH in bytes. -/
def headerOf (entry : Addr) (n : Nat) : Header :=
  let nlev := bitsOf n 242 240
  { entry := entry, priv := 8 * bitsOf n 67 64, shared := 8 * bitsOf n 71 68, nfib := bitsOf n 74 72 + 1,
    scratch := 256 * bitsOf n 91 80,
    roles := (List.range 4).map (fun k => bitsOf n (143 + 16 * k) (128 + 16 * k)),
    codesz := bitsOf n 127 96, kind := bitsOf n 49 48,
    trapent := if bitsOf n 208 208 == 1 then some (bitsOf n 207 192) else none,
    nlev := nlev, lvl := (List.range nlev).map (fun i => BitVec.ofNat 8 (bitsOf n (255 + 8 * i) (248 + 8 * i))),
    shdw := bitsOf n 75 75 == 1, rdnc := bitsOf n 76 76 == 1, detc := bitsOf n 77 77 == 1 }

/-- The header of a handler passes (R386). -/
def handlerHeaderOk (n : Nat) : Bool :=
  let h := headerOf 0#64 n
  headerOk n && h.kind == 2 && h.shared == 0 && h.nfib == 1 && h.scratch == 0 && h.nlev == 0 && h.roles.all (· == 0) &&
  h.trapent.isNone && !h.rdnc && !h.detc

/-- The header of a runner program passes (R97, R173); `det` is the launch's deterministic mode. -/
def runnerHeaderOk (n : Nat) (det : Bool) : Bool :=
  let h := headerOf 0#64 n
  headerOk n && h.kind == 1 && h.shared == 0 && h.nfib == 1 && h.scratch == 0 && h.roles.all (· == 0) &&
  h.trapent.isNone && h.nlev == 0 && !h.rdnc && (!det || h.detc)

end Sys2Proof.Machine
end

