-- ==== Sys2Proof/Machine/Float.lean ====
section
/-!
DEFINITION. The number formats: exact decoding (R33 to R41), the rounding functions with their flags
(R44, R45, R47), conversions (R49), and the exact single-operand functions of R242. A finite value is kept
as a sign, a natural significand and a binary exponent, so that nothing is lost before the one
rounding; an irrational result is kept as a significand that stands strictly inside the right interval.
-/
namespace Sys2Proof.Machine

/-- A decoded operand: a NaN (signalling or not), an infinity, or `(-1)^neg * m * 2^e`. -/
inductive Num where
  | nan (sig : Bool)
  | inf (neg : Bool)
  | fin (neg : Bool) (m : Nat) (e : Int)
  deriving DecidableEq, Repr

/-- Flags of R50: bit 4 NV, 3 DZ, 2 OF, 1 UF, 0 NX. -/
abbrev Flags5 := BitVec 5

def Flags5.none : Flags5 := 0#5
def Flags5.nx : Flags5 := 1#5
def Flags5.uf : Flags5 := 2#5
def Flags5.ovf : Flags5 := 4#5
def Flags5.dz : Flags5 := 8#5
def Flags5.nv : Flags5 := 16#5

/-- The parameters of a float format (R34): `ieee` says that the all-ones exponent is special. -/
structure Fmt where
  eb : Nat
  mb : Nat
  bias : Nat
  ieee : Bool
  deriving DecidableEq, Repr

/-- The formats of R34 by type code. -/
def fmtOf (t : BitVec 4) : Fmt :=
  match t.toNat with
  | 9 => { eb := 5, mb := 10, bias := 15, ieee := true }
  | 10 => { eb := 8, mb := 7, bias := 127, ieee := true }
  | 12 => { eb := 4, mb := 3, bias := 7, ieee := false }
  | 13 => { eb := 5, mb := 2, bias := 15, ieee := true }
  | 14 => { eb := 2, mb := 1, bias := 1, ieee := false }
  | _ => { eb := 8, mb := 23, bias := 127, ieee := true }

/-- The number of bits of an element of a type (R33, R34, R39, R41). -/
def typeBits (t : BitVec 4) : Nat :=
  match t.toNat with
  | 0 | 4 | 8 => 32
  | 1 | 5 | 9 | 10 => 16
  | 14 | 15 => 4
  | _ => 8

/-- The type is an integer type (R33). -/
def isIntType (t : BitVec 4) : Bool := tyIn t intTypes

/-- The type is a signed integer type (R33). -/
def isSigned (t : BitVec 4) : Bool := tyIn t [0, 1, 2]

/-- The value that the low bits of a pattern have under an integer type (R227). -/
def intOf (t : BitVec 4) (x : Nat) : Int :=
  let w := typeBits t
  let u := x % 2 ^ w
  if isSigned t && u ≥ 2 ^ (w - 1) then (u : Int) - 2 ^ w else u

/-- The low 32 bits of an integer, two's complement. -/
def wordOfInt (r : Int) : Word := BitVec.ofInt 32 r

/-- The smallest and the largest value of an integer type (R33). -/
def intMin (t : BitVec 4) : Int := if isSigned t then -(2 ^ (typeBits t - 1)) else 0
def intMax (t : BitVec 4) : Int :=
  if isSigned t then 2 ^ (typeBits t - 1) - 1 else 2 ^ typeBits t - 1

/-- sat(x, T) of R33. -/
def satInt (t : BitVec 4) (r : Int) : Int :=
  if r < intMin t then intMin t else if intMax t < r then intMax t else r

/-- wrap(x, T) of R227. -/
def wrapInt (t : BitVec 4) (r : Int) : Int :=
  intOf t (r % (2 ^ typeBits t : Int)).toNat

/-- The clamp of an integer to a range. -/
def clampInt (lo hi r : Int) : Int := if r < lo then lo else if hi < r then hi else r

/-- Decode a float pattern (R34 to R38). -/
def decodeFloat (t : BitVec 4) (x : Nat) : Num :=
  let f := fmtOf t
  let w := 1 + f.eb + f.mb
  let v := x % 2 ^ w
  let neg := v ≥ 2 ^ (w - 1)
  let ex := bitsOf v (f.mb + f.eb - 1) f.mb
  let m := v % 2 ^ f.mb
  if t == Ty.e4 && v == 0x80 then .nan false
  else if f.ieee && ex == 2 ^ f.eb - 1 then
    if m == 0 then .inf neg else .nan (m < 2 ^ (f.mb - 1))
  else if ex == 0 then .fin neg m (1 - (f.bias : Int) - f.mb)
  else .fin neg (2 ^ f.mb + m) ((ex : Int) - f.bias - f.mb)

/-- The number of an integer. -/
def numOfInt (r : Int) : Num := .fin (r < 0) r.natAbs 0

/-- Decode a pattern under any type of CVT (R49). -/
def decodeNum (t : BitVec 4) (x : Nat) : Num :=
  if isIntType t then numOfInt (intOf t x) else decodeFloat t x

/-- The canonical NaN of a format (R36); .f4 has none and takes +0 (R38). -/
def canonNaN (t : BitVec 4) : Nat :=
  match t.toNat with
  | 9 => 0x7E00
  | 10 => 0x7FC0
  | 12 => 0x80
  | 13 => 0x7E
  | 14 => 0
  | _ => 0x7FC00000

/-- The pattern of a sign, an exponent field and a mantissa field. -/
def packFloat (f : Fmt) (neg : Bool) (ex m : Nat) : Nat :=
  (if neg then 2 ^ (f.eb + f.mb) else 0) + ex * 2 ^ f.mb + m

/-- A zero of the format; .e4 has no negative zero (R37). -/
def zeroPat (t : BitVec 4) (neg : Bool) : Nat := packFloat (fmtOf t) (neg && t != Ty.e4) 0 0

/-- An infinity of an IEEE-like format (R36). -/
def infPat (t : BitVec 4) (neg : Bool) : Nat := packFloat (fmtOf t) neg (2 ^ (fmtOf t).eb - 1) 0

/-- The largest exponent field of a finite value. -/
def maxExp (f : Fmt) : Nat := if f.ieee then 2 ^ f.eb - 2 else 2 ^ f.eb - 1

/-- The largest finite value of the format (R34). -/
def maxPat (t : BitVec 4) (neg : Bool) : Nat :=
  packFloat (fmtOf t) neg (maxExp (fmtOf t)) (2 ^ (fmtOf t).mb - 1)

/-- A result pattern with its flags. -/
structure Rounded where
  pat : Nat
  fl : Flags5
  deriving DecidableEq, Repr

/-- Round the magnitude `m * 2^(-sh)` to an integer under a mode with draw `u` (R44, R47); the second
component says whether it was inexact. A negative `sh` shifts left. -/
def roundMag (neg : Bool) (mode u m : Nat) (sh : Int) : Nat × Bool :=
  if sh ≤ 0 then (m * 2 ^ (-sh).toNat, false)
  else
    let k := sh.toNat
    let lo := m / 2 ^ k
    let rem := m % 2 ^ k
    if rem == 0 then (lo, false)
    else
      let up := match mode with
        | 0 => 2 * rem > 2 ^ k || (2 * rem == 2 ^ k && lo % 2 == 1)
        | 1 => false
        | 2 => !neg
        | 3 => neg
        | _ => decide (u < rem * 2 ^ 16 / 2 ^ k)
      (if up then lo + 1 else lo, true)

/-- The bit length of a natural number. -/
def bitLen (m : Nat) : Nat := if m == 0 then 0 else Nat.log2 m + 1

/-- Overflow of R45 with its flags; `.e4`, `.f4` and `.sat` give the largest finite value. -/
def overflowPat (t : BitVec 4) (mode : Nat) (sat neg : Bool) : Rounded :=
  let big := mode == 0 || mode == 4 || (mode == 2 && !neg) || (mode == 3 && neg)
  { pat := if (fmtOf t).ieee && !sat && big then infPat t neg else maxPat t neg,
    fl := Flags5.ovf ||| Flags5.nx }

/-- round_mode(x, T) of a finite value that is not zero (R44, R45, R47). -/
def roundFin (t : BitVec 4) (mode u : Nat) (sat neg : Bool) (m : Nat) (e : Int) : Rounded :=
  let f := fmtOf t
  let top := (bitLen m : Int) - 1 + e
  let emin := 1 - (f.bias : Int)
  let q := (if top < emin then emin else top) - f.mb
  let (r0, inexact) := roundMag neg mode u m (q - e)
  let carry := r0 ≥ 2 ^ (f.mb + 1)
  let r := if carry then r0 / 2 else r0
  let q := if carry then q + 1 else q
  let fl := (if inexact then Flags5.nx else Flags5.none) |||
    (if inexact && decide (top < emin) then Flags5.uf else Flags5.none)
  if r == 0 then { pat := zeroPat t neg, fl := fl }
  else
    let ex : Int := if r ≥ 2 ^ f.mb then q + f.mb + f.bias else 0
    if ex > maxExp f then overflowPat t mode sat neg
    else { pat := packFloat f neg ex.toNat (r % 2 ^ f.mb), fl := fl }

/-- Convert a decoded value to a float format (R45, R49). The caller takes the draw. DESIGN CHOICE (log 51): a NaN
converted from .e4 to .e4 fits two rows of R49, and sets NV here as every NaN made .e4 does. -/
def toFloat (t : BitVec 4) (mode u : Nat) (sat : Bool) (x : Num) : Rounded :=
  let f := fmtOf t
  match x with
  | .nan sig =>
    { pat := canonNaN t, fl := if sig || !f.ieee then Flags5.nv else Flags5.none }
  | .inf neg =>
    if f.ieee && !sat then { pat := infPat t neg, fl := Flags5.none }
    else { pat := maxPat t neg, fl := Flags5.nx }
  | .fin neg m e =>
    if m == 0 then { pat := zeroPat t neg, fl := Flags5.none } else roundFin t mode u sat neg m e

/-- The integer nearest to a finite value under a mode, and whether it was inexact. -/
def roundInt (mode u : Nat) (neg : Bool) (m : Nat) (e : Int) : Int × Bool :=
  let (r, inexact) := roundMag neg mode u m (-e)
  (if neg then -(r : Int) else r, inexact)

/-- Float to integer over a range (R49): out of range saturates with NV, a NaN gives 0 with NV. -/
def toIntRange (lo hi : Int) (mode u : Nat) (x : Num) : Int × Flags5 :=
  match x with
  | .nan _ => (0, Flags5.nv)
  | .inf neg => (if neg then lo else hi, Flags5.nv)
  | .fin neg m e =>
    let (r, inexact) := roundInt mode u neg m e
    if r < lo || hi < r then (clampInt lo hi r, Flags5.nv)
    else (r, if inexact then Flags5.nx else Flags5.none)

/-- The word that holds one element of a type in a lane (R31). -/
def elemWord (t : BitVec 4) (x : Nat) : Word :=
  if isIntType t then wordOfInt (intOf t x) else BitVec.ofNat 32 (x % 2 ^ typeBits t)

/-- One conversion of R49 as R246 extends it: the result word and the flags. -/
def convert (t s : BitVec 4) (mode u : Nat) (sat : Bool) (x : Nat) : Word × Flags5 :=
  if isIntType t then
    if isIntType s then
      let v := intOf s x
      (wordOfInt (if sat then satInt t v else wrapInt t v), Flags5.none)
    else
      let (r, fl) := toIntRange (intMin t) (intMax t) mode u (decodeFloat s x)
      (wordOfInt r, fl)
  else
    let r := toFloat t mode u sat (decodeNum s x)
    (BitVec.ofNat 32 r.pat, r.fl)

/-! ### Exact arithmetic on finite values -/

/-- The signed significand of a finite value at exponent `e0 ≤ e`. -/
def signedAt (neg : Bool) (m : Nat) (e e0 : Int) : Int :=
  let k : Int := (m : Int) * 2 ^ (e - e0).toNat
  if neg then -k else k

/-- The exact sum of two finite values; the sign of a zero sum is R239's, `rm` says that the mode is .rm. -/
def addFin (rm : Bool) (n1 : Bool) (m1 : Nat) (e1 : Int) (n2 : Bool) (m2 : Nat) (e2 : Int) : Num :=
  if m1 == 0 && m2 == 0 then .fin (if n1 == n2 then n1 else rm) 0 0
  else if m1 == 0 then .fin n2 m2 e2
  else if m2 == 0 then .fin n1 m1 e1
  else
    let e0 := if e1 < e2 then e1 else e2
    let z := signedAt n1 m1 e1 e0 + signedAt n2 m2 e2 e0
    if z == 0 then .fin rm 0 0 else .fin (z < 0) z.natAbs e0

/-- The exact sum of R239 with the flag of an invalid operation. -/
def addNum (rm : Bool) (x y : Num) : Num × Flags5 :=
  match x, y with
  | .nan s, .nan s' => (.nan (s || s'), Flags5.none)
  | .nan s, _ => (.nan s, Flags5.none)
  | _, .nan s => (.nan s, Flags5.none)
  | .inf n, .inf n' => if n == n' then (.inf n, Flags5.none) else (.nan false, Flags5.nv)
  | .inf n, .fin _ _ _ => (.inf n, Flags5.none)
  | .fin _ _ _, .inf n => (.inf n, Flags5.none)
  | .fin n1 m1 e1, .fin n2 m2 e2 => (addFin rm n1 m1 e1 n2 m2 e2, Flags5.none)

/-- The exact product of R239 with the flag of an invalid operation. -/
def mulNum (x y : Num) : Num × Flags5 :=
  match x, y with
  | .nan s, .nan s' => (.nan (s || s'), Flags5.none)
  | .nan s, _ => (.nan s, Flags5.none)
  | _, .nan s => (.nan s, Flags5.none)
  | .inf n, .inf n' => (.inf (n != n'), Flags5.none)
  | .inf n, .fin n' m _ => if m == 0 then (.nan false, Flags5.nv) else (.inf (n != n'), Flags5.none)
  | .fin n' m _, .inf n => if m == 0 then (.nan false, Flags5.nv) else (.inf (n != n'), Flags5.none)
  | .fin n1 m1 e1, .fin n2 m2 e2 => (.fin (n1 != n2) (m1 * m2) (e1 + e2), Flags5.none)

/-- The negative of a value (R239: FSUB). -/
def negNum : Num → Num
  | .nan s => .nan s
  | .inf n => .inf (!n)
  | .fin n m e => .fin (!n) m e

/-- A signalling NaN sets NV as an operand (R238). -/
def sigFlag : Num → Flags5
  | .nan true => Flags5.nv
  | _ => Flags5.none

/-- a × b + c before its one rounding (R54, R239); an invalid product gives NaN and NV even beside a quiet
NaN addend. -/
def fmaNum (rm : Bool) (x y z : Num) : Num × Flags5 :=
  let (p, f1) := mulNum x y
  let (r, f2) := addNum rm p z
  (r, f1 ||| f2)

/-- The order of R133 and R240: −0 below +0. Both values are numbers. -/
def numLt (x y : Num) : Bool :=
  match x, y with
  | .inf n, .inf n' => n && !n'
  | .inf n, _ => n
  | _, .inf n' => !n'
  | .fin n1 m1 e1, .fin n2 m2 e2 =>
    if m1 == 0 && m2 == 0 then n1 && !n2
    else
      let e0 := if e1 < e2 then e1 else e2
      decide (signedAt n1 m1 e1 e0 < signedAt n2 m2 e2 e0)
  | _, _ => false

/-- Numeric equality: −0 equals +0 (R241). -/
def numEq (x y : Num) : Bool :=
  match x, y with
  | .inf n, .inf n' => n == n'
  | .fin n1 m1 e1, .fin n2 m2 e2 =>
    if m1 == 0 && m2 == 0 then true
    else
      let e0 := if e1 < e2 then e1 else e2
      signedAt n1 m1 e1 e0 == signedAt n2 m2 e2 e0
  | _, _ => false

/-- The value is a NaN. -/
def Num.isNan : Num → Bool
  | .nan _ => true
  | _ => false

/-- FMIN and FMAX of two patterns (R240): one of the operands, or the canonical NaN. -/
def fminmax (t : BitVec 4) (isMax : Bool) (a b : Nat) : Nat × Flags5 :=
  let x := decodeFloat t a
  let y := decodeFloat t b
  let fl := sigFlag x ||| sigFlag y
  let w := 2 ^ typeBits t
  let r :=
    if x.isNan then (if y.isNan then canonNaN t else b % w)
    else if y.isNan then a % w
    else if isMax then (if numLt x y then b % w else a % w)
    else (if numLt y x then b % w else a % w)
  (r, fl)

/-- FCMP (R241) by condition code of R83. -/
def fcmp (cc : Nat) (x y : Num) : Bool × Flags5 :=
  let un := x.isNan || y.isNan
  let sig := sigFlag x ||| sigFlag y
  let ord := if un then Flags5.nv else Flags5.none
  match cc with
  | 0 => (!un && numEq x y, sig)
  | 1 => (un || !numEq x y, sig)
  | 2 => (!un && numLt x y && !numEq x y, ord)
  | 3 => (!un && (numLt x y || numEq x y), ord)
  | 4 => (!un && numLt y x && !numEq x y, ord)
  | 5 => (!un && (numLt y x || numEq x y), ord)
  | 6 => (un, sig)
  | _ => (!un, sig)

/-- FCLASS (R244). -/
def fclass (t : BitVec 4) (x : Nat) : Word :=
  let f := fmtOf t
  let ex := bitsOf x (f.mb + f.eb - 1) f.mb
  match decodeFloat t x with
  | .nan true => 0x100#32
  | .nan false => 0x200#32
  | .inf neg => if neg then 0x001#32 else 0x080#32
  | .fin neg m _ =>
    if m == 0 then (if neg then 0x008#32 else 0x010#32)
    else if ex == 0 then (if neg then 0x004#32 else 0x020#32)
    else (if neg then 0x002#32 else 0x040#32)

/-! ### The exact functions of R242

Each answers a `Num` whose rounding is the rounding of the exact value. Where the exact value is no dyadic
number, the answer's significand is odd and stands strictly between the two dyadic numbers of its
precision that enclose the exact value. -/

/-- The fraction bits of the fixed-point evaluations. -/
def wBits : Nat := 704

/-- floor(π × 2^704). -/
def piW : Nat :=
  0x3243f6a8885a308d313198a2e03707344a4093822299f31d0082efa98ec4e6c89452821e638d01377be5466cf34e90c6cc0ac29b7c97c50dd3f84d5b5b54709179216d5d98979fb1bd1310ba698dfb5ac2ffd72dbd01adfb7

/-- floor(ln 2 × 2^704). -/
def ln2W : Nat :=
  0xb17217f7d1cf79abc9e3b39803f2f6af40f343267298b62d8a0d175b8baafa2be7b876206debac98559552fb4afa1b10ed2eae35c138214427573b291169b8253e96ca16224ae8c51acbda11317c387eb9ea9bc3b136603b

/-- Fixed-point product. -/
def fmulW (a b : Nat) : Nat := a * b / 2 ^ wBits

/-- 2^704, the fixed-point one. -/
def oneW : Nat := 2 ^ wBits

/-- The value `n × 2^(-704)`, known only to lie within the last bits dropped: 40 guard bits are cut and
the rest is made odd one place further down. -/
def inexactW (neg : Bool) (n : Nat) (e : Int) : Num :=
  .fin neg (2 * (n / 2 ^ 40) + 1) (e - wBits + 39)

/-- Taylor sum of exp at a fixed-point `r`: term `t` of index `k`, `fuel` terms left. -/
def expSeries (r : Nat) : Nat → Nat → Nat → Nat
  | 0, _, _ => 0
  | fuel + 1, k, t => t + expSeries r fuel (k + 1) (fmulW t r / k)

/-- exp of a fixed-point argument below 1. -/
def expW (r : Nat) : Nat := expSeries r 160 1 oneW

/-- Alternating Taylor sum with ratio `y2 / (k (k + 1))`: even terms added, odd terms subtracted. -/
def altSeries (y2 : Nat) : Nat → Nat → Nat → Int
  | 0, _, _ => 0
  | fuel + 1, k, t => (t : Int) - altSeries y2 fuel (k + 2) (fmulW t y2 / (k * (k + 1)))

/-- sin of a fixed-point argument in radians between 0 and 2. -/
def sinW (y : Nat) : Nat := (altSeries (fmulW y y) 90 2 y).toNat

/-- cos of a fixed-point argument in radians between 0 and 2. -/
def cosW (y : Nat) : Nat := (altSeries (fmulW y y) 90 1 oneW).toNat

/-- Sum of t^(2k+1) / (2k+1). -/
def atanhSeries (t2 : Nat) : Nat → Nat → Nat → Nat
  | 0, _, _ => 0
  | fuel + 1, k, t => t / k + atanhSeries t2 fuel (k + 2) (fmulW t t2)

/-- ln of `oneW + f` for a fixed-point `f` below 1. -/
def lnW (f : Nat) : Nat :=
  let t := f * oneW / (2 * oneW + f)
  2 * atanhSeries (fmulW t t) 240 1 t

/-- The fixed-point value of `m × 2^e`, rounded down. -/
def toW (m : Nat) (e : Int) : Nat :=
  let s := e + wBits
  if s ≥ 0 then m * 2 ^ s.toNat else m / 2 ^ (-s).toNat

/-- 2^(m × 2^e) for a value given by its sign. -/
def exp2Fin (neg : Bool) (m : Nat) (e : Int) : Num :=
  let big := (bitLen m : Int) + e > 11
  if m == 0 then .fin false 1 0
  else if big then .fin false 1 (if neg then -2048 else 2048)
  else
    -- the integer part n and the fixed-point fraction f of the signed argument
    let x := toW m e
    let whole := x / oneW
    let frac := x % oneW
    let exact := e ≥ 0 || m % 2 ^ (-e).toNat == 0
    if exact then .fin false 1 (if neg then -(whole : Int) else whole)
    else
      -- a fraction below the fixed-point precision still moves the result off 1
      let f := if neg then oneW - frac else frac
      let n : Int := if neg then -(whole : Int) - 1 else whole
      inexactW false (expW (fmulW f ln2W)) n

/-- log2 of a positive value. -/
def log2Fin (m : Nat) (e : Int) : Num :=
  let k : Nat := Nat.log2 m
  let n : Int := e + k
  let f := (m - 2 ^ k) * 2 ^ (wBits - k)
  if f == 0 then numOfInt n
  else
    let l := lnW f * oneW / ln2W
    let v : Int := n * oneW + l
    inexactW (v < 0) v.natAbs 0

/-- Newton's iteration for the integer square root, on fuel. -/
def isqrtLoop (n : Nat) : Nat → Nat → Nat
  | 0, x => x
  | fuel + 1, x =>
    let y := (x + n / x) / 2
    if y < x then isqrtLoop n fuel y else x

/-- floor(√n). -/
def isqrt (n : Nat) : Nat :=
  if n == 0 then 0 else isqrtLoop n 64 (2 ^ (bitLen n / 2 + 1))

/-- A significand with a sticky bit appended: exact when `ex` holds. -/
def stickyNum (neg : Bool) (n : Nat) (ex : Bool) (e : Int) : Num :=
  .fin neg (2 * n + (if ex then 0 else 1)) (e - 1)

/-- √(m × 2^e). -/
def sqrtFin (m : Nat) (e : Int) : Num :=
  let odd := e % 2 == 1
  let m1 := if odd then 2 * m else m
  let e1 := if odd then e - 1 else e
  let n := m1 * 2 ^ 256
  let r := isqrt n
  stickyNum false r (r * r == n) (e1 / 2 - 128)

/-- 1 / (m × 2^e). -/
def rcpFin (neg : Bool) (m : Nat) (e : Int) : Num :=
  stickyNum neg (2 ^ 256 / m) (2 ^ 256 % m == 0) (-e - 256)

/-- 1 / √(m × 2^e). -/
def rsqFin (m : Nat) (e : Int) : Num :=
  let odd := e % 2 == 1
  let m1 := if odd then 2 * m else m
  let e1 := if odd then e - 1 else e
  let r := isqrt (2 ^ 512 / m1)
  stickyNum false r (r * r * m1 == 2 ^ 512) (-(e1 / 2) - 256)

/-- The fixed-point π r of a fixed-point r. -/
def piTimes (r : Nat) : Nat := fmulW r piW

/-- The value reduced modulo 2, in 2^(-704) units: exact for every operand format. -/
def mod2W (m : Nat) (e : Int) : Nat :=
  let s := e + wBits
  if s ≥ 0 then m * 2 ^ s.toNat % (2 * oneW) else m / 2 ^ (-s).toNat % (2 * oneW)

/-- sin(π x) with the zero signs of R242. -/
def sinPiFin (neg : Bool) (m : Nat) (e : Int) : Num :=
  let r := mod2W m e
  let half := oneW / 2
  let neg' := neg != decide (r ≥ oneW)
  let q := r % oneW
  if q == 0 then .fin neg 0 0
  else if q == half then .fin neg' 1 0
  else
    -- sin(π q) = sin(π (1 - q)), and above a quarter it is the cosine of the complement
    let a := if q < half then q else oneW - q
    let v := if a < oneW / 4 then sinW (piTimes a) else cosW (piTimes (half - a))
    inexactW neg' v 0

/-- cos(π x) with the zero sign of R242. -/
def cosPiFin (m : Nat) (e : Int) : Num :=
  let r := mod2W m e
  let half := oneW / 2
  -- cos is even about 1 in half-turns
  let q := if r > oneW then 2 * oneW - r else r
  if q == 0 then .fin false 1 0
  else if q == oneW then .fin true 1 0
  else if q == half then .fin false 0 0
  else
    let neg := decide (q > half)
    let a := if neg then oneW - q else q
    let v := if a < oneW / 4 then cosW (piTimes a) else sinW (piTimes (half - a))
    inexactW neg v 0

/-- tanh(x). A magnitude below 2^-100 lies just below itself; one above 64 lies just below 1. -/
def tanhFin (neg : Bool) (m : Nat) (e : Int) : Num :=
  let top := (bitLen m : Int) + e
  if m == 0 then .fin neg 0 0
  else if top < -100 then .fin neg (m * 2 ^ 160 - 1) (e - 160)
  else if top > 6 then .fin neg (2 ^ 160 - 1) (-160)
  else
    -- y = e^(-2|x|) = 2^(-k) e^(-g), with 2|x| = k ln 2 + g
    let x2 := 2 * toW m e
    let k := x2 / ln2W
    let g := x2 % ln2W
    let y := oneW * oneW / expW g / 2 ^ k
    inexactW neg ((oneW - y) * oneW / (oneW + y)) 0

/-- A function of R242 by opcode8 low bits 5 to 12, before its rounding, with the flags of its special
operands. -/
def specialFn (op : Nat) (x : Num) : Num × Flags5 :=
  match op, x with
  | _, .nan s => (.nan s, Flags5.none)
  | 0x25, .inf n => (.fin n 0 0, Flags5.none)
  | 0x25, .fin n m e => if m == 0 then (.inf n, Flags5.dz) else (rcpFin n m e, Flags5.none)
  | 0x26, .inf n => if n then (.nan false, Flags5.nv) else (.fin false 0 0, Flags5.none)
  | 0x26, .fin n m e =>
    if m == 0 then (.inf n, Flags5.dz) else if n then (.nan false, Flags5.nv) else (rsqFin m e, Flags5.none)
  | 0x27, .inf n => if n then (.nan false, Flags5.nv) else (.inf false, Flags5.none)
  | 0x27, .fin n m e =>
    if m == 0 then (.fin n 0 0, Flags5.none) else if n then (.nan false, Flags5.nv) else (sqrtFin m e, Flags5.none)
  | 0x28, .inf n => if n then (.fin false 0 0, Flags5.none) else (.inf false, Flags5.none)
  | 0x28, .fin n m e => (exp2Fin n m e, Flags5.none)
  | 0x29, .inf n => if n then (.nan false, Flags5.nv) else (.inf false, Flags5.none)
  | 0x29, .fin n m e =>
    if m == 0 then (.inf true, Flags5.dz) else if n then (.nan false, Flags5.nv) else (log2Fin m e, Flags5.none)
  | 0x2A, .inf _ => (.nan false, Flags5.nv)
  | 0x2A, .fin n m e => if m == 0 then (.fin n 0 0, Flags5.none) else (sinPiFin n m e, Flags5.none)
  | 0x2B, .inf _ => (.nan false, Flags5.nv)
  | 0x2B, .fin _ m e => (cosPiFin m e, Flags5.none)
  | 0x2C, .inf n => (.fin n 1 0, Flags5.none)
  | _, .inf n => (.inf n, Flags5.none)
  | 0x2C, .fin n m e => (tanhFin n m e, Flags5.none)
  | _, .fin n m e => (.fin n m e, Flags5.none)

/-- FRND (R243): an integral value of T, a zero with the sign of x, NV for a signalling NaN alone. -/
def frnd (t : BitVec 4) (mode u : Nat) (x : Num) : Rounded :=
  match x with
  | .nan s => { pat := canonNaN t, fl := if s then Flags5.nv else Flags5.none }
  | .inf n => { pat := infPat t n, fl := Flags5.none }
  | .fin n m e =>
    if m == 0 then { pat := zeroPat t n, fl := Flags5.none }
    else
      let (r, _) := roundMag n mode u m (-e)
      if r == 0 then { pat := zeroPat t n, fl := Flags5.none }
      else { pat := (roundFin t 1 0 false n r 0).pat, fl := Flags5.none }

end Sys2Proof.Machine
end

