-- ==== Sys2Proof/Machine/PodBlock.lean ====
section
/-!
DEFINITION. The control block of a pod (R141), its check (R142), the counters of ENQ and DEQ (R145), and
the element storage (R141, R150). A block is read as its sixteen little-endian words.
-/
namespace Sys2Proof.Machine

/-- The sixteen words of a control block. -/
def podWords (s : State) (dpa : Nat) : List Word := (List.range 16).map (fun i => readWord s.mem (dpa + 4 * i))

/-- Word `i` of a block. -/
def podW (b : List Word) (i : Nat) : Word := b.getD i 0#32

/-- Fields of a block by name (R141). -/
def podCap (b : List Word) : Nat := 2 ^ ((podW b 0).extractLsb' 8 5).toNat
def podEsz (b : List Word) : Nat := ((podW b 0).extractLsb' 16 2).toNat
def podSeq (b : List Word) : Bool := (podW b 0).getLsbD 21
def podClosed (b : List Word) : Bool := (podW b 0).getLsbD 22
def podCorr (b : List Word) : Bool := (podW b 0).getLsbD 23
def podFree (b : List Word) : Word := podW b 7
def podEnqr (b : List Word) : Word := podW b 8
def podEnqc (b : List Word) : Word := podW b 9
def podDeqr (b : List Word) : Word := podW b 10
def podDeqc (b : List Word) : Word := podW b 11
def podEtkt (b : List Word) : Word := podW b 12
def podDtkt (b : List Word) : Word := podW b 13

/-- The sum of a list of words modulo 2^32. -/
def sumWords (b : List Word) : Word := b.foldl (· + ·) 0#32

/-- A block with its CHECK word recomputed (R141). -/
def podSeal (b : List Word) : List Word := b.set 15 (0#32 - sumWords (b.take 15))

/-- The bits of word 0 that the block's configuration may set (R141, R147). -/
def podConfigMask : Word := 0x00231F00#32

/-- The storage of a configuration stays in a page of `size` bytes that maps the block at `off` (R141). -/
def podFits (config : Word) (off size : Nat) : Bool :=
  let cap := 2 ^ (config.extractLsb' 8 5).toNat
  let esize := 4 * 2 ^ (config.extractLsb' 16 2).toNat
  decide (off + 64 + cap * esize ≤ size)

/-- The check of R142 apart from CORR: the block at offset `off` of its page of `size` bytes is sound. -/
def podSound (b : List Word) (off size : Nat) : Bool :=
  let cap := podCap b
  podW b 1 == 0x504F4453#32 && sumWords b == 0#32 && podW b 14 == 0#32 &&
  ((List.range 5).all (fun i => podW b (2 + i) == 0#32)) &&
  (podW b 0 &&& ~~~ 0x00E31F00#32) == 0#32 &&
  ((podW b 0).extractLsb' 8 5).toNat ≤ 24 && podFits (podW b 0) off size &&
  (podDeqr b - podDeqc b).toNat ≤ cap && (podEnqc b - podDeqr b).toNat ≤ cap &&
  (podEnqr b - podEnqc b).toNat ≤ cap && (podEnqr b - podDeqc b).toNat ≤ cap &&
  podFree b == BitVec.ofNat 32 cap - (podEnqr b - podDeqc b)

/-- The block passes the check of R142. -/
def podOk (b : List Word) (off size : Nat) : Bool := podSound b off size && !podCorr b

/-- Write a block, its CHECK recomputed, as one event at the control slice; as a read-modify-write it keeps the
line's release record (R326). -/
def State.podWrite (s : State) (dpa : Nat) (b : List Word) : State :=
  s.putMem dpa (((podSeal b).map (fun w => leBytes w.toNat 4)).flatten)

/-- Mark a block corrupt (R142). -/
def State.podCorrupt (s : State) (dpa : Nat) : State :=
  let b := podWords s dpa
  s.podWrite dpa (b.set 0 (podW b 0 ||| 0x00800000#32))

/-- The address of slot `i` of a block. -/
def podSlot (dpa : Nat) (b : List Word) (i : Nat) : Nat := dpa + 64 + (i % podCap b) * (4 * 2 ^ podEsz b)

/-- Write one element, line by line; a line that is poisoned keeps its bytes and gives a record (R150). -/
def State.podPut (s : State) (dpa : Nat) (b : List Word) (i : Nat) (words : List Word) (c : CtxKey) : State :=
  let a := podSlot dpa b i
  let bs := (words.map (fun w => leBytes w.toNat 4)).flatten
  (linePieces (bs.length + 1) a bs.length).foldl (fun (s : State) (p : Nat × Nat) =>
    if poisoned s p.1 then s.errorRecord (dieOf p.1) 0x04 0 dpa (i % podCap b) 0 0#32 (some c) 0#8
    else
      s.sliceWrite p.1 (bytesLine (p.1 % 64) ((bs.drop (p.1 - a)).take p.2)) (byteMask (p.1 % 64) p.2)) s

/-- Read one element, or nothing when it lies on a poisoned line (R150). -/
def podGet (s : State) (dpa : Nat) (b : List Word) (i : Nat) : Option (List Word) :=
  let a := podSlot dpa b i
  let n := 2 ^ podEsz b
  if (List.range n).any (fun k => poisoned s (a + 4 * k)) then none
  else some ((List.range n).map (fun k => readWord s.mem (a + 4 * k)))

/-- ENQC reaches a reservation's end (R145). -/
def State.podPublish (s : State) (dpa : Nat) (base n : Nat) : State :=
  let b := podWords s dpa
  s.podWrite dpa (b.set 9 (BitVec.ofNat 32 (base + n)))

/-- DEQC reaches a reservation's end, and its slots are free again (R145). -/
def State.podRetire (s : State) (dpa : Nat) (base n : Nat) : State :=
  let b := podWords s dpa
  s.podWrite dpa ((b.set 11 (BitVec.ofNat 32 (base + n))).set 7 (podFree b + BitVec.ofNat 32 n))

/-- The device address of the control block or cell that a flight names by its lowest lane. -/
def flightBlock (fl : Flight) : Option Nat :=
  match fl.lanes with
  | [] => none
  | l :: _ =>
    match l.place with
    | .dev d _ => some d
    | _ => none

end Sys2Proof.Machine
end

