-- ==== Sys2Proof/Machine/Ops.lean ====
section
/-!
DEFINITION. The shared operations of control: the core's view of bytes (R192), the end of a context
(R358, R386, R465), taking a trap (R386, R387, R452), the return from one (R391, R453), and a runner's
fault (R115, R180).
-/
namespace Sys2Proof.Machine

/-! ### The core's own stores -/

/-- Two contexts mean the same bytes by a place: everywhere in device memory, of one function in host memory, and at a peer
only where they are one context (R309). -/
def sameBytes (p : Place) (a b : CtxKey) : Bool :=
  match p with
  | .dev _ _ => true
  | .sys _ => a.fn == b.fn
  | .peer _ _ => a == b

/-- The bytes of a line that the core's own retired stores supply to loads (R192 rule 1), those of every context of the core;
a redundant workgroup's are its own alone (R293). -/
def ownBytes (s : State) (core : Nat) (c : CtxKey) (red : Option Nat) (line : Place) :
    BitVec 64 × BitVec 512 :=
  (coreOf s core).path.foldl (fun (a : BitVec 64 × BitVec 512) (_, e) =>
    if e.place == line && e.wg == red && e.rel.isNone && sameBytes line e.ctx c then (a.1 ||| e.mask, mergeLine a.2 e.data e.mask) else a)
    (0#64, 0#512)

/-- The key under which a workgroup's stores are held: its own number in redundant mode (R293). -/
def redKey (s : State) (wid : Nat) : Option Nat :=
  match tget s.wgs wid with
  | some w => if w.red.isSome then some wid else none
  | none => none

/-- A line of device memory under the core's own stores, read at its home slice (R192, R201 .fresh). -/
def freshLine (s : State) (core : Nat) (c : CtxKey) (red : Option Nat) (dpa key : Nat) : BitVec 512 :=
  let (m, d) := ownBytes s core c red (.dev (lineBase dpa) key)
  mergeLine (readLine s.mem (lineBase dpa)) d m

/-- Bytes as a fibre's .fresh load would read them (R391), with the lines of host memory and of peers in `got`; `error k` is
a fault of kind k. -/
def readFresh (s : State) (got : Got) (core : Nat) (c : CtxKey) (red : Option Nat) (xl : List (BitVec 32)) (priv : Bool)
    (va n : Nat) : Except Nat (List Byte) :=
  (linePieces (n + 1) va n).foldlM (fun acc (a, k) =>
    match translate s c xl priv .read (BitVec.ofNat 64 a) with
    | .error e => .error e
    | .ok (.dev d key) =>
      if poisoned s d then .error 6
      else .ok (acc ++ leBytes (lineNat (freshLine s core c red d key) (d % 64) k) k)
    | .ok p =>
      match kget got p.line with
      | some x =>
        let (m, d) := ownBytes s core c red p.line
        .ok (acc ++ leBytes (lineNat (mergeLine x d m) (a % 64) k) k)
      | none => .error (match p with | .sys _ => 8 | _ => 4)) []

/-! ### The end of a context -/

/-- The workgroups of a context. -/
def ctxWgs (s : State) (c : CtxKey) : List Nat := (s.wgs.filter (fun (_, w) => w.ctx == c)).map (·.1)

/-- The cores on which a context has a boost in force. -/
def ctxBoosts (s : State) (c : CtxKey) : List Nat :=
  (s.cores.filter (fun (_, x) => match x.boost with
    | some b => b.ctx == c
    | none => false)).map (·.1)

/-- Discard a context's buffered stores in every core (R358). -/
def State.dropStores (s : State) (c : CtxKey) : State :=
  { s with cores := s.cores.map (fun (i, x) => (i, { x with path := x.path.filter (fun (_, e) => e.ctx != c) })) }

/-- Take a context's work off the device: boosts end (R414), every workgroup goes, and its buffered stores are
discarded (R358). -/
def State.clearContext (s : State) (c : CtxKey) : State :=
  let s := (ctxBoosts s c).foldl (fun s i => s.endBoost i) s
  let s := (ctxWgs s c).foldl (fun s w => s.removeWg w) s
  s.dropStores c

/-- End a context (R465): the launch `lid` takes `status` with its workgroup w, every other launch of the
context takes 7; a host request (status 5) and a class-F record (status 3 without a launch) give their
status to every launch. -/
def State.endContext (s : State) (c : CtxKey) (status : Nat) (cause : Option (Nat × Nat)) : State :=
  let s := s.clearContext c
  let ls := s.launches.filter (fun (_, l) => l.ctx == c)
  let s := ls.foldl (fun s (i, _) =>
    match cause with
    | some (lid, w) => if i == lid then s.completeLaunch i status (subOfW w) w else s.completeLaunch i 7 0 0
    | none => s.completeLaunch i status 0 0) s
  s.modCtx c (fun x => { x with res := .idle, saved := [] })

/-- End a context for want of a handler, a trap in the handler, or a failed frame or save (R386, R388,
R399): source 0x26 of R429 with the pc and the area's address. -/
def State.failContext (s : State) (wid : Nat) (code : BitVec 8) (pc area : Nat) : State :=
  match tget s.wgs wid with
  | none => s
  | some w =>
    let s := s.errorRecord (coreDie w.core) 0x26 1 pc area 0 0#32 (some w.ctx) code
    s.endContext w.ctx 3 (some (w.lid, w.w))

/-! ### Taking a trap -/

/-- The frame's index (R386): 256 × logical core + 64 × scheduler + 4 × slot + fibre. -/
def frameIndex (w : Workgroup) (fid : Nat) : Nat := 256 * w.lcore + fid % 256

/-- An entry of the PC table (R338). -/
def pcEntry (t : Thread) : Nat := t.st.toNat * 2 ^ 60 + t.pc.toNat % 2 ^ 57 / 2 * 2

/-- The 64 bytes of a trap frame's header (R387). -/
def frameHead (f : Fibre) (t : Trap) (wgi : Nat) (kent : Addr) : List Byte :=
  leBytes (t.addr.toNat + t.fm.toNat * 2 ^ 96 + t.code.toNat * 2 ^ 152 + t.cause.toNat * 2 ^ 160 +
    t.num.toNat * 2 ^ 168 + (if f.l0.valid then 2 ^ 186 else 0) + (if f.l1.valid then 2 ^ 187 else 0) +
    f.fpst.toNat * 2 ^ 192 + wgi % 2 ^ 32 * 2 ^ 224 + kent.toNat * 2 ^ 256) 64

/-- The 128 bytes of a vector in lane order. -/
def vecBytes (v : LaneVec) : List Byte := (v.toList.map (fun w => leBytes w.toNat 4)).flatten

/-- Register `i` of a fibre's own window, zero where there is none. -/
def regVal (f : Fibre) (sh : List Reg) (i : Nat) : LaneVec :=
  if i < f.regs.length then
    match f.regs[i]? with
    | some r => r.val
    | none => LaneVec.splat 0#32
  else
    match sh[i - f.regs.length]? with
    | some r => r.val
    | none => LaneVec.splat 0#32

/-- The frame's bytes up to and including TICK (R387). -/
def frameBytes (f : Fibre) (sh : List Reg) (t : Trap) (wgi : Nat) (kent : Addr) (tick : Nat) : List Byte :=
  frameHead f t wgi kent ++ (f.threads.map (fun th => leBytes (pcEntry th) 8)).flatten ++
  vecBytes f.l0.reg.val ++ vecBytes f.l1.reg.val ++
  ((List.range 8).map (fun j => vecBytes (regVal f sh j))).flatten ++ leBytes tick 8

/-- A plain register value: valid check bits, clear tags (R207, R223). -/
def Reg.plain (v : LaneVec) : Reg := { val := v, tag := 0#32, flips := [] }

/-- Threads set ready at an address; exited and never launched threads stay as they are. -/
def readyAll (f : Fibre) (pc : Addr) : Fibre :=
  modThreads f (liveMask f) (fun _ t => { t with st := 0#4, pc := pc, wait := .none, wlen := 0 })

/-- The state of a fibre at the handler's first instruction (R386, R452). -/
def enterHandler (f : Fibre) (hdlr : Addr) (frame : Addr) (index : Nat) (code : BitVec 8) : Fibre :=
  let waits := f.threads.map (fun t => (t.wait, t.wlen))
  let gone := ~~~ (liveMask f)
  let f := readyAll f (hdlr + 64#64)
  { f with
    regs := (f.regs.set 0 (Reg.plain (LaneVec.splat (frame.setWidth 32)))).set 1
      (Reg.plain (LaneVec.splat ((frame >>> 32).setWidth 32)))
    l0 := { f.l0 with valid := false }, l1 := { f.l1 with valid := false }
    shadow := 0, ft := 0, rv := 0#64, burst := none, hold := .none, trap := none, frozen := [], kept := [], got := []
    handler := some { code := code, frame := index, waits := waits, gone := gone } }

/-- The kernel's entry point as KENT gives it (R387). -/
def kentOf (s : State) (w : Workgroup) : Addr :=
  match launchOf s w with
  | some l => l.hdr.entry
  | none => 0#64

/-- The handler of a context page can be used (R386): as its header was read at placement or, from host memory or a peer, as
it has been read for this trap. -/
def handlerUsable (s : State) (f : Fibre) (w : Workgroup) (pg : CtxPage) : Bool :=
  if pg.remote then
    match readGot s f.got w.ctx (xlOf s w) true .read pg.hdlr.toNat 64 with
    | .ok bs => pg.magic && pg.hdlr != 0#64 && handlerHeaderOk (leValue bs)
    | .error _ => false
  else pg.usable

/-- Take a trap at once: write the frame and enter the handler, or end the context (R386, R388, R434, R452). -/
def State.takeTrap (s : State) (fid : Nat) (t : Trap) : State :=
  match tget s.fibs fid with
  | none => s
  | some f =>
    match tget s.wgs f.wg with
    | none => s
    | some w =>
      let pc := match f.threads[lowestLane t.fm]? with | some th => th.pc.toNat | none => 0
      let sh := match tget s.slots f.slot with | some x => x.shared | none => []
      -- an uncorrectable register or a shadow mismatch is recorded (R223, R429)
      let s := if t.code == 0x41#8 then
          s.errorRecord (coreDie w.core) 0x23 1 pc t.fm.toNat 0 0#32 (some w.ctx) t.code
        else s
      match f.handler, (ctxOf s w.ctx).page with
      | some _, _ => s.failContext f.wg t.code pc 0
      | none, none => s.failContext f.wg t.code pc 0
      | none, some pg =>
        if !handlerUsable s f w pg then s.failContext f.wg t.code pc 0
        else
          let frame := pg.tfa.toNat + 2048 * frameIndex w fid
          let slotNo := ((ctxOf s w.ctx).encl.extractLsb' 0 8).toNat
          let owned := slotNo == 0 || (match translate s w.ctx (xlOf s w) true .write (BitVec.ofNat 64 frame) with
            | .ok (.dev d _) => ownerOf s d == slotNo
            | _ => false)
          if !owned then s.failContext f.wg t.code pc frame
          else
            match writeGot s f.got w.ctx (xlOf s w) true frame
                (frameBytes f sh t w.w (kentOf s w) (if f.trap.isSome then f.heldSince else s.tick)) with
            | .error _ => s.failContext f.wg t.code pc frame
            | .ok s' => s'.setFib fid (enterHandler f pg.hdlr (BitVec.ofNat 64 frame) (frameIndex w fid) t.code)

/-- Work of the fibre that a trap waits for (R386): a load, atomic or pod operation in flight. -/
def fibFlights (s : State) (fid : Nat) : List Nat :=
  (s.flights.filter (fun (_, fl) => fl.fib == fid)).map (·.1)

/-- The lines that must be read or written elsewhere before a trap can be taken: the handler's header in host memory or at a
peer, and a frame at a peer. -/
def trapLines (s : State) (fid : Nat) : List (Addr × Place) × List (Addr × Place) :=
  match tget s.fibs fid with
  | none => ([], [])
  | some f =>
    match tget s.wgs f.wg with
    | none => ([], [])
    | some w =>
      match f.handler, (ctxOf s w.ctx).page with
      | none, some pg =>
        (if pg.remote then remoteLines s f.got true w.ctx (xlOf s w) true .read pg.hdlr.toNat 64 else [],
         remoteLines s f.got false w.ctx (xlOf s w) true .write (pg.tfa.toNat + 2048 * frameIndex w fid) 0x648)
      | _, _ => ([], [])

/-- Everything that a trap's entry reads and writes is at hand. -/
def trapAtHand (s : State) (fid : Nat) : Bool := (trapLines s fid).1.isEmpty && (trapLines s fid).2.isEmpty

/-- Raise a trap in a fibre: taken at once when nothing earlier is outstanding, else by TRAP_ENTRY. A fibre of
a redundant workgroup always waits for its twin (R305). -/
def State.raise (s : State) (fid : Nat) (t : Trap) : State :=
  match tget s.fibs fid with
  | none => s
  | some f =>
    if (fibFlights s fid).isEmpty && (redKey s f.wg).isNone && trapAtHand s fid then s.takeTrap fid t
    else s.modFib fid (fun f => { f with trap := some t, heldSince := s.tick })

/-! ### Return from a trap -/

/-- The state of a thread read from a frame entry; exited stays exited (R391). A thread in state 1 enters again the wait from
which the trap withdrew it; one in state 2 has its bytes, for which the trap waited, and is ready once it is examined. -/
def restoreThread (w : Wait × Nat) (e : Nat) (t : Thread) : Thread :=
  if t.st == 3#4 || t.st == 6#4 then t
  else
    let st := BitVec.ofNat 4 (bitsOf e 63 60)
    { t with pc := BitVec.ofNat 64 (bitsOf e 56 1 * 2),
             st := if st == 2#4 then 0#4 else st,
             wait := if st == 1#4 then w.1 else .none,
             wlen := if st == 1#4 then w.2 else 0 }

/-- A frame entry that RTE refuses (R391): an odd pc, STATE 7 to 15, or STATE 2 without an open split. -/
def badEntry (f : Fibre) (e : Nat) : Bool :=
  e % 2 == 1 || bitsOf e 63 60 ≥ 7 || (bitsOf e 63 60 == 2 && f.splits.isEmpty)

/-- A vector from 128 bytes. -/
def vecOfBytes (bs : List Byte) : LaneVec :=
  LaneVec.of (fun l => BitVec.ofNat 32 (leValue ((bs.drop (4 * l)).take 4)))

/-- The lanes of a mask taken from one vector, the others from another. -/
def blend (m : LaneMask) (new old : LaneVec) : LaneVec :=
  LaneVec.of (fun l => if m.getLsbD l then new.lane l else old.lane l)

/-- The fibre that a frame gives back (R391): lanes 0 to 7 of every thread but those that exited in the handler. What counts
as the set that issued its previous instruction is then the set of the handler's last RTE (R213; log entry 51). -/
def leaveHandler (f : Fibre) (h : Handler) (bs : List Byte) : Fibre :=
  let live := liveMask f ||| h.gone
  let threads := f.threads.zipIdx.map (fun (t, i) =>
    restoreThread (h.waits.getD i (.none, 0)) (leValue ((bs.drop (0x40 + 8 * i)).take 8)) t)
  let regs := f.regs.zipIdx.map (fun (r, j) =>
    if j < 8 then Reg.plain (blend live (vecOfBytes ((bs.drop (0x240 + 128 * j)).take 128)) r.val) else r)
  let hd := leValue (bs.take 64)
  { f with
    threads := threads, regs := regs
    l0 := { reg := Reg.plain (vecOfBytes ((bs.drop 0x140).take 128)), valid := bitsOf hd 186 186 == 1 }
    l1 := { reg := Reg.plain (vecOfBytes ((bs.drop 0x1C0).take 128)), valid := bitsOf hd 187 187 == 1 }
    fpst := BitVec.ofNat 32 (bitsOf hd 196 192), shadow := 0, ft := 0, burst := none, handler := none, kept := [], got := [] }

/-- The lines of host memory and of peers that a return from a handler has yet to read. -/
def returnLines (s : State) (fid : Nat) : List (Addr × Place) :=
  match tget s.fibs fid with
  | none => []
  | some f =>
    match f.handler, tget s.wgs f.wg with
    | some h, some w =>
      match (ctxOf s w.ctx).page with
      | none => []
      | some pg => remoteLines s f.got true w.ctx (xlOf s w) true .read (pg.tfa.toNat + 2048 * h.frame) 0x640
    | _, _ => []

/-- The fibre returns from its handler once every thread waits at RTE (R391, R453). -/
def State.returnTrap (s : State) (fid : Nat) : State :=
  match tget s.fibs fid with
  | none => s
  | some f =>
    match f.handler, tget s.wgs f.wg with
    | some h, some w =>
      match (ctxOf s w.ctx).page with
      | none => s
      | some pg =>
        let frame := pg.tfa.toNat + 2048 * h.frame
        match readFresh s f.got w.core w.ctx (redKey s f.wg) (xlOf s w) true frame 0x640 with
        | .error k => s.failContext f.wg (BitVec.ofNat 8 (0x10 + k)) frame 0
        | .ok bs =>
          let entries := (List.range 32).map (fun i => leValue ((bs.drop (0x40 + 8 * i)).take 8))
          if (entries.zip f.threads).any (fun (e, t) => t.st != 3#4 && t.st != 6#4 && badEntry f e) then
            s.failContext f.wg 0x03#8 frame 0
          else s.setFib fid (leaveHandler f h bs)
    | _, _ => s

/-! ### Holds and handles (R163, R345) -/

/-- The active threads go on to the next instruction. -/
def advance (f : Fibre) (m : LaneMask) (len : Nat) : Fibre :=
  modThreads f m (fun _ t => { t with pc := t.pc + BitVec.ofNat 64 len })

/-- Energy of an issue (R447). -/
def addEnergy (f : Fibre) (n : Nat) : Fibre := { f with energy := f.energy + BitVec.ofNat 64 n }

/-- A fibre wait or a stall that holds the fibre; in a fibre wait its ready threads pass to state 4 (R345). -/
def enterHold (f : Fibre) (h : Hold) (wait : Bool) (tick : Nat) : Fibre :=
  { f with
    hold := h, heldSince := tick
    threads := f.threads.map (fun t => if wait && t.st == 0#4 then { t with st := 4#4 } else t) }

/-- The end of a hold. -/
def leaveHold (f : Fibre) : Fibre :=
  { f with
    hold := .none, yield := false
    threads := f.threads.map (fun t => if t.st == 4#4 then { t with st := 0#4 } else t) }

/-- The fibres of a workgroup. -/
def wgFibs (s : State) (wid : Nat) : List (Nat × Fibre) := s.fibs.filter (fun (_, f) => f.wg == wid)

/-- A handle; one that is not there is free. -/
def handleOf (w : Workgroup) (h : Nat) : Handle := w.handles.getD h { st := .free, cause := 0#8, cmd := none, owner := none }

/-- Put a handle. -/
def State.setHandle (s : State) (wid h : Nat) (x : Handle) : State :=
  s.modWg wid (fun w => { w with handles := w.handles.set h x })

/-- The trap of a handle fault (R163, R387). -/
def handleTrap (h : Nat) (cause : BitVec 8) (m : LaneMask) : Trap :=
  { code := 0x54#8, cause := cause, addr := BitVec.ofNat 64 h, fm := m, num := 0#8 }

/-- A handle has changed: the fibres blocked in WAIT on it go on, or trap (R163). -/
def State.wakeHandle (s : State) (wid h : Nat) : State :=
  match tget s.wgs wid with
  | none => s
  | some w =>
    let x := handleOf w h
    (wgFibs s wid).foldl (fun (s : State) (i, f) =>
      match f.hold with
      | .handle h' len m =>
        if h' != h then s
        else
          match x.st with
          | .full => (s.modFib i (fun f => addEnergy (advance (leaveHold f) m len) (popMask m))).refresh w.core
          | .error => (s.modFib i leaveHold).raise i (handleTrap h x.cause m)
          | .free => (s.modFib i leaveHold).raise i (handleTrap h 0#8 m)
          | _ => s
      | _ => s) s

/-! ### Runner faults -/

/-- Handles of a list enter the error state with a cause (R180); one that is draining goes on draining (R163, R171). -/
def errorHandles (hs : List Handle) (which : List Nat) (cause : BitVec 8) : List Handle :=
  hs.zipIdx.map (fun (h, i) =>
    if which.contains i && h.st == .filling then { h with st := .error, cause := cause, cmd := none, owner := none }
    else h)

/-- A command ends on a runner fault (R180): its handle and those that its runner opened take the cause,
and the runner is freed. -/
def State.cmdFault (s : State) (cid : Nat) (cause : BitVec 8) : State :=
  match tget s.cmds cid with
  | none => s
  | some c =>
    let rs := s.runners.filter (fun (_, r) => r.cmd == cid)
    let hs := c.handle :: (rs.map (fun (_, r) => r.opened)).flatten
    let s := s.modWg c.wg (fun w => { w with
      handles := errorHandles w.handles hs cause
      colls := w.colls.map (fun (x : Collective) => if x.handle == some c.handle then { x with cancelled := true } else x) })
    let s := { s with
      runners := s.runners.filter (fun (_, r) => r.cmd != cid), cmds := tdel s.cmds cid
      flights := s.flights.filter (fun (_, fl) => !(fl.cmd == some cid && fl.kind != .putLines)) }
    hs.foldl (fun s h => s.wakeHandle c.wg h) s

/-- A runner's own fault. -/
def State.runnerFault (s : State) (rid : Nat) (cause : BitVec 8) : State :=
  match tget s.runners rid with
  | none => s
  | some r => s.cmdFault r.cmd cause

end Sys2Proof.Machine
end

