-- ==== Sys2Proof/Machine/Operands.lean ====
section
/-!
DEFINITION. Operands: what each selector supplies (R76, R77), the window (R78, R208), pending writes (R209,
R225), check bits (R223), latches (R212, R215), and how a vector instruction reads its sources, takes
effect and goes on (R88 step 3, R225, R226), for a fibre and for a runner (R82, R159).
-/
namespace Sys2Proof.Machine

/-- An operand as an instruction names it: a selector, or a value that the encoding itself holds. -/
inductive Opd where
  | sel (n : BitVec 7)
  | const (w : Word)
  deriving DecidableEq, Repr

/-- A source operand: the type under which an immediate is converted (R77), whether the narrow-type trap
applies, and the lanes that are read where these are not the active ones. -/
structure Src where
  o : Opd
  ty : BitVec 4
  lanes : Option LaneMask
  deriving DecidableEq, Repr

/-- A source read in the active lanes under a type. -/
def src (o : Opd) (ty : BitVec 4) : Src := { o := o, ty := ty, lanes := none }

/-- A source of which every lane is read. -/
def srcAll (o : Opd) (ty : BitVec 4) : Src := { o := o, ty := ty, lanes := some 0xFFFFFFFF#32 }

/-- A source of which given lanes are read. -/
def srcLanes (o : Opd) (ty : BitVec 4) (m : LaneMask) : Src := { o := o, ty := ty, lanes := some m }

/-- The lanes that a source reads under an active mask. -/
def Src.mask (x : Src) (m : LaneMask) : LaneMask :=
  match x.lanes with
  | some l => l
  | none => m

/-- The selector is an immediate (R76). -/
def isImm (n : BitVec 7) : Bool := 96 ≤ n.toNat

/-- The value of an immediate selector (R76). -/
def immInt (n : BitVec 7) : Int := (n.toNat : Int) - 112

/-- A type whose immediates raise the illegal-operand trap (R77). -/
def narrowType (t : BitVec 4) : Bool := tyIn t [7, 12, 13, 14, 15]

/-- An integer converted exactly into a source type (R77). -/
def immWord (t : BitVec 4) (v : Int) : Word :=
  if tyIn t floatTypes then BitVec.ofNat 32 (toFloat t 0 0 false (numOfInt v)).pat else wordOfInt v

/-- The operand names a latch. -/
def Opd.isLatch : Opd → Bool
  | .sel n => n.toNat == 64 || n.toNat == 65
  | .const _ => false

/-- The register that an operand names. -/
def Opd.reg? : Opd → Option Nat
  | .sel n => if n.toNat < 64 then some n.toNat else none
  | .const _ => none

/-- The operand passes R76 to R78 in a window of `win` registers; `runner` forbids latches. -/
def opdOk (runner : Bool) (win : Nat) (x : Src) : Bool :=
  match x.o with
  | .const _ => true
  | .sel n =>
    let v := n.toNat
    if v < 64 then v < win
    else if v ≤ 65 then !runner
    else if v ≤ 78 then true
    else if v < 96 then false
    else !narrowType x.ty

/-! ### Registers of a fibre -/

/-- The place of register `i`: private below P, 64 + index in the shared window above (R208). -/
def regPlace (f : Fibre) (i : Nat) : Nat := if i < f.regs.length then i else 64 + (i - f.regs.length)

/-- The shared window of a fibre's slot. -/
def sharedOf (s : State) (f : Fibre) : List Reg :=
  match tget s.slots f.slot with
  | some x => x.shared
  | none => []

/-- The number of registers that a fibre names (R78, R208). -/
def windowOf (s : State) (f : Fibre) : Nat := f.regs.length + (sharedOf s f).length

/-- A register by place; a place that does not exist reads zero. -/
def placeReg (f : Fibre) (sh : List Reg) (p : Nat) : Reg :=
  let l := if p < 64 then f.regs[p]? else sh[p - 64]?
  match l with
  | some r => r
  | none => Reg.plain (LaneVec.splat 0#32)

/-- Write the lanes of a mask: fresh check bits, and the tag that shadow execution sets (R223, R261). -/
def Reg.write (r : Reg) (m : LaneMask) (v : LaneVec) (shadow : Bool) : Reg :=
  { val := blend m v r.val, tag := if shadow then r.tag ||| m else r.tag &&& ~~~ m,
    flips := r.flips.filter (fun (l, _) => !m.getLsbD l) }

/-- Write a register by its place (R208, R209, R225). -/
def State.writePlace (s : State) (fid p : Nat) (m : LaneMask) (v : LaneVec) (shadow : Bool) : State :=
  if p < 64 then
    s.modFib fid (fun f => { f with regs := f.regs.modify p (fun r => r.write m v shadow) })
  else
    match tget s.fibs fid with
    | none => s
    | some f => s.modSlot f.slot (fun x => { x with shared := x.shared.modify (p - 64) (fun r => r.write m v shadow) })

/-- Write a register by its number, without shadow. -/
def State.writeReg (s : State) (fid i : Nat) (m : LaneMask) (v : LaneVec) : State :=
  match tget s.fibs fid with
  | none => s
  | some f => s.writePlace fid (regPlace f i) m v false

/-- The registers that a queued MRD or MQRY will write (R209, R285, R287): the commands are numbered as their opcodes. -/
def mxDests (c : MxCmd) : List Nat :=
  if c.op == 5 then [c.f.d.toNat, c.f.d.toNat + 1] else if c.op == 7 then [c.f.d.toNat] else []

/-- The places of those registers which a fibre must wait for: its own, and those of its slot's shared window. -/
def mxPending (s : State) (fid : Nat) (f : Fibre) (c : MxCmd) : List Nat :=
  match c.fib with
  | none => []
  | some j =>
    match tget s.fibs j with
    | some g => ((mxDests c).map (regPlace g)).filter (fun p => j == fid || (g.slot == f.slot && decide (64 ≤ p)))
    | none => []

/-- Places with a write pending that a fibre must wait for (R209, R225): its own, and those of its slot's
shared window. -/
def pendingPlaces (s : State) (fid : Nat) (f : Fibre) : List Nat :=
  (s.flights.map (fun (_, fl) =>
    if fl.fib == fid then fl.dst
    else match tget s.fibs fl.fib with
      | some g => if g.slot == f.slot then fl.dst.filter (fun p => decide (64 ≤ p)) else []
      | none => [])).flatten ++
  ((coreOf s (fibCore fid)).mq.map (fun ((_, c) : Nat × MxCmd) => mxPending s fid f c)).flatten

/-- Some register of the list has a write pending. -/
def regsPending (s : State) (fid : Nat) (f : Fibre) (rs : List Nat) : Bool :=
  let pend := pendingPlaces s fid f
  rs.any (fun i => pend.contains (regPlace f i))

/-! ### Check bits (R223) -/

/-- What reading the lanes of a mask finds: a mismatch under a tag, an uncorrectable lane, or corrected lanes. -/
structure CheckRead where
  shadow : LaneMask
  uncorrectable : LaneMask
  corrected : List (Nat × BitVec 39)
  deriving DecidableEq, Repr

/-- How many bits are wrong. -/
def wrongBits (x : BitVec 39) : Nat := ((List.range 39).filter (fun i => x.getLsbD i)).length

/-- The syndromes of a register in the lanes of a mask (R223). More than two wrong bits count as uncorrectable (DESIGN CHOICE,
log entry 52). -/
def checkReg (r : Reg) (m : LaneMask) : CheckRead :=
  r.flips.foldl (fun (a : CheckRead) (l, x) =>
    if !m.getLsbD l || x == 0#39 then a
    else if r.tag.getLsbD l then { a with shadow := a.shadow ||| BitVec.ofNat 32 (2 ^ l) }
    else if wrongBits x == 1 then
      { a with corrected := a.corrected ++ [(l, x)] }
    else { a with uncorrectable := a.uncorrectable ||| BitVec.ofNat 32 (2 ^ l) })
    { shadow := 0#32, uncorrectable := 0#32, corrected := [] }

/-- The value read, with single-bit errors corrected (R223). -/
def Reg.fixed (r : Reg) (c : CheckRead) : LaneVec :=
  if c.corrected.isEmpty then r.val
  else LaneVec.of (fun l => match tget c.corrected l with
    | some x => r.val.lane l ^^^ x.setWidth 32
    | none => r.val.lane l)

/-- The register once a read of the lanes of a mask has corrected what it can (R223). -/
def Reg.scrub (m : LaneMask) (r : Reg) : Reg :=
  let c := checkReg r m
  { r with val := r.fixed c, flips := r.flips.filter (fun (l, _) => (tget c.corrected l).isNone) }

/-- The register or latch that an operand reads, if it reads one. -/
def opdReg (f : Fibre) (sh : List Reg) (o : Opd) : Option Reg :=
  match o with
  | .const _ => none
  | .sel n =>
    if n.toNat < 64 then some (placeReg f sh (regPlace f n.toNat))
    else if n.toNat == 64 then some f.l0.reg
    else if n.toNat == 65 then some f.l1.reg
    else none

/-- What a read whose value only the primary takes gives a workgroup's reader `k` (R300): the value itself, or in the twin the
value that the primary's corresponding read gave, if it has been made. -/
def redReadAt (s : State) (wid k : Nat) (v : BitVec 64) : Option (BitVec 64) :=
  match tget s.wgs wid with
  | none => some v
  | some w =>
    match w.red with
    | none => some v
    | some r =>
      if r.primary then some v
      else
        match tget s.wgs r.twin with
        | none => some v
        | some p =>
          match p.red with
          | none => some v
          | some q => tget q.reads k

/-- Such a read of a fibre. -/
def redRead (s : State) (fid : Nat) (v : BitVec 64) : Option (BitVec 64) :=
  match tget s.fibs fid with
  | none => some v
  | some f => redReadAt s f.wg (fid % 256) v

/-- Remove the first entry of a key. -/
def dropFirst (k : Nat) : List (Nat × BitVec 64) → List (Nat × BitVec 64)
  | [] => []
  | e :: r => if e.1 = k then r else e :: dropFirst k r

/-- Such a read has been made: the primary keeps its value for the twin, which uses it up (R300). -/
def State.redNoteAt (s : State) (wid k : Nat) (v : BitVec 64) : State :=
  match tget s.wgs wid with
  | none => s
  | some w =>
    match w.red with
    | none => s
    | some r =>
      if r.primary then s.setWg wid { w with red := some { r with reads := r.reads ++ [(k, v)] } }
      else s.modWg r.twin (fun p => { p with red := p.red.map (fun q => { q with reads := dropFirst k q.reads }) })

/-- Such a read of a fibre has been made. -/
def State.redNote (s : State) (fid : Nat) (v : BitVec 64) : State :=
  match tget s.fibs fid with
  | none => s
  | some f => s.redNoteAt f.wg (fid % 256) v

/-- The instruction has been issued with such a read, unless it stalled. -/
def noteOut (fid : Nat) (v : BitVec 64) (o : Out) : Out :=
  match o with
  | .next s => .next (if s.cur.stalled then s else s.redNote fid v)
  | x => x

/-- The global tick as a fibre reads it (R300, R423). -/
def tickOf (s : State) (fid : Nat) : BitVec 64 := (redRead s fid (BitVec.ofNat 64 s.tick)).getD 0#64

/-- The word that a selector other than a register, latch or immediate supplies in a lane (R76). -/
def specialWord (s : State) (fid : Nat) (f : Fibre) (n l : Nat) : Word :=
  if n == 67 then BitVec.ofNat 32 l
  else if n == 68 then BitVec.ofNat 32 f.idx
  else if n == 69 then BitVec.ofNat 32 (fibSlotIdx fid)
  else if n == 70 then BitVec.ofNat 32 (match f.threads[l]? with | some t => t.crd0 | none => 0)
  else if 71 ≤ n && n ≤ 77 then BitVec.ofNat 32 (f.crd.getD (n - 71) 0)
  else if n == 78 then (tickOf s fid).setWidth 32
  else 0#32

/-- The vector that an operand supplies to a fibre (R76, R77, R223). -/
def opdVec (s : State) (fid : Nat) (f : Fibre) (sh : List Reg) (x : Src) (m : LaneMask) : LaneVec :=
  match x.o with
  | .const w => LaneVec.splat w
  | .sel n =>
    match opdReg f sh x.o with
    | some r => r.fixed (checkReg r m)
    | none =>
      if isImm n then LaneVec.splat (immWord x.ty (immInt n))
      else LaneVec.of (fun l => specialWord s fid f n.toNat l)

/-! ### Traps and stalls of the agent -/

/-- A trap with no address. -/
def trapOf (code : Nat) (m : LaneMask) : Trap :=
  { code := BitVec.ofNat 8 code, cause := 0#8, addr := 0#64, fm := m, num := 0#8 }

/-- A trap with a cause. -/
def trapCause (code cause : Nat) (m : LaneMask) : Trap := { trapOf code m with cause := BitVec.ofNat 8 cause }

/-- A trap with an address. -/
def trapAddr (code : Nat) (m : LaneMask) (a : Addr) : Trap := { trapOf code m with addr := a }

/-- A fibre can issue: ready threads, and nothing that holds it (R345). -/
def Fibre.ready (f : Fibre) : Bool :=
  f.threads.any (fun t => t.st == 0#4) && f.hold == .none && f.frozen.isEmpty && f.trap.isNone && f.halted.isNone

/-- A group switch of a fibre (R213): both latches lose their validity, shadow coverage ends (R260). -/
def groupSwitch (f : Fibre) : Fibre :=
  { f with l0 := { f.l0 with valid := false }, l1 := { f.l1 with valid := false }, shadow := 0 }

/-- The next ready fibre of a slot in ascending index after `cur`, wrapping around (R342). -/
def nextReady (s : State) (slot cur : Nat) : Option Nat :=
  ((List.range 4).map (fun k => (cur + 1 + k) % 4)).find? (fun i => i != cur &&
    (match tget s.fibs (fibId slot i) with
     | some f => f.ready
     | none => false))

/-- The current fibre of the slot changes (R342). -/
def State.passSlot (s : State) (slot : Nat) : State :=
  match tget s.slots slot with
  | none => s
  | some x =>
    match nextReady s slot x.cur with
    | some i => s.setSlot slot { x with cur := i, consec := 0 }
    | none => s

/-- The slot is handed on under a Y mark on a stalling instruction that reads no latch (R74, R214, R342). -/
def State.yieldSlot (s : State) (fid : Nat) (y latch : Bool) : State :=
  match tget s.fibs fid with
  | none => s
  | some f =>
    if y && !latch && (nextReady s f.slot f.idx).isSome then
      (s.modFib fid groupSwitch).passSlot f.slot
    else s

/-- The instruction stalls: it takes no effect now and issues again later. -/
def State.stall (s : State) (fid : Nat) (y latch : Bool) : State :=
  let s := s.yieldSlot fid y latch
  { s with cur := { s.cur with stalled := true } }

/-- Sources kept for the instruction being issued (R214): its address and some of its lanes. -/
def Kept.meets (k : Kept) (pc : Addr) (m : LaneMask) : Bool := k.pc == pc && k.mask &&& m != 0#32

/-- The sources that an earlier issue of the instruction has read, if it waits and begins again (R214). -/
def keptFor (s : State) (f : Fibre) (m : LaneMask) : Option Kept := f.kept.find? (fun k => k.meets s.cur.pc m)

/-! ### Fibre instructions: the checks shared by all -/

/-- What a fibre instruction reads once its operands are checked. -/
structure FIn where
  fid : Nat
  f : Fibre
  m : LaneMask
  src : List LaneVec
  deriving DecidableEq, Repr

/-- The first lane failures of a list of sources under R223. -/
def checkSources (f : Fibre) (sh : List Reg) (m : LaneMask) (xs : List Src) : CheckRead :=
  xs.foldl (fun (a : CheckRead) x =>
    match opdReg f sh x.o with
    | none => a
    | some r =>
      let c := checkReg r (x.mask m)
      { shadow := a.shadow ||| c.shadow, uncorrectable := a.uncorrectable ||| c.uncorrectable,
        corrected := a.corrected ++ c.corrected }) { shadow := 0#32, uncorrectable := 0#32, corrected := [] }

/-- The instruction keeps the sources that this issue has read for the issue with which it begins again (R214). -/
def State.keepSources (s : State) (i : FIn) : State :=
  s.modFib i.fid (fun g =>
    let tick := match keptFor s g i.m with
      | some k => k.tick
      | none => tickOf s i.fid
    { g with kept := { pc := s.cur.pc, mask := i.m, src := i.src, tick := tick } ::
        g.kept.filter (fun k => !(k.meets s.cur.pc i.m)) })

/-- The instruction stalls after its sources have been read: it keeps them. -/
def State.stallKept (s : State) (i : FIn) (y latch : Bool) : State := (s.keepSources i).stall i.fid y latch

/-- A source of an instruction that begins again: the lanes that its first issue read, and the others as they stand. -/
def keptVec (k : Kept) (n : Nat) (x : Src) (fresh : LaneVec) : LaneVec :=
  match k.src[n]? with
  | some v => blend (x.mask k.mask) v fresh
  | none => fresh

/-- A register or latch that an operand reads has its single-bit errors corrected (R223). -/
def State.scrubOpd (s : State) (fid : Nat) (f : Fibre) (o : Opd) (m : LaneMask) : State :=
  match o with
  | .const _ => s
  | .sel n =>
    if n.toNat < 64 then
      let p := regPlace f n.toNat
      if p < 64 then s.modFib fid (fun g => { g with regs := g.regs.modify p (Reg.scrub m) })
      else s.modSlot f.slot (fun x => { x with shared := x.shared.modify (p - 64) (Reg.scrub m) })
    else if n.toNat == 64 then s.modFib fid (fun g => { g with l0 := { g.l0 with reg := g.l0.reg.scrub m } })
    else if n.toNat == 65 then s.modFib fid (fun g => { g with l1 := { g.l1 with reg := g.l1.reg.scrub m } })
    else s

/-- What a fibre's instruction reads changes where single-bit errors were found, each with its record (R223). -/
def State.scrubSources (s : State) (fid : Nat) (f : Fibre) (m : LaneMask) (xs : List Src) (c : CheckRead) : State :=
  if c.corrected.isEmpty then s
  else
    let s := c.corrected.foldl (fun (s : State) (l, x) =>
      s.errorRecord (coreDie (fibCore fid)) 0x01 0 (fid * 32 + l) x.toNat 0 0#32 none 0#8) s
    xs.foldl (fun (s : State) x => s.scrubOpd fid f x.o (x.mask m)) s

/-- The source reads a latch that is not valid (R215). -/
def latchLost (f : Fibre) (x : Src) : Bool :=
  match x.o with
  | .sel n => (n.toNat == 64 && !f.l0.valid) || (n.toNat == 65 && !f.l1.valid)
  | .const _ => false

/-- Issue an instruction of the fibre `fid` with active lanes `m`: step 3 of R88 with `shape` for the
register-shape rules, the latch check (R215), the wait for pending writes to `dests` and the sources (R225),
and the check bits (R223); then `k` with the sources as read. An instruction that begins again keeps those of its first
issue (R214). Where one lane read is uncorrectable and another a shadow mismatch, the cause is the uncorrectable one (log
entry 51). -/
def fibreIssue (s : State) (fid : Nat) (m : LaneMask) (y : Bool) (xs : List Src) (dests : List Nat)
    (shape : Bool) (k : State → FIn → Out) : Out :=
  match tget s.fibs fid with
  | none => .fault .noAgent
  | some f =>
    let sh := sharedOf s f
    let win := windowOf s f
    let latch := xs.any (fun x => x.o.isLatch)
    if !(xs.all (opdOk false win)) || !(dests.all (fun d => decide (d < win))) || !shape then
      .next (s.raise fid (trapOf 0x02 m))
    else
      let ticks := xs.any (fun x => x.o == .sel 78#7) && (redKey s f.wg).isSome
      match keptFor s f m with
      | some q =>
        if regsPending s fid f dests then .next (s.stall fid y latch)
        else
          let i : FIn :=
            { fid := fid, f := f, m := m
              src := xs.zipIdx.map (fun (x, n) => keptVec q n x (opdVec s fid f sh x (x.mask m))) }
          if ticks then noteOut fid q.tick (k s i) else k s i
      | none =>
        if xs.any (latchLost f) then .next (s.raise fid (trapOf 0x40 m))
        else if regsPending s fid f (dests ++ xs.filterMap (fun x => x.o.reg?)) then .next (s.stall fid y latch)
        else
          let c := checkSources f sh m xs
          if c.shadow != 0#32 || c.uncorrectable != 0#32 then
            .next (s.raise fid (trapCause 0x41 (if c.uncorrectable != 0#32 then 1 else 2) m))
          else
            let s := s.scrubSources fid f m xs c
            let i : FIn :=
              { fid := fid, f := f, m := m, src := xs.map (fun x => opdVec s fid f sh x (x.mask m)) }
            if !ticks then k s i
            else if (redRead s fid 0#64).isNone then .next (s.stall fid y latch)
            else noteOut fid (tickOf s fid) (k s i)

/-- Dispatch an instruction that only a fibre executes: a runner takes cause 0x01 (R82). -/
def onFibre (s : State) (k : Nat → LaneMask → Out) : Out :=
  match s.cur.agent with
  | .none => .fault .noAgent
  | .runner rid => .next (s.runnerFault rid 0x01#8)
  | .fib fid => k fid s.cur.mask

/-- Dispatch an instruction that only a runner executes: a fibre takes the illegal-instruction trap (R82). -/
def onRunner (s : State) (k : Nat → Out) : Out :=
  match s.cur.agent with
  | .none => .fault .noAgent
  | .runner rid => k rid
  | .fib fid => .next (s.raise fid (trapOf 0x01 s.cur.mask))

/-! ### Runner operands (R78, R82, R158, R174) -/

/-- The reader under which a runner's reads of the tick are kept for its twin: its handle, above the fibres' numbers. -/
def runnerReader (s : State) (r : Runner) : Nat := 256 + (match tget s.cmds r.cmd with | some c => c.handle | none => 0)

/-- The global tick as a runner reads it (R300, R423). -/
def runnerTick (s : State) (r : Runner) : BitVec 64 :=
  (redReadAt s r.wg (runnerReader s r) (BitVec.ofNat 64 s.tick)).getD 0#64

/-- The word that an operand supplies to a runner (R82): selectors 67 to 77 read 0. -/
def runnerWord (s : State) (r : Runner) (x : Src) : Word :=
  match x.o with
  | .const w => w
  | .sel n =>
    if n.toNat < 64 then r.regs.getD n.toNat 0#32
    else if isImm n then immWord x.ty (immInt n)
    else if n.toNat == 78 then (runnerTick s r).setWidth 32
    else 0#32

/-- The operands pass in a runner. -/
def runnerOpdsOk (r : Runner) (xs : List Src) : Bool := xs.all (opdOk true r.regs.length)

/-- A source of a runner-only instruction is a register, zero or an immediate (R174). -/
def runnerOnlyOpd (x : Src) : Bool :=
  match x.o with
  | .const _ => true
  | .sel n => decide (n.toNat ≤ 66) || decide (96 ≤ n.toNat)

/-- A runner writes a register and goes on. -/
def runnerDone (r : Runner) (d : Option (Nat × Word)) (len : Nat) : Runner :=
  { r with regs := (match d with | some (i, w) => r.regs.set i w | none => r.regs),
           pc := r.pc + BitVec.ofNat 64 len }

/-! ### Vector instructions (R225) -/

/-- What a vector function reads: the active lanes, its sources, and the rounding state of each thread. -/
structure VIn where
  m : LaneMask
  src : List LaneVec
  rs : List (BitVec 64)
  deriving DecidableEq, Repr

/-- Source `i`. -/
def VIn.s (v : VIn) (i : Nat) : LaneVec := v.src.getD i (LaneVec.splat 0#32)

/-- What a vector function gives: its first result, a second one, the flags and the rounding states. -/
structure VOut where
  r : LaneVec
  r2 : Option LaneVec
  fl : BitVec 5
  rs : List (BitVec 64)
  deriving DecidableEq, Repr

/-- A latching result enters the latches (R212). -/
def latchResult (f : Fibre) (m : LaneMask) (r : LaneVec) (shadow : Bool) : Fibre :=
  { f with
    l1 := f.l0
    l0 := { reg := { val := blend m r (LaneVec.splat 0#32), tag := if shadow then m else 0#32, flips := [] },
            valid := true } }

/-- OR float flags into sr.fpst (R50). -/
def orFlags (f : Fibre) (fl : BitVec 5) : Fibre := { f with fpst := f.fpst ||| fl.setWidth 32 }

/-- The rounding states of a fibre's threads. -/
def roundStates (f : Fibre) : List (BitVec 64) := f.threads.map (·.rstate)

/-- Put rounding states back. -/
def setRoundStates (f : Fibre) (rs : List (BitVec 64)) : Fibre :=
  { f with threads := f.threads.zipIdx.map (fun (t, i) => { t with rstate := rs.getD i t.rstate }) }

/-- The effect of a vector instruction on its fibre (R225). -/
def State.vecEffect (s : State) (i : FIn) (k : Bool) (d : Nat) (len weight : Nat) (o : VOut) : State :=
  let shadow := i.f.shadow != 0
  let p := regPlace i.f d
  let p2 := regPlace i.f (d + 1)
  let s := if k then s else s.writePlace i.fid p i.m o.r shadow
  let s := match o.r2 with
    | some r2 => if k then s else s.writePlace i.fid p2 i.m r2 shadow
    | none => s
  s.modFib i.fid (fun f =>
    addEnergy (advance (setRoundStates (orFlags (latchResult f i.m o.r shadow) o.fl) o.rs) i.m len)
      (weight * popMask i.m))

/-- A vector instruction (R225): `op` for the runner's list, form length, marks, destination, whether d + 1 is
written too, sources, register shape, energy weight, and the function of its sources, which may raise a
precise fault by its code and the lanes that fail. -/
def vec (op len : Nat) (y k : Bool) (d : Nat) (two : Bool) (xs : List Src) (shape : Bool) (weight : Nat)
    (fn : VIn → Except (Nat × LaneMask) VOut) (s : State) : Out :=
  match s.cur.agent with
  | .none => .fault .noAgent
  | .runner rid =>
    match tget s.runners rid with
    | none => .fault .noAgent
    | some r =>
      let legal := op ≤ 0x0C || (0x10 ≤ op && op ≤ 0x1B) || (0x80 ≤ op && op ≤ 0x86)
      if !legal || k then .next (s.runnerFault rid 0x01#8)
      else if !(runnerOpdsOk r xs) || !(decide (d < r.regs.length)) || !shape ||
          (two && !(decide (d + 1 < r.regs.length))) then .next (s.runnerFault rid 0x02#8)
      else
        match fn { m := 1#32, src := xs.map (fun x => LaneVec.splat (runnerWord s r x)), rs := [] } with
        | .error _ => .next (s.runnerFault rid 0x01#8)
        | .ok o =>
          let r := runnerDone r (some (d, o.r.lane 0)) len
          let r := match o.r2 with
            | some r2 => { r with regs := r.regs.set (d + 1) (r2.lane 0) }
            | none => r
          .next (s.setRunner rid r)
  | .fib fid =>
    fibreIssue s fid s.cur.mask y xs (if k then [] else if two then [d, d + 1] else [d]) shape
      (fun s i =>
        match fn { m := i.m, src := i.src, rs := roundStates i.f } with
        | .error (code, fm) => .next (s.raise fid (trapOf code fm))
        | .ok o => .next (s.vecEffect i k d len weight o))

/-- A lane-wise function without flags or draws. -/
def lanewise (v : VIn) (f : Nat → Word) : Except (Nat × LaneMask) VOut :=
  .ok { r := LaneVec.of f, r2 := none, fl := 0#5, rs := v.rs }

end Sys2Proof.Machine
end

