-- ==== Sys2Proof/Machine/Integer.lean ====
section
/-!
DEFINITION. Integer, address, move, bitwise and selection instructions (R227 to R236), in their C, W and L
forms. A C form acts as its W form (R68) and a W form as the L form with the fields of R75.
-/
namespace Sys2Proof.Machine

/-- The operands of an instruction of the vector class, whatever its form: its length, marks, destination,
sources, type, mode and imm16. `cf` is the c field as encoded. -/
structure VForm where
  len : Nat
  y : Bool
  k : Bool
  d : Nat
  a : Opd
  b : Opd
  c : Opd
  cf : Nat
  ty : BitVec 4
  mode : Nat
  imm : BitVec 16
  deriving DecidableEq, Repr

/-- The operands of an L form. -/
def ofLForm (f : LForm) : VForm :=
  { len := 8, y := f.y, k := f.k, d := f.d.toNat, a := .sel f.a, b := .sel f.b, c := .sel f.c,
    cf := f.c.toNat, ty := f.ty, mode := f.mode.toNat, imm := f.imm }

/-- The operands of a W form (R75): c reads zero, .rn, no immediate, the operation's default type. -/
def ofWForm (ty : BitVec 4) (f : WForm) : VForm :=
  { len := 4, y := f.y, k := f.k, d := f.d.toNat, a := .sel f.a, b := .sel f.b, c := .sel 66#7,
    cf := 66, ty := ty, mode := 0, imm := 0#16 }

/-- The operands of a C form (R68): d is also the first source, and b reads what the operation says. -/
def ofCForm (ty : BitVec 4) (f : CForm) (b : Opd) : VForm :=
  { len := 2, y := false, k := false, d := f.d.toNat, a := .sel (f.d.setWidth 7), b := b, c := .sel 66#7,
    cf := 66, ty := ty, mode := 0, imm := 0#16 }

/-- The register that s5 names in a C form. -/
def cReg (f : CForm) : Opd := .sel (f.s.setWidth 7)

/-- imm5 of a C form (R68). -/
def cImm (f : CForm) : Opd := .const (f.s.signExtend 32)

/-- sh5 of a C form (R68). -/
def cShift (f : CForm) : Opd := .const (f.s.setWidth 32)

/-! ### Integer arithmetic (R227 to R229) -/

/-- The word that an exact integer result gives under a type and .sat (R227). -/
def intResult (ty : BitVec 4) (sat : Bool) (r : Int) : Word :=
  wordOfInt (if sat then satInt ty r else wrapInt ty r)

/-- IDIV's exact quotient before it is written (R229): the quotient of a most negative dividend by −1 is left
to wrapping or saturation. -/
def idiv (ty : BitVec 4) (x y : Int) : Int :=
  if y == 0 then (if isSigned ty then -1 else intMax ty) else Int.tdiv x y

/-- IREM (R229). -/
def irem (x y : Int) : Int := if y == 0 then x else x - Int.tdiv x y * y

/-- An instruction of two integer sources with its exact result. -/
def intTwo (op : Nat) (v : VForm) (g : Int → Int → Int) (s : State) : Out :=
  vec op v.len v.y v.k v.d false [src v.a v.ty, src v.b v.ty] true 1 (fun i => lanewise i (fun l =>
    intResult v.ty (v.imm.getLsbD 0) (g (intOf v.ty ((i.s 0).lane l).toNat) (intOf v.ty ((i.s 1).lane l).toNat)))) s

/-- An instruction of one integer source with its exact result. -/
def intOne (op : Nat) (v : VForm) (g : Int → Int) (s : State) : Out :=
  vec op v.len v.y v.k v.d false [src v.a v.ty] true 1 (fun i => lanewise i (fun l =>
    intResult v.ty (v.imm.getLsbD 0) (g (intOf v.ty ((i.s 0).lane l).toNat)))) s

def opIadd (v : VForm) (s : State) : Out := intTwo 0x00 v (fun x y => x + y) s
def opIsub (v : VForm) (s : State) : Out := intTwo 0x01 v (fun x y => x - y) s
def opImul (v : VForm) (s : State) : Out := intTwo 0x02 v (fun x y => x * y) s
def opImulh (v : VForm) (s : State) : Out := intTwo 0x03 v (fun x y => Int.fdiv (x * y) (2 ^ typeBits v.ty)) s
def opIdiv (v : VForm) (s : State) : Out := intTwo 0x04 v (idiv v.ty) s
def opIrem (v : VForm) (s : State) : Out := intTwo 0x05 v irem s
def opImin (v : VForm) (s : State) : Out := intTwo 0x06 v (fun x y => if y < x then y else x) s
def opImax (v : VForm) (s : State) : Out := intTwo 0x07 v (fun x y => if x < y then y else x) s
def opIabs (v : VForm) (s : State) : Out := intOne 0x08 v (fun x => if x < 0 then -x else x) s
def opIneg (v : VForm) (s : State) : Out := intOne 0x09 v (fun x => -x) s

/-- IMAD (R228). -/
def opImad (v : VForm) (s : State) : Out :=
  vec 0x80 v.len v.y v.k v.d false [src v.a v.ty, src v.b v.ty, src v.c v.ty] true 1 (fun i => lanewise i (fun l =>
    intResult v.ty (v.imm.getLsbD 0) (intOf v.ty ((i.s 0).lane l).toNat * intOf v.ty ((i.s 1).lane l).toNat +
      intOf v.ty ((i.s 2).lane l).toNat))) s

/-- The relation of a condition code (R83, R230). -/
def icmpRel (cc : Nat) (x y : Int) : Bool :=
  match cc with
  | 0 => x == y
  | 1 => x != y
  | 2 => decide (x < y)
  | 3 => decide (x ≤ y)
  | 4 => decide (y < x)
  | _ => decide (y ≤ x)

/-- The word of a truth value (R230, R241, R255). -/
def boolWord (b : Bool) : Word := if b then 0xFFFFFFFF#32 else 0#32

/-- ICMP (R230). -/
def opIcmp (v : VForm) (s : State) : Out :=
  vec 0x81 v.len v.y v.k v.d false [src v.a v.ty, src v.b v.ty] true 1 (fun i => lanewise i (fun l =>
    boolWord (icmpRel v.mode (intOf v.ty ((i.s 0).lane l).toNat) (intOf v.ty ((i.s 1).lane l).toNat)))) s

/-! ### Addresses (R131, R231) -/

/-- The operand names an even register (R131); that it and the next lie in the window is checked with it. -/
def pairOk (o : Opd) : Bool :=
  match o with
  | .sel n => n.toNat < 64 && n.toNat % 2 == 0
  | .const _ => false

/-- The register after the one that an operand names. -/
def nextOpd (o : Opd) : Opd :=
  match o with
  | .sel n => if n.toNat < 63 then .sel (n + 1#7) else .sel 79#7
  | .const w => .const w

/-- The 64-bit address of a pair in a lane (R131). -/
def pairAddr (lo hi : LaneVec) (l : Nat) : Addr := hi.lane l ++ lo.lane l

/-- LEA's address (R231). -/
def leaAddr (base : Addr) (off : Word) (signed : Bool) (n : Nat) (disp : BitVec 16) : Addr :=
  base + (if signed then off.signExtend 64 else off.setWidth 64) * BitVec.ofNat 64 (2 ^ n) + disp.signExtend 64

/-- LEA (R231). -/
def opLea (v : VForm) (s : State) : Out :=
  vec 0x0A v.len v.y v.k v.d true [src v.a Ty.n32, src (nextOpd v.a) Ty.n32, src v.b v.ty]
    (pairOk v.a && (v.k || v.d % 2 == 0)) 1 (fun i =>
      let r := fun l => leaAddr (pairAddr (i.s 0) (i.s 1) l) ((i.s 2).lane l) (v.ty == Ty.i32) v.mode v.imm
      .ok { r := LaneVec.of (fun l => (r l).setWidth 32), r2 := some (LaneVec.of (fun l => (r l >>> 32).setWidth 32)),
            fl := 0#5, rs := i.rs }) s

/-! ### Moves (R232) -/

def opMov (v : VForm) (s : State) : Out :=
  vec 0x0B v.len v.y v.k v.d false [src v.a Ty.i32] true 1 (fun i => lanewise i (fun l => (i.s 0).lane l)) s

def opMovi (len : Nat) (y k : Bool) (d : Nat) (value : Word) (s : State) : Out :=
  vec 0x0C len y k d false [] true 1 (fun i => lanewise i (fun _ => value)) s

def opMovh (v : VForm) (s : State) : Out :=
  vec 0x85 v.len v.y v.k v.d false [src v.a Ty.i32] true 1 (fun i => lanewise i (fun l =>
    v.imm ++ ((i.s 0).lane l).setWidth 16)) s

/-! ### Bitwise and shift instructions (R233) -/

/-- A bitwise instruction of two sources. -/
def bitTwo (op : Nat) (v : VForm) (g : Word → Word → Word) (s : State) : Out :=
  vec op v.len v.y v.k v.d false [src v.a v.ty, src v.b v.ty] true 1 (fun i => lanewise i (fun l =>
    g ((i.s 0).lane l) ((i.s 1).lane l))) s

/-- A bitwise instruction of one source. -/
def bitOne (op : Nat) (v : VForm) (g : Word → Word) (s : State) : Out :=
  vec op v.len v.y v.k v.d false [src v.a v.ty] true 1 (fun i => lanewise i (fun l => g ((i.s 0).lane l))) s

/-- The number of 1 bits. -/
def popcWord (a : Word) : Nat := ((List.range 32).filter (fun i => a.getLsbD i)).length

/-- The number of leading 0 bits. -/
def clzWord (a : Word) : Nat := 32 - bitLen a.toNat

/-- The bits in reverse order. -/
def brevWord (a : Word) : Word :=
  BitVec.ofNat 32 ((List.range 32).foldl (fun x i => 2 * x + (if a.getLsbD i then 1 else 0)) 0)

def opAnd (v : VForm) (s : State) : Out := bitTwo 0x10 v (fun a b => a &&& b) s
def opOr (v : VForm) (s : State) : Out := bitTwo 0x11 v (fun a b => a ||| b) s
def opXor (v : VForm) (s : State) : Out := bitTwo 0x12 v (fun a b => a ^^^ b) s
def opNot (v : VForm) (s : State) : Out := bitOne 0x13 v (fun a => ~~~ a) s
def opAndn (v : VForm) (s : State) : Out := bitTwo 0x14 v (fun a b => a &&& ~~~ b) s
def opShl (v : VForm) (s : State) : Out :=
  bitTwo 0x15 v (fun a b => if b.toNat ≥ 32 then 0#32 else a <<< b.toNat) s
def opShr (v : VForm) (s : State) : Out :=
  bitTwo 0x16 v (fun a b => if b.toNat ≥ 32 then 0#32 else a >>> b.toNat) s
def opSar (v : VForm) (s : State) : Out :=
  bitTwo 0x17 v (fun a b => a.sshiftRight (if b.toNat ≥ 32 then 31 else b.toNat)) s
def opRot (v : VForm) (s : State) : Out := bitTwo 0x18 v (fun a b => a.rotateLeft (b.toNat % 32)) s
def opPopc (v : VForm) (s : State) : Out := bitOne 0x19 v (fun a => BitVec.ofNat 32 (popcWord a)) s
def opClz (v : VForm) (s : State) : Out := bitOne 0x1A v (fun a => BitVec.ofNat 32 (clzWord a)) s
def opBrev (v : VForm) (s : State) : Out := bitOne 0x1B v brevWord s

/-! ### Fields, bytes and selection (R234 to R236) -/

/-- BFX's field (R234). -/
def bfx (signed : Bool) (a ctl : Word) : Word :=
  let p := ctl.toNat % 256
  let w0 := ctl.toNat / 256 % 256
  let w := if w0 < 32 then w0 else 32
  let x := a.toNat / 2 ^ p % 2 ^ w
  if w == 0 then 0#32
  else if signed && x ≥ 2 ^ (w - 1) then wordOfInt ((x : Int) - 2 ^ w) else BitVec.ofNat 32 x

/-- BFI's insertion (R234). -/
def bfi (a b ctl : Word) : Word :=
  let p := ctl.toNat % 256
  let w0 := ctl.toNat / 256 % 256
  let w := if w0 < 32 then w0 else 32
  let m : Word := BitVec.ofNat 32 ((2 ^ w - 1) * 2 ^ p)
  (a &&& ~~~ m) ||| (BitVec.ofNat 32 (b.toNat * 2 ^ p) &&& m)

/-- PRMB's bytes (R235). -/
def prmb (a b c : Word) : Word :=
  let v : BitVec 64 := b ++ a
  let byte := fun k =>
    let n := c.toNat / 2 ^ (4 * k) % 16
    if n ≥ 8 then 0 else v.toNat / 2 ^ (8 * (n % 8)) % 256
  BitVec.ofNat 32 (byte 0 + 256 * byte 1 + 65536 * byte 2 + 16777216 * byte 3)

def opBfx (v : VForm) (s : State) : Out :=
  vec 0x82 v.len v.y v.k v.d false [src v.a v.ty, src v.b v.ty] true 1 (fun i => lanewise i (fun l =>
    bfx (v.ty == Ty.i32) ((i.s 0).lane l) ((i.s 1).lane l))) s

def opBfi (v : VForm) (s : State) : Out :=
  vec 0x83 v.len v.y v.k v.d false [src v.a v.ty, src v.b v.ty, src v.c v.ty] true 1 (fun i => lanewise i (fun l =>
    bfi ((i.s 0).lane l) ((i.s 1).lane l) ((i.s 2).lane l))) s

def opPrmb (v : VForm) (s : State) : Out :=
  vec 0x84 v.len v.y v.k v.d false [src v.a v.ty, src v.b v.ty, src v.c v.ty] true 1 (fun i => lanewise i (fun l =>
    prmb ((i.s 0).lane l) ((i.s 1).lane l) ((i.s 2).lane l))) s

def opSel (v : VForm) (s : State) : Out :=
  vec 0x86 v.len v.y v.k v.d false [src v.a v.ty, src v.b v.ty, src v.c v.ty] true 1 (fun i => lanewise i (fun l =>
    if (i.s 2).lane l != 0#32 then (i.s 0).lane l else (i.s 1).lane l)) s

/-! ### The meanings -/

def execMovC (f : CForm) (s : State) : Out := opMov { ofCForm Ty.i32 f (cReg f) with a := cReg f } s
def execMoviC (f : CForm) (s : State) : Out := opMovi 2 false false f.d.toNat (f.s.signExtend 32) s
def execIaddC (f : CForm) (s : State) : Out := opIadd (ofCForm Ty.i32 f (cReg f)) s
def execIaddi (f : CForm) (s : State) : Out := opIadd (ofCForm Ty.i32 f (cImm f)) s
def execIsubC (f : CForm) (s : State) : Out := opIsub (ofCForm Ty.i32 f (cReg f)) s
def execAndC (f : CForm) (s : State) : Out := opAnd (ofCForm Ty.i32 f (cReg f)) s
def execOrC (f : CForm) (s : State) : Out := opOr (ofCForm Ty.i32 f (cReg f)) s
def execXorC (f : CForm) (s : State) : Out := opXor (ofCForm Ty.i32 f (cReg f)) s
def execShli (f : CForm) (s : State) : Out := opShl (ofCForm Ty.i32 f (cShift f)) s
def execShri (f : CForm) (s : State) : Out := opShr (ofCForm Ty.i32 f (cShift f)) s

/-- MOVI's 14-bit immediate in the W form: instruction bits 31:18 (R83). -/
def execMoviW (f : WForm) (s : State) : Out :=
  opMovi 4 f.y f.k f.d.toNat ((f.b ++ f.a : BitVec 14).signExtend 32) s
def execMoviL (f : LForm) (s : State) : Out := opMovi 8 f.y f.k f.d.toNat (f.imm.signExtend 32) s
def execIaddW (f : WForm) (s : State) : Out := opIadd (ofWForm Ty.i32 f) s
def execIaddL (f : LForm) (s : State) : Out := opIadd (ofLForm f) s
def execIsubW (f : WForm) (s : State) : Out := opIsub (ofWForm Ty.i32 f) s
def execIsubL (f : LForm) (s : State) : Out := opIsub (ofLForm f) s
def execImulW (f : WForm) (s : State) : Out := opImul (ofWForm Ty.i32 f) s
def execImulL (f : LForm) (s : State) : Out := opImul (ofLForm f) s
def execImulhW (f : WForm) (s : State) : Out := opImulh (ofWForm Ty.i32 f) s
def execImulhL (f : LForm) (s : State) : Out := opImulh (ofLForm f) s
def execIdivW (f : WForm) (s : State) : Out := opIdiv (ofWForm Ty.i32 f) s
def execIdivL (f : LForm) (s : State) : Out := opIdiv (ofLForm f) s
def execIremW (f : WForm) (s : State) : Out := opIrem (ofWForm Ty.i32 f) s
def execIremL (f : LForm) (s : State) : Out := opIrem (ofLForm f) s
def execIminW (f : WForm) (s : State) : Out := opImin (ofWForm Ty.i32 f) s
def execIminL (f : LForm) (s : State) : Out := opImin (ofLForm f) s
def execImaxW (f : WForm) (s : State) : Out := opImax (ofWForm Ty.i32 f) s
def execImaxL (f : LForm) (s : State) : Out := opImax (ofLForm f) s
def execIabsW (f : WForm) (s : State) : Out := opIabs (ofWForm Ty.i32 f) s
def execIabsL (f : LForm) (s : State) : Out := opIabs (ofLForm f) s
def execInegW (f : WForm) (s : State) : Out := opIneg (ofWForm Ty.i32 f) s
def execInegL (f : LForm) (s : State) : Out := opIneg (ofLForm f) s
def execMovW (f : WForm) (s : State) : Out := opMov (ofWForm Ty.i32 f) s
def execMovL (f : LForm) (s : State) : Out := opMov (ofLForm f) s
def execAndW (f : WForm) (s : State) : Out := opAnd (ofWForm Ty.i32 f) s
def execAndL (f : LForm) (s : State) : Out := opAnd (ofLForm f) s
def execOrW (f : WForm) (s : State) : Out := opOr (ofWForm Ty.i32 f) s
def execOrL (f : LForm) (s : State) : Out := opOr (ofLForm f) s
def execXorW (f : WForm) (s : State) : Out := opXor (ofWForm Ty.i32 f) s
def execXorL (f : LForm) (s : State) : Out := opXor (ofLForm f) s
def execNotW (f : WForm) (s : State) : Out := opNot (ofWForm Ty.i32 f) s
def execNotL (f : LForm) (s : State) : Out := opNot (ofLForm f) s
def execAndnW (f : WForm) (s : State) : Out := opAndn (ofWForm Ty.i32 f) s
def execAndnL (f : LForm) (s : State) : Out := opAndn (ofLForm f) s
def execShlW (f : WForm) (s : State) : Out := opShl (ofWForm Ty.i32 f) s
def execShlL (f : LForm) (s : State) : Out := opShl (ofLForm f) s
def execShrW (f : WForm) (s : State) : Out := opShr (ofWForm Ty.i32 f) s
def execShrL (f : LForm) (s : State) : Out := opShr (ofLForm f) s
def execSarW (f : WForm) (s : State) : Out := opSar (ofWForm Ty.i32 f) s
def execSarL (f : LForm) (s : State) : Out := opSar (ofLForm f) s
def execRotW (f : WForm) (s : State) : Out := opRot (ofWForm Ty.i32 f) s
def execRotL (f : LForm) (s : State) : Out := opRot (ofLForm f) s
def execPopcW (f : WForm) (s : State) : Out := opPopc (ofWForm Ty.i32 f) s
def execPopcL (f : LForm) (s : State) : Out := opPopc (ofLForm f) s
def execClzW (f : WForm) (s : State) : Out := opClz (ofWForm Ty.i32 f) s
def execClzL (f : LForm) (s : State) : Out := opClz (ofLForm f) s
def execBrevW (f : WForm) (s : State) : Out := opBrev (ofWForm Ty.i32 f) s
def execBrevL (f : LForm) (s : State) : Out := opBrev (ofLForm f) s
def execLea (f : LForm) (s : State) : Out := opLea (ofLForm f) s
def execImad (f : LForm) (s : State) : Out := opImad (ofLForm f) s
def execIcmp (f : LForm) (s : State) : Out := opIcmp (ofLForm f) s
def execBfx (f : LForm) (s : State) : Out := opBfx (ofLForm f) s
def execBfi (f : LForm) (s : State) : Out := opBfi (ofLForm f) s
def execPrmb (f : LForm) (s : State) : Out := opPrmb (ofLForm f) s
def execMovh (f : LForm) (s : State) : Out := opMovh (ofLForm f) s
def execSel (f : LForm) (s : State) : Out := opSel (ofLForm f) s

end Sys2Proof.Machine
end

