-- ==== Sys2Proof/Machine/Threads.lean ====
section
/-!
DEFINITION. What happens to threads beside their own instruction: holds and thread waits (R345), barriers
(R352, R354), the closing of splits (R315, R351), ALLOC queues (R217 to R219), handles (R163), parking in a
continuation pool (R381), exit (R222, R350), and access faults (R113 to R117).
-/
namespace Sys2Proof.Machine

/-! ### Waits -/

/-- The threads of a mask enter a thread wait at their instruction (R345). -/
def enterWait (f : Fibre) (m : LaneMask) (w : Wait) (len tick : Nat) : Fibre :=
  modThreads f m (fun _ t => { t with st := 1#4, wait := w, wlen := len, since := tick })

/-- The fibre is in a fibre wait: its threads that do not wait themselves are held (R345). -/
def inFibreWait (f : Fibre) : Bool := f.threads.any (fun t => t.st == 4#4)

/-- A waiting thread of a fibre goes on after its instruction, or is held while the fibre is in a fibre wait (R345). -/
def Thread.resume (f : Fibre) (t : Thread) : Thread :=
  { t with st := if inFibreWait f then 4#4 else 0#4, wait := .none, wlen := 0, pc := t.pc + BitVec.ofNat 64 t.wlen }

/-- Change every fibre of a workgroup. -/
def State.modFibs (s : State) (wid : Nat) (g : Fibre → Fibre) : State :=
  { s with fibs := s.fibs.map (fun (i, f) => if f.wg == wid then (i, g f) else (i, f)) }

/-- A stall that lasts until work named by the hold ends; under a Y mark the slot passes on (R74). -/
def State.holdFor (s : State) (fid : Nat) (h : Hold) (y latch : Bool) : State :=
  (s.modFib fid (fun f => { enterHold f h false s.tick with yield := y && !latch })).yieldSlot fid y latch

/-! ### Workgroup barriers (R352) -/

/-- The threads of a workgroup that have not exited. -/
def liveThreads (s : State) (wid : Nat) : Nat :=
  (wgFibs s wid).foldl (fun a (_, f) => a + popMask (liveMask f)) 0

/-- A barrier; one that is not there is zero. -/
def barOf (w : Workgroup) (x : Nat) : Barrier := w.bars.getD x { gen := 0#16, arr := 0, req := 0 }

/-- need(x) of R352. -/
def barNeed (s : State) (wid : Nat) (b : Barrier) : Nat := if b.req != 0 then b.req else liveThreads s wid

/-- Threads that wait on barrier `x` with an older generation than GEN empty their token and go on. -/
def releaseBar (x : Nat) (gen : BitVec 16) (f : Fibre) : Fibre :=
  { f with threads := f.threads.map (fun t =>
      if t.st == 1#4 && t.wait == .bar x && t.token != some (x, gen) then { t.resume f with token := none } else t) }

/-- Wake the waiters of a barrier (R345, R352). -/
def State.wakeBar (s : State) (wid x : Nat) : State :=
  match tget s.wgs wid with
  | none => s
  | some w => s.modFibs wid (releaseBar x (barOf w x).gen)

/-- One arrival (R352): the barrier after it. -/
def Barrier.arrive (b : Barrier) (n need0 : Nat) : Barrier :=
  let b := if b.arr == 0 then { b with req := n } else b
  let b := { b with arr := b.arr + 1 }
  if b.arr ≥ (if b.req != 0 then b.req else need0) then { b with gen := b.gen + 1#16, arr := 0 } else b

/-- The threads of a mask arrive at a barrier in ascending lane (R352). -/
def State.arriveBar (s : State) (fid wid x n : Nat) (m : LaneMask) : State :=
  match tget s.wgs wid with
  | none => s
  | some w =>
    let live := liveThreads s wid
    let r := (lanesOf m).foldl (fun (a : Barrier × List (Nat × BitVec 16)) l =>
      let b0 := if a.1.arr == 0 then { a.1 with req := n } else a.1
      (a.1.arrive n live, a.2 ++ [(l, b0.gen)])) (barOf w x, [])
    let s := s.setWg wid { w with bars := w.bars.set x r.1 }
    let s := s.modFib fid (fun f => modThreads f m (fun l t =>
      { t with token := (tget r.2 l).map (fun g => (x, g)) }))
    s.wakeBar wid x

/-- An exit re-evaluates every barrier whose count is every thread (R352). -/
def State.exitBars (s : State) (wid : Nat) : State :=
  (List.range 16).foldl (fun (s : State) x =>
    match tget s.wgs wid with
    | none => s
    | some w =>
      let b := barOf w x
      if b.req == 0 && b.arr != 0 && b.arr ≥ liveThreads s wid then
        (s.setWg wid { w with bars := w.bars.set x { b with gen := b.gen + 1#16, arr := 0 } }).wakeBar wid x
      else s) s

/-! ### FBAR (R354) -/

/-- Every thread of the fibre that has not exited waits in FBAR, and nothing of it is outstanding. -/
def fbarArrived (s : State) (fid : Nat) (f : Fibre) : Bool :=
  !f.exited && (fibFlights s fid).isEmpty &&
  (coreOf s (fibCore fid)).mq.all (fun ((_, c) : Nat × MxCmd) => c.fib != some fid || (mxDests c).isEmpty) &&
  f.threads.all (fun t => t.st == 3#4 || t.st == 6#4 || (t.st == 1#4 && (match t.wait with
    | .fbar _ => true
    | _ => false)))

/-- The mask that a fibre waits with: that of its lowest waiting thread. -/
def fbarMask (f : Fibre) : Nat :=
  match f.threads.find? (fun t => match t.wait with
    | .fbar _ => t.st == 1#4
    | _ => false) with
  | some t =>
    match t.wait with
    | .fbar m => m
    | _ => 0
  | none => 0

/-- The fibre places of a slot that have arrived or exited; a place without a fibre has exited (R335). -/
def fbarSet (s : State) (slot : Nat) : Nat :=
  (List.range 4).foldl (fun a i =>
    match tget s.fibs (fibId slot i) with
    | none => a + 2 ^ i
    | some f => if f.exited || fbarArrived s (fibId slot i) f then a + 2 ^ i else a) 0

/-- Release every arrived fibre of a slot whose mask is covered (R354). -/
def State.fbarCheck (s : State) (slot : Nat) : State :=
  let have_ := fbarSet s slot
  let ids := (List.range 4).filter (fun i =>
    match tget s.fibs (fibId slot i) with
    | none => false
    | some f => fbarArrived s (fibId slot i) f && fbarMask f &&& have_ == fbarMask f)
  ids.foldl (fun s i => s.modFib (fibId slot i) (fun f =>
    { f with threads := f.threads.map (fun t => if t.st == 1#4 then t.resume f else t) })) s

/-! ### Counted barriers (R164, R165) -/

/-- The barrier after x arrivals are held against its target. -/
def CBar.settle (b : CBar) (x : Nat) : CBar :=
  let t := b.target.toNat
  let q := if t == 0 then 0 else x / t
  let rest := if t == 0 then x else x % t
  { b with gen := b.gen + BitVec.ofNat 16 q, count := BitVec.ofNat 16 (if rest < 0xFFFF then rest else 0xFFFF) }

/-- A counted barrier; one that is not there is zero. -/
def cbarOf (w : Workgroup) (x : Nat) : CBar := w.cbars.getD x { gen := 0#16, count := 0#16, target := 0#16 }

/-- Threads that wait on a counted barrier for another generation than GEN go on. -/
def releaseCbar (x : Nat) (gen : BitVec 16) (f : Fibre) : Fibre :=
  { f with threads := f.threads.map (fun t => match t.wait with
      | .cbar y g => if t.st == 1#4 && y == x && g != gen then t.resume f else t
      | _ => t) }

/-- A runner that waits in XWT on the barrier goes on when GEN differs (R176): d takes GEN. -/
def releaseXwt (x : Nat) (gen : BitVec 16) (r : Runner) : Runner :=
  match r.xwt with
  | some (y, g) =>
    if y % 64 == x && g != gen then
      { r with xwt := none, regs := r.regs.set (y / 64) (gen.setWidth 32), pc := r.pc + 8#64 }
    else r
  | none => r

/-- Put a counted barrier back and wake its waiters, whose return refreshes the core (R165, R191, R355). -/
def State.setCbar (s : State) (wid x : Nat) (b : CBar) : State :=
  match tget s.wgs wid with
  | none => s
  | some w =>
    let changed := (cbarOf w x).gen != b.gen
    let s := s.setWg wid { w with cbars := w.cbars.set x b }
    if !changed then s
    else
      let waited := (wgFibs s wid).any (fun (_, f) => f.threads.any (fun t => match t.wait with
        | .cbar y _ => y == x
        | _ => false))
      let s := s.modFibs wid (releaseCbar x b.gen)
      let s := { s with runners := s.runners.map (fun (i, r) =>
        (i, if r.wg == wid then releaseXwt x b.gen r else r)) }
      if waited then s.refresh w.core else s

/-- arrive(n) of R165. -/
def State.arriveCbar (s : State) (wid x n : Nat) : State :=
  match tget s.wgs wid with
  | none => s
  | some w => s.setCbar wid x ((cbarOf w x).settle ((cbarOf w x).count.toNat + n))

/-- init(t) of R165. -/
def State.initCbar (s : State) (wid x t : Nat) : State :=
  match tget s.wgs wid with
  | none => s
  | some w => s.setCbar wid x
      (CBar.settle { cbarOf w x with target := BitVec.ofNat 16 t } (cbarOf w x).count.toNat)

/-! ### Splits (R315, R351) -/

/-- Every late set of every open split stands at an RCV or has exited (R351). -/
def splitsMeet (f : Fibre) : Bool :=
  f.splits.all (fun sp => (lanesOf sp.late).all (fun l =>
    match f.threads[l]? with
    | none => true
    | some t => t.st == 3#4 || t.st == 6#4 || (t.st == 1#4 && (match t.wait with
      | .rcv => true
      | .park _ => true
      | _ => false))))

/-! ### ALLOC (R217 to R219) -/

/-- The age key of a fibre (R218), larger for younger fibres. -/
def ageKey (s : State) (fid : Nat) : Nat :=
  let q := match tget s.fibs fid with
    | some f =>
      match wgOf s f with
      | some w =>
        match launchOf s w with
        | some l => l.lseq
        | none => 0
      | none => 0
    | none => 0
  q * 64 + fid % 64

/-- The fibre in the same place of the other twin (R300). -/
def twinFib (s : State) (fid : Nat) : Option Nat :=
  match tget s.fibs fid with
  | none => none
  | some f =>
    match tget s.wgs f.wg with
    | none => none
    | some w =>
      match w.red with
      | none => none
      | some r =>
        match tget s.wgs r.twin with
        | some t => some (t.core * 256 + fid % 256)
        | none => none

/-- Remove a request from its scheduler's queue. -/
def State.dropAlloc (s : State) (fid : Nat) : State :=
  s.modCore (fibCore fid) (fun c => { c with allocs := c.allocs.map (fun q => q.filter (fun r => r.fib != fid)) })

/-- An ALLOC completes with a status: its register window grows when it is granted (R217). -/
def State.endAlloc (s : State) (r : AllocReq) (granted : Bool) : State :=
  match tget s.fibs r.fib with
  | none => s
  | some f =>
    let s := s.dropAlloc r.fib
    let grow := if granted then r.n - f.regs.length else 0
    let sched := fibSched r.fib
    let s := s.modCore (fibCore r.fib) (fun c =>
      { c with regFree := c.regFree.set sched (c.regFree.getD sched 0 - grow) })
    let f := { f with regs := f.regs ++ List.replicate grow (Reg.plain (LaneVec.splat 0#32)) }
    let f := addEnergy (advance (leaveHold f) r.mask r.len) (popMask r.mask)
    (s.setFib r.fib f).writeReg r.fib r.d r.mask (LaneVec.splat (if granted then 0#32 else 1#32))

/-- Free registers of a scheduler. -/
def freeRegs (s : State) (core sched : Nat) : Nat := (coreOf s core).regFree.getD sched 0

/-- The growth that a request asks for. -/
def allocGrowth (s : State) (r : AllocReq) : Nat :=
  match tget s.fibs r.fib with
  | some f => r.n - f.regs.length
  | none => 0

/-- The head of a scheduler's queue. -/
def allocHead (s : State) (core sched : Nat) : Option AllocReq := ((coreOf s core).allocs.getD sched []).head?

/-- The twin's request when it stands at the head of its own queue and fits (R221). -/
def twinRequest (s : State) (r : AllocReq) : Option AllocReq :=
  match twinFib s r.fib with
  | none => none
  | some t =>
    match allocHead s (fibCore t) (fibSched t) with
    | some q => if q.fib == t && allocGrowth s q ≤ freeRegs s (fibCore t) (fibSched t) then some q else none
    | none => none

/-- Serve a scheduler's ALLOC queue from its head (R218, R221), on fuel. -/
def State.serveAllocs : Nat → State → Nat → Nat → State
  | 0, s, _, _ => s
  | fuel + 1, s, core, sched =>
    match allocHead s core sched with
    | none => s
    | some r =>
      if allocGrowth s r > freeRegs s core sched then s
      else if (twinFib s r.fib).isSome then
        match twinRequest s r with
        | none => s
        | some q => ((s.endAlloc r true).endAlloc q true).serveAllocs fuel core sched
      else (s.endAlloc r true).serveAllocs fuel core sched

/-- The slot is held in ALLOC (R219). -/
def heldInAlloc (s : State) (slot : Nat) : Bool :=
  let fs := s.fibs.filter (fun (_, f) => f.slot == slot)
  fs.any (fun (_, f) => f.hold == .alloc) &&
  fs.all (fun (i, f) => f.hold == .alloc || f.exited || fbarArrived s i f)

/-- The slot's fibres have all exited. -/
def slotExited (s : State) (slot : Nat) : Bool := (s.fibs.filter (fun (_, f) => f.slot == slot)).all (fun (_, f) => f.exited)

/-- The request with the smallest age key. -/
def oldestRequest (s : State) : List AllocReq → Option AllocReq
  | [] => none
  | r :: rs =>
    match oldestRequest s rs with
    | none => some r
    | some q => if ageKey s q.fib < ageKey s r.fib then some q else some r

/-- The request of a fibre's twin stands in its own queue, or the fibre has no twin: until then the request waits for the
twin, and not for registers (R221). -/
def twinAsked (s : State) (r : AllocReq) : Bool :=
  match twinFib s r.fib with
  | none => true
  | some t => ((coreOf s (fibCore t)).allocs.getD (fibSched t) []).any (fun q => q.fib == t)

/-- The register deadlock rule (R219). A refusal refuses the twin's request too (R221). -/
def State.allocDeadlock (s : State) (core sched : Nat) : State :=
  let slots := (s.slots.filter (fun (i, _) => i / 64 == core && i / 16 % 4 == sched)).map (·.1)
  let q := (coreOf s core).allocs.getD sched []
  if q.isEmpty || !q.all (twinAsked s) || !(slots.all (fun i => heldInAlloc s i || slotExited s i)) then s
  else
    match oldestRequest s q with
    | none => s
    | some best =>
      let refuse := fun (s : State) (r : AllocReq) =>
        let s := s.endAlloc r false
        match twinFib s r.fib with
        | none => s
        | some t =>
          match (((coreOf s (fibCore t)).allocs.getD (fibSched t) []).find? (fun q => q.fib == t)) with
          | some q => s.endAlloc q false
          | none => s
      let s := q.foldl (fun s r => if r.fib == best.fib then s else refuse s r) s
      if allocGrowth s best ≤ freeRegs s core sched then
        if (twinFib s best.fib).isSome then
          match twinRequest s best with
          | some q => (s.endAlloc best true).endAlloc q true
          | none => refuse s best
        else s.endAlloc best true
      else refuse s best

/-- Examine a scheduler's ALLOC queue again (R218, R219). -/
def State.examineAllocs (s : State) (core sched : Nat) : State :=
  (s.serveAllocs (((coreOf s core).allocs.getD sched []).length) core sched).allocDeadlock core sched

/-- Examine the queues that a new request may move: its own scheduler's, and its twin's (R221). -/
def State.examineRequest (s : State) (fid : Nat) : State :=
  let s := s.examineAllocs (fibCore fid) (fibSched fid)
  match twinFib s fid with
  | none => s
  | some t => s.examineAllocs (fibCore t) (fibSched t)

/-! ### Handles (R160, R163) -/

/-- The code of a handle's state (R160). -/
def hstCode : HSt → Nat
  | .free => 0
  | .filling => 1
  | .full => 2
  | .draining => 3
  | .error => 4

/-- CNCL of a handle (R163, R171). -/
def State.cancelHandle (s : State) (wid h : Nat) : State :=
  match tget s.wgs wid with
  | none => s
  | some w =>
    let x := handleOf w h
    let free : Handle := { st := .free, cause := 0#8, cmd := none, owner := none }
    match x.st, x.owner with
    | .filling, some rid =>
      let s := s.modRunner rid (fun r => { r with opened := r.opened.filter (· != h) })
      (s.setHandle wid h free).wakeHandle wid h
    | .filling, none =>
      let s := s.setHandle wid h { x with st := .draining }
      let s := { s with cmds := s.cmds.map (fun ((i, c) : Nat × Cmd) =>
        (i, if c.wg == wid && c.handle == h then { c with cancelled := true } else c)) }
      s.modWg wid (fun w => { w with colls := w.colls.map (fun (c : Collective) =>
        if c.handle == some h then { c with cancelled := true } else c) })
    | .full, _ => s.setHandle wid h free
    | .error, _ =>
      if w.colls.any (fun (c : Collective) => c.handle == some h) then
        (s.setHandle wid h { free with st := .draining }).modWg wid (fun w => { w with colls := w.colls.map (fun (c : Collective) =>
          if c.handle == some h then { c with cancelled := true } else c) })
      else s.setHandle wid h free
    | _, _ => s

/-! ### Exit (R222, R350) -/

/-- The launch of a fibre is a continuation pool. -/
def inPool (s : State) (f : Fibre) : Bool :=
  match wgOf s f with
  | none => false
  | some w =>
    match launchOf s w with
    | some l => l.lr.pool
    | none => false

/-- Replies to an exited fibre's loads are discarded; an atomic is performed all the same (R222). -/
def State.discardReplies (s : State) (fid : Nat) : State :=
  { s with flights := (s.flights.filter (fun (_, fl) => !(fl.fib == fid && (match fl.kind with
      | .load _ _ _ _ => true
      | _ => false)))).map (fun (i, fl) => (i, if fl.fib == fid then { fl with dst := [] } else fl)) }

/-- Every fibre of a workgroup has exited. -/
def wgExited (s : State) (wid : Nat) : Bool := (wgFibs s wid).all (fun (_, f) => f.exited)

/-- The last fibre of a workgroup has exited: its filling handles are cancelled (R157). -/
def State.endingWg (s : State) (wid : Nat) : State :=
  match tget s.wgs wid with
  | none => s
  | some w =>
    if w.ending then s
    else
      let s := s.setWg wid { w with ending := true, red := w.red.map (fun (r : Redundant) => { r with endedAt := s.tick }) }
      (List.range 64).foldl (fun s h =>
        if (handleOf w h).st == .filling then s.cancelHandle wid h else s) s

/-- What follows when a fibre's threads have all exited (R222, R350). In a pool the place stays, to take
another group, until no thread of the launch is left (R381). -/
def State.afterExit (s : State) (fid : Nat) : State :=
  match tget s.fibs fid with
  | none => s
  | some f =>
    if !f.exited then s
    else
      let s := s.discardReplies fid
      match wgOf s f with
      | none => s
      | some w =>
        if inPool s f then
          match launchOf s w with
          | some l =>
            if l.live == 0 then
              ((s.wgs.filter (fun (_, x) => x.lid == w.lid)).map (·.1)).foldl (fun s i => s.endingWg i) s
            else s
          | none => s
        else
          let s := s.returnRegs w.core (fibSched fid) f.regs.length
          let s := if slotExited s f.slot then s.returnRegs w.core (fibSched fid) (sharedOf s f).length else s
          let s := s.examineAllocs w.core (fibSched fid)
          if wgExited s f.wg then s.endingWg f.wg else s

/-- Every thread that has not exited waits at an RTE: the fibre returns (R391). -/
def rteReady (f : Fibre) : Bool :=
  f.handler.isSome && !f.exited &&
  f.threads.all (fun t => t.st == 3#4 || t.st == 6#4 || (t.st == 1#4 && t.wait == .rte))

/-! ### Access faults (R113 to R117) -/

/-- The base of the 4 KiB page of an address. -/
def pageBase (a : Addr) : Addr := a &&& ~~~ 0xFFF#64

/-- The pages of a list of faults, in order. -/
def faultPages (fs : List AccFault) : List Addr := (fs.map (fun x => pageBase x.va)).eraseDups

/-- The lanes of a list of faults. -/
def faultLanes (fs : List AccFault) : LaneMask :=
  fs.foldl (fun a x => a ||| BitVec.ofNat 32 (2 ^ x.lane)) 0#32

/-- The lowest address of a list of faults. -/
def lowestVa (fs : List AccFault) : Addr :=
  fs.foldl (fun a x => if x.va.toNat < a.toNat then x.va else a) (BitVec.allOnes 64)

/-- The lowest-numbered lane's fault of a list. -/
def lowestFault : List AccFault → Option AccFault
  | [] => none
  | x :: xs =>
    match lowestFault xs with
    | none => some x
    | some y => if y.lane < x.lane then some y else some x

/-- The record of a fibre's or runner's fault on one page (R116). -/
def faultRecord (s : State) (asid : BitVec 12) (run : Bool) (req : Nat) (fs : List AccFault) (rpl : Bool) : FaultRec :=
  let x := (lowestFault fs).getD { kind := 0, va := 0#64, acc := 0, obj := 0, lane := 0, replayable := false }
  { tick := s.tick, va := lowestVa fs, obj := x.obj, asid := asid, kind := x.kind, acc := x.acc, run := run,
    req := req, lanes := faultLanes fs, rpl := rpl }

/-- An access of a fibre fails in some lanes (R113 to R116, R197): frozen as replayable, or a precise trap. -/
def State.accessFault (s : State) (fid : Nat) (m : LaneMask) (fs : List AccFault) : State :=
  match tget s.fibs fid with
  | none => s
  | some f =>
    match wgOf s f with
    | none => s
    | some w =>
      let asid := xlAsid (xlOf s w)
      match lowestFault (fs.filter (fun x => !x.replayable)) with
      | some x =>
        let mine := fs.filter (fun y => !y.replayable && pageBase y.va == pageBase x.va && y.kind == x.kind)
        let s := if x.kind == 5 || x.kind == 3 then s
          else s.postFault w.ctx (faultRecord s asid false fid mine false)
        s.raise fid { code := BitVec.ofNat 8 ((if x.acc == 3 then 0x20 else 0x10) + x.kind), cause := 0#8,
                      addr := if x.kind == 5 then BitVec.ofNat 64 x.obj else x.va, fm := if x.acc == 3 then m else faultLanes fs,
                      num := 0#8 }
      | none =>
        let s := (faultPages fs).foldl (fun (s : State) pg =>
          s.postFault w.ctx (faultRecord s asid false fid (fs.filter (fun x => pageBase x.va == pg)) true)) s
        s.modFib fid (fun f => { modThreads f m (fun _ t => { t with st := 5#4 }) with frozen := fs })

/-- A fault of the lane access at an address, of a kind, with the ACC code of the access. -/
def laneFault (rply : Bool) (lane : Nat) (va : Addr) (kind acc : Nat) : AccFault :=
  { kind := kind, va := va, acc := acc, obj := 0, lane := lane, replayable := rply && kind == 0 }

/-! ### Parking (R380, R381) -/

/-- The bin of a record with a program counter (R381). -/
def binOf (ps : List Parked) (pc : Addr) : Nat :=
  match ps.find? (fun p => p.pc == pc) with
  | some p => p.bin
  | none =>
    match (List.range 64).find? (fun b => !(ps.any (fun p => p.bin == b))) with
    | some b => b
    | none => (pc.toNat / 2) % 64

/-- A continuation record enters its bin. -/
def Launch.park (l : Launch) (idx : Nat) (pc : Addr) (tick : Nat) : Launch :=
  { l with parked := l.parked ++ [{ idx := idx, pc := pc, since := tick, bin := binOf l.parked pc }] }

/-- The size of a continuation record (R380). -/
def recordSize (l : Launch) : Nat := 128 + 4 * l.hdr.priv

/-- The bytes of a thread's continuation record (R380): its on-chip entries from STK0 up are those of lowest
index first (log entry 12). -/
def recordBytes (f : Fibre) (lane : Nat) (t : Thread) (pc : Addr) (p : Nat) : List Byte :=
  let stk := (t.stack.reverse ++ List.replicate 8 0#64).take 8
  leBytes (pc.toNat + t.rstate.toNat * 2 ^ 64 + t.crd0 % 256 * 2 ^ 128 + f.fpst.toNat % 32 * 2 ^ 139 +
    t.depth % 65536 * 2 ^ 144 + t.tid % 2 ^ 32 * 2 ^ 160) 24 ++
  (stk.map (fun e => leBytes e.toNat 8)).flatten ++ List.replicate 40 0#8 ++
  ((List.range p).map (fun j => leBytes ((placeReg f [] j).val.lane lane).toNat 4)).flatten

/-- The threads of a mask write their records and leave the fibre; `error` is a fault of the record's page. -/
def State.park (s : State) (fid : Nat) (m : LaneMask) (target : Nat → Addr) : Except (Nat × Addr × Nat) State :=
  match tget s.fibs fid with
  | none => .ok s
  | some f =>
    match wgOf s f with
    | none => .ok s
    | some w =>
      match launchOf s w with
      | none => .ok s
      | some l =>
        let r : Except (Nat × Addr × Nat) State := (lanesOf m).foldlM (fun (s : State) lane =>
          match f.threads[lane]? with
          | none => .ok s
          | some t =>
            let i := t.record.getD 0
            let a := l.lr.auxa.toNat + i * recordSize l
            match writeVirtual s w.ctx l.xl false a (recordBytes f lane t (target lane) l.hdr.priv) with
            | .error k => .error (k, BitVec.ofNat 64 a, lane)
            | .ok s =>
              .ok (s.modLaunch w.lid (fun l => l.park i (target lane) s.tick)))
          { s with cur := { s.cur with writer := [w.lid] } }
        match r with
        | .error e => .error e
        | .ok t =>
          let s := { t with cur := { t.cur with writer := s.cur.writer } }
          .ok (s.modFib fid (fun f => modThreads f m (fun _ t =>
            { t with st := 3#4, wait := .none, wlen := 0, record := none })))

/-- Threads whose wait for the splits ends by parking. -/
def parkWaiters (f : Fibre) : LaneMask :=
  BitVec.ofNat 32 (f.threads.zipIdx.foldl (fun a (t, i) => match t.wait with
    | .park _ => if t.st == 1#4 then a + 2 ^ i else a
    | _ => a) 0)

/-- The address at which a waiting thread parks. -/
def parkTarget (f : Fibre) (l : Nat) : Addr :=
  match f.threads[l]? with
  | some t =>
    match t.wait with
    | .park a => a
    | _ => 0#64
  | none => 0#64

/-- Close the open splits when every late set has met (R315, R351, R381). -/
def State.closeSplits (s : State) (fid : Nat) : State :=
  match tget s.fibs fid with
  | none => s
  | some f =>
    if f.splits.isEmpty || !splitsMeet f then s
    else
      let parks := parkWaiters f
      let s := s.setFib fid { f with
        splits := []
        threads := f.threads.map (fun t => if t.st == 1#4 && t.wait == .rcv then t.resume f else t) }
      if parks == 0#32 then s
      else
        match s.park fid parks (parkTarget f) with
        | .ok s => s.afterExit fid
        | .error (k, a, l) => s.accessFault fid parks [laneFault false l a k 1]

/-- Waiting threads of a fibre re-examine their conditions (R345, R391); a return from CBAR.WT refreshes the core (R355). -/
def State.reexamine (s : State) (fid : Nat) : State :=
  match tget s.fibs fid with
  | none => s
  | some f =>
    match tget s.wgs f.wg with
    | none => s
    | some w =>
      let f := w.bars.zipIdx.foldl (fun g (b, x) => releaseBar x b.gen g) f
      let g := w.cbars.zipIdx.foldl (fun g (b, x) => releaseCbar x b.gen g) f
      let s := if g.threads == f.threads then s else s.refresh w.core
      ((s.setFib fid g).closeSplits fid).fbarCheck f.slot

/-- A fibre all of whose threads wait at RTE returns, and its waits go on (R391); a frame that lies in host memory or at a peer
is first read there. -/
def State.returnFibre (s : State) (fid : Nat) : State :=
  let ls := returnLines s fid
  if !ls.isEmpty then
    match tget s.fibs fid with
    | none => s
    | some f =>
      let (id, s) := s.readLines fid (match wgOf s f with | some w => w.ctx | none => { fn := 0, id := 0 })
        (match f.threads[lowestLane (liveMask f)]? with | some t => t.pc | none => 0#64) (liveMask f) [] ls
      s.modFib fid (fun f => enterHold f (.flight id) false s.tick)
  else
    let s := (s.returnTrap fid).reexamine fid
    match tget s.fibs fid with
    | some f => if f.exited then s.afterExit fid else s
    | none => s

/-- What an exit of some threads of a fibre brings about for others (R350 to R354, R391, R218). -/
def State.threadsLeft (s : State) (fid : Nat) : State :=
  match tget s.fibs fid with
  | none => s
  | some f =>
    let s := s.exitBars f.wg
    let s := s.closeSplits fid
    let s := match tget s.fibs fid with
      | some f => if rteReady f then s.returnFibre fid else s
      | none => s
    let s := s.afterExit fid
    let s := s.fbarCheck f.slot
    match wgOf s f with
    | some w => s.examineAllocs w.core (fibSched fid)
    | none => s

/-- EXIT of the threads of a mask (R350, R381). -/
def State.exitThreads (s : State) (fid : Nat) (m : LaneMask) : State :=
  match tget s.fibs fid with
  | none => s
  | some f =>
    let pool := inPool s f
    let s := s.modFib fid (fun f => modThreads f m (fun _ t =>
      { t with st := 3#4, wait := .none, wlen := 0, record := none }))
    let s := if pool then
        match wgOf s f with
        | some w => s.modLaunch w.lid (fun l => { l with live := l.live - popMask m })
        | none => s
      else s
    s.threadsLeft fid

end Sys2Proof.Machine
end

