-- ==== Sys2Proof/Machine/Control.lean ====
section
/-!
DEFINITION. Branches, calls and ending (R346 to R351) and the parking of JMPI in a pool (R381).
-/
namespace Sys2Proof.Machine

/-- A control, synchronisation or system instruction of a fibre: its checks and sources, then `k`. -/
def fibreOp (y : Bool) (xs : List Src) (dests : List Nat) (s : State) (k : State → FIn → Out) : Out :=
  onFibre s (fun fid m => fibreIssue s fid m y xs dests true k)

/-- The source `i` that a fibre instruction has read. -/
def FIn.s (i : FIn) (n : Nat) : LaneVec := i.src.getD n (LaneVec.splat 0#32)

/-- The word of source `n` in the lowest active lane. -/
def FIn.low (i : FIn) (n : Nat) : Word := (i.s n).lane (lowestLane i.m)

/-- The active threads change and the issue's energy is added (R447). -/
def State.threadsDo (s : State) (i : FIn) (g : Nat → Thread → Thread) : State :=
  s.modFib i.fid (fun f => addEnergy (modThreads f i.m g) (popMask i.m))

/-- The instruction has no effect but to go on to the next one. -/
def State.passOn (s : State) (i : FIn) (len : Nat) : State :=
  s.threadsDo i (fun _ t => { t with pc := t.pc + BitVec.ofNat 64 len })

/-! ### Branches -/

/-- A branch offset in bytes from a signed count of halfwords (R84). -/
def branchBytes {n : Nat} (off : BitVec n) : Addr := off.signExtend 64 * 2#64

/-- A branch: `taken` decides in each lane from the condition source, if there is one. -/
def opBranch (len : Nat) (y : Bool) (cond : Option Opd) (taken : Word → Bool) (off : Addr) (s : State) : Out :=
  let xs := match cond with | some o => [src o Ty.i32] | none => []
  match s.cur.agent with
  | .none => .fault .noAgent
  | .runner rid =>
    match tget s.runners rid with
    | none => .fault .noAgent
    | some r =>
      if !runnerOpdsOk r xs then .next (s.runnerFault rid 0x02#8)
      else
        let w := match cond with | some o => runnerWord s r (src o Ty.i32) | none => 0#32
        .next (s.setRunner rid { r with pc := if taken w then r.pc + off else r.pc + BitVec.ofNat 64 len })
  | .fib _ =>
    fibreOp y xs [] s (fun s i =>
      .next (s.threadsDo i (fun l t =>
        { t with pc := if taken ((i.s 0).lane l) then t.pc + off else t.pc + BitVec.ofNat 64 len })))

/-- NOP (R346). -/
def opNop (len : Nat) (y : Bool) (s : State) : Out :=
  opBranch len y none (fun _ => false) 0#64 s

/-- The offset fields of R84. -/
def offC (f : CForm) : Addr := branchBytes (f.s ++ f.d)
def offW20 (f : WForm) : Addr := branchBytes (f.b ++ f.a ++ f.d)
def offW13 (f : WForm) : Addr := branchBytes (f.b ++ f.d)
def offL (f : LForm) : Addr := branchBytes (f.imm ++ f.c ++ f.b)

/-! ### Indirect targets (R84) -/

/-- The target that a word names: zero-extended (R346). -/
def targetOf (w : Word) : Addr := w.setWidth 64

/-- The active lanes that hold an odd target. -/
def oddLanes (m : LaneMask) (v : LaneVec) : List Nat := (lanesOf m).filter (fun l => (v.lane l).getLsbD 0)

/-- A list of lanes as a mask. -/
def maskOf (ls : List Nat) : LaneMask := ls.foldl (fun a l => a ||| BitVec.ofNat 32 (2 ^ l)) 0#32

/-- The misaligned-target trap of the lanes that hold an odd target. -/
def oddTrap (v : LaneVec) (ls : List Nat) : Trap :=
  trapAddr 0x31 (maskOf ls) (targetOf (v.lane (ls.headD 0)))

/-- The active threads that hold a barrier token. -/
def tokenLanes (f : Fibre) (m : LaneMask) : List Nat :=
  (lanesOf m).filter (fun l => match f.threads[l]? with
    | some t => t.token.isSome
    | none => false)

/-- JMPI in a pool (R381): the threads park, at once or once the splits are closed. Their records hold the registers that loads
still in flight will write (R224), so the instruction waits for those. -/
def State.parkAt (s : State) (i : FIn) (len : Nat) (y : Bool) : State :=
  let held := tokenLanes i.f i.m
  if !held.isEmpty then s.raise i.fid (trapOf 0x62 (maskOf held))
  else if (pendingPlaces s i.fid i.f).any (fun p => decide (p < 64)) then s.stallKept i y false
  else if !i.f.splits.isEmpty then
    let s := s.modFib i.fid (fun f => addEnergy (modThreads f i.m (fun l t =>
      { t with st := 1#4, wait := .park (targetOf ((i.s 0).lane l)), wlen := len, since := s.tick })) (popMask i.m))
    s.closeSplits i.fid
  else
    match s.park i.fid i.m (fun l => targetOf ((i.s 0).lane l)) with
    | .error (k, a, l) => s.accessFault i.fid i.m [laneFault false l a k 1]
    | .ok s => (s.modFib i.fid (fun f => addEnergy f (popMask i.m))).threadsLeft i.fid

/-- JMPI (R346, R381). -/
def opJmpi (len : Nat) (y : Bool) (a : Opd) (s : State) : Out :=
  fibreOp y [src a Ty.i32] [] s (fun s i =>
    let odd := oddLanes i.m (i.s 0)
    if !odd.isEmpty then .next (s.raise i.fid (oddTrap (i.s 0) odd))
    else if inPool s i.f && i.f.handler.isNone then .next (s.parkAt i len y)
    else .next (s.threadsDo i (fun l t => { t with pc := targetOf ((i.s 0).lane l) })))

/-! ### Calls (R347 to R349) -/

/-- STKBASE, STKSZ and the translation of a fibre's launch. -/
structure StackArea where
  base : Addr
  size : Nat
  ctx : CtxKey
  xl : List (BitVec 32)
  deriving DecidableEq, Repr

/-- The overflow area of a fibre's launch (R347). -/
def stackArea (s : State) (f : Fibre) : StackArea :=
  match wgOf s f with
  | none => { base := 0#64, size := 0, ctx := { fn := 0, id := 0 }, xl := [] }
  | some w =>
    match launchOf s w with
    | none => { base := 0#64, size := 0, ctx := w.ctx, xl := xlOf s w }
    | some l => { base := l.lr.stkbase, size := l.lr.stksz, ctx := w.ctx, xl := l.xl }

/-- The address of entry `i` of a thread's overflow area (R347, R460). -/
def overflowAddr (a : StackArea) (t : Thread) (i : Nat) : Addr :=
  a.base + BitVec.ofNat 64 (t.tid * a.size + 8 * i)

/-- A mode of privilege: a handler reaches pages with U = 0 (R388). -/
def privOf (f : Fibre) : Bool := f.handler.isSome

/-- An overflow access of a lane: where it goes, and of a spill the entry. -/
structure Spill where
  lane : Nat
  va : Addr
  entry : Addr
  deriving DecidableEq, Repr

/-- The entries that a CALL spills (R347). -/
def spillsOf (s : State) (f : Fibre) (m : LaneMask) : List Spill :=
  (lanesOf m).filterMap (fun l =>
    match f.threads[l]? with
    | none => none
    | some t =>
      if t.depth < 8 then none
      else t.stack.getLast?.map (fun e => { lane := l, va := overflowAddr (stackArea s f) t (t.depth - 8), entry := e }))

/-- The entries that a RET brings back (R347). -/
def fillsOf (s : State) (f : Fibre) (m : LaneMask) : List Spill :=
  (lanesOf m).filterMap (fun l =>
    match f.threads[l]? with
    | none => none
    | some t =>
      if t.depth < 9 then none
      else some { lane := l, va := overflowAddr (stackArea s f) t (t.depth - 9), entry := 0#64 })

/-- The lines of peers that a spill has yet to write, or the lines of peers and of host memory that a fill has yet to read. -/
def Spill.remote (s : State) (f : Fibre) (acc : Acc) (x : Spill) : List (Addr × Place) :=
  let a := stackArea s f
  remoteLines s f.got (acc == .read) a.ctx a.xl (privOf f) acc x.va.toNat 8

/-- The spills of a CALL (R349, R461): those that can be performed are, and the lanes that fail are listed; lanes that
wait for a peer are passed over. -/
def State.spills (s : State) (f : Fibre) (xs : List Spill) : State × List AccFault :=
  let a := stackArea s f
  xs.foldl (fun (r : State × List AccFault) x =>
    if !(x.remote s f .write).isEmpty then r
    else
      match writeGot r.1 f.got a.ctx a.xl (privOf f) x.va.toNat (leBytes x.entry.toNat 8) with
      | .ok s' => (s', r.2)
      | .error k => (r.1, r.2 ++ [laneFault false x.lane x.va k 1])) (s, [])

/-- The entries that RET brings back from memory (R349): by lane, or the faults. -/
def fills (s : State) (f : Fibre) (xs : List Spill) : List (Nat × Addr) × List AccFault :=
  let a := stackArea s f
  xs.foldl (fun (r : List (Nat × Addr) × List AccFault) x =>
    if !(x.remote s f .read).isEmpty then r
    else
      match readGot s f.got a.ctx a.xl (privOf f) .read x.va.toNat 8 with
      | .ok bs => (r.1 ++ [(x.lane, BitVec.ofNat 64 (leValue bs))], r.2)
      | .error k => (r.1, r.2 ++ [laneFault false x.lane x.va k 0])) ([], [])

/-- The lanes of overflow accesses that go elsewhere, as a flight keeps them. -/
def spillLanes (s : State) (f : Fibre) (acc : Acc) (xs : List Spill) : List LaneReq :=
  let a := stackArea s f
  xs.filterMap (fun x =>
    match translate s a.ctx a.xl (privOf f) acc x.va with
    | .ok (.dev _ _) => none
    | .ok p => some { lane := x.lane, va := x.va, place := p, x := 0#32, y := 0#32, u := 0, ret := none }
    | .error _ => none)

/-- The fibre waits for lines that its instruction reads or writes elsewhere, and then begins again. -/
def State.awaitLines (s : State) (fid flt : Nat) (y latch : Bool) : State :=
  let s := s.holdFor fid (.flight flt) y latch
  { s with cur := { s.cur with stalled := true } }

/-- Fills of a RET from host memory and from peers are asked for. -/
def State.fetchFills (s : State) (i : FIn) (y : Bool) (xs : List Spill) : State :=
  let a := stackArea s i.f
  let (id, s) := s.readLines i.fid a.ctx s.cur.pc i.m (spillLanes s i.f .read xs) ((xs.map (Spill.remote s i.f .read)).flatten)
  s.awaitLines i.fid id y false

/-- Spills of a CALL to lines of peers are sent. -/
def State.sendSpills (s : State) (i : FIn) (y latch : Bool) (xs : List Spill) : State :=
  let a := stackArea s i.f
  let lines := xs.foldl (fun (ls : List (Addr × Place × BitVec 64 × BitVec 512)) x =>
    match x.remote s i.f .write with
    | [] => ls
    | (va, p) :: _ =>
      let m := byteMask (x.va.toNat % 64) 8
      let d := putLineNat 0#512 (x.va.toNat % 64) 8 x.entry.toNat
      if ls.any (fun y => y.2.1 == p) then
        ls.map (fun y => if y.2.1 == p then (y.1, y.2.1, y.2.2.1 ||| m, mergeLine y.2.2.2 d m) else y)
      else ls ++ [(va, p, m, d)]) []
  let (id, s) := s.writePeerLines i.fid a.ctx s.cur.pc i.m (spillLanes s i.f .write xs) lines
  s.awaitLines i.fid id y latch

/-- A thread pushes a return address (R347). -/
def Thread.push (t : Thread) (ret : Addr) : Thread :=
  { t with depth := t.depth + 1, stack := ret :: t.stack.take 7 }

/-- CALL and CALLI: the targets are even; the depth check, the spills, then the effect (R348). An overflow access is a stall,
during which a Y mark hands the slot on (R346). -/
def State.call (s : State) (i : FIn) (len : Nat) (y latch : Bool) (target : Nat → Thread → Addr) : State :=
  let dmax := 8 + (stackArea s i.f).size / 8
  let full := (lanesOf i.m).filter (fun l => match i.f.threads[l]? with
    | some t => t.depth == dmax
    | none => false)
  if !full.isEmpty then s.raise i.fid (trapOf 0x60 (maskOf full))
  else
    let xs := spillsOf s i.f i.m
    let (s', fs) := s.spills i.f xs
    if !fs.isEmpty then s'.accessFault i.fid i.m fs
    else if xs.any (fun x => !(x.remote s i.f .write).isEmpty) then (s.keepSources i).sendSpills i y latch xs
    else
      (s'.threadsDo i (fun l t => { t.push (t.pc + BitVec.ofNat 64 len) with pc := target l t })).yieldSlot i.fid
        (y && !xs.isEmpty) latch

def opCall (len : Nat) (y : Bool) (off : Addr) (s : State) : Out :=
  fibreOp y [] [] s (fun s i => .next (s.call i len y false (fun _ t => t.pc + off)))

def opCalli (len : Nat) (y : Bool) (a : Opd) (s : State) : Out :=
  fibreOp y [src a Ty.i32] [] s (fun s i =>
    let odd := oddLanes i.m (i.s 0)
    if !odd.isEmpty then .next (s.raise i.fid (oddTrap (i.s 0) odd))
    else .next (s.call i len y a.isLatch (fun l _ => targetOf ((i.s 0).lane l))))

/-- A thread pops its return address; `fill` is the entry that comes back on chip. -/
def Thread.pop (t : Thread) (fill : Option Addr) : Thread :=
  { t with
    pc := t.stack.headD 0#64, depth := t.depth - 1
    stack := t.stack.drop 1 ++ (match fill with | some e => [e] | none => []) }

/-- The address on top of a lane's stack. -/
def topOf (f : Fibre) (l : Nat) : Addr :=
  match f.threads[l]? with
  | some t => t.stack.headD 0#64
  | none => 0#64

/-- RET (R346 to R349). -/
def opRet (y : Bool) (s : State) : Out :=
  fibreOp y [] [] s (fun s i =>
    let none_ := (lanesOf i.m).filter (fun l => match i.f.threads[l]? with
      | some t => t.depth == 0
      | none => false)
    if !none_.isEmpty then .next (s.raise i.fid (trapOf 0x61 (maskOf none_)))
    else
      let xs := fillsOf s i.f i.m
      let (es, fs) := fills s i.f xs
      if !fs.isEmpty then .next (s.accessFault i.fid i.m fs)
      else if xs.any (fun x => !(x.remote s i.f .read).isEmpty) then .next (s.fetchFills i y xs)
      else
        let odd := (lanesOf i.m).filter (fun l => (topOf i.f l).getLsbD 0)
        if !odd.isEmpty then
          .next (s.raise i.fid (trapAddr 0x31 (maskOf odd) (topOf i.f (odd.headD 0))))
        else .next ((s.threadsDo i (fun l t => t.pop (tget es l))).yieldSlot i.fid (y && !xs.isEmpty) false))

/-! ### RCV, EXIT, YLD -/

/-- RCV (R351). -/
def opRcv (len : Nat) (y : Bool) (s : State) : Out :=
  fibreOp y [] [] s (fun s i =>
    if i.f.splits.isEmpty then .next (s.passOn i len)
    else
      let s := s.modFib i.fid (fun f => addEnergy (enterWait f i.m .rcv len s.tick) (popMask i.m))
      .next (s.closeSplits i.fid))

/-- EXIT (R350). -/
def opExit (y : Bool) (s : State) : Out :=
  fibreOp y [] [] s (fun s i =>
    .next ((s.modFib i.fid (fun f => addEnergy f (popMask i.m))).exitThreads i.fid i.m))

/-- YLD (R342, R346): a group switch in every case, and the slot passes on if another fibre is ready. -/
def opYld (len : Nat) (y : Bool) (s : State) : Out :=
  fibreOp y [] [] s (fun s i =>
    let s := s.passOn i len
    .next ((s.modFib i.fid groupSwitch).passSlot i.f.slot))

/-! ### The meanings -/

def execBraC (f : CForm) (s : State) : Out := opBranch 2 false none (fun _ => true) (offC f) s
def execNopC (_f : CForm) (s : State) : Out := opNop 2 false s
def execExitC (_f : CForm) (s : State) : Out := opExit false s
def execBraW (f : WForm) (s : State) : Out := opBranch 4 f.y none (fun _ => true) (offW20 f) s
def execBraL (f : LForm) (s : State) : Out := opBranch 8 f.y none (fun _ => true) (offL f) s
def execBrzW (f : WForm) (s : State) : Out := opBranch 4 f.y (some (.sel f.a)) (fun w => w == 0#32) (offW13 f) s
def execBrzL (f : LForm) (s : State) : Out := opBranch 8 f.y (some (.sel f.a)) (fun w => w == 0#32) (offL f) s
def execBrnzW (f : WForm) (s : State) : Out := opBranch 4 f.y (some (.sel f.a)) (fun w => w != 0#32) (offW13 f) s
def execBrnzL (f : LForm) (s : State) : Out := opBranch 8 f.y (some (.sel f.a)) (fun w => w != 0#32) (offL f) s
def execJmpiW (f : WForm) (s : State) : Out := opJmpi 4 f.y (.sel f.a) s
def execJmpiL (f : LForm) (s : State) : Out := opJmpi 8 f.y (.sel f.a) s
def execCallW (f : WForm) (s : State) : Out := opCall 4 f.y (offW20 f) s
def execCallL (f : LForm) (s : State) : Out := opCall 8 f.y (offL f) s
def execCalliW (f : WForm) (s : State) : Out := opCalli 4 f.y (.sel f.a) s
def execCalliL (f : LForm) (s : State) : Out := opCalli 8 f.y (.sel f.a) s
def execRetW (f : WForm) (s : State) : Out := opRet f.y s
def execRetL (f : LForm) (s : State) : Out := opRet f.y s
def execRcvW (f : WForm) (s : State) : Out := opRcv 4 f.y s
def execRcvL (f : LForm) (s : State) : Out := opRcv 8 f.y s
def execExitW (f : WForm) (s : State) : Out := opExit f.y s
def execExitL (f : LForm) (s : State) : Out := opExit f.y s
def execNopW (f : WForm) (s : State) : Out := opNop 4 f.y s
def execNopL (f : LForm) (s : State) : Out := opNop 8 f.y s
def execYldW (f : WForm) (s : State) : Out := opYld 4 f.y s
def execYldL (f : LForm) (s : State) : Out := opYld 8 f.y s

end Sys2Proof.Machine
end

