-- ==== Sys2Proof/Machine/Order.lean ====
section
/-!
DEFINITION. Agents, scopes and what orders accesses: releases and acquires and their mismatches (R317,
R323 to R328), fence obligations (R323), and phase boundaries (R294, R295).
-/
namespace Sys2Proof.Machine

/-! ### Agents and scopes -/

/-- A thread of a fibre as an agent; its scope field is for the record it may leave (R326). -/
def agentOf (s : State) (fid lane scope : Nat) : RelRec :=
  let fn := match tget s.fibs fid with
    | some f =>
      match wgOf s f with
      | some w => w.ctx.fn
      | none => 0
    | none => 0
  { scope := scope, fib := fid, lane := lane, wg := (match tget s.fibs fid with | some f => f.wg | none => 0),
    core := fibCore fid, fn := fn, peer := none }

/-- A runner takes the placement of its workgroup, and is in no scope of a fibre (R317). -/
def runnerAgent (s : State) (wid scope : Nat) : RelRec :=
  match tget s.wgs wid with
  | some w => { scope := scope, fib := 2 ^ 40 + wid, lane := 0, wg := wid, core := w.core, fn := w.ctx.fn, peer := none }
  | none => { scope := scope, fib := 2 ^ 40 + wid, lane := 0, wg := wid, core := 0, fn := 0, peer := none }

/-- The tenant's fabric partition of a function's agent takes in a peer (R309). -/
def fabReach (s : State) (fn : Nat) (peer : Option Nat) : Bool :=
  match peer with
  | none => true
  | some p => (partRec s fn).ftid != 0#16 && (partRec s fn).fmask.getLsbD p

/-- Agent `b` lies within scope `code` of agent `a` (R317). Of .sys, .fab and the host, only devices leave release records. -/
def inScope (s : State) (code : Nat) (a b : RelRec) : Bool :=
  let local_ := a.peer.isNone && b.peer.isNone
  match code with
  | 0 => local_ && a.fib == b.fib && a.wg == b.wg && a.lane == b.lane
  | 1 => local_ && a.fib == b.fib && a.wg == b.wg
  | 2 => local_ && a.fib / 4 == b.fib / 4 && a.wg == b.wg
  | 3 => local_ && a.wg == b.wg
  | 4 => local_ && a.core == b.core
  | 5 => local_ && a.core / 16 == b.core / 16
  | 6 => local_ && a.core / 256 == b.core / 256
  | 7 => local_
  | _ => local_ || (fabReach s a.fn b.peer && fabReach s b.fn a.peer)

/-- sr.scopemiss after one more mismatch (R328). -/
def missed (r : BitVec 32) (rel acq : Nat) : BitVec 32 :=
  BitVec.ofNat 32 (acq % 16 * 2 ^ 12 + rel % 16 * 2 ^ 8 + (if r.getLsbD 0 then 3 else 1) + (if r.getLsbD 1 then 2 else 0)
    - (if r.getLsbD 0 && r.getLsbD 1 then 2 else 0))

/-- An acquire at a scope reads what a release wrote: where either scope shuts the other out, sr.scopemiss of
the acquiring context is set (R328). -/
def State.noteAcquire (s : State) (c : CtxKey) (me : RelRec) (acq : Nat) (r : Option RelRec) : State :=
  match r with
  | none => s
  | some e =>
    if inScope s e.scope e me && inScope s acq me e then s
    else s.modCtx c (fun x => { x with scopemiss := missed x.scopemiss e.scope acq })

/-- The context of a fibre. -/
def fibCtx (s : State) (f : Fibre) : CtxKey :=
  match wgOf s f with
  | some w => w.ctx
  | none => { fn := 0, id := 0 }

/-- The context of a workgroup stays stopped until it is saved and restored (R395 step 4): nothing of it goes on. -/
def ctxStopped (s : State) (c : CtxKey) : Bool :=
  match (ctxOf s c).res with
  | .halted _ => true
  | _ => false

/-- A context takes no new command while it is stopped (R395 step 2). -/
def ctxTakes (s : State) (c : CtxKey) : Bool :=
  match (ctxOf s c).res with
  | .stopping _ => false
  | .halted _ => false
  | _ => true

/-- A workgroup's context is halted. -/
def wgHalted (s : State) (wid : Nat) : Bool :=
  match tget s.wgs wid with
  | some w => ctxStopped s w.ctx
  | none => false

/-- A flight's context is halted. -/
def flightHalted (s : State) (flt : Nat) : Bool :=
  match tget s.flights flt with
  | some fl => ctxStopped s fl.ctx
  | none => false

/-- A command's context is halted. -/
def cmdHalted (s : State) (cid : Nat) : Bool :=
  match tget s.cmds cid with
  | some c => wgHalted s c.wg
  | none => false

/-- A workgroup's context takes commands. -/
def wgTakes (s : State) (wid : Nat) : Bool :=
  match tget s.wgs wid with
  | some w => ctxTakes s w.ctx
  | none => true

/-- The fibre is the twin's of a redundant workgroup. -/
def isTwin (s : State) (f : Fibre) : Bool :=
  match wgOf s f with
  | some w =>
    match w.red with
    | some r => !r.primary
    | none => false
  | none => false

/-! ### Fences (R323) -/

/-- The flights of a fibre that an acquire waits for: loads, atomics and pod operations. -/
def readFlights (s : State) (fid : Nat) : Bool :=
  s.flights.any (fun (_, fl) => fl.fib == fid && fl.kind != .relStore)

/-- An unbuffered ST.rel of the fibre is not yet performed everywhere. -/
def relPending (s : State) (fid : Nat) : Bool := s.flights.any (fun (_, fl) => fl.fib == fid && fl.kind == .relStore)

/-- Some memory instruction of the fibre has neither completed nor retired. -/
def memBusy (s : State) (fid : Nat) : Bool := !(fibFlights s fid).isEmpty

/-- A memory instruction may not begin yet (R200, R323). -/
def memBlocked (s : State) (fid : Nat) (f : Fibre) : Bool :=
  relPending s fid || f.fences.any (fun o => (o.rel && memBusy s fid) || (o.acq && (match o.flt with
    | some id => s.flights.any (fun (k, _) => k == id)
    | none => readFlights s fid)))

/-- The relaxed atomics and pod operations before an acquire fence or a PHASE become acquires at its scope (R323, R324): what
they have read of a release is judged at that scope (R328). -/
def State.fenceAcquires (s : State) (fid scope : Nat) : State :=
  match tget s.fibs fid with
  | none => s
  | some f =>
    let c := fibCtx s f
    (f.seenRel.foldl (fun s (l, e) => s.noteAcquire c (agentOf s fid l scope) scope (some e)) s).modFib fid
      (fun f => { f with seenRel := [] })

/-- The scopes of the acquire fences that a fibre has issued and that its next memory instruction will meet: what it issued
before them and is still in flight becomes an acquire at each of them (R323). -/
def openFences (f : Fibre) : List Nat := (f.fences.filter (fun o => o.acq && o.flt.isNone)).map (·.scope)

/-- A relaxed atomic or a pod operation has read what a release wrote: an acquire fence after it makes it an acquire, now if the
fence has been issued, or when it will be (R323). -/
def State.seeRel (s : State) (fid lane : Nat) (r : Option RelRec) : State :=
  match r, tget s.fibs fid with
  | some e, some f =>
    let c := fibCtx s f
    if (openFences f).isEmpty then
      s.setFib fid { f with seenRel := if f.seenRel.contains (lane, e) then f.seenRel else f.seenRel ++ [(lane, e)] }
    else (openFences f).foldl (fun s sc => s.noteAcquire c (agentOf s fid lane sc) sc (some e)) s
  | _, _ => s

/-- The fences of a fibre are met: their refresh (R323). -/
def State.meetFences (s : State) (fid : Nat) (f : Fibre) : State :=
  if f.fences.isEmpty then s
  else
    let s := if f.fences.any (fun o => o.refresh) then s.refresh (fibCore fid) else s
    s.modFib fid (fun f => { f with fences := [] })

/-- The fibre has an atomic on memory in flight: a command that reads memory follows it, since it may name the same bytes (R320
item 1, R329; log entry 30). -/
def atomOpen (s : State) (fid : Nat) : Bool :=
  s.flights.any (fun (_, fl) => fl.fib == fid && fl.cmd.isNone && (match fl.kind with
    | .atom _ _ _ => true
    | .tadd _ _ => true
    | _ => false))

/-- A memory instruction of a fibre, or a command that takes part in its order (R329): the checks of R88
step 3, the fences before it, then `k`. `wait` makes it wait for every earlier memory instruction too. -/
def memOp (y : Bool) (xs : List Src) (dests : List Nat) (shape wait : Bool) (s : State)
    (k : State → FIn → Out) : Out :=
  onFibre s (fun fid m => fibreIssue s fid m y xs dests shape (fun s i =>
    if memBlocked s fid i.f || (wait && memBusy s fid) then .next (s.stallKept i y (xs.any (fun x => x.o.isLatch)))
    else k (s.meetFences fid i.f) i))

/-- Widen a fibre's release mark (R323). -/
def widerMark (m : Option Nat) (scope : Nat) : Option Nat :=
  match m with
  | some a => some (if a < scope then scope else a)
  | none => some scope

/-! ### Phase boundaries (R295) -/

/-- The core has a boundary in progress. -/
def boundaryBusy (c : Core) : Bool := c.bounds.any (fun b => b.started)

/-- Entries that the next boundary would mark: non-redundant ones that hold buffered bytes (R295 step 1). -/
def unmarked (c : Core) : List (Nat × PathEntry) := c.path.filter (fun (_, e) => !e.marked && e.wg.isNone && e.rel.isNone)

/-- Entries of the boundary in progress that are not yet acknowledged. -/
def unacked (c : Core) : List (Nat × PathEntry) := c.path.filter (fun (_, e) => e.marked && e.rel.isNone && !e.acked)

/-- Every store that a requester has retired was marked by the boundary in progress (R295). -/
def allMarked (c : Core) (fib : Option Nat) : Bool :=
  match fib with
  | some i => (unmarked c).all (fun (_, e) => !e.fibs.contains i)
  | none => (unmarked c).isEmpty

/-- Ask for a boundary; the one in progress serves when every store was marked by it. -/
def State.askBoundary (s : State) (core : Nat) (b : Boundary) : State :=
  s.modCore core (fun c => { c with bounds := c.bounds ++ [{ b with started := boundaryBusy c && allMarked c b.fib }] })

/-- The store of an ST.rel in flight becomes entries of its core's path that carry its unbuffered writes; of a
redundant pair the primary alone performs it (R303, R304). -/
def State.releaseStore (s : State) (core flt : Nat) : State :=
  match tget s.flights flt with
  | none => s
  | some fl =>
    if (match tget s.fibs fl.fib with | some f => isTwin s f | none => false) then s.dropFlight flt
    else
    let s := fl.lines.foldl (fun (s : State) ln =>
      let (id, s) := s.newId
      s.modCore core (fun c => { c with path := c.path ++ [(id,
        { va := ln.va, place := ln.place, ctx := fl.ctx, wg := none, mask := ln.ownMask, data := ln.own,
          fibs := [fl.fib], marked := true, performed := false, acked := false, spilled := false, rel := some flt,
          lids := fibLids s fl.fib })] })) s
    s.modFlight flt (fun fl => { fl with stage := .waiting })

/-- A PHASE completes and acts as FENCE.ar at its scope (R322, R323). -/
def State.phaseFence (s : State) (fid scope : Nat) : State :=
  (s.fenceAcquires fid scope).modFib fid (fun f => { f with relMark := widerMark f.relMark scope, fences := [] })

/-- What a completed boundary releases (R295 step 4, R322). -/
def State.boundaryDone (s : State) (core : Nat) (b : Boundary) : State :=
  let s := match b.flt with
    | some id => s.releaseStore core id
    | none => s
  match b.fib with
  | none => s
  | some fid =>
    let s := s.refresh (fibCore fid)
    let s := s.modFib fid (fun f => advance (leaveHold f) b.mask b.len)
    if b.mask == 0#32 || b.flt.isSome then s else s.phaseFence fid b.scope

/-- Complete the boundary in progress when every marked merge is acknowledged (R295 step 4). -/
def State.finishBoundary (s : State) (core : Nat) : State :=
  let c := coreOf s core
  if !boundaryBusy c || !(unacked c).isEmpty then s
  else
    let done := c.bounds.filter (fun b => b.started)
    let s := s.setCore core { c with
      path := c.path.filter (fun (_, e) => !e.marked || e.rel.isSome)
      bounds := c.bounds.filter (fun b => !b.started) }
    done.foldl (fun s b => s.boundaryDone core b) (s.refresh core)

/-- Begin the next boundary that has been asked for (R295 step 1); one without marked entries completes at once. -/
def State.startBoundary (s : State) (core : Nat) : State :=
  let c := coreOf s core
  if boundaryBusy c || c.bounds.isEmpty then s
  else
    let s := s.setCore core { c with
      path := c.path.map (fun (i, e) => (i, if e.wg.isNone && e.rel.isNone then { e with marked := true } else e))
      bounds := c.bounds.map (fun b => { b with started := true }) }
    s.finishBoundary core

end Sys2Proof.Machine
end

