-- ==== Sys2Proof/Machine/Sync.lean ====
section
/-!
DEFINITION. The synchronisation class (R321 to R323, R352 to R356) and the handle instructions (R163).
-/
namespace Sys2Proof.Machine

/-! ### Workgroup barriers (R353) -/

/-- BAR.ARV and BAR.MEET: the arrival waits for the fibre's earlier memory instructions. -/
def opBarArv (len : Nat) (y : Bool) (a b : Opd) (meet : Bool) (s : State) : Out :=
  fibreOp y [src a Ty.i32, src b Ty.i32] [] s (fun s i =>
    let x := (i.low 0).toNat
    if x ≥ 16 then .next (s.raise i.fid (trapOf 0x02 i.m))
    else if memBusy s i.fid then .next (s.stallKept i y (a.isLatch || b.isLatch))
    else
      let s := if meet then
          s.modFib i.fid (fun f => addEnergy (enterWait f i.m (.bar x) len s.tick) (popMask i.m))
        else s.passOn i len
      .next (s.arriveBar i.fid i.f.wg x (i.low 1).toNat i.m))

/-- Active lanes whose token does not name barrier `x` (R353). -/
def wrongToken (f : Fibre) (x : Nat) (m : LaneMask) : List Nat :=
  (lanesOf m).filter (fun l => match f.threads[l]? with
    | some t =>
      match t.token with
      | some (y, _) => y != x
      | none => true
    | none => true)

/-- BAR.WT. -/
def opBarWt (len : Nat) (y : Bool) (a : Opd) (s : State) : Out :=
  fibreOp y [src a Ty.i32] [] s (fun s i =>
    let x := (i.low 0).toNat
    let bad := wrongToken i.f x i.m
    if x ≥ 16 then .next (s.raise i.fid (trapOf 0x02 i.m))
    else if !bad.isEmpty then .next (s.raise i.fid (trapOf 0x62 (maskOf bad)))
    else
      let s := s.modFib i.fid (fun f => addEnergy (enterWait f i.m (.bar x) len s.tick) (popMask i.m))
      .next (s.wakeBar i.f.wg x))

/-! ### FBAR (R354) -/

/-- The number of fibre places of a slot. -/
def slotFibs (s : State) (slot : Nat) : Nat :=
  match tget s.slots slot with
  | some x => x.nfib
  | none => 1

def opFbar (len : Nat) (y : Bool) (a : Opd) (s : State) : Out :=
  fibreOp y [src a Ty.i32] [] s (fun s i =>
    let n := slotFibs s i.f.slot
    let m0 := (i.low 0).toNat % 16
    let m := if m0 == 0 then 2 ^ n - 1 else m0
    if m ≥ 2 ^ n || !m.testBit i.f.idx then .next (s.raise i.fid (trapOf 0x02 i.m))
    else
      let s := s.modFib i.fid (fun f => addEnergy (enterWait f i.m (.fbar m) len s.tick) (popMask i.m))
      .next ((s.fbarCheck i.f.slot).examineAllocs (fibCore i.fid) (fibSched i.fid)))

/-! ### Counted barriers (R355) -/

/-- The counted barriers granted to a fibre's workgroup. -/
def cbarGrant (s : State) (f : Fibre) : Nat :=
  match wgOf s f with
  | some w => w.cbars.length
  | none => 0

def opCbarArv (len : Nat) (y init : Bool) (a b : Opd) (s : State) : Out :=
  fibreOp y [src a Ty.i32, src b Ty.i32] [] s (fun s i =>
    let x := (i.low 0).toNat
    let n := (i.low 1).toNat
    if x ≥ cbarGrant s i.f then .next (s.raise i.fid (trapOf 0x63 i.m))
    else if (if init then n ≥ 65536 else n == 0) then .next (s.raise i.fid (trapOf 0x02 i.m))
    else if init then .next ((s.passOn i len).initCbar i.f.wg x n)
    else if memBusy s i.fid then .next (s.stallKept i y (a.isLatch || b.isLatch))
    else .next ((s.passOn i len).arriveCbar i.f.wg x n))

def opCbarWt (len : Nat) (y : Bool) (a b : Opd) (s : State) : Out :=
  fibreOp y [src a Ty.i32, src b Ty.i32] [] s (fun s i =>
    let x := (i.low 0).toNat
    let g := (i.low 1).setWidth 16
    match wgOf s i.f with
    | none => .next s
    | some w =>
      if x ≥ w.cbars.length then .next (s.raise i.fid (trapOf 0x63 i.m))
      else if (cbarOf w x).gen == g then
        .next (s.modFib i.fid (fun f => addEnergy (enterWait f i.m (.cbar x g) len s.tick) (popMask i.m)))
      else .next ((s.passOn i len).refresh (fibCore i.fid)))

/-! ### Handles (R163) -/

/-- The handle operand of an instruction (R85): by number, or by a register. -/
def handleSrc (f : LForm) : List Src := if f.imm.getLsbD 6 then [] else [src (.sel f.a) Ty.i32]

/-- The handle number. -/
def handleNo (f : LForm) (i : FIn) : Nat :=
  if f.imm.getLsbD 6 then bitsOf f.imm.toNat 5 0 else (i.low 0).toNat % 64

/-- The handle of a fibre's workgroup. -/
def fibHandle (s : State) (f : Fibre) (h : Nat) : Handle :=
  match wgOf s f with
  | some w => handleOf w h
  | none => { st := .free, cause := 0#8, cmd := none, owner := none }

/-- WAIT. -/
def opWait (len : Nat) (f : LForm) (s : State) : Out :=
  fibreOp f.y (handleSrc f) [] s (fun s i =>
    let h := handleNo f i
    let x := fibHandle s i.f h
    match x.st with
    | .free => .next (s.raise i.fid (handleTrap h 0#8 i.m))
    | .error => .next (s.raise i.fid (handleTrap h x.cause i.m))
    | .full => .next ((s.passOn i len).refresh (fibCore i.fid))
    | _ => .next (s.modFib i.fid (fun g => enterHold g (.handle h len i.m) true s.tick)))

/-- TEST's result word (R163). -/
def testWord (x : Handle) : Word :=
  BitVec.ofNat 32 (hstCode x.st + (if x.st == .error then x.cause.toNat * 256 else 0))

def opTest (len : Nat) (f : LForm) (s : State) : Out :=
  fibreOp f.y (handleSrc f) [f.d.toNat] s (fun s i =>
    let w := testWord (fibHandle s i.f (handleNo f i))
    .next ((s.writeReg i.fid f.d.toNat i.m (LaneVec.splat w)).passOn i len))

def opCncl (len : Nat) (f : LForm) (s : State) : Out :=
  fibreOp f.y (handleSrc f) [] s (fun s i =>
    .next ((s.passOn i len).cancelHandle i.f.wg (handleNo f i)))

/-! ### PHASE and FENCE (R321 to R323) -/

def opPhase (len : Nat) (y : Bool) (scope : Nat) (s : State) : Out :=
  fibreOp y [] [] s (fun s i =>
    if memBusy s i.fid then .next (s.stall i.fid y false)
    else
      let s := s.modFib i.fid (fun f => addEnergy f (popMask i.m))
      if (redKey s i.f.wg).isSome then
        let k := i.f.phases + 1
        .next ((s.modFib i.fid (fun f => { f with phases := k })).holdFor i.fid (.checkpoint k len i.m scope none) y false)
      else
        let (id, s) := s.newId
        let s := s.holdFor i.fid (.boundary id) y false
        .next (s.askBoundary (fibCore i.fid)
          { id := id, fib := some i.fid, len := len, mask := i.m, flt := none, scope := scope, ctx := none,
            lid := none, started := false }))

/-- FENCE: mode 0 .ar, 1 .acq, 2 .rel. -/
def opFence (len : Nat) (y : Bool) (mode scope : Nat) (s : State) : Out :=
  fibreOp y [] [] s (fun s i =>
    let acq := mode != 2
    let ob : FenceOb :=
      { rel := mode != 1, acq := acq, scope := scope, refresh := acq && decide (5 ≤ scope), flt := none }
    let s := s.passOn i len
    let s := if acq then s.fenceAcquires i.fid scope else s
    .next (s.modFib i.fid (fun f =>
      { f with fences := f.fences ++ [ob]
               relMark := if mode != 1 then widerMark f.relMark scope else f.relMark })))

/-! ### The meanings -/

def execBarArvW (f : WForm) (s : State) : Out := opBarArv 4 f.y (.sel f.a) (.sel f.b) false s
def execBarArvL (f : LForm) (s : State) : Out := opBarArv 8 f.y (.sel f.a) (.sel f.b) false s
def execBarWtW (f : WForm) (s : State) : Out := opBarWt 4 f.y (.sel f.a) s
def execBarWtL (f : LForm) (s : State) : Out := opBarWt 8 f.y (.sel f.a) s
def execBarMeetW (f : WForm) (s : State) : Out := opBarArv 4 f.y (.sel f.a) (.sel f.b) true s
def execBarMeetL (f : LForm) (s : State) : Out := opBarArv 8 f.y (.sel f.a) (.sel f.b) true s
def execFbarW (f : WForm) (s : State) : Out := opFbar 4 f.y (.sel f.a) s
def execFbarL (f : LForm) (s : State) : Out := opFbar 8 f.y (.sel f.a) s
def execCbarArvW (f : WForm) (s : State) : Out := opCbarArv 4 f.y false (.sel f.a) (.sel f.b) s
def execCbarArvL (f : LForm) (s : State) : Out := opCbarArv 8 f.y (f.mode.getLsbD 0) (.sel f.a) (.sel f.b) s
def execCbarWtW (f : WForm) (s : State) : Out := opCbarWt 4 f.y (.sel f.a) (.sel f.b) s
def execCbarWtL (f : LForm) (s : State) : Out := opCbarWt 8 f.y (.sel f.a) (.sel f.b) s
def execWaitW (f : WForm) (s : State) : Out := opWait 4 (expandW 0x56 f) s
def execWaitL (f : LForm) (s : State) : Out := opWait 8 f s
def execTestW (f : WForm) (s : State) : Out := opTest 4 (expandW 0x57 f) s
def execTestL (f : LForm) (s : State) : Out := opTest 8 f s
def execCnclW (f : WForm) (s : State) : Out := opCncl 4 (expandW 0x58 f) s
def execCnclL (f : LForm) (s : State) : Out := opCncl 8 f s
def execPhaseW (f : WForm) (s : State) : Out := opPhase 4 f.y f.d.toNat s
def execPhaseL (f : LForm) (s : State) : Out := opPhase 8 f.y f.d.toNat s
def execFenceW (f : WForm) (s : State) : Out := opFence 4 f.y 0 f.d.toNat s
def execFenceL (f : LForm) (s : State) : Out := opFence 8 f.y f.mode.toNat f.d.toNat s

end Sys2Proof.Machine
end

