-- ==== Sys2Proof/Machine/Runs.lean ====
section
/-!
DEFINITION. Instruction fetch (R64 to R66), the choice of the run that a fibre issues next (R214, R339 to
R341), and halts with their reports (R392 to R394, R441, R443, R459).
-/
namespace Sys2Proof.Machine

/-! ### Instruction fetch -/

/-- What a fetch finds: an instruction, bytes that are none, a fault of R112, or a line of host memory to read. -/
inductive Fetched where
  | instr (i : Instr) (len : Nat)
  | illegal
  | fault (kind : Nat)
  | sys (line : Nat)
  deriving DecidableEq, Repr

/-- Why bytes of an instruction cannot be had at once. -/
inductive FetchStop where
  | fault (kind : Nat)
  | sys (line : Nat)
  deriving DecidableEq, Repr

/-- Bytes of code at an address as a launch fetches them: device memory as at its acceptance (R66). -/
def fetchBytes (s : State) (l : Launch) (priv : Bool) (va n : Nat) : Except FetchStop (List Byte) :=
  (linePieces (n + 1) va n).foldlM (fun acc (a, k) =>
    match translate s l.ctx l.xl priv .fetch (BitVec.ofNat 64 a) with
    | .error e => .error (.fault e)
    | .ok (.dev d _) => if poisoned s d then .error (.fault 6) else .ok (acc ++ readBytes l.code d k)
    | .ok (.sys h) =>
      match tget l.codeSys (lineBase h) with
      | some x => .ok (acc ++ leBytes (lineNat x (h % 64) k) k)
      | none => .error (.sys (lineBase h))
    | .ok (.peer _ _) => .error (.fault 4)) []

/-- Fetch and decode the instruction at an address (R64, R65). -/
def fetchInstr (s : State) (l : Launch) (priv : Bool) (pc : Addr) : Fetched :=
  match fetchBytes s l priv pc.toNat 2 with
  | .error (.fault k) => .fault k
  | .error (.sys a) => .sys a
  | .ok h =>
    match fetchBytes s l priv pc.toNat (lengthOf (h.headD 0#8)) with
    | .error (.fault k) => .fault k
    | .error (.sys a) => .sys a
    | .ok bs =>
      match decode bs with
      | .ok (i, n) => .instr i n
      | .error _ => .illegal

/-- The launch of a fibre. -/
def fibLaunch (s : State) (f : Fibre) : Option Launch :=
  match wgOf s f with
  | some w => launchOf s w
  | none => none

/-! ### Runs (R339 to R341) -/

/-- An instruction reads a latch in some source field (R214). -/
def readsLatch (i : Instr) : Bool :=
  let l := fun (x : BitVec 7) => x.toNat == 64 || x.toNat == 65
  match viewOf i with
  | .w op f =>
    if op == 0x40 || op == 0x44 || op == 0x0C then false
    else if op == 0x41 || op == 0x42 then l f.a
    else l f.a || l f.b
  | .l op f =>
    if op == 0x40 || op == 0x44 then false
    else if op == 0x41 || op == 0x42 then l f.a
    else l f.a || l f.b || l f.c
  | _ => false

/-- The ready threads of a fibre with their program counters. -/
def readyThreads (f : Fibre) : List (Nat × Addr) :=
  f.threads.zipIdx.foldl (fun a (t, i) => if t.st == 0#4 then a ++ [(i, t.pc)] else a) []

/-- The run at an address (R339). -/
def runAt (f : Fibre) (pc : Addr) : LaneMask :=
  maskOf (((readyThreads f).filter (fun x => x.2 == pc)).map (·.1))

/-- The lowest program counter of a list of threads. -/
def lowestPc : List (Nat × Addr) → Option Addr
  | [] => none
  | x :: r =>
    match lowestPc r with
    | none => some x.2
    | some p => some (if x.2.toNat ≤ p.toNat then x.2 else p)

/-- A run: its address and its threads. -/
def runOf (f : Fibre) (pc : Option Addr) : Option (Addr × LaneMask) :=
  match pc with
  | some p => some (p, runAt f p)
  | none => none

/-- The min run (R340). -/
def minRun (f : Fibre) : Option (Addr × LaneMask) := runOf f (lowestPc (readyThreads f))

/-- The run that the burst in progress issues (R341). -/
def burstRun (f : Fibre) (b : Burst) : Option (Addr × LaneMask) :=
  runOf f (lowestPc ((readyThreads f).filter (fun x => b.set.getLsbD x.1)))

/-- The previous run, all of whose threads are ready at one address whose instruction reads a latch (R214). -/
def heldRun (s : State) (f : Fibre) : Option (Addr × LaneMask) :=
  if f.lastSet == 0#32 then none
  else
    let mine := (readyThreads f).filter (fun x => f.lastSet.getLsbD x.1)
    match mine with
    | [] => none
    | (_, pc) :: _ =>
      if mine.length != popMask f.lastSet || !(mine.all (fun x => x.2 == pc)) then none
      else
        match fibLaunch s f with
        | none => none
        | some l =>
          match fetchInstr s l (privOf f) pc with
          | .instr i _ => if readsLatch i then some (pc, runAt f pc) else none
          | _ => none

/-- The run that R340 selects. -/
def selectRun (s : State) (f : Fibre) : Option (Addr × LaneMask) :=
  match heldRun s f with
  | some r => some r
  | none =>
    match f.burst with
    | some b => burstRun f b
    | none => minRun f

/-- FAIRLIM of a fibre's launch. -/
def fairLim (s : State) (f : Fibre) : Nat :=
  match fibLaunch s f with
  | some l => l.lr.fairlim
  | none => 65536

/-- A fairness burst is due at this boundary (R341). -/
def burstDue (s : State) (f : Fibre) : Bool :=
  f.burst.isNone && decide (fairLim s f ≤ f.ft) && (heldRun s f).isNone && f.ready

/-- A fairness burst begins (R341). -/
def startBurst (f : Fibre) : Fibre :=
  match lowestPc (readyThreads f) with
  | none => { f with ft := 0 }
  | some p =>
    let c := (readyThreads f).filter (fun x => x.2 != p)
    let above := lowestPc (c.filter (fun x => decide (f.rv.toNat < x.2.toNat)))
    let pick := match above with
      | some q => some q
      | none => lowestPc c
    match pick with
    | none => { f with ft := 0 }
    | some q => { f with rv := q, burst := some { set := runAt f q, left := 32 } }

/-- FAIRNESS_BURST at a fibre's boundary. -/
def State.beginBurst (s : State) (fid : Nat) : State :=
  match tget s.fibs fid with
  | none => s
  | some f => if burstDue s f then s.setFib fid (startBurst f) else s

/-- The fairness accounts after an issue of the threads `m` (R341). `others` says that some ready thread was
not in the issued run, `halted` that a fibre of the context is halted by a session (R443). -/
def afterIssue (f : Fibre) (m : LaneMask) (others halted : Bool) : Fibre :=
  let f := { f with lastSet := m }
  match f.burst with
  | none => if halted then f else { f with ft := if others then f.ft + 1 else 0 }
  | some b =>
    let left := b.left - 1
    let alive := (readyThreads f).any (fun x => b.set.getLsbD x.1)
    if left == 0 || !alive || !others then { f with burst := none, ft := 0 }
    else { f with burst := some { b with left := left } }

/-! ### Sessions and halts -/

/-- A capability covers a context (R439): one of its holder's. -/
def covers (p : Capability) (c : CtxKey) : Bool := p.hfn == c.fn && (p.allctx || p.ctxid.toNat == c.id)

/-- The enclave of a context, and whether it admits debugging (R433). -/
def debugDenied (s : State) (c : CtxKey) : Bool :=
  let e := (ctxOf s c).encl
  e.extractLsb' 0 8 != 0#8 && !e.getLsbD 8

/-- A capability is not void by its EXPIRY (R439). -/
def capLive (s : State) (p : Capability) : Bool := p.expiry == 0#64 || decide (s.tick ≤ p.expiry.toNat)

/-- The capability of the session that holds a context (R392, R441). -/
def ctxSession (s : State) (c : CtxKey) : Option Capability :=
  match fnRec s c.fn with
  | none => none
  | some f =>
    match f.session with
    | none => none
    | some id => s.caps.find? (fun p => p.capid == id && capLive s p && covers p c && !debugDenied s c)

/-- Lowest program counter among a fibre's threads that have not exited. -/
def waitingPc (f : Fibre) : Addr :=
  let live := f.threads.zipIdx.foldl (fun a (t, i) => if t.st == 3#4 || t.st == 6#4 then a else a ++ [(i, t.pc)]) []
  (lowestPc live).getD 0#64

/-- The halt report of R393. -/
def haltBits (s : State) (fid : Nat) (f : Fibre) (c : CtxKey) (reason : Nat) : BitVec 256 :=
  let (pc, lanes) := (selectRun s f).getD (waitingPc f, 0#32)
  let fcode := match f.handler with | some h => h.code.toNat | none => 0
  BitVec.ofNat 256 (s.tick % 2 ^ 64 * 2 ^ 192 + pc.toNat * 2 ^ 128 + lanes.toNat * 2 ^ 96 + c.id % 2 ^ 16 * 2 ^ 80 +
    fibCore fid % 2 ^ 10 * 2 ^ 70 + fibSched fid * 2 ^ 68 + fibSlotIdx fid * 2 ^ 64 + fid % 4 * 2 ^ 62 +
    fcode * 2 ^ 48 + reason % 8 * 2 ^ 45 + (if f.handler.isSome then 2 ^ 44 else 0))

/-- A fibre halts with a reason; its report waits for the halt ring, after the watch records of the same halt
(R393, R456). A fibre already halted stays as it is (R457). `view` is the fibre as the report sees it. -/
def State.haltFibreAs (s : State) (fid reason : Nat) (watch : List (BitVec 256)) (view : Fibre → Fibre) : State :=
  match tget s.fibs fid with
  | none => s
  | some f =>
    if f.halted.isSome then s
    else
      let c := fibCtx s f
      let w : List DbgOut := watch.map (fun b => { fn := c.fn, halt := false, bits := b })
      { s.setFib fid { f with halted := some reason, haltReq := false } with
        dbgOut := s.dbgOut ++ w ++ [{ fn := c.fn, halt := true, bits := haltBits s fid (view f) c reason }] }

/-- A fibre halts in front of its next run. -/
def State.haltFibre (s : State) (fid reason : Nat) (watch : List (BitVec 256)) : State := s.haltFibreAs fid reason watch id

/-- A fibre halts at its boundary on a debug request, if it stands at one or waits with no thread ready (R394, R441,
R459). -/
def State.settleHalt (s : State) (fid : Nat) : State :=
  match tget s.fibs fid with
  | none => s
  | some f =>
    if f.haltReq && (f.hold == .none || !(f.threads.any (fun t => t.st == 0#4))) && f.trap.isNone then
      if f.exited then s.setFib fid { f with haltReq := false } else s.haltFibre fid 0 []
    else s

/-- Some fibre of a context is halted by a session (R443). -/
def ctxHalted (s : State) (c : CtxKey) : Bool :=
  s.fibs.any (fun (_, f) => f.halted.isSome && fibCtx s f == c)

/-! ### Frozen requesters (R114, R115, R118) -/

/-- A frozen fibre executes its instruction again. -/
def thawFibre (f : Fibre) : Fibre :=
  { f with frozen := [], threads := f.threads.map (fun t => if t.st == 5#4 then { t with st := 0#4 } else t) }

/-- A frozen command's stage after a replay. -/
def thawStage (st : CmdStage) : CmdStage :=
  match st with
  | .frozen _ => .queued
  | x => x

/-- REPLAY of a context's frozen requesters. -/
def State.replayFaults (s : State) (c : CtxKey) : State :=
  { s with
    fibs := s.fibs.map (fun ((i, f) : Nat × Fibre) => (i, if fibCtx s f == c then thawFibre f else f))
    runners := s.runners.map (fun ((i, r) : Nat × Runner) =>
      (i, if (match tget s.wgs r.wg with | some w => w.ctx == c | none => false) then { r with frozen := [] } else r))
    cmds := s.cmds.map (fun ((i, x) : Nat × Cmd) =>
      (i, if (match tget s.wgs x.wg with | some w => w.ctx == c | none => false) then
            { x with stage := thawStage x.stage } else x)) }

/-- One frozen fibre takes its fault as a trap. -/
def State.cancelFibre (s : State) (fid : Nat) : State :=
  match tget s.fibs fid with
  | none => s
  | some f =>
    if f.frozen.isEmpty then s
    else (s.setFib fid (thawFibre f)).accessFault fid (maskOfSt f 5#4)
      (f.frozen.map (fun x => { x with replayable := false }))

/-- The fault record of a runner (R116). REQ holds the die, the group and the runner; one that a merge has brought from another
group is numbered from 16 on with that group (R155). -/
def runnerReq (grp runner : Nat) : Nat :=
  let g := if runner < 16 then grp else runner / 16 - 1
  g / 4 % 4 * 2 ^ 16 + g % 4 * 2 ^ 14 + runner % 16 * 2 ^ 10

/-- The runner that a command has, or has had (R116). -/
def Cmd.runner (c : Cmd) : Nat :=
  match c.stage with
  | .running r => r
  | _ => c.served

/-- A runner of a context, or a command that it performs, meets a non-replayable fault (R115, R180). -/
def State.runnerAccessFault (s : State) (cid : Nat) (x : AccFault) : State :=
  match tget s.cmds cid with
  | none => s
  | some c =>
    match tget s.wgs c.wg with
    | none => s
    | some w =>
      let s := if x.kind == 5 || x.kind == 3 then s
        else s.postFault w.ctx (faultRecord s (xlAsid (xlOf s w)) true (runnerReq c.grp c.runner) [x] false)
      s.cmdFault cid (BitVec.ofNat 8 (0x10 + x.kind))

/-- CANCEL of a context's frozen requesters. -/
def State.cancelFaults (s : State) (c : CtxKey) : State :=
  let fs := (s.fibs.filter (fun (_, f) => !f.frozen.isEmpty && fibCtx s f == c)).map (·.1)
  let ofCtx := fun (wid : Nat) => match tget s.wgs wid with | some w => w.ctx == c | none => false
  let rs := s.runners.foldl (fun a (_, r) =>
    match r.frozen with
    | x :: _ => if ofCtx r.wg then a ++ [(r.cmd, x)] else a
    | [] => a) []
  let cs := s.cmds.foldl (fun a (i, x) =>
    match x.stage with
    | .frozen y => if ofCtx x.wg then a ++ [(i, y)] else a
    | _ => a) rs
  let s := fs.foldl (fun s i => s.cancelFibre i) s
  cs.foldl (fun s (i, x) => s.runnerAccessFault i x) s

end Sys2Proof.Machine
end

