-- ==== Sys2Proof/Machine/System.lean ====
section
/-!
DEFINITION. The system class: TRAP, RTE and HALT (R389 to R392), SRD and SWR (R425, R426), BOOST (R412 to
R414), ALLOC and FREE (R216 to R220), SHDW (R259, R260) and BKPT (R444).
-/
namespace Sys2Proof.Machine

/-! ### TRAP, RTE, HALT, BKPT -/

/-- TRAP (R390): the frame shows the next instruction. -/
def opTrap (n : Nat) (s : State) : Out :=
  fibreOp false [] [] s (fun s i =>
    .next ((s.passOn i 8).raise i.fid { trapOf 0x80 i.m with num := BitVec.ofNat 8 n }))

/-- RTE (R391). -/
def opRte (len : Nat) (s : State) : Out :=
  fibreOp false [] [] s (fun s i =>
    if i.f.handler.isNone then .next (s.raise i.fid (trapOf 0x03 i.m))
    else
      let f := addEnergy (enterWait i.f i.m .rte len s.tick) (popMask i.m)
      let s := s.setFib i.fid f
      .next (if rteReady f then s.returnFibre i.fid else s))

/-- An instruction that halts its fibre under a session, or traps (R392, R444). The report names the run that follows its own
issue, which a burst counts (R341, R393). -/
def opStop (len reason code : Nat) (held : Capability → Bool) (s : State) : Out :=
  fibreOp false [] [] s (fun s i =>
    let s' := s.passOn i len
    let view := fun (f : Fibre) => afterIssue f i.m (decide (popMask i.m < (readyThreads i.f).length)) (ctxHalted s (fibCtx s i.f))
    match ctxSession s (fibCtx s i.f) with
    | some p => if held p then .next (s'.haltFibreAs i.fid reason [] view) else .next (s'.raise i.fid (trapOf code i.m))
    | none => .next (s'.raise i.fid (trapOf code i.m)))

/-- HALT (R392). -/
def opHalt (len : Nat) (s : State) : Out := opStop len 1 0x82 (fun _ => true) s

/-- BKPT (R444): the session must hold BREAK. -/
def opBkpt (len : Nat) (s : State) : Out := opStop len 2 0x81 (fun p => p.rights.getLsbD 3) s

/-! ### Special registers (R424 to R426) -/

/-- The assigned numbers of R424. -/
def srAssigned (n : Nat) : Bool :=
  [0x001, 0x004, 0x030, 0x031, 0x03A, 0x03B, 0x040, 0x041, 0x042, 0x044, 0x810, 0x811, 0x812, 0x813, 0x814,
   0x815, 0x816, 0x817, 0x818].contains n

/-- A register of 64 bits. -/
def srWide (n : Nat) : Bool := n == 0x004 || n == 0x044 || n == 0x818

/-- A register with an RW or W1C field. -/
def srWritable (n : Nat) : Bool := [0x031, 0x03A, 0x810, 0x811, 0x812, 0x813, 0x814, 0x815].contains n

/-- sr.ident (R426). -/
def srIdent : BitVec 64 := 0x010040B1#64

/-- sr.bstat of a core as a context reads it (R409). -/
def srBstat (s : State) (core : Nat) (c : CtxKey) : Nat :=
  match (coreOf s core).boost with
  | none => 0
  | some b =>
    let left := b.stop - s.tick
    if left == 0 then 0
    else b.level * 2 ^ 30 + (if b.susp.isSome then 2 ^ 29 else 0) + (if b.ctx == c then 2 ^ 28 else 0) + left / 16 % 2 ^ 28

/-- sr.fqctl (R118): REPLAY and CANCEL read as zero. -/
def srFqctl (x : Ctx) : Nat := x.fqhead.toNat * 2 ^ 20 + x.fqtail.toNat * 2 ^ 8 + x.fqlogn.toNat

/-- The sum of sr.energy over the fibres of a workgroup (R447). -/
def groupEnergy (s : State) (wid : Nat) : BitVec 64 := (wgFibs s wid).foldl (fun a (_, f) => a + f.energy) 0#64

/-- The value of a special register as a fibre reads it. -/
def srRead (s : State) (fid : Nat) (f : Fibre) (n : Nat) : BitVec 64 :=
  let c := fibCtx s f
  let x := ctxOf s c
  if n == 0x001 then srIdent
  else if n == 0x004 then BitVec.ofNat 64 s.tick
  else if n == 0x030 then BitVec.ofNat 64 (f.regs.length + (sharedOf s f).length * 256)
  else if n == 0x031 then f.fpst.setWidth 64
  else if n == 0x03A then x.wbst.setWidth 64
  else if n == 0x03B then x.scopemiss.setWidth 64
  else if n == 0x040 then (partRec s c.fn).lifebud.setWidth 64
  else if n == 0x041 then (coreOf s (fibCore fid)).bprice.setWidth 64
  else if n == 0x042 then BitVec.ofNat 64 (srBstat s (fibCore fid) c)
  else if n == 0x044 then f.energy
  else if n == 0x810 then x.xlroot.setWidth 64
  else if n == 0x811 then x.xlctl.setWidth 64
  else if n == 0x812 then x.objtab.setWidth 64
  else if n == 0x813 then x.objcnt.setWidth 64
  else if n == 0x814 then x.fqbase.setWidth 64
  else if n == 0x815 then BitVec.ofNat 64 (srFqctl x)
  else if n == 0x816 then BitVec.ofNat 64 (fnMemsz s c.fn)
  else if n == 0x817 then x.encl.setWidth 64
  else groupEnergy s f.wg

/-- A register whose reads are outside the deterministic class, so that the twin reads what the primary did
(R300, R425). -/
def srShared (n : Nat) : Bool := !([0x001, 0x030, 0x031, 0x044].contains n)

/-- The checks of R425 on a number: none when it passes, else the trap's code. -/
def srCheck (f : Fibre) (n : Nat) : Option Nat :=
  if !srAssigned n then some 0x02
  else if decide (0x800 ≤ n) && f.handler.isNone then some 0x03
  else none

/-- An instruction of the fibre has yet to write a register of the view: an atomic sr.fpst, whose flags are set in program
order (R50, R132), and an atomic or acquire load sr.scopemiss (R328; log entry 17). -/
def srPending (s : State) (fid n : Nat) : Bool :=
  s.flights.any (fun (_, fl) => fl.fib == fid && (match fl.kind with
    | .atom _ _ _ => n == 0x031 || n == 0x03B
    | .load _ _ _ acq => acq && n == 0x03B
    | _ => false))

/-- SRD. -/
def opSrd (y : Bool) (d n : Nat) (s : State) : Out :=
  fibreOp y [] [d] s (fun s i =>
    match srCheck i.f n with
    | some code => .next (s.raise i.fid (trapOf code i.m))
    | none =>
      if srPending s i.fid n then .next (s.stall i.fid y false)
      else if srWide n && (d % 2 == 1 || decide (windowOf s i.f ≤ d + 1)) then .next (s.raise i.fid (trapOf 0x02 i.m))
      else if srWide n && regsPending s i.fid i.f [d + 1] then .next (s.stall i.fid y false)
      else
        let own := srRead s i.fid i.f n
        let seen := if srShared n then redRead s i.fid own else some own
        match seen with
        | none => .next (s.stall i.fid y false)
        | some v =>
          let s := s.writeReg i.fid d i.m (LaneVec.splat (v.setWidth 32))
          let s := if srWide n then s.writeReg i.fid (d + 1) i.m (LaneVec.splat ((v >>> 32).setWidth 32)) else s
          let s := if srShared n then s.redNote i.fid v else s
          .next (s.passOn i 8))

/-- The nearest ring size that LOGN admits (R118). -/
def clampLogn (v : Nat) : Nat := if v < 4 then 4 else if 12 < v then 12 else v

/-- A write to a register of R118 or to sr.wbst in its context. -/
def srWriteCtx (x : Ctx) (n : Nat) (v : Word) : Ctx :=
  if n == 0x03A then { x with wbst := x.wbst &&& ~~~ (v &&& 3#32) }
  else if n == 0x810 then { x with xlroot := v &&& 0x0FFFFFFF#32 }
  else if n == 0x811 then { x with xlctl := v &&& 0xFFFFFFF1#32 }
  else if n == 0x812 then { x with objtab := v &&& 0x0FFFFFFF#32 }
  else if n == 0x813 then
    { x with objcnt := if (v &&& 0x1FFFF#32).toNat ≤ 65536 then v &&& 0x1FFFF#32 else 65536#32 }
  else if n == 0x814 then { x with fqbase := v &&& 0x0FFFFFFF#32 }
  else if n == 0x815 then
    { x with fqhead := v.extractLsb' 20 12, fqlogn := BitVec.ofNat 4 (clampLogn (v.extractLsb' 0 4).toNat) }
  else x

/-- A write to sr.fqctl acts on the frozen requesters; CANCEL goes before REPLAY (R118). -/
def State.fqAct (s : State) (c : CtxKey) (n : Nat) (v : Word) : State :=
  if n != 0x815 then s
  else if v.getLsbD 6 then s.cancelFaults c
  else if v.getLsbD 7 then s.replayFaults c
  else s

/-- SWR. -/
def opSwr (y : Bool) (a : Opd) (n : Nat) (s : State) : Out :=
  fibreOp y [src a Ty.i32] [] s (fun s i =>
    match srCheck i.f n with
    | some code => .next (s.raise i.fid (trapOf code i.m))
    | none =>
      if !srWritable n then .next (s.raise i.fid (trapOf 0x02 i.m))
      else if srPending s i.fid n then .next (s.stallKept i y a.isLatch)
      else
        let v := i.low 0
        let c := fibCtx s i.f
        let s := s.passOn i 8
        if n == 0x031 then .next (s.modFib i.fid (fun f => { f with fpst := f.fpst &&& ~~~ v }))
        else .next ((s.modCtx c (fun x => srWriteCtx x n v)).fqAct c n v))

/-! ### BOOST (R412 to R414) -/

/-- The cores of a boost: the fibre's, and its twin's (R412). -/
def boostCores (s : State) (fid : Nat) : List Nat :=
  fibCore fid :: (match twinFib s fid with
    | some t => [fibCore t]
    | none => [])

/-- The price of a level on a core (R408). -/
def boostPriceOf (s : State) (core L : Nat) : Nat := bitsOf (coreOf s core).bprice.toNat (10 * L - 1) (10 * (L - 1))

/-- The cost of a duration at a price (R412). -/
def boostCost (dur price : Nat) : Nat := (dur * price + 2 ^ 24 - 1) / 2 ^ 24

/-- A boost comes into force on a core. -/
def State.startBoost (s : State) (core : Nat) (c : CtxKey) (part L dur : Nat) : State :=
  let b : Boost :=
    { ctx := c, part := part, level := L, dur := dur, start := s.tick, cost := boostCost dur (boostPriceOf s core L),
      susp := if s.hot.contains (coreDie core) then some s.tick else none, suspended := 0, order := s.boostSeq,
      byPower := false }
  { s.modCore core (fun x => { x with boost := some b }) with boostSeq := s.boostSeq + 1 }

/-- A boost belongs to another context. -/
def boostForeign (s : State) (core : Nat) (c : CtxKey) : Bool :=
  match (coreOf s core).boost with
  | some b => b.ctx != c
  | none => false

/-- The budget unit has an event to take in front of a request: an accrual, or the end of a boost on one of the cores whose
duration has run out (R407, R412, R414). -/
def budgetDue (s : State) (cores : List Nat) : Bool :=
  decide (s.accrualAt ≤ s.tick) || cores.any (fun k => (coreOf s k).boost.any (fun b => decide (b.stop ≤ s.tick)))

/-- Serve a request of BOOST: its status and the state after it (R412, R413). -/
def State.serveBoost (s : State) (fid : Nat) (c : CtxKey) (L dur : Nat) : Nat × State :=
  let cores := boostCores s fid
  let pn := partOf s c.fn
  let p := partRec s c.fn
  if 3 < L || (L == 0 && dur != 0) || (0 < L && dur < 2 ^ 16) then (2, s)
  else if L == 0 then
    if cores.any (fun k => boostForeign s k c) then (4, s) else (0, cores.foldl (fun s k => s.endBoost k) s)
  else if p.maxlvl < L || cores.any (fun k => boostPriceOf s k L == 0) then (3, s)
  else if cores.any (fun k => (coreOf s k).boost.isSome) then (4, s)
  else
    let cost := cores.foldl (fun a k => a + boostCost dur (boostPriceOf s k L)) 0
    if p.lifebud.toNat < cost then (1, s)
    else
      let bud := p.lifebud.toNat - cost
      let s := { s with parts := tset s.parts pn { p with lifebud := BitVec.ofNat 32 bud } }
      let s := s.nvRecord 0x11 (leBytes (fibCore fid) 2 ++ leBytes c.id 2 ++ leBytes pn 1 ++ leBytes L 1 ++
        leBytes 0 2 ++ leBytes dur 4 ++ leBytes cost 4 ++ leBytes bud 4)
      (0, cores.foldl (fun s k => s.startBoost k c pn L dur) s)

/-- BOOST. The twin receives the status that its primary received. It stalls while its request is served (R412), which here is
one step, and a Y mark hands the slot on in it (DEDUCED: log entry 35); an accrual or the end of a boost that is due is served
before it (R407). -/
def opBoost (len : Nat) (y : Bool) (d : Nat) (a b : Opd) (s : State) : Out :=
  fibreOp y [src a Ty.i32, src b Ty.i32] [d] s (fun s i =>
    let done := fun (s : State) (st : Nat) =>
      ((s.redNote i.fid (BitVec.ofNat 64 st)).writeReg i.fid d i.m (LaneVec.splat (BitVec.ofNat 32 st))).passOn i len
    if isTwin s i.f then
      match redRead s i.fid 0#64 with
      | none => .next (s.stallKept i y (a.isLatch || b.isLatch))
      | some v => .next (done s v.toNat)
    else if budgetDue s (boostCores s i.fid) then .next (s.stallKept i y (a.isLatch || b.isLatch))
    else
      let (st, s) := s.serveBoost i.fid (fibCtx s i.f) (i.low 0).toNat (i.low 1).toNat
      .next ((done s st).yieldSlot i.fid y (a.isLatch || b.isLatch)))

/-! ### ALLOC, FREE, SHDW -/

/-- ALLOC (R217). Its d is checked against the window that stands when it issues, as every destination is; whether a number
that only the new window holds passes the spec does not say (DESIGN CHOICE: log entry 51). -/
def opAlloc (len : Nat) (y : Bool) (d : Nat) (a : Opd) (s : State) : Out :=
  fibreOp y [src a Ty.i32] [d] s (fun s i =>
    let n := (i.low 0).toNat
    let P := i.f.regs.length
    let S := (sharedOf s i.f).length
    let status := fun (k : Nat) =>
      (Host.Outcome.next ((s.writeReg i.fid d i.m (LaneVec.splat (BitVec.ofNat 32 k))).passOn i len) : Out)
    if inPool s i.f || i.f.handler.isSome then status 3
    else if n % 8 != 0 || n < P || 64 < n + S then status 2
    else if n == P then status 0
    else
      let r : AllocReq := { fib := i.fid, n := n, d := d, mask := i.m, len := len }
      let core := fibCore i.fid
      let sched := fibSched i.fid
      let s := s.modFib i.fid (fun f => enterHold f .alloc true s.tick)
      let s := s.modCore core (fun c => { c with allocs := c.allocs.modify sched (fun q => q ++ [r]) })
      .next (s.examineRequest i.fid))

/-- FREE (R220). -/
def opFree (len : Nat) (y : Bool) (a : Opd) (s : State) : Out :=
  fibreOp y [src a Ty.i32] [] s (fun s i =>
    let n := (i.low 0).toNat
    let P := i.f.regs.length
    if n % 8 != 0 || n < 8 || P < n then .next (s.raise i.fid (trapOf 0x02 i.m))
    else if (pendingPlaces s i.fid i.f).any (fun p => decide (n ≤ p) && decide (p < P)) then
      .next (s.stallKept i y a.isLatch)
    else
      let core := fibCore i.fid
      let sched := fibSched i.fid
      let s := s.modFib i.fid (fun f => { f with regs := f.regs.take n })
      let s := (s.passOn i len).returnRegs core sched (P - n)
      .next (s.examineAllocs core sched))

/-- SHDW (R259, R260): `n` is coded in the immediate selector. -/
def opShdw (len : Nat) (a : BitVec 7) (s : State) : Out :=
  fibreOp false [] [] s (fun s i =>
    if a.toNat < 113 then .next (s.raise i.fid (trapOf 0x02 i.m))
    else
      let on := match fibLaunch s i.f with
        | some l => l.hdr.shdw && !l.lr.shoff
        | none => false
      .next ((s.passOn i len).modFib i.fid (fun f => { f with shadow := if on then a.toNat - 112 else 0 })))

/-! ### The meanings -/

def execTrap (f : LForm) (s : State) : Out := opTrap (f.imm.extractLsb' 0 8).toNat s
def execRteW (_f : WForm) (s : State) : Out := opRte 4 s
def execRteL (_f : LForm) (s : State) : Out := opRte 8 s
def execHaltW (_f : WForm) (s : State) : Out := opHalt 4 s
def execHaltL (_f : LForm) (s : State) : Out := opHalt 8 s
def execBkptW (_f : WForm) (s : State) : Out := opBkpt 4 s
def execBkptL (_f : LForm) (s : State) : Out := opBkpt 8 s
def execSrd (f : LForm) (s : State) : Out := opSrd f.y f.d.toNat (f.imm.extractLsb' 0 12).toNat s
def execSwr (f : LForm) (s : State) : Out := opSwr f.y (.sel f.a) (f.imm.extractLsb' 0 12).toNat s
def execBoostW (f : WForm) (s : State) : Out := opBoost 4 f.y f.d.toNat (.sel f.a) (.sel f.b) s
def execBoostL (f : LForm) (s : State) : Out := opBoost 8 f.y f.d.toNat (.sel f.a) (.sel f.b) s
def execAllocW (f : WForm) (s : State) : Out := opAlloc 4 f.y f.d.toNat (.sel f.a) s
def execAllocL (f : LForm) (s : State) : Out := opAlloc 8 f.y f.d.toNat (.sel f.a) s
def execFreeW (f : WForm) (s : State) : Out := opFree 4 f.y (.sel f.a) s
def execFreeL (f : LForm) (s : State) : Out := opFree 8 f.y (.sel f.a) s
def execShdwW (f : WForm) (s : State) : Out := opShdw 4 f.a s
def execShdwL (f : LForm) (s : State) : Out := opShdw 8 f.a s

end Sys2Proof.Machine
end

