-- ==== Sys2Proof/Machine/LoadStore.lean ====
section
/-!
DEFINITION. Loads, stores and prefetches (R184 to R204), and what their flights and the core's store path do
(R192, R293, R294, R301).
-/
namespace Sys2Proof.Machine

/-! ### Operands of the memory class -/

/-- The window of the fibre being issued. -/
def curWindow (s : State) : Nat :=
  match s.cur.agent with
  | .fib i =>
    match tget s.fibs i with
    | some f => windowOf s f
    | none => 0
  | _ => 0

/-- The address operand names an even register whose successor is in the window (R131). -/
def addrPairOk (win : Nat) (a : BitVec 7) : Bool := a.toNat < 64 && a.toNat % 2 == 0 && a.toNat + 1 < win

/-- The two registers of an address pair. -/
def pairSrcs (a : BitVec 7) : List Src := [src (.sel a) Ty.i32, src (.sel (a + 1#7)) Ty.i32]

/-- The address that a pair holds in a lane. -/
def laneAddrOf (i : FIn) (l : Nat) : Addr := (i.s 1).lane l ++ (i.s 0).lane l

/-- The size of an element (R196). -/
def elemSize (t : BitVec 4) : Nat := if tyIn t [0, 4, 8] then 4 else if tyIn t [1, 5, 9, 10] then 2 else 1

/-- W of R195. -/
def memW (f : LForm) : Nat := 2 ^ Mem.sub f

/-- The size of a lane's access. -/
def accessSize (f : LForm) : Nat := elemSize f.ty * memW f

/-- The data registers of a store: one selector, or W registers (R195). -/
def dataSrcs (f : LForm) : List Src :=
  (List.range (memW f)).map (fun k => src (.sel (f.c + BitVec.ofNat 7 k)) f.ty)

/-- The data operand of a store passes R195. -/
def dataOk (win : Nat) (f : LForm) : Bool := memW f == 1 || decide (f.c.toNat + memW f ≤ win)

/-- The destination registers of a load. -/
def loadDests (f : LForm) : List Nat := (List.range (memW f)).map (fun k => f.d.toNat + k)

/-- An element as a register lane takes it (R196). -/
def extendElem (t : BitVec 4) (x : Nat) : Word :=
  if tyIn t [1] then (BitVec.ofNat 16 x).signExtend 32
  else if tyIn t [2] then (BitVec.ofNat 8 x).signExtend 32
  else BitVec.ofNat 32 x

/-- Register `k` of a lane's access whose bytes are the number `x`. -/
def loadedWord (t : BitVec 4) (x k : Nat) : Word :=
  if elemSize t == 4 then BitVec.ofNat 32 (x / 2 ^ (32 * k)) else extendElem t (x % 2 ^ (8 * elemSize t))

/-- The bytes that a store takes from a lane, as a number; `first` is the place of its data in the sources. -/
def storedNat (f : LForm) (i : FIn) (first l : Nat) : Nat :=
  if memW f == 1 then ((i.s first).lane l).toNat % 2 ^ (8 * elemSize f.ty)
  else (List.range (memW f)).foldl (fun a k => a + ((i.s (first + k)).lane l).toNat * 2 ^ (32 * k)) 0

/-! ### Checks of R197 -/

/-- A lane and the address that it accesses. -/
abbrev LaneAddr := Nat × Addr

/-- Alignment of every lane (R197 step 1); a scratchpad offset gives no address (R387). -/
def alignTrap (sp : Bool) (size : Nat) (las : List LaneAddr) : Option Trap :=
  let bad := las.filter (fun x => x.2.toNat % size != 0)
  match bad with
  | [] => none
  | (_, a) :: _ => some (trapAddr 0x30 (maskOf (bad.map (·.1))) (if sp then 0#64 else a))

/-- A bounds fault of the lanes that fail (R387). -/
def boundsTrap (sp : Bool) (bad : List LaneAddr) : Option Trap :=
  match bad with
  | [] => none
  | (_, a) :: _ => some (trapAddr 0x32 (maskOf (bad.map (·.1))) (if sp then 0#64 else a))

/-- Lanes whose scratchpad access passes the end of an allocation of `n` bytes. -/
def pastEnd (n size : Nat) (las : List LaneAddr) : List LaneAddr :=
  las.filter (fun x => decide (n < x.2.toNat + size))

/-- A base-and-extent record (R188). -/
structure ExtRecord where
  base : Addr
  extent : Nat
  sp : Bool
  bad : Bool
  deriving DecidableEq, Repr

/-- The record that a register holds in lanes 0 to 3. -/
def extRecord (v : LaneVec) : ExtRecord :=
  let sp := (v.lane 3).getLsbD 0
  { base := v.lane 1 ++ v.lane 0, extent := (v.lane 2).toNat, sp := sp,
    bad := decide (2 ≤ (v.lane 3).toNat) || (sp && v.lane 1 != 0#32) }

/-- Steps 1 to 3 of R197 for LDX and STX in an allocation of `n` bytes; `offs` are the lane offsets. -/
def extChecks (f : LForm) (r : ExtRecord) (n : Nat) (m : LaneMask) (offs : List (Nat × Nat)) (las : List LaneAddr) :
    Option Trap :=
  let size := accessSize f
  match alignTrap r.sp size las with
  | some t => some t
  | none =>
    if r.bad || (r.sp && (Mem.ord f != 0 || Mem.scope f != 0 || Mem.cache f != 0)) then some (trapOf 0x02 m)
    else if r.sp && decide (n < r.base.toNat + r.extent) && r.extent != 0 then some (trapOf 0x32 m)
    else
      let past := (offs.filter (fun x => decide (r.extent < x.2 + size))).map (·.1)
      boundsTrap r.sp (las.filter (fun x => past.contains x.1))

/-! ### Watchpoints (R443) -/

/-- A lane's access meets a watchpoint: `access` holds the kind, and 4 more for the scratchpad. -/
def watchMeets (b : BreakPt) (sp : Bool) (kinds size : Nat) (x : LaneAddr) : Bool :=
  (decide (4 ≤ b.access) == sp) && (b.access % 4 &&& kinds) != 0 &&
  decide (x.2.toNat < b.va.toNat + b.len) && decide (b.va.toNat < x.2.toNat + size)

/-- The watch record of R442, with the address of the lowest matching lane. -/
def watchBits (s : State) (c : CtxKey) (b : BreakPt) (hit : List LaneAddr) : BitVec 256 :=
  let va := match hit with | x :: _ => x.2 | [] => 0#64
  BitVec.ofNat 256 (s.tick % 2 ^ 64 * 2 ^ 192 + va.toNat * 2 ^ 128 + (maskOf (hit.map (·.1))).toNat * 2 ^ 96 +
    b.n % 16 * 2 ^ 64 + c.id % 2 ^ 16 * 2 ^ 32 + 1)

/-- The halt of an access that meets watchpoints, with a record of each; `kinds` is 1 for reads, 2 for writes, 3 for both. -/
def watchHalt (s : State) (i : FIn) (sp : Bool) (kinds size : Nat) (las : List LaneAddr) : Option State :=
  let c := fibCtx s i.f
  if i.f.skipBp || (ctxSession s c).isNone then none
  else
    match (ctxOf s c).watches.filter (fun b => las.any (watchMeets b sp kinds size)) with
    | [] => none
    | bs =>
      let s' := s.haltFibre i.fid 2 (bs.map (fun b => watchBits s c b (las.filter (watchMeets b sp kinds size))))
      some { s' with cur := { s'.cur with stalled := true } }

/-! ### Scratchpad (R184 to R187, R202) -/

/-- The word of an offset is poisoned. -/
def spadBad (w : Workgroup) (off size : Nat) : Bool :=
  w.spadPoison.any (fun p => decide (p < off + size) && decide (off < p + 4))

/-- Write bytes of the allocation: whole words lose their poison, and the release records of the words go. -/
def Workgroup.spadPut (w : Workgroup) (off : Nat) (bs : List Byte) : Workgroup :=
  let n := bs.length
  { w with
    spad := writeBytes w.spad off bs
    spadPoison := w.spadPoison.filter (fun p => !(decide (off ≤ p) && decide (p + 4 ≤ off + n)))
    spadRel := w.spadRel.filter (fun (p, _) => !(decide (p < off + n) && decide (off < p + 4)))
    spadWeak := w.spadWeak.filter (fun (p, _) => !(decide (off ≤ p) && decide (p + 4 ≤ off + n))) }

/-- The single-bit errors of the words that a list of ranges meets (R187). -/
def weakIn (w : Workgroup) (rs : List (Nat × Nat)) : Tbl (BitVec 39) :=
  w.spadWeak.filter (fun (p, _) => rs.any (fun (o, n) => decide (o < p + 4) && decide (p < o + n)))

/-- A read of ranges of an allocation corrects their single-bit errors, each with a record (R187, R429). The bytes that the
allocation holds are the corrected ones. -/
def State.spadMend (s : State) (wid : Nat) (rs : List (Nat × Nat)) : State :=
  match tget s.wgs wid with
  | none => s
  | some w =>
    match weakIn w rs with
    | [] => s
    | hit =>
      hit.foldl (fun (s : State) (p, x) =>
          s.errorRecord (coreDie w.core) 0x01 0 p x.toNat 0 (coreUnit w.core) (some w.ctx) 0#8)
        (s.setWg wid { w with spadWeak := w.spadWeak.filter (fun e => !hit.contains e) })

/-- The ranges of a scratchpad access's lanes. -/
def laneRanges (size : Nat) (las : List LaneAddr) : List (Nat × Nat) := las.map (fun x => (x.2.toNat, size))

/-- Lanes that fail on poison in the scratchpad: those that touch a bad word and, for a write, do not cover it. -/
def spadFaults (w : Workgroup) (size : Nat) (write : Bool) (las : List LaneAddr) : List Nat :=
  (las.filter (fun x => spadBad w x.2.toNat size && !(write && decide (4 ≤ size)))).map (·.1)

/-- The poisoned-memory trap of the scratchpad (R187). -/
def spadTrap (bad : List Nat) : Trap := trapOf 0x16 (maskOf bad)

/-- Load from the scratchpad once every check has passed (R198). -/
def State.spadLoad (s : State) (i : FIn) (f : LForm) (las : List LaneAddr) : State :=
  match wgOf s i.f with
  | none => s
  | some w =>
    let bad := spadFaults w (accessSize f) false las
    if !bad.isEmpty then s.raise i.fid (spadTrap bad)
    else
      match watchHalt s i true 1 (accessSize f) las with
      | some s => s
      | none =>
        let got := las.map (fun x => (x.1, readNat w.spad x.2.toNat (accessSize f)))
        let s := s.spadMend i.f.wg (laneRanges (accessSize f) las)
        let s := (List.range (memW f)).foldl (fun (s : State) k =>
          s.writeReg i.fid (f.d.toNat + k) i.m
            (LaneVec.of (fun l => match tget got l with
              | some x => loadedWord f.ty x k
              | none => 0#32))) s
        s.modFib i.fid (fun g => addEnergy (advance g i.m 8) (4 * popMask i.m))

/-- Store to the scratchpad once every check has passed (R199): the highest lane's value remains. -/
def State.spadStore (s : State) (i : FIn) (f : LForm) (first : Nat) (las : List LaneAddr) : State :=
  match wgOf s i.f with
  | none => s
  | some w =>
    let bad := spadFaults w (accessSize f) true las
    if !bad.isEmpty then s.raise i.fid (spadTrap bad)
    else
      match watchHalt s i true 2 (accessSize f) las with
      | some s => s
      | none =>
        let s := if 4 ≤ accessSize f then s else s.spadMend i.f.wg (laneRanges (accessSize f) las)
        let w := las.foldl (fun (w : Workgroup) x =>
          w.spadPut x.2.toNat (leBytes (storedNat f i first x.1) (accessSize f))) ((tget s.wgs i.f.wg).getD w)
        (s.setWg i.f.wg w).modFib i.fid (fun g => addEnergy (advance g i.m 8) (4 * popMask i.m))

/-! ### Translation of the lanes (R197 step 4) -/

/-- Every lane's place, or the lanes that fail. A load or atomic fails on poison; a store does not (R102, R297). -/
def translateLanes (s : State) (by_ : Walker) (c : CtxKey) (xl : List (BitVec 32)) (priv : Bool) (acc : Acc) (poison : Bool)
    (las : List LaneAddr) : List (Nat × Addr × Place) × List AccFault :=
  las.foldl (fun (a : List (Nat × Addr × Place) × List AccFault) x =>
    match translateBy s by_ c xl priv acc x.2 with
    | .error k => (a.1, a.2 ++ [laneFault (xlRply xl) x.1 x.2 k (accCode acc)])
    | .ok (.dev d k) =>
      if poison && poisoned s d then (a.1, a.2 ++ [laneFault false x.1 x.2 6 (accCode acc)])
      else (a.1 ++ [(x.1, x.2, .dev d k)], a.2)
    | .ok p => (a.1 ++ [(x.1, x.2, p)], a.2)) ([], [])

/-- The byte offset of a place within its line. -/
def Place.off : Place → Nat
  | .dev a _ => a % 64
  | .sys a => a % 64
  | .peer _ o => o % 64

/-- The distinct lines of a list of accesses, with the bytes of each that are accessed. -/
def accessLines (size : Nat) (xs : List (Nat × Addr × Place)) : List (Addr × Place × BitVec 64) :=
  xs.foldl (fun (a : List (Addr × Place × BitVec 64)) x =>
    let m := byteMask x.2.2.off size
    if a.any (fun y => y.2.1 == x.2.2.line) then
      a.map (fun y => if y.2.1 == x.2.2.line then (y.1, y.2.1, y.2.2 ||| m) else y)
    else a ++ [(x.2.1 &&& ~~~ 63#64, x.2.2.line, m)]) []

/-! ### Loads from memory -/

/-- The copy of a line that the core's snapshot cache holds (R190). -/
def heldLine (s : State) (core d : Nat) : Option (BitVec 512) := tget (coreOf s core).snap (lineBase d)

/-- The core's snapshot cache takes a copy of a line: in place of one that it holds of that line, or in a set of 8, from which
another goes when it is full (R190). Sets and victims the spec leaves open (log entry 1). -/
def State.snapFill (s : State) (core line : Nat) (x : BitVec 512) : State :=
  s.modCore core (fun c =>
    if (tget c.snap line).isSome || decide (c.snap.length < 8) then { c with snap := tset c.snap line x }
    else
      let here := c.snap.filter (fun e => Config.snapSet e.1 % 512 == Config.snapSet line % 512)
      let rest := if here.length < 8 then c.snap
        else match here[Config.snapVictim s.steps line % here.length]? with
          | some e => tdel c.snap e.1
          | none => c.snap
      { c with snap := tset rest line x })

/-- Bytes of device memory that a load or atomic in flight has yet to read or change: for each lane where they begin,
and how many they are. -/
def openBytes (fl : Flight) : List (Nat × Nat) :=
  let lanes := fun (n : Nat) => fl.lanes.filterMap (fun x =>
    match x.place, x.ret with
    | .dev d _, none =>
      if fl.lines.any (fun ln => ln.place == x.place.line && ln.data.isNone) then some (d, n) else none
    | _, _ => none)
  match fl.kind with
  | .load w ty _ _ => lanes (w * elemSize ty)
  | .atom _ _ _ => lanes 4
  | .tadd _ _ => lanes 8
  | _ => []

/-- Two runs of bytes meet. -/
def bytesMeet (a b : Nat × Nat) : Bool := decide (a.1 < b.1 + b.2) && decide (b.1 < a.1 + a.2)

/-- The flight is a load. -/
def Flight.isLoad (fl : Flight) : Bool :=
  match fl.kind with
  | .load _ _ _ _ => true
  | _ => false

/-- Some of the bytes are still to be read or changed by an access of the fibre in flight (R320 item 1). -/
def ownOpen (s : State) (fid : Nat) (bs : List (Nat × Nat)) : Bool :=
  s.flights.any (fun (_, g) => g.fib == fid && g.cmd.isNone && (openBytes g).any (fun a => bs.any (bytesMeet a)))

/-- An earlier load of the core has yet to read some of the bytes at their home slice (R192 rule 2). -/
def loadBefore (s : State) (id core : Nat) (bs : List (Nat × Nat)) : Bool :=
  s.flights.any (fun (j, g) => decide (j < id) && g.core == core && g.cmd.isNone && g.isLoad &&
    (openBytes g).any (fun a => bs.any (bytesMeet a)))

/-- The bytes that a mask names on a line of device memory, as runs. -/
def lineSpans (d : Nat) (m : BitVec 64) : List (Nat × Nat) :=
  ((List.range 64).filter (fun k => m.getLsbD k)).map (fun k => (lineBase d + k, 1))

/-- A line as a load finds it at issue: the core's own stores, and a held copy where the policy allows it and no earlier load
of the core will take a later value (R192, R201). A line of host memory or of a peer is always asked for (R193). -/
def loadLine (s : State) (core : Nat) (c : CtxKey) (red : Option Nat) (fresh : Bool)
    (x : Addr × Place × BitVec 64) : LineReq :=
  let (om, od) := ownBytes s core c red x.2.1
  { va := x.1, place := x.2.1, ownMask := om, own := od,
    data := match x.2.1 with
      | .dev d _ =>
        if x.2.2 &&& ~~~ om == 0#64 then some od
        else if fresh || loadBefore s s.ids core (lineSpans d (x.2.2 &&& ~~~ om)) then none
        else (heldLine s core d).map (fun h => mergeLine h od om)
      | _ => none }

/-- Send the requests of a flight's lines that are not at hand. -/
def State.sendLines (s : State) (id core : Nat) (c : CtxKey) (lines : List LineReq) : State :=
  lines.foldl (fun (s : State) ln =>
    match ln.data, ln.place with
    | none, .sys a => s.send (.read a 64 id)
    | none, .peer p o => s.sendPeer core p o c .read
    | _, _ => s) s

/-- A line is not in device memory. -/
def Place.remote : Place → Bool
  | .dev _ _ => false
  | _ => true

/-- Load from memory once the lanes' addresses are known (R198, R200, R201). -/
def State.memLoad (s : State) (i : FIn) (f : LForm) (las : List LaneAddr) (latch : Bool) : State :=
  match wgOf s i.f with
  | none => s
  | some w =>
    let xl := xlOf s w
    let (ok, bad) := translateLanes s (.core w.core) w.ctx xl (privOf i.f) .read true las
    if !bad.isEmpty then s.accessFault i.fid i.m bad
    else
      match watchHalt s i false 1 (accessSize f) las with
      | some s => s
      | none =>
        let s := s.holdAll .read w.ctx xl (las.map (·.2))
        let acq := Mem.ord f == 1
        let fresh := acq || Mem.cache f == 2
        let lines := (accessLines (accessSize f) ok).map (loadLine s w.core w.ctx (redKey s i.f.wg) fresh)
        let (id, s) := s.newId
        let fl : Flight :=
          { kind := .load (memW f) f.ty (Mem.cache f) acq, fib := i.fid, cmd := none, ctx := w.ctx, core := w.core,
            pc := s.cur.pc, len := 8, mask := i.m, dst := (loadDests f).map (regPlace i.f), scope := Mem.scope f,
            ord := Mem.ord f,
            lanes := ok.map (fun x => { lane := x.1, va := x.2.1, place := x.2.2, x := 0#32, y := 0#32, u := 0, ret := none }),
            lines := lines, stage := .request, done := 0#32, flags := 0#5, since := s.tick, retry := 0, split := false,
            fault := none, waiters := 0 }
        let s := (s.setFlight id fl).sendLines id w.core w.ctx lines
        let s := s.modFib i.fid (fun g =>
          { addEnergy g (4 * popMask i.m) with
            fences := if acq then
              g.fences ++ [{ rel := false, acq := true, scope := Mem.scope f, refresh := false, flt := some id }]
              else g.fences })
        if lines.any (fun ln => ln.place.remote) then s.holdFor i.fid (.flight id) f.y latch
        else s.modFib i.fid (fun g => advance g i.m 8)

/-! ### The store path (R293, R294, R301, R302) -/

/-- One line of a store: the bytes written and their mask. -/
structure StoreLine where
  va : Addr
  place : Place
  mask : BitVec 64
  data : BitVec 512
  deriving DecidableEq, Repr

/-- The bytes of a mask are no longer a line's. -/
def StoreLine.strip (m : BitVec 64) (ln : StoreLine) : StoreLine := { ln with mask := ln.mask &&& ~~~ m }

/-- The lines of a store, lane after lane, so that the highest lane's bytes remain (R199): one for each address under which
its lanes name a line, since the signature takes a byte with its address (R301). -/
def storeLines (size : Nat) (xs : List (Nat × Addr × Place)) (val : Nat → Nat) : List StoreLine :=
  xs.foldl (fun (a : List StoreLine) x =>
    let o := x.2.2.off
    let m := byteMask o size
    let d := putLineNat 0#512 o size (val x.1)
    let va := x.2.1 &&& ~~~ 63#64
    let mine := fun (y : StoreLine) => y.place == x.2.2.line && y.va == va
    let a := (a.map (fun y => if y.place == x.2.2.line && !mine y then y.strip m else y)).filter (fun y => y.mask != 0#64)
    if a.any mine then
      a.map (fun y => if mine y then { y with mask := y.mask ||| m, data := mergeLine y.data d m } else y)
    else a ++ [{ va := va, place := x.2.2.line, mask := m, data := d }]) []

/-- mix of R301. -/
def sgMix (va x f n : Nat) : BitVec 64 :=
  let w := x + 2 ^ 8 * f + 2 ^ 16 * n
  let z := BitVec.ofNat 64 va ^^^ BitVec.ofNat 64 (w * 2 ^ 16)
  let z := z * 0x9E3779B97F4A7C15#64
  let z := z ^^^ (z >>> 31)
  let z := z * 0xBF58476D1CE4E5B9#64
  z ^^^ (z >>> 29)

/-- What the bytes of a store add to a signature (R301). -/
def sgStore (lines : List StoreLine) (f n : Nat) : BitVec 64 :=
  lines.foldl (fun (a : BitVec 64) ln =>
    (List.range 64).foldl (fun (a : BitVec 64) k =>
      if ln.mask.getLsbD k then a + sgMix (ln.va.toNat + k) (lineByte ln.data k).toNat f n else a) a) 0#64

/-- f of R301 for a fibre: 4 × the slot's index in its workgroup + the fibre index. -/
def sgFib (w : Workgroup) (f : Fibre) : Nat := 4 * (w.slots.idxOf f.slot) + f.idx

/-- A store instruction of a redundant workgroup enters the signature; every one is counted (R301). -/
def State.signStore (s : State) (fid : Nat) (lines : List StoreLine) : State :=
  match tget s.fibs fid with
  | none => s
  | some f =>
    let s := s.setFib fid { f with stores := f.stores + 1#32 }
    s.modWg f.wg (fun w => { w with red := w.red.map (fun r =>
      { r with sg := r.sg + sgStore lines (sgFib w f) f.stores.toNat }) })

/-- The entry takes new bytes of a line. -/
def entryTakes (e : PathEntry) (ln : StoreLine) (c : CtxKey) (red : Option Nat) : Bool :=
  e.place == ln.place && e.ctx == c && e.wg == red && !e.marked && e.rel.isNone

/-- Entries of a path that take one of its places: a merge that is acknowledged frees its own (R295). -/
def pathUsed (c : Core) : Nat := (c.path.filter (fun (_, e) => !e.spilled && !e.acked)).length

/-- The number of entries that a store would have to allocate. -/
def newEntries (c : Core) (lines : List StoreLine) (k : CtxKey) (red : Option Nat) : Nat :=
  (((lines.filter (fun ln => !(c.path.any (fun (_, e) => entryTakes e ln k red)))).map (·.place)).eraseDups).length

/-- Bytes that a store writes leave the entries of other contexts that hold older values of them: in the core's store order
the new ones are the last (R192, R293). -/
def olderBytes (path : Tbl PathEntry) (ln : StoreLine) (k : CtxKey) (red : Option Nat) : Tbl PathEntry :=
  (path.map (fun ((i, e) : Nat × PathEntry) =>
    (i, if e.place == ln.place && e.ctx != k && sameBytes ln.place e.ctx k && e.wg.isNone && red.isNone && !e.marked && e.rel.isNone then
          { e with mask := e.mask &&& ~~~ ln.mask } else e))).filter (fun (_, e) => e.mask != 0#64)

/-- Write one line into a core's path. -/
def State.pathPut (s : State) (core : Nat) (k : CtxKey) (red : Option Nat) (fib : Nat) (ln : StoreLine) : State :=
  let s := s.modCore core (fun c => { c with path := olderBytes c.path ln k red })
  let c := coreOf s core
  if c.path.any (fun (_, e) => entryTakes e ln k red) then
    s.setCore core { c with path := c.path.map (fun (i, e) =>
      (i, if entryTakes e ln k red then
            { e with mask := e.mask ||| ln.mask, data := mergeLine e.data ln.data ln.mask,
                     fibs := if e.fibs.contains fib then e.fibs else e.fibs ++ [fib]
                     lids := (e.lids ++ fibLids s fib).eraseDups } else e)) }
  else
    let (id, s) := s.newId
    s.modCore core (fun c => { c with path := c.path ++ [(id,
      { va := ln.va, place := ln.place, ctx := k, wg := red, mask := ln.mask, data := ln.data, fibs := [fib],
        marked := false, performed := false, acked := false, spilled := decide (4096 ≤ pathUsed c), rel := none,
        lids := fibLids s fib })] })

/-- The bytes of an overflow area that a workgroup has taken (R302). -/
def spilledBytes (s : State) (core wid : Nat) : Nat :=
  ((coreOf s core).path.filter (fun (_, e) => e.spilled && e.wg == some wid)).length * Config.spillBytes +
  ((s.cmds.filter (fun (_, x) => x.wg == wid)).map (fun (_, x) => x.held.length)).sum

/-- A redundant workgroup holds something in its overflow area. -/
def overflowUsed (s : State) (core wid : Nat) : Bool :=
  (coreOf s core).path.any (fun (_, e) => e.spilled && e.wg == some wid) ||
  s.cmds.any (fun (_, x) => x.wg == wid && !x.held.isEmpty)

/-- Where a redundant workgroup's 64 MiB lie, and in them its overflow area (R374). -/
def overflowArea (l : Launch) (w : Nat) (primary : Bool) : Nat :=
  l.lr.auxa.toNat + w * 2 ^ 26 + (if primary then 0 else 2 ^ 25)

/-- What a redundant workgroup's store path and runners hold beyond the path stands in its overflow area, whose bytes the spec
does not lay out (R302, log entry 10); past its end the context ends with status 4 (R302, R378). A failing write ends it as a
failed save does. -/
def State.checkOverflow (s : State) (core wid : Nat) : State :=
  match tget s.wgs wid with
  | none => s
  | some w =>
    match w.red, launchOf s w with
    | some r, some l =>
      if !overflowUsed s core wid then s
      else if 2 ^ 24 < spilledBytes s core wid then s.endContext w.ctx 4 (some (w.lid, w.w))
      else
        match s.writeFree w.ctx l.xl (overflowArea l w.w r.primary) (spilledBytes s core wid) with
        | .ok s => s
        | .error _ => s.failContext wid 0#8 0 (overflowArea l w.w r.primary)
    | _, _ => s

/-- A store retires into the path of its core, or there is no room for it (R293, R294). -/
def State.retireStore (s : State) (fid core : Nat) (k : CtxKey) (red : Option Nat) (wid : Nat) (lines : List StoreLine) :
    Option State :=
  let c := coreOf s core
  if red.isNone && decide (4096 < pathUsed c + newEntries c lines k red) then none
  else
    let s := lines.foldl (fun (s : State) ln => s.pathPut core k red fid ln) s
    some ((s.signStore fid lines).checkOverflow core wid)

/-- A store that finds no free entry waits for a capacity boundary (R294). -/
def State.capacity (s : State) (fid core : Nat) (y latch : Bool) : State :=
  let (id, s) := s.newId
  let s := (s.holdFor fid (.boundary id) y latch).askBoundary core
    { id := id, fib := some fid, len := 0, mask := 0#32, flt := none, scope := 7, ctx := none, lid := none, started := false }
  { s with cur := { s.cur with stalled := true } }

/-- The store of an ST.rel in flight (R200). -/
def relFlight (s : State) (i : FIn) (w : Workgroup) (scope : Nat) (lines : List StoreLine) : Flight :=
  { kind := .relStore, fib := i.fid, cmd := none, ctx := w.ctx, core := w.core, pc := s.cur.pc, len := 8, mask := i.m,
    dst := [], scope := scope, ord := 2, lanes := [],
    lines := lines.map (fun ln => { va := ln.va, place := ln.place, ownMask := ln.mask, own := ln.data, data := none }),
    stage := .request, done := 0#32, flags := 0#5, since := s.tick, retry := 0, split := false, fault := none,
    waiters := 0 }

/-- ST.rel and STX.rel of scope .clu or wider: the boundary or checkpoint, then the unbuffered write (R200, R304). -/
def State.wideRelease (s : State) (i : FIn) (w : Workgroup) (f : LForm) (lines : List StoreLine) (latch : Bool) : State :=
  let (id, s) := s.newId
  let s := (s.setFlight id (relFlight s i w (Mem.scope f) lines)).signStore i.fid lines
  let s := s.modFib i.fid (fun g => addEnergy g (4 * popMask i.m))
  if (redKey s i.f.wg).isSome then
    let k := i.f.phases + 1
    (s.modFib i.fid (fun g => { g with phases := k })).holdFor i.fid (.checkpoint k 8 i.m (Mem.scope f) (some id)) f.y latch
  else
    let (b, s) := s.newId
    (s.holdFor i.fid (.boundary b) f.y latch).askBoundary w.core
      { id := b, fib := some i.fid, len := 8, mask := i.m, flt := some id, scope := Mem.scope f, ctx := none, lid := none,
        started := false }

/-- Store to memory once the lanes' addresses are known (R199, R200). It waits for the fibre's earlier loads and atomics of
its bytes (R320 item 1). -/
def State.memStore (s : State) (i : FIn) (f : LForm) (first : Nat) (las : List LaneAddr) (latch : Bool) : State :=
  match wgOf s i.f with
  | none => s
  | some w =>
    let xl := xlOf s w
    let (ok, bad) := translateLanes s (.core w.core) w.ctx xl (privOf i.f) .write false las
    if !bad.isEmpty then s.accessFault i.fid i.m bad
    else
      match watchHalt s i false 2 (accessSize f) las with
      | some s => s
      | none =>
        let s := s.holdAll .write w.ctx xl (las.map (·.2))
        let lines := storeLines (accessSize f) ok (storedNat f i first)
        if ownOpen s i.fid (ok.filterMap (fun x => match x.2.2 with | .dev d _ => some (d, accessSize f) | _ => none)) then
          s.stallKept i f.y latch
        else if Mem.ord f == 2 && decide (5 ≤ Mem.scope f) then s.wideRelease i w f lines latch
        else
          match s.retireStore i.fid w.core w.ctx (redKey s i.f.wg) i.f.wg lines with
          | some s => s.modFib i.fid (fun g => addEnergy (advance g i.m 8) (4 * popMask i.m))
          | none => (s.keepSources i).capacity i.fid w.core f.y latch

/-! ### The instructions -/

/-- The scratchpad bytes granted to a fibre's workgroup. -/
def spadSize (s : State) (f : Fibre) : Nat :=
  match wgOf s f with
  | some w => w.scratch
  | none => 0

/-- The addresses of LD, ST and PREF (R197). -/
def globalAddrs (i : FIn) : List LaneAddr :=
  (lanesOf i.m).map (fun l => (l, laneAddrOf i l + ((i.s 2).lane l).signExtend 64))

/-- The offsets of LDS, STS and ATOMS with an offset operand (R197). -/
def spadAddrs (i : FIn) : List LaneAddr :=
  (lanesOf i.m).map (fun l => (l, ((i.s 0).lane l + (i.s 1).lane l).setWidth 64))

/-- The addresses of LDX and STX (R197). -/
def extAddrs (i : FIn) (r : ExtRecord) : List LaneAddr :=
  (lanesOf i.m).map (fun l => (l, r.base + ((i.s 1).lane l).setWidth 64))

/-- A source among the operands reads a latch. -/
def anyLatch (xs : List Src) : Bool := xs.any (fun x => x.o.isLatch)

/-- LD (R194 to R201). -/
def opLd (f : LForm) (s : State) : Out :=
  let xs := pairSrcs f.a ++ [src (.sel f.b) Ty.i32]
  memOp f.y xs (loadDests f) (addrPairOk (curWindow s) f.a) false s (fun s i =>
    let las := globalAddrs i
    match alignTrap false (accessSize f) las with
    | some t => .next (s.raise i.fid t)
    | none => .next (s.memLoad i f las (anyLatch xs)))

/-- ST. -/
def opSt (f : LForm) (s : State) : Out :=
  let xs := pairSrcs f.a ++ [src (.sel f.b) Ty.i32] ++ dataSrcs f
  memOp f.y xs [] (addrPairOk (curWindow s) f.a && dataOk (curWindow s) f) (Mem.ord f == 2) s (fun s i =>
    let las := globalAddrs i
    match alignTrap false (accessSize f) las with
    | some t => .next (s.raise i.fid t)
    | none => .next (s.memStore i f 3 las (anyLatch xs)))

/-- LDS (R202). -/
def opLds (f : LForm) (s : State) : Out :=
  memOp f.y [src (.sel f.a) Ty.i32, src (.sel f.b) Ty.i32] (loadDests f) true false s (fun s i =>
    let las := spadAddrs i
    match alignTrap true (accessSize f) las, boundsTrap true (pastEnd (spadSize s i.f) (accessSize f) las) with
    | some t, _ => .next (s.raise i.fid t)
    | none, some t => .next (s.raise i.fid t)
    | none, none => .next (s.spadLoad i f las))

/-- STS. -/
def opSts (f : LForm) (s : State) : Out :=
  memOp f.y ([src (.sel f.a) Ty.i32, src (.sel f.b) Ty.i32] ++ dataSrcs f) [] (dataOk (curWindow s) f) false s (fun s i =>
    let las := spadAddrs i
    match alignTrap true (accessSize f) las, boundsTrap true (pastEnd (spadSize s i.f) (accessSize f) las) with
    | some t, _ => .next (s.raise i.fid t)
    | none, some t => .next (s.raise i.fid t)
    | none, none => .next (s.spadStore i f 2 las))

/-- The record register of LDX and STX: a register, read in lanes 0 to 3 (R188). -/
def recordSrcs (f : LForm) : List Src := [srcLanes (.sel f.a) Ty.i32 0xF#32, src (.sel f.b) Ty.i32]

/-- The lane offsets of LDX and STX. -/
def extOffsets (i : FIn) : List (Nat × Nat) := (lanesOf i.m).map (fun l => (l, ((i.s 1).lane l).toNat))

/-- LDX (R188, R189, R197). -/
def opLdx (f : LForm) (s : State) : Out :=
  memOp f.y (recordSrcs f) (loadDests f) (decide (f.a.toNat < 64)) false s (fun s i =>
    let r := extRecord (i.s 0)
    let las := extAddrs i r
    match extChecks f r (spadSize s i.f) i.m (extOffsets i) las with
    | some t => .next (s.raise i.fid t)
    | none => .next (if r.sp then s.spadLoad i f las else s.memLoad i f las (anyLatch (recordSrcs f))))

/-- STX. -/
def opStx (f : LForm) (s : State) : Out :=
  let xs := recordSrcs f ++ dataSrcs f
  memOp f.y xs [] (decide (f.a.toNat < 64) && dataOk (curWindow s) f) (Mem.ord f == 2) s (fun s i =>
    let r := extRecord (i.s 0)
    let las := extAddrs i r
    match extChecks f r (spadSize s i.f) i.m (extOffsets i) las with
    | some t => .next (s.raise i.fid t)
    | none => .next (if r.sp then s.spadStore i f 2 las else s.memStore i f 2 las (anyLatch xs)))

/-- A line that a prefetch brings into the snapshot cache (R204). -/
def State.prefetch (s : State) (core : Nat) (p : Place) : State :=
  match p with
  | .dev d _ =>
    if (heldLine s core d).isSome then s else s.snapFill core (lineBase d) (readLine s.mem (lineBase d))
  | _ => s

/-- PREF (R204): lanes that cannot be served are dropped. -/
def opPref (f : LForm) (s : State) : Out :=
  memOp f.y (pairSrcs f.a ++ [src (.sel f.b) Ty.i32]) [] (addrPairOk (curWindow s) f.a) false s (fun s i =>
    match wgOf s i.f with
    | none => .next s
    | some w =>
      let (ok, _) := translateLanes s (.core w.core) w.ctx (xlOf s w) (privOf i.f) .read true (globalAddrs i)
      let s := if Mem.cache f == 0 then ok.foldl (fun (s : State) x => s.prefetch w.core x.2.2) s else s
      .next (s.modFib i.fid (fun g => addEnergy (advance g i.m 8) (4 * popMask i.m))))

/-! ### The meanings -/

def execLd (f : LForm) (s : State) : Out := opLd f s
def execSt (f : LForm) (s : State) : Out := opSt f s
def execLds (f : LForm) (s : State) : Out := opLds f s
def execSts (f : LForm) (s : State) : Out := opSts f s
def execLdx (f : LForm) (s : State) : Out := opLdx f s
def execStx (f : LForm) (s : State) : Out := opStx f s
def execPref (f : LForm) (s : State) : Out := opPref f s

end Sys2Proof.Machine
end

