-- ==== Sys2Proof/Machine/Flights.lean ====
section
/-!
DEFINITION. Work in flight: the reads of a load's lines, its replies and splits (R198, R201, R312, R315), and
the merges of the core's store path with their acknowledgements (R295 to R298, R326).
-/
namespace Sys2Proof.Machine

/-! ### Lines and faults of a flight -/

/-- The data of line `n` of a flight has arrived; the core's own stores cover their bytes (R192). -/
def State.fillLine (s : State) (id n : Nat) (x : BitVec 512) : State :=
  s.modFlight id (fun fl => { fl with lines := fl.lines.modify n (fun ln =>
    { ln with data := some (mergeLine x ln.own ln.ownMask) }) })

/-- Every line of a flight is at hand. -/
def linesReady (fl : Flight) : Bool := fl.lines.all (fun ln => ln.data.isSome)

/-- The lanes of a flight that name its line `n`. -/
def lanesOnLine (fl : Flight) (n : Nat) : List LaneReq :=
  match fl.lines[n]? with
  | none => []
  | some ln => fl.lanes.filter (fun x => x.place.line == ln.place)

/-- The ACC code of a flight's accesses (R116). -/
def flightAcc (k : FKind) : Nat :=
  match k with
  | .load _ _ _ _ => 0
  | .gather => 0
  | .device => 0
  | .relStore => 1
  | .putLines => 1
  | .fetch => 3
  | _ => 2

/-- The threads of a flight stand at its instruction again. -/
def backTo (fl : Flight) (f : Fibre) : Fibre :=
  modThreads f (fl.mask &&& liveMask f &&& ~~~ fl.done)
    (fun _ t => { t with st := 0#4, pc := fl.pc, wait := .none, wlen := 0 })

/-- The lanes of an atomic that have not been performed have taken no draw (R133). -/
def undraw (fl : Flight) (f : Fibre) : Fibre :=
  modThreads f fl.mask (fun l t =>
    match fl.lanes.find? (fun x => x.lane == l) with
    | some x => (match x.rs, x.ret with
      | some r, none => { t with rstate := r }
      | _, _ => t)
    | none => t)

/-- The write of a SIGNAL at a peer has ended: its packet completes (R370). The packet cores' number names the queue. -/
def State.signalDone (s : State) (cid id : Nat) : State :=
  if cid < 2 ^ 41 then s
  else
    let q : QueueRef := { fn := (cid - 2 ^ 41) / 64, q := cid % 64 }
    match (queueOf s q).pkts.find? (fun p => p.kind == .signal (some id)) with
    | some p => s.completePkt q p.id
    | none => s

/-- A fibre has a trap to enter or one to return from. -/
def inTrap (s : State) (fid : Nat) : Bool :=
  match tget s.fibs fid with
  | some f => f.trap.isSome || rteReady f
  | none => false

/-- A line that the entry of a trap, or the return from one, reads or writes elsewhere faults: the context ends (R386, R391). -/
def State.trapLineFault (s : State) (id : Nat) (fl : Flight) (k : Nat) (va : Addr) : State :=
  let s := s.dropFlight id
  match tget s.fibs fl.fib with
  | none => s
  | some f =>
    match f.trap with
    | some t => s.failContext f.wg t.code fl.pc.toNat va.toNat
    | none => s.failContext f.wg (BitVec.ofNat 8 (0x10 + k)) va.toNat 0

/-- A flight ends on a fault of kind `k` at its line `n`: its instruction writes no register, and the fault is
delivered as non-replayable (R115, R180, R312). A read of the packet cores keeps its fault for the packet that
waits for it. -/
def State.failFlight (s : State) (id k n : Nat) : State :=
  match tget s.flights id with
  | none => s
  | some fl =>
    let va := match fl.lines[n]? with | some ln => ln.va | none => fl.pc
    let acc := flightAcc fl.kind
    match fl.cmd with
    | some cid =>
      if 2 ^ 41 ≤ cid then
        let x : AccFault := { kind := k, va := va, acc := acc, obj := 0, lane := 0, replayable := false }
        if fl.kind == .putLines then
          let s := s.postFault fl.ctx { tick := s.tick, va := va, obj := 0, asid := xlAsid (ctxOf s fl.ctx).force, kind := k,
                                        acc := 1, run := false, req := 0, lanes := 0#32, rpl := false }
          (s.dropFlight id).signalDone cid id
        else s.modFlight id (fun fl => { fl with fault := some x })
      else
      let s := { s with flights := s.flights.filter (fun (_, x) => x.cmd != some cid) }
      s.runnerAccessFault cid { kind := k, va := va, acc := acc, obj := 0, lane := 0, replayable := false }
    | none =>
      if (fl.kind == .device || fl.kind == .putLines) && inTrap s fl.fib then s.trapLineFault id fl k va
      else if fl.kind == .device && fl.mask == 0#32 then s.dropFlight id
      else
      let s := s.dropFlight id
      let s := s.modFib fl.fib (fun f => undraw fl (backTo fl (if f.hold == .flight id then leaveHold f else f)))
      let hit := lanesOnLine fl n
      let fs := if acc == 3 then [laneFault false 0 fl.pc k 3]
        else if hit.isEmpty then [laneFault false (lowestLane fl.mask) va k acc]
        else hit.map (fun x => laneFault false x.lane x.va k acc)
      s.accessFault fl.fib fl.mask fs

/-! ### SLICE_READ (R128, R201) -/

/-- The scope mismatches that the acquiring lanes of a line find (R328). -/
def State.acquireFrom (s : State) (fl : Flight) (n : Nat) (r : Option RelRec) : State :=
  if fl.ord == 1 || fl.ord == 3 then
    (lanesOnLine fl n).foldl (fun (s : State) x =>
      s.noteAcquire fl.ctx (agentOf s fl.fib x.lane fl.scope) fl.scope r) s
  else s

/-- The snapshot cache after a line has been read at its home slice: .hold fills it, .fresh replaces a held copy (R201). -/
def State.snapAfter (s : State) (core dpa : Nat) (x : BitVec 512) (hold fresh : Bool) : State :=
  if hold || (fresh && (heldLine s core dpa).isSome) then s.snapFill core (lineBase dpa) x else s

/-- An earlier access of the same fibre to some of the bytes has yet to be performed (R320 item 1). -/
def mustFollow (s : State) (id : Nat) (fl : Flight) (bs : List (Nat × Nat)) : Bool :=
  fl.cmd.isNone && s.flights.any (fun (j, g) => decide (j < id) && g.fib == fl.fib && g.cmd.isNone &&
    (openBytes g).any (fun a => bs.any (bytesMeet a)))

/-- An earlier atomic of the same fibre has yet to change some of the bytes: a .fresh or acquire load, which reads at the slice,
comes after it (R320 item 1), while another may miss it, since R192 sets no bound. -/
def atomBefore (s : State) (id : Nat) (fl : Flight) (bs : List (Nat × Nat)) : Bool :=
  s.flights.any (fun (j, g) => decide (j < id) && g.fib == fl.fib && g.cmd.isNone && !g.isLoad &&
    (openBytes g).any (fun a => bs.any (bytesMeet a)))

/-- The bytes that the lanes of a flight name on its line `n`. -/
def openOnLine (fl : Flight) (n : Nat) : List (Nat × Nat) :=
  match fl.lines[n]? with
  | none => []
  | some ln => openBytes { fl with lines := [ln] }

/-- A line of a load is read: at its home slice, or from a copy that has come to be held since issue. The core's earlier loads
of the same bytes come first, so that no byte goes back (R192). -/
def State.sliceRead (s : State) (id n : Nat) : State :=
  match tget s.flights id with
  | none => s
  | some fl =>
    match fl.kind, fl.lines[n]? with
    | .load _ _ policy acq, some ln =>
      match ln.place, ln.data with
      | .dev d _, none =>
        let fresh := acq || policy == 2
        if loadBefore s id fl.core (openOnLine fl n) then s
        else
        match (if fresh then none else heldLine s fl.core d) with
        | some x => s.fillLine id n x
        | none =>
          if fresh && atomBefore s id fl (openOnLine fl n) then s
          else if poisoned s d then s.failFlight id 6 n
          else
            let x := readLine s.mem d
            let s := s.acquireFrom fl n (tget s.lineRel (lineBase d))
            (s.fillLine id n x).snapAfter fl.core d x (policy == 0 && !acq) fresh
      | _, _ => s
    | _, _ => s

def execSliceRead (flt line : Nat) (s : State) : Out := .next (s.sliceRead flt line)

/-! ### The end of a load (R198, R312) -/

/-- The bytes of a lane's access as a number, once its line is at hand. -/
def laneBytes (fl : Flight) (size : Nat) (x : LaneReq) : Option Nat :=
  match fl.lines.find? (fun ln => ln.place == x.place.line) with
  | none => none
  | some ln =>
    match ln.data with
    | none => none
    | some d => some (lineNat d x.place.off size)

/-- The lanes all of whose bytes are at hand. -/
def arrivedLanes (fl : Flight) (size : Nat) : LaneMask :=
  maskOf ((fl.lanes.filter (fun x => (laneBytes fl size x).isSome)).map (·.lane))

/-- A lane of a flight. -/
def laneReq (fl : Flight) (l : Nat) : Option LaneReq := fl.lanes.find? (fun x => x.lane == l)

/-- Write the loaded registers in the lanes of a mask (R198). -/
def State.writeLoaded (s : State) (fl : Flight) (w : Nat) (ty : BitVec 4) (m : LaneMask) : State :=
  let size := w * elemSize ty
  fl.dst.zipIdx.foldl (fun (s : State) (p, k) =>
    s.writePlace fl.fib p m (LaneVec.of (fun l =>
      match laneReq fl l with
      | none => 0#32
      | some x =>
        match laneBytes fl size x with
        | some b => loadedWord ty b k
        | none => 0#32)) false) s

/-- Late threads of a flight that are in a mask go on (R315). -/
def resumeLate (id : Nat) (m : LaneMask) (f : Fibre) : Fibre :=
  modThreads f m (fun _ t => if t.st == 2#4 && t.wait == .late id then t.resume f else t)

/-- Stands for the flight of a split whose late lanes were withdrawn at pre-emption (R397). -/
def withdrawnFlt : Nat := 2 ^ 60

/-- Late threads that issued their load again have their bytes. -/
def relink (id : Nat) (m : LaneMask) (f : Fibre) : Fibre :=
  { f with splits := f.splits.map (fun (sp : Split) =>
      if sp.flt == withdrawnFlt && sp.late &&& m != 0#32 then { sp with flt := id } else sp) }

/-- A load whose lines are all at hand completes; the replies to threads that have exited are discarded (R203, R222). -/
def State.finishLoad (s : State) (id : Nat) : State :=
  match tget s.flights id with
  | none => s
  | some fl =>
    match fl.kind with
    | .load w ty _ acq =>
      if !linesReady fl then s
      else
        let m := fl.mask &&& ~~~ fl.done &&& (match tget s.fibs fl.fib with | some f => liveMask f | none => 0#32)
        let s := s.writeLoaded fl w ty m
        let s := if acq && decide (5 ≤ fl.scope) then s.refresh fl.core else s
        (s.dropFlight id).modFib fl.fib (fun f =>
          let f := relink id m (resumeLate id m f)
          if f.hold == .flight id then advance (leaveHold f) fl.mask fl.len else f)
    | _ => s

/-- A line of host memory as code of a launch: of bytes that launches have written there the launch does not see what they
have written (R66), and what stood there the device has never read: a free value (log entry 9). -/
def hideBytes (l : Launch) (a : Nat) (d : BitVec 512) : BitVec 512 :=
  (List.range 64).foldl (fun (x : BitVec 512) k =>
    if l.sysHidden.contains (a + k) then putLineNat x k 1 (Config.hostByte (a + k)).toNat else x) d

/-- A line of host memory has been fetched as code: the fibre that waited for it goes on (R66). -/
def State.finishFetch (s : State) (id : Nat) : State :=
  match tget s.flights id with
  | none => s
  | some fl =>
    match fl.kind, fl.lines with
    | .fetch, ln :: _ =>
      match ln.place, ln.data with
      | .sys a, some d =>
        let lid := match fl.cmd with
          | some c => match tget s.cmds c with | some x => (match tget s.wgs x.wg with | some w => w.lid | none => 0) | none => 0
          | none => match tget s.fibs fl.fib with | some f => (match wgOf s f with | some w => w.lid | none => 0) | none => 0
        let s := s.modLaunch lid (fun l => { l with codeSys := tset l.codeSys a (hideBytes l a d) })
        (s.dropFlight id).modFib fl.fib (fun f => if f.hold == .flight id then leaveHold f else f)
      | _, _ => s
    | _, _ => s

/-- A peer's request is acknowledged: it leaves the list of those sent (R310, R313). -/
def State.ackPeer (s : State) (source peer off : Nat) : State :=
  match s.sent.findIdx? (fun x => x.stream == source && x.peer == peer && x.off.toNat == off) with
  | some n => { s with sent := s.sent.eraseIdx n }
  | none => s

/-- The source of a flight's requests on the fabric: its core, or its runner group numbered from 1,024 on (R310). -/
def flightSource (fl : Flight) : Nat := fl.core

/-- A reply of a peer to one line of a load, of a runner's read, or of a runner's write (R311, R312). -/
def State.peerLine (s : State) (id : Nat) (r : PeerReply) : State :=
  match tget s.flights id with
  | none => s
  | some fl =>
    match fl.lines[r.line]? with
    | none => s
    | some ln =>
      match ln.place, ln.data with
      | .peer p o, none =>
        let s := s.ackPeer (flightSource fl) p o
        match r.fault with
        | some k => s.failFlight id k r.line
        | none => (s.acquireFrom fl r.line r.rel).fillLine id r.line r.data
      | _, _ => s

/-- Lines that a control instruction, a trap or a return from one has read or written elsewhere are there: the fibre keeps
them and goes on (R193, R349, R386, R391). -/
def State.finishDevice (s : State) (id : Nat) : State :=
  match tget s.flights id with
  | none => s
  | some fl =>
    if !linesReady fl then s
    else
      let got := fl.lines.filterMap (fun ln => ln.data.map (fun d => (ln.place, d)))
      let s := (s.dropFlight id).modFib fl.fib (fun f =>
        let f := if f.hold == .flight id then leaveHold f else f
        { f with got := f.got ++ got })
      match tget s.fibs fl.fib with
      | some f => if f.trap.isNone && rteReady f then s.returnFibre fl.fib else s
      | none => s

/-- What follows when lines of a flight have arrived. -/
def State.flightArrived (s : State) (id : Nat) : State :=
  match tget s.flights id with
  | none => s
  | some fl =>
    match fl.kind with
    | .load _ _ _ _ => s.finishLoad id
    | .fetch => s.finishFetch id
    | .device => s.finishDevice id
    | .putLines =>
      if fl.cmd.isNone then s.finishDevice id
      else if linesReady fl then (s.dropFlight id).signalDone (fl.cmd.getD 0) id else s
    | _ => s

/-- LOAD_REPLY: a peer's reply to one line, if it brings one; then the load completes if nothing is missing. -/
def State.loadReply (s : State) (id : Nat) (rep : Option PeerReply) : State :=
  match rep with
  | some r => (s.peerLine id r).flightArrived id
  | none => s.flightArrived id

def execLoadReply (flt : Nat) (rep : Option PeerReply) (s : State) : Out := .next (s.loadReply flt rep)

/-! ### SPLIT_LOAD (R315) -/

/-- A load may split, apart from its lanes. One that late threads issue again after a restore may not (R397). -/
def maySplit (s : State) (fl : Flight) : Bool :=
  match tget s.fibs fl.fib with
  | none => false
  | some f =>
    let det := match fibLaunch s f with | some l => l.lr.det | none => false
    fl.cmd.isNone && fl.ord == 0 && !fl.split && f.handler.isNone && !det && decide (f.splits.length < 4) &&
    !(f.splits.any (fun sp => sp.flt == withdrawnFlt && sp.late &&& fl.mask != 0#32)) &&
    fl.lanes.any (fun x => match x.place with | .peer _ _ => true | _ => false) &&
    decide (fl.since + 128 ≤ s.tick)

/-- The fibre splits the load: the early set is written and goes on, the late set stays. -/
def State.splitLoad (s : State) (id : Nat) : State :=
  match tget s.flights id with
  | none => s
  | some fl =>
    match fl.kind with
    | .load w ty _ _ =>
      let early := arrivedLanes fl (w * elemSize ty) &&& fl.mask
      let late := fl.mask &&& ~~~ early
      if !maySplit s fl || early == 0#32 || late == 0#32 then s
      else
        let s := s.writeLoaded fl w ty early
        let s := s.setFlight id { fl with split := true, done := early }
        s.modFib fl.fib (fun f =>
          let f := advance (leaveHold f) early fl.len
          let f := modThreads f late (fun _ t => { t with st := 2#4, wait := .late id, wlen := fl.len, since := s.tick })
          groupSwitch { f with splits := f.splits ++ [{ flt := id, late := late }] })
    | _ => s

def execSplitLoad (flt : Nat) (s : State) : Out := .next (s.splitLoad flt)

/-! ### MERGE (R130, R296 to R298) -/

/-- Maximal runs of set bits of a byte mask: start and length (R296). -/
def maskRuns (m : BitVec 64) : List (Nat × Nat) :=
  (List.range 64).foldl (fun (a : List (Nat × Nat)) k =>
    if !m.getLsbD k then a
    else
      match a.getLast? with
      | some (o, n) => if o + n == k then a.dropLast ++ [(o, n + 1)] else a ++ [(k, 1)]
      | none => [(k, 1)]) []

/-- The bytes of a run of a line. -/
def lineRun (d : BitVec 512) (r : Nat × Nat) : List Byte := (List.range r.2).map (fun k => lineByte d (r.1 + k))

/-- Masked bytes of a host line go out as one write for each contiguous run (R296). -/
def State.hostWrites (s : State) (a : Nat) (m : BitVec 64) (d : BitVec 512) : State :=
  (maskRuns m).foldl (fun (s : State) r => s.send (.write (a + r.1) (lineRun d r))) s

/-- A merge is discarded on poison (R297). -/
def State.mergeLost (s : State) (core : Nat) (e : PathEntry) : State :=
  let s := s.modCtx e.ctx (fun x => { x with wbst := x.wbst ||| 1#32 })
  s.errorRecord (coreDie core) 0x22 1 e.va.toNat 0 0 (coreUnit core) (some e.ctx) 0#8

/-- The release record that an ST.rel leaves with its line (R326). -/
def relRecord (s : State) (flt : Nat) : Option RelRec :=
  match tget s.flights flt with
  | some fl => some (agentOf s fl.fib (lowestLane fl.mask) fl.scope)
  | none => none

/-- A peer merge has failed at its target (R298). -/
def State.peerMergeLost (s : State) (core : Nat) (e : PathEntry) (peer k : Nat) : State :=
  let s := s.modCtx e.ctx (fun x =>
    { x with wbst := (x.wbst &&& 0xFFFF0FFF#32) ||| BitVec.ofNat 32 (peer % 16 * 2 ^ 12) ||| 2#32 })
  s.postFault e.ctx
    { tick := s.tick, va := e.va, obj := 0, asid := xlAsid (ctxOf s e.ctx).force, kind := k, acc := 1, run := false,
      req := core * 256, lanes := 0#32, rpl := false }

/-- An unbuffered write is acknowledged: its entry goes, and with the last one the flight (R200). -/
def State.relAcked (s : State) (core ent flt : Nat) : State :=
  let s := s.modCore core (fun c => { c with path := tdel c.path ent })
  if (coreOf s core).path.any (fun (_, e) => e.rel == some flt) then s else s.dropFlight flt

/-- An entry is acknowledged: with the last unbuffered write of an ST.rel its flight goes, with the last merge of a boundary
the boundary completes. -/
def State.entryAcked (s : State) (core ent : Nat) (e : PathEntry) : State :=
  match e.rel with
  | some flt => s.relAcked core ent flt
  | none => (s.modCore core (fun c => { c with path := tset c.path ent { e with acked := true } })).finishBoundary core

/-- A merge to a peer to which no path leads is lost at once (R298, R314). -/
def State.mergeUnsent (s : State) (core ent : Nat) (e : PathEntry) (peer : Nat) : State :=
  (s.peerMergeLost core e peer 4).entryAcked core ent { e with performed := true }

/-- A marked entry is sent as one merge. -/
def State.merge (s : State) (core ent : Nat) : State :=
  match tget (coreOf s core).path ent with
  | none => s
  | some e =>
    if !e.marked || e.performed then s
    else
      let s := s.modCore core (fun c => { c with path := tset c.path ent { e with performed := true } })
      match e.place with
      | .dev d _ =>
        if writeLands s d e.mask then
          let s := s.asWriter e.lids (fun s => s.sliceWrite d e.data e.mask)
          match e.rel with
          | some flt => s.setRel d (relRecord s flt)
          | none => s
        else s.mergeLost core e
      | .sys a => s.asWriter e.lids (fun s => s.hostWrites a e.mask e.data)
      | .peer p o =>
        if pathTo s p then s.sendPeer core p o e.ctx (.write e.mask e.data ((e.rel.bind (relRecord s)).map (·.scope)))
        else s.mergeUnsent core ent e p

def execMerge (core ent : Nat) (s : State) : Out := .next (s.merge core ent)

/-! ### MERGE_ACK and PHASE_BOUNDARY (R295) -/

/-- A merge is acknowledged; the last one of a boundary completes it. -/
def State.mergeAck (s : State) (core ent : Nat) (fail : Option MergeFail) : State :=
  match tget (coreOf s core).path ent with
  | none => s
  | some e =>
    if !e.performed || e.acked then s
    else
      let s := match e.place with
        | .peer p o =>
          let s := s.ackPeer core p o
          match fail with
          | some k => s.peerMergeLost core e p k
          | none => s
        | _ => s
      s.entryAcked core ent e

def execMergeAck (core ent : Nat) (fail : Option MergeFail) (s : State) : Out := .next (s.mergeAck core ent fail)

def execPhaseBoundary (core : Nat) (s : State) : Out := .next (s.startBoundary core)

end Sys2Proof.Machine
end

