-- ==== Sys2Proof/Machine/Quant.lean ====
section
/-!
DEFINITION. Block quantisation and dequantisation: SQ4 pairs (R39, R40), the order of 4-bit groups (R51,
R247), the block Hadamard transform (R58), qblock (R59 to R61) and scaling (R62, R63). Registers, the
matrix array and runners share these functions.
-/
namespace Sys2Proof.Machine

/-- The two's complement value of a 4-bit code that is no escape. -/
def nibInt (c : Nat) : Int := intOf Ty.i8 ((c % 16) + (if c % 16 ≥ 8 then 240 else 0))

/-- The values of an SQ4 pair in element units (R39); an odd escape reads 0 (R40). -/
def sq4Pair (c0 c1 : Nat) : Int × Int :=
  if c0 % 16 == 8 then
    let v : Int := 2 ^ (c1 % 8 + 3)
    (if c1 % 16 ≥ 8 then -v else v, 0)
  else (nibInt c0, if c1 % 16 == 8 then 0 else nibInt c1)

/-- A pair holds an odd escape (R40). -/
def oddEscape (c0 c1 : Nat) : Bool := c0 % 16 != 8 && c1 % 16 == 8

/-- The values of codes taken pair by pair from an even slot. -/
def sq4Values : List Nat → List Int
  | [] => []
  | [c] => [(sq4Pair c 0).1]
  | c0 :: c1 :: r => (sq4Pair c0 c1).1 :: (sq4Pair c0 c1).2 :: sq4Values r

/-- Some pair holds an odd escape. -/
def hasOddEscape : List Nat → Bool
  | [] => false
  | [_] => false
  | c0 :: c1 :: r => oddEscape c0 c1 || hasOddEscape r

/-- The exact values of a list of codes of an element type; `.q4` is decoded pair by pair. -/
def codeValues (t : BitVec 4) (codes : List Nat) : List Num :=
  if t == Ty.q4 then (sq4Values codes).map numOfInt else codes.map (decodeNum t)

/-- A value times a power of two. -/
def scaleNum (k : Int) : Num → Num
  | .fin n m e => .fin n m (e + k)
  | x => x

/-- The nibble position of logical element `i` of a 64-element group (R51). -/
def posOf (i : Nat) : Nat := 8 * ((i / 2) % 8) + 2 * (i / 16) + i % 2

/-- The logical element at nibble position `p` (R51). -/
def elemAt (p : Nat) : Nat := 16 * ((p / 2) % 4) + 2 * (p / 8) + p % 2

/-- The lane and the bit offset of element `i` of a block at position `q`, half `hi` (R247). -/
def codePlace (t : BitVec 4) (q : Nat) (hi : Bool) (i : Nat) : Nat × Nat :=
  if tyIn t packed4 then
    let g := i + (if hi then 32 else 0)
    (8 * q + (g / 2) % 8, 4 * (2 * (g / 16) + g % 2))
  else (8 * q + i / 4, 8 * (i % 4))

/-- Replace `n` bits of a word at an offset. -/
def putBits (w : Word) (off n : Nat) (x : Nat) : Word :=
  let m : Word := BitVec.ofNat 32 ((2 ^ n - 1) * 2 ^ off)
  (w &&& ~~~ m) ||| (BitVec.ofNat 32 (x % 2 ^ n * 2 ^ off) &&& m)

/-- The 32 codes of a block of a register, in logical order. -/
def blockCodes (t : BitVec 4) (v : LaneVec) (q : Nat) (hi : Bool) : List Nat :=
  (List.range 32).map (fun i =>
    let (l, off) := codePlace t q hi i
    bitsOf (v.lane l).toNat (off + typeBits t - 1) off)

/-- Lane `l` of a register with the block's codes placed in it. -/
def placeCodes (t : BitVec 4) (q : Nat) (hi : Bool) (codes : List Nat) (l : Nat) (w : Word) : Word :=
  (List.range 32).foldl (fun acc i =>
    let (l', off) := codePlace t q hi i
    if l' == l then putBits acc off (typeBits t) (codes.getD i 0) else acc) w

/-- The finite value as an integer at exponent `e0`. -/
def finAt (e0 : Int) : Num → Int
  | .fin n m e => signedAt n m e e0
  | _ => 0

/-- The value is a NaN or an infinity. -/
def Num.nonFinite : Num → Bool
  | .fin _ _ _ => false
  | _ => true

/-- The least exponent of the finite values of a list. -/
def minExp (xs : List Num) : Int :=
  xs.foldl (fun a x => match x with
    | .fin _ m e => if m == 0 then a else if e < a then e else a
    | _ => a) 0

/-- One group of the block Hadamard transform (R58), exact; a non-finite input makes every output non-finite. -/
def hadamardGroup (xs : List Num) : List Num :=
  let n := xs.length
  if xs.any Num.nonFinite then xs.map (fun _ => .nan false)
  else
    let e0 := minExp xs
    let vs := xs.map (finAt e0)
    (List.range n).map (fun j =>
      let s := (vs.zipIdx).foldl (fun (a : Int) (p : Int × Nat) =>
        let par := (List.range 6).foldl (fun b k => b != ((p.2 &&& j).testBit k)) false
        if par then a - p.1 else a + p.1) 0
      .fin (s < 0) s.natAbs e0)

/-- Cut a list into groups of `n`, on fuel. -/
def chunksOf {α : Type} (n : Nat) : Nat → List α → List (List α)
  | 0, _ => []
  | fuel + 1, l => if l.isEmpty then [] else l.take n :: chunksOf n fuel (l.drop n)

/-- The block Hadamard transform of size `n` of a row (R58). -/
def hadamard (n : Nat) (xs : List Num) : List Num :=
  ((chunksOf n xs.length xs).map hadamardGroup).flatten

/-- The margin m(T) of R59. -/
def qMargin (t : BitVec 4) : Int :=
  match t.toNat with
  | 2 => 6
  | 12 => 8
  | 13 => 15
  | _ => 2

/-- The codes, the scale and the flags of one quantised block. -/
structure QBlock where
  codes : List Nat
  scale : Nat
  fl : Flags5
  deriving DecidableEq, Repr

/-- Rounding a magnitude to a power of two (R61): the exponent chosen. -/
def pow2Round (neg : Bool) (mode u m : Nat) (e : Int) : Int :=
  let k := Nat.log2 m
  let rem := m - 2 ^ k
  let up := if rem == 0 then false else
    match mode with
    | 0 => 2 * rem ≥ 2 ^ k
    | 1 => false
    | 2 => !neg
    | 3 => neg
    | _ => decide (u < rem * 2 ^ 16 / 2 ^ k)
  e + k + (if up then 1 else 0)

/-- The 4-bit two's complement code of a small integer. -/
def nibCode (v : Int) : Nat := (v % 16).toNat

/-- Encode one SQ4 pair with the draws of its two elements (R61). -/
def encPair (mode u0 u1 : Nat) (y0 y1 : Num) : Nat × Nat :=
  match y0, y1 with
  | .fin n0 m0 e0, .fin n1 m1 e1 =>
    let a := (roundInt mode u0 n0 m0 e0).1
    if a.natAbs ≤ 7 then (nibCode a, nibCode (clampInt (-7) 7 (roundInt mode u1 n1 m1 e1).1))
    else
      let t := clampInt 3 10 (pow2Round n0 mode u0 m0 e0)
      (8, (if n0 then 8 else 0) + (t - 3).toNat)
  | _, _ => (0, 0)

/-- The codes of a scaled block under enc of R60 and R61; `us` holds the draws by element index. -/
def encPairs (mode : Nat) : List Nat → List Num → List Nat
  | us, y0 :: y1 :: r =>
    let c := encPair mode (us.getD 0 0) (us.getD 1 0) y0 y1
    c.1 :: c.2 :: encPairs mode (us.drop 2) r
  | _, _ => []

def encBlock (t : BitVec 4) (mode : Nat) (us : List Nat) (ys : List Num) : List Nat :=
  if t == Ty.q4 then encPairs mode us ys
  else ys.zipIdx.map (fun (y, i) =>
    let u := us.getD i 0
    if t == Ty.i8 then
      match y with
      | .fin n m e => (clampInt (-127) 127 (roundInt mode u n m e).1 % 256).toNat
      | _ => 0
    else (toFloat t mode u true y).pat)

/-- floor(log2) of the largest magnitude of a list, if some value is not zero. -/
def maxTop (xs : List Num) : Option Int :=
  xs.foldl (fun a x => match x with
    | .fin _ m e =>
      if m == 0 then a
      else
        let t : Int := (Nat.log2 m : Int) + e
        match a with
        | none => some t
        | some b => if b < t then some t else a
    | _ => a) none

/-- qblock of R59: `us` holds one draw for each element under .rs. DEDUCED (log 51): its flags are those R59 lists,
NV and NX, so a tiny inexact code sets NX and no UF. -/
def qblock (t : BitVec 4) (mode h : Nat) (us : List Nat) (xs : List Num) : QBlock :=
  if xs.any Num.nonFinite then { codes := xs.map (fun _ => 0), scale := 0xFF, fl := Flags5.nv }
  else
    match maxTop xs with
    | none => { codes := xs.map (fun _ => 0), scale := 0, fl := Flags5.none }
    | some top =>
      let s := clampInt (-127) 127 (top - qMargin t - h)
      let ys := xs.map (scaleNum (-s))
      let q := encBlock t mode us ys
      let exact := (List.zipWith numEq (codeValues t q) ys).all id
      { codes := q, scale := (s + 127).toNat, fl := if exact then Flags5.none else Flags5.nx }

/-- The dequantised value of R62: the code's value times 2^(v-127), rounded once to FP32. -/
def dequant (mode u v : Nat) (x : Num) : Rounded :=
  toFloat Ty.f32 mode u false (scaleNum ((v : Int) - 127) x)

/-- Steps 1 to 3 of R63; `g` and `c` are FP32 patterns when named. The second component is step 2's value. -/
def dequantAcc (mode u1 u2 : Nat) (acc e : Int) (g c : Option Nat) : Rounded :=
  let f := toFloat Ty.f32 mode u1 false (scaleNum e (numOfInt acc))
  match g, c with
  | none, none => f
  | _, _ =>
    let gv := decodeFloat Ty.f32 (g.getD 0x3F800000)
    let cv := decodeFloat Ty.f32 (c.getD 0x80000000)
    let (r, fl) := fmaNum (mode == 3) (decodeFloat Ty.f32 f.pat) gv cv
    let o := toFloat Ty.f32 mode u2 false r
    { pat := o.pat, fl := f.fl ||| fl ||| o.fl }

end Sys2Proof.Machine
end

