-- ==== Sys2Proof/Machine/Matrix.lean ====
section
/-!
DEFINITION. The matrix array (R263 to R292): the operands of its commands, their checks, the command queue with
its two events, and the instructions MLD, MSW, MXM, MHAD, MZ, MRD, MST and MQRY. A command departs from the head of
its core's queue when the one before it has completed: overlap would affect timing only (R273).
-/
namespace Sys2Proof.Machine

/-! ### The operands of a command (R265, R277) -/

/-- Opcodes of the class. -/
def Mx.mld : Nat := 0
def Mx.msw : Nat := 1
def Mx.mxm : Nat := 2
def Mx.mhad : Nat := 3
def Mx.mz : Nat := 4
def Mx.mrd : Nat := 5
def Mx.mst : Nat := 6
def Mx.mqry : Nat := 7

/-- K of the K code (R265). -/
def Mx.k (f : LForm) : Nat := 256 * 2 ^ Mx.kc f

/-- MST.sp. -/
def Mx.sp (f : LForm) : Bool := f.imm.getLsbD 7

/-- The bytes of one row of K elements. -/
def mxRowBytes (t : BitVec 4) (k : Nat) : Nat := if t == Ty.q4 then k / 2 else k * elemSize t

/-- The value that a source has in the lowest active lane. -/
def MxCmd.low (c : MxCmd) (v : LaneVec) : Nat := (v.lane (lowestLane c.mask)).toNat

/-- The rows that a command has. -/
def MxCmd.m (c : MxCmd) : Nat :=
  if c.op == Mx.mld then 64
  else if c.op == Mx.mst then bitsOf (c.low c.c) 11 6 + 1
  else bitsOf (c.low c.c) 21 16 + 1

/-- The pitch of its rows. -/
def MxCmd.pitch (c : MxCmd) : Nat :=
  if c.op == Mx.mld then c.low c.c
  else if c.op == Mx.mst then c.low c.b
  else bitsOf (c.low c.c) 15 0

/-- The first tile row. -/
def MxCmd.row0 (c : MxCmd) : Nat := if c.op == Mx.mst then bitsOf (c.low c.c) 5 0 else bitsOf (c.low c.c) 27 22

/-- The base address of MST to memory. -/
def MxCmd.base (c : MxCmd) : Addr := c.a2.lane (lowestLane c.mask) ++ c.a.lane (lowestLane c.mask)

/-- A command that takes its rows from float elements. -/
def Mx.float (f : LForm) : Bool := tyIn f.ty floatTypes

/-- The scratchpad rows that a command reads, as offsets and lengths. -/
def MxCmd.rowRanges (c : MxCmd) : List (Nat × Nat) :=
  if c.op == Mx.mld || c.op == Mx.mxm || c.op == Mx.mhad then
    (List.range c.m).map (fun m => (c.low c.a + m * c.pitch, mxRowBytes c.f.ty (Mx.k c.f)))
  else []

/-- The scale bytes that a command of a code type reads. -/
def MxCmd.scaleRanges (c : MxCmd) : List (Nat × Nat) :=
  if (c.op == Mx.mld || c.op == Mx.mxm) && !Mx.float c.f then [(c.low c.b, c.m * (Mx.k c.f / 32))] else []

/-- The scratchpad bytes that a command writes. -/
def MxCmd.writeRanges (c : MxCmd) : List (Nat × Nat) :=
  if c.op == Mx.mhad then [(c.low c.b, c.m * (mxRowBytes (Mx.T c.f) (Mx.k c.f) + Mx.k c.f / 32))]
  else if c.op == Mx.mst && Mx.sp c.f then (List.range c.m).map (fun m => (c.low c.a + m * c.pitch, 256))
  else []

/-- The bytes that the check pass reads (R274). -/
def MxCmd.checkRanges (c : MxCmd) : List (Nat × Nat) :=
  c.scaleRanges ++
    (if c.op == Mx.mhad then []
     else if Mx.float c.f || (c.op == Mx.mld && c.f.ty == Ty.q4) then c.rowRanges else [])

/-- The bytes of a list of ranges. -/
def rangeBytes (m : Bytes) (rs : List (Nat × Nat)) : List Byte := (rs.map (fun r => readBytes m r.1 r.2)).flatten

/-! ### Codes of a row (R51, R265, R267) -/

/-- The codes of a row of a code type in logical order. -/
def rowCodes (t : BitVec 4) (k : Nat) (bs : List Byte) : List Nat :=
  let at_ := fun (i : Nat) => (bs.getD i 0#8).toNat
  (List.range k).map (fun i =>
    if t == Ty.q4 then
      let p := posOf (i % 64)
      at_ (32 * (i / 64) + p / 2) / (if p % 2 == 0 then 1 else 16) % 16
    else if t == Ty.i8 then at_ i
    else at_ (2 * i) + 256 * at_ (2 * i + 1))

/-- The bytes of a row of codes. -/
def codeBytes (t : BitVec 4) (codes : List Nat) : List Byte :=
  if t == Ty.q4 then
    (List.range (codes.length / 2)).map (fun b =>
      let g := 64 * (b / 32)
      let p := 2 * (b % 32)
      BitVec.ofNat 8 (codes.getD (g + elemAt p) 0 % 16 + codes.getD (g + elemAt (p + 1)) 0 % 16 * 16))
  else if t == Ty.i8 then codes.map (fun c => BitVec.ofNat 8 c)
  else (codes.map (fun c => leBytes c 2)).flatten

/-- The integers of a row of codes (R269). -/
def codeInts (t : BitVec 4) (codes : List Nat) : List Int :=
  if t == Ty.q4 then sq4Values codes else codes.map (intOf t)

/-- The float elements of a row, transformed (R267). -/
def rowValues (f : LForm) (k : Nat) (bs : List Byte) : List Num :=
  let n := elemSize f.ty
  let xs := (List.range k).map (fun i => decodeNum f.ty (leValue ((bs.drop (n * i)).take n)))
  if Mx.had f == 0 then xs else hadamard (8 * 2 ^ Mx.had f) xs

/-- The quantised blocks of a float row (R267). -/
def rowBlocks (f : LForm) (k : Nat) (bs : List Byte) : List QBlock :=
  (chunksOf 32 k (rowValues f k bs)).map (qblock (Mx.T f) f.mode.toNat (Mx.h f) [])

/-- The codes, scales and flags of a row of a command as its compute pass takes them (R267, R275). A block that
is not finite gives codes 0 and scale 0. -/
structure MxRow where
  codes : List Nat
  scales : List Nat
  fl : Flags5
  deriving DecidableEq, Repr

/-- Row `m` of a command's input. -/
def MxCmd.row (c : MxCmd) (spad : Bytes) (m : Nat) : MxRow :=
  let k := Mx.k c.f
  let bs := readBytes spad (c.low c.a + m * c.pitch) (mxRowBytes c.f.ty k)
  if Mx.float c.f then
    let qs := rowBlocks c.f k bs
    { codes := (qs.map (·.codes)).flatten
      scales := qs.map (fun q => if q.scale == 255 && c.op != Mx.mhad then 0 else q.scale)
      fl := (qs.map (·.fl)).foldl (· ||| ·) Flags5.none }
  else
    { codes := rowCodes c.f.ty k bs
      scales := (readBytes spad (c.low c.b + m * (k / 32)) (k / 32)).map (·.toNat)
      fl := Flags5.none }

/-! ### The grant and the state words (R264, R270, R271) -/

/-- Fields of a tile's state word. -/
def tileExp (t : Tile) : Int := (t.word.extractLsb' 22 10).toInt
def tileHad (t : Tile) : Nat := bitsOf t.word.toNat 21 20
def tileFresh (t : Tile) : Bool := t.word.getLsbD 19
def tilePoison (t : Tile) : Bool := t.word.getLsbD 15

/-- An element of a tile. -/
def tileElem (t : Tile) (r n : Nat) : Word := (tget t.elems (64 * r + n)).getD 0#32

/-- A tile with row `r` replaced; zero elements are not listed. -/
def tileSetRow (t : Tile) (r : Nat) (xs : List Word) : Tile :=
  { t with elems :=
      t.elems.filter (fun e => decide (e.1 < 64 * r)) ++
      ((xs.take 64).zipIdx.filterMap (fun (x, n) => if x == 0#32 then none else some (64 * r + n, x))) ++
      t.elems.filter (fun e => decide (64 * r + 64 ≤ e.1)) }

/-- The state word after MZ: EXP, and every other field at its reset value (R284). -/
def tileWordAt (exp : Nat) : Word := BitVec.ofNat 32 (exp % 2 ^ 10 * 2 ^ 22 + 2 ^ 19)

/-- A tile and a bank at workgroup start (R264). -/
def Tile.zero : Tile := { elems := [], word := tileWordAt 0 }
def Bank.zero : Bank := { codes := [], scales := [], word := 0#32 }

/-- The recorded exponent E of a tile (R272). -/
def tileE (t : Tile) : Int :=
  tileExp t - (match tileHad t with
    | 0 => 0
    | h => (h : Int) + 3)

/-- Fields of a bank's state word. -/
def bankValid (b : Bank) : Bool := b.word.getLsbD 8
def bankHad (b : Bank) : Nat := bitsOf b.word.toNat 7 6
def bankKc (b : Bank) : Nat := bitsOf b.word.toNat 5 4
def bankFmt (b : Bank) : BitVec 4 := b.word.extractLsb' 0 4

/-- The physical bank that a command's name stands for (R264, R281). -/
def MxCmd.bank (c : MxCmd) (w : Workgroup) : Nat :=
  if w.banks.length == 2 && c.swap then 1 - Mx.bank c.f else Mx.bank c.f

/-- The tile and the bank of a command. -/
def MxCmd.tileOf (c : MxCmd) (w : Workgroup) : Tile := w.tiles.getD (Mx.tile c.f) Tile.zero
def MxCmd.bankOf (c : MxCmd) (w : Workgroup) : Bank := w.banks.getD (c.bank w) Bank.zero

/-- Column `n` of a bank as integers, and its scales (R263). -/
def bankColumn (b : Bank) (n : Nat) : List Int :=
  let k := 256 * 2 ^ bankKc b
  if bankFmt b == Ty.q4 then
    sq4Values (((List.range (k / 2)).map (fun r =>
      let x := (readByte b.codes (64 * r + n)).toNat
      [x % 16, x / 16])).flatten)
  else (List.range k).map (fun r => intOf Ty.i8 (readByte b.codes (64 * r + n)).toNat)

def bankScales (b : Bank) (n : Nat) : List Nat :=
  (List.range (8 * 2 ^ bankKc b)).map (fun j => (readByte b.scales (64 * n + j)).toNat)

/-- The bytes of column `n` of a bank: one row per byte, or one pair of rows (R263). -/
def columnBytes (t : BitVec 4) (codes : List Nat) : List Byte :=
  if t == Ty.q4 then
    (List.range (codes.length / 2)).map (fun r =>
      BitVec.ofNat 8 (codes.getD (2 * r) 0 % 16 + codes.getD (2 * r + 1) 0 % 16 * 16))
  else codes.map (fun c => BitVec.ofNat 8 c)

/-- Write one byte of a store. -/
def putByte (m : Bytes) (a : Nat) (b : Byte) : Bytes := writeBytes m a [b]

/-! ### Checks (R266, R279) -/

/-- Step 1 of R279: the values of the operands. -/
def MxCmd.operandsOk (c : MxCmd) : Bool :=
  let k := Mx.k c.f
  let al := if c.f.ty == Ty.q4 then 32 else 16
  let rows := c.low c.a % al == 0 && c.pitch % al == 0 && decide (mxRowBytes c.f.ty k ≤ c.pitch)
  if c.op == Mx.mld then rows
  else if c.op == Mx.mxm then rows && decide (c.row0 + c.m ≤ 64)
  else if c.op == Mx.mhad then
    let d := c.low c.b
    let n := c.m * (mxRowBytes (Mx.T c.f) k + k / 32)
    let e := c.low c.a + (c.m - 1) * c.pitch + mxRowBytes c.f.ty k
    rows && d % (if Mx.T c.f == Ty.q4 then 32 else 16) == 0 && (decide (d + n ≤ c.low c.a) || decide (e ≤ d))
  else if c.op == Mx.mst then
    let al := if Mx.sp c.f then 16 else 64
    (if Mx.sp c.f then c.low c.a % al == 0 else c.base.toNat % al == 0) && c.pitch % al == 0 &&
      (Mx.sp c.f || decide (256 ≤ c.pitch)) && decide (c.row0 + c.m ≤ 64)
  else true

/-- Causes 0x01 and 0x02 of R279. -/
def MxCmd.grantCause (c : MxCmd) (w : Workgroup) : Option Nat :=
  let tile := [Mx.mxm, Mx.mz, Mx.mrd, Mx.mst].contains c.op || (c.op == Mx.mqry && Mx.what c.f == 0)
  let bank := [Mx.mld, Mx.mxm].contains c.op || (c.op == Mx.mqry && Mx.what c.f == 1)
  if tile && decide (w.tiles.length ≤ Mx.tile c.f) then some 1
  else if (bank && decide (w.banks.length ≤ Mx.bank c.f)) || (c.op == Mx.msw && decide (w.banks.length < 2)) then some 2
  else none

/-- Causes 0x03 to 0x06 of R279. -/
def MxCmd.stateCause (c : MxCmd) (w : Workgroup) : Option Nat :=
  let t := c.tileOf w
  let b := c.bankOf w
  if c.op == Mx.mxm then
    if !bankValid b then some 3
    else if Mx.kc c.f != bankKc b then some 4
    else if Mx.had c.f != bankHad b || (!tileFresh t && Mx.had c.f != tileHad t) then some 5
    else none
  else if (c.op == Mx.mrd || c.op == Mx.mst) && tilePoison t then some 6
  else none

/-- Step 3 of R279: every byte lies in the allocation. -/
def MxCmd.extentOk (c : MxCmd) (w : Workgroup) : Bool :=
  (c.rowRanges ++ c.scaleRanges ++ c.writeRanges).all (fun r => decide (r.1 + r.2 ≤ w.scratch))

/-- The check pass (R274): the trap code that it raises. A poisoned word that the command reads comes first. -/
def MxCmd.checkPass (c : MxCmd) (w : Workgroup) : Option Nat :=
  let read := c.rowRanges ++ c.scaleRanges
  let k := Mx.k c.f
  if read.any (fun r => spadBad w r.1 r.2) then some 0x16
  else if c.op == Mx.mld && c.f.ty == Ty.q4 &&
      c.rowRanges.any (fun r => hasOddEscape (rowCodes Ty.q4 k (readBytes w.spad r.1 r.2))) then some 0x50
  else if (rangeBytes w.spad c.scaleRanges).any (· == 255#8) then some 0x51
  else if (c.op == Mx.mld || c.op == Mx.mxm) && Mx.float c.f &&
      c.rowRanges.any (fun r => (rowBlocks c.f k (readBytes w.spad r.1 r.2)).any (fun q => q.scale == 255)) then some 0x51
  else none

/-- The virtual addresses of the lines of MST to memory, in ascending row. -/
def MxCmd.lines (c : MxCmd) : List Addr :=
  if c.op == Mx.mst && !Mx.sp c.f then
    ((List.range c.m).map (fun m => (List.range 4).map (fun i => c.base + BitVec.ofNat 64 (m * c.pitch + 64 * i)))).flatten
  else []

/-- Step 4 of R279: the lines of MST to memory, or the faults of their pages. -/
def MxCmd.translateLines (c : MxCmd) (s : State) (w : Workgroup) (priv : Bool) : List Place × List AccFault :=
  let l := lowestLane c.mask
  let (ok, bad) := translateLanes s (.core w.core) w.ctx (xlOf s w) priv .write false (c.lines.map (fun a => (l, a)))
  (ok.map (·.2.2), bad.map (fun x => { x with replayable := false }))

/-! ### The queue (R273, R274) -/

/-- The commands of a core's queue. -/
def mxQueue (s : State) (core : Nat) : Tbl MxCmd := (coreOf s core).mq

/-- A command enters the queue (R273). MSW inverts SWAP then (R281). -/
def State.acceptMx (s : State) (core : Nat) (c : MxCmd) : Nat × State :=
  let (id, s) := s.newId
  let swap := match tget s.wgs c.wg with
    | some w => w.swap
    | none => false
  let s := s.modCore core (fun x => { x with mq := x.mq ++ [(id, { c with swap := swap })] })
  (id, if c.op == Mx.msw then s.modWg c.wg (fun w => { w with swap := !w.swap }) else s)

/-- A command leaves the queue. -/
def State.dropMx (s : State) (core id : Nat) : State := s.modCore core (fun x => { x with mq := tdel x.mq id })

/-- The energy of a command (R447). -/
def MxCmd.energy (c : MxCmd) : Nat :=
  if c.op == Mx.mxm then c.m * Mx.k c.f * typeBits (Mx.T c.f) / 256
  else if c.op == Mx.mld || c.op == Mx.mhad then Mx.k c.f
  else 4

/-- The issuing fibre retires its command, with the flags that it raises. -/
def State.retireMx (s : State) (c : MxCmd) (fl : BitVec 5) : State :=
  match c.fib with
  | none => s
  | some fid => s.modFib fid (fun f => addEnergy (orFlags (advance (leaveHold f) c.mask 8) fl) c.energy)

/-- A follow-on command fails: its handle takes cause 0x0A unless CNCL has freed it (R172, R289). -/
def State.followFault (s : State) (wid h cid : Nat) : State :=
  match tget s.wgs wid with
  | none => s
  | some w =>
    let x := handleOf w h
    let s := { s with cmds := s.cmds.filter (fun (_, c) => !(c.wg == wid && c.handle == h)) }
    let s := s.modWg wid (fun w => { w with colls := w.colls.filter (fun (c : Collective) => c.handle != some h) })
    if x.cmd != some cid then s
    else if x.st == .filling || x.st == .full then
      (s.setHandle wid h { st := .error, cause := 0x0A#8, cmd := none, owner := none }).wakeHandle wid h
    else if x.st == .draining then
      (s.setHandle wid h { st := .free, cause := 0#8, cmd := none, owner := none }).wakeHandle wid h
    else s

/-- A command fails when it leaves the queue: a trap of its fibre, or its handle's cause. -/
def State.failMx (s : State) (core id : Nat) (c : MxCmd) (t : Trap) : State :=
  let s := s.dropMx core id
  match c.fib, c.handle, c.cmd with
  | some fid, _, _ => (s.modFib fid leaveHold).raise fid t
  | none, some h, some cid => s.followFault c.wg h cid
  | none, _, _ => s

/-- A command that its runner had checked in full at issue (R289). -/
def MxCmd.checked (c : MxCmd) : Bool := c.fib.isNone && c.handle.isNone

/-- Commands whose fibre retires when their check pass has ended (R274). -/
def MxCmd.early (c : MxCmd) : Bool := c.op == Mx.mld || c.op == Mx.mxm

/-- The flags that a quantised input raises (R267). -/
def MxCmd.inputFlags (c : MxCmd) (w : Workgroup) : BitVec 5 :=
  if Mx.float c.f && (c.early || c.op == Mx.mhad) then
    ((List.range c.m).map (fun m => (c.row w.spad m).fl)).foldl (· ||| ·) Flags5.none
  else 0#5

/-- The command at the head of the queue departs: steps 2 to 5 of R279, and the retirement of MLD and MXM. -/
def State.departMx (s : State) (core id : Nat) : State :=
  match (mxQueue s core).head? with
  | none => s
  | some (k, c) =>
    if k != id || c.departed || !wgTakes s c.wg then s
    else
      match tget s.wgs c.wg with
      | none => s.dropMx core id
      | some w =>
        let go := fun (s : State) (c : MxCmd) =>
          let s := s.modCore core (fun x => { x with mq := tset x.mq id { c with departed := true } })
          if c.early then s.retireMx c (c.inputFlags w) else s
        if c.checked then go s c
        else
          match c.stateCause w with
          | some cause => s.failMx core id c (trapCause 0x52 cause c.mask)
          | none =>
            if !c.extentOk w then s.failMx core id c (trapOf 0x32 c.mask)
            else
              let priv := match c.fib with
                | some fid =>
                  match tget s.fibs fid with
                  | some f => privOf f
                  | none => false
                | none => false
              let (places, bad) := c.translateLines s w priv
              match bad, c.fib with
              | _ :: _, some fid => ((s.dropMx core id).modFib fid leaveHold).accessFault fid c.mask bad
              | _, _ =>
                let s := c.lines.foldl (fun (s : State) va => s.holdBy (.core core) .write w.ctx (xlOf s w) va) s
                let s := s.spadMend c.wg (c.rowRanges ++ c.scaleRanges)
                match c.checkPass w with
                | some code => s.failMx core id c (trapOf code c.mask)
                | none => go s { c with seen := rangeBytes w.spad c.checkRanges, pages := places }

/-! ### The compute pass (R269, R280 to R287) -/

/-- One block's contribution and whether it was rounded (R269). -/
def mxBlock (x w : List Int) (sh : Int) : Int × Bool :=
  let p := (List.zipWith (fun a b => a * b) x w).foldl (fun a b => a + b) 0
  if 0 ≤ sh then (p * 2 ^ sh.toNat, false) else (p / 2 ^ (-sh).toNat, p % 2 ^ (-sh).toNat != 0)

/-- The sum over a row's blocks, on a list of block pairs with their shifts (R269). -/
def mxSum (x w : List (List Int)) (va vb : List Nat) (exp : Int) : Int × Bool :=
  ((List.range va.length).map (fun j =>
    mxBlock (x.getD j []) (w.getD j []) ((va.getD j 0 : Int) - 127 + ((vb.getD j 0 : Int) - 127) - exp))).foldl
    (fun a b => (a.1 + b.1, a.2 || b.2)) (0, false)

/-- One element after the addition, and whether it wrapped (R269). -/
def mxAdd (old : Word) (s : Int) : Word × Bool :=
  let r := old.toInt + s
  (BitVec.ofInt 32 r, decide (r < -(2 ^ 31)) || decide (2 ^ 31 - 1 < r))

/-- One row of an MXM enters the tile (R269). -/
def mxRowInto (t : Tile) (row : Nat) (x : MxRow) (ty : BitVec 4) (b : Bank) : Tile :=
  let xs := chunksOf 32 2048 (codeInts ty x.codes)
  let e := tileExp t
  let rs := (List.range 64).map (fun n =>
    let (s, loss) := mxSum xs (chunksOf 32 2048 (bankColumn b n)) x.scales (bankScales b n) e
    let (v, wrap) := mxAdd (tileElem t row n) s
    (v, wrap, loss))
  let t := tileSetRow t row (rs.map (·.1))
  let w := if rs.any (·.2.1) then putBits t.word 18 1 1 else t.word
  { t with word := if rs.any (·.2.2) then putBits w 17 1 1 else w }

/-- Some byte that the check pass read has another value now (R275). -/
def MxCmd.changed (c : MxCmd) (w : Workgroup) : Bool := rangeBytes w.spad c.checkRanges != c.seen

/-- Rows of an MXM from its progress count to `upto` enter the tile (R269, R291). -/
def MxCmd.mxmRows (c : MxCmd) (upto : Nat) (w : Workgroup) : Workgroup :=
  let b := c.bankOf w
  let t := (List.range (upto - c.rows)).foldl (fun (t : Tile) m =>
    mxRowInto t (c.row0 + c.rows + m) (c.row w.spad (c.rows + m)) (Mx.T c.f) b) (c.tileOf w)
  let word := putBits (putBits t.word 20 2 (Mx.had c.f)) 19 1 0
  { w with tiles := w.tiles.set (Mx.tile c.f) { t with word := if c.changed w then putBits word 16 1 1 else word } }

/-- MXM (R269, R282): rows from its progress count on. -/
def MxCmd.doMxm (c : MxCmd) (w : Workgroup) : Workgroup := c.mxmRows c.m w

/-- MLD (R280). -/
def MxCmd.doMld (c : MxCmd) (w : Workgroup) : Workgroup :=
  let b := (List.range 64).foldl (fun (b : Bank) n =>
    let x := c.row w.spad n
    { b with
      codes := ((columnBytes (Mx.T c.f) x.codes).zipIdx).foldl (fun m (v, r) => putByte m (64 * r + n) v) b.codes
      scales := writeBytes b.scales (64 * n) (x.scales.map (fun v => BitVec.ofNat 8 v)) }) (c.bankOf w)
  let word := BitVec.ofNat 32 ((if c.changed w then 2 ^ 9 else 0) + 2 ^ 8 + Mx.had c.f * 2 ^ 6 + Mx.kc c.f * 2 ^ 4 +
    (Mx.T c.f).toNat)
  { w with banks := w.banks.set (c.bank w) { b with word := word } }

/-- The scratchpad writes of MHAD (R283). -/
def MxCmd.hadWrites (c : MxCmd) (w : Workgroup) : List (Nat × List Byte) :=
  let k := Mx.k c.f
  let dp := mxRowBytes (Mx.T c.f) k
  ((List.range c.m).map (fun m =>
    let x := c.row w.spad m
    [(c.low c.b + m * dp, codeBytes (Mx.T c.f) x.codes),
     (c.low c.b + c.m * dp + m * (k / 32), x.scales.map (fun v => BitVec.ofNat 8 v))])).flatten

/-- An element of a tile as MRD and MST give it (R272, R285, R286). -/
def mxRead (f : LForm) (t : Tile) (r n : Nat) (g c : Option Nat) : Word × BitVec 5 :=
  let x := tileElem t r n
  if f.ty == Ty.i32 then (x, 0#5)
  else
    let o := dequantAcc f.mode.toNat 0 0 x.toInt (tileE t) g c
    (BitVec.ofNat 32 o.pat, o.fl)

/-- The rows that MST writes, as bytes, with the flags raised (R286). -/
def MxCmd.outRows (c : MxCmd) (w : Workgroup) : List (List Byte) × BitVec 5 :=
  let t := c.tileOf w
  let rs := (List.range c.m).map (fun m => (List.range 64).map (fun n => mxRead c.f t (c.row0 + m) n none none))
  (rs.map (fun r => (r.map (fun x => leBytes x.1.toNat 4)).flatten),
   (rs.map (fun r => (r.map (·.2)).foldl (· ||| ·) 0#5)).foldl (· ||| ·) 0#5)

/-- A write of a runner or of the array to the scratchpad: a poisoned word that it covers only in part keeps its
bytes and its poison, with a record (R187). -/
def State.spadEngine (s : State) (wid off : Nat) (bs : List Byte) : State :=
  match tget s.wgs wid with
  | none => s
  | some w =>
    let part := w.spadPoison.filter (fun p => decide (p < off + bs.length) && decide (off < p + 4) &&
      !(decide (off ≤ p) && decide (p + 4 ≤ off + bs.length)))
    let bs := bs.zipIdx.map (fun (b, i) => if part.contains ((off + i) / 4 * 4) then readByte w.spad (off + i) else b)
    let s := s.spadMend wid (if off % 4 == 0 then [] else [(off, 1)])
    let s := s.spadMend wid (if (off + bs.length) % 4 == 0 then [] else [(off + bs.length - 1, 1)])
    let s := s.modWg wid (fun w => w.spadPut off bs)
    part.foldl (fun (s : State) p => s.errorRecord (coreDie w.core) 0x27 1 w.core p 0 (coreUnit w.core) (some w.ctx) 0#8) s

/-- MRD (R285). -/
def State.doMrd (s : State) (c : MxCmd) (w : Workgroup) : State :=
  match c.fib with
  | none => s
  | some fid =>
    let t := c.tileOf w
    let r := bitsOf (c.low c.a) 5 0
    let half := fun (h l : Nat) => mxRead c.f t r (32 * h + l)
      (if c.f.b == 66#7 then none else some (c.b.lane l).toNat) (if c.f.c == 66#7 then none else some (c.c.lane l).toNat)
    let s := (List.range 2).foldl (fun (s : State) h =>
      s.writeReg fid (c.f.d.toNat + h) c.mask (LaneVec.of (fun l => (half h l).1))) s
    s.retireMx c ((lanesOf c.mask).foldl (fun a l => a ||| (half 0 l).2 ||| (half 1 l).2) 0#5)

/-- The word that MQRY writes (R287). -/
def MxCmd.queryWord (c : MxCmd) (w : Workgroup) : Word :=
  match Mx.what c.f with
  | 0 => (c.tileOf w).word
  | 1 => (c.bankOf w).word
  | 2 => 0#32
  | _ => BitVec.ofNat 32 ((if w.swap then 2 ^ 7 else 0) + w.banks.length % 4 * 2 ^ 5 + w.tiles.length % 2 ^ 5)

/-- MQRY writes its word. -/
def State.doMqry (s : State) (c : MxCmd) (w : Workgroup) : State :=
  match c.fib with
  | none => s
  | some fid => (s.writeReg fid c.f.d.toNat c.mask (LaneVec.splat (c.queryWord w))).retireMx c 0#5

/-- MST (R286). Where the store path has no room, a capacity boundary comes first (R294). -/
def State.doMst (s : State) (core id : Nat) (c : MxCmd) (w : Workgroup) : State :=
  let (rows, fl) := c.outRows w
  if Mx.sp c.f then
    let s := (rows.zipIdx).foldl (fun (s : State) (bs, m) => s.spadEngine c.wg (c.low c.a + m * c.pitch) bs) s
    (s.dropMx core id).retireMx c fl
  else
    match c.fib with
    | none => s.dropMx core id
    | some fid =>
      let bytes := rows.flatten
      let xs := (c.lines.zip c.pages).zipIdx
      let lines : List StoreLine := storeLines 64 (xs.map (fun ((a, p), i) => (i, a, p)))
        (fun i => leValue ((bytes.drop (64 * i)).take 64))
      match s.retireStore fid core w.ctx (redKey s c.wg) c.wg lines with
      | some s => (s.dropMx core id).retireMx c fl
      | none =>
        if (coreOf s core).bounds.any (fun b => b.id == id) then s
        else s.askBoundary core
          { id := id, fib := none, len := 0, mask := 0#32, flt := none, scope := 7, ctx := none, lid := none, started := false }

/-- A departed command completes. -/
def State.completeMx (s : State) (core id : Nat) : State :=
  match tget (mxQueue s core) id with
  | none => s
  | some c =>
    if !c.departed || wgHalted s c.wg then s
    else
      let s := s.spadMend c.wg (c.rowRanges ++ c.scaleRanges)
      match tget s.wgs c.wg with
      | none => s.dropMx core id
      | some w =>
        match c.op with
        | 0 => (s.setWg c.wg (c.doMld w)).dropMx core id
        | 2 => (s.setWg c.wg (c.doMxm w)).dropMx core id
        | 3 =>
          let fl := c.inputFlags w
          let s := (c.hadWrites w).foldl (fun (s : State) (o, bs) => s.spadEngine c.wg o bs) s
          (s.dropMx core id).retireMx c fl
        | 4 =>
          let t : Tile := { elems := [], word := tileWordAt (bitsOf (c.low c.a) 9 0) }
          (s.modWg c.wg (fun w => { w with tiles := w.tiles.set (Mx.tile c.f) t })).dropMx core id
        | 5 => (s.doMrd c w).dropMx core id
        | 6 => s.doMst core id c w
        | 7 => (s.doMqry c w).dropMx core id
        | _ => s.dropMx core id

/-- A matrix command leaves its queue (R273, R279). -/
def execMatrixQueueDepart (core cmd : Nat) (s : State) : Out := .next (s.departMx core cmd)

/-- A matrix command completes (R274). -/
def execMatrixCommandComplete (core cmd : Nat) (s : State) : Out := .next (s.completeMx core cmd)

/-! ### Issue (R274, R279) -/

/-- A command of a fibre. -/
def mxCmd (op : Nat) (f : LForm) (i : FIn) (a a2 b c : LaneVec) : MxCmd :=
  { op := op, f := f, a := a, a2 := a2, b := b, c := c, mask := i.m, wg := i.f.wg, fib := some i.fid, cmd := none,
    handle := none, swap := false, departed := false, rows := 0, pages := [], seen := [] }

/-- Issue of a matrix instruction whose checks of R88 step 3 have passed. -/
def State.issueMx (s : State) (y latch : Bool) (i : FIn) (c : MxCmd) : Out :=
  match wgOf s i.f with
  | none => .next s
  | some w =>
    if !c.operandsOk then .next (s.raise i.fid (trapOf 0x02 i.m))
    else
      match c.grantCause w with
      | some cause => .next (s.raise i.fid (trapCause 0x52 cause i.m))
      | none =>
        if c.op == Mx.mqry && Mx.what c.f == 3 then .next (s.doMqry c w)
        else if 16 ≤ (mxQueue s w.core).length then .next (s.stallKept i y latch)
        else
          let (id, s) := s.acceptMx w.core c
          if c.op == Mx.mz || c.op == Mx.msw then .next (s.retireMx c 0#5)
          else .next (s.modFib i.fid (fun f => enterHold f (.matrix id) false s.tick))

/-- MLD, MXM and MHAD: three sources of the lowest active lane (R277). -/
def opMx3 (op : Nat) (f : LForm) (s : State) : Out :=
  let xs := [src (.sel f.a) Ty.i32, src (.sel f.b) Ty.i32, src (.sel f.c) Ty.i32]
  memOp f.y xs [] true false s (fun s i =>
    s.issueMx f.y (anyLatch xs) i (mxCmd op f i (i.s 0) (i.s 0) (i.s 1) (i.s 2)))

/-- MLD (R280). -/
def execMld (f : LForm) (s : State) : Out := opMx3 Mx.mld f s

/-- MXM (R282). -/
def execMxm (f : LForm) (s : State) : Out := opMx3 Mx.mxm f s

/-- MHAD (R283). -/
def execMhad (f : LForm) (s : State) : Out := opMx3 Mx.mhad f s

/-- MSW (R281). -/
def execMsw (f : LForm) (s : State) : Out :=
  fibreOp f.y [] [] s (fun s i =>
    let z := LaneVec.splat 0#32
    s.issueMx f.y false i (mxCmd Mx.msw f i z z z z))

/-- MZ (R284). -/
def execMz (f : LForm) (s : State) : Out :=
  let xs := [src (.sel f.a) Ty.i32]
  fibreOp f.y xs [] s (fun s i =>
    s.issueMx f.y (anyLatch xs) i (mxCmd Mx.mz f i (i.s 0) (i.s 0) (i.s 0) (i.s 0)))

/-- MRD (R285): d and d + 1 lie inside the window. -/
def execMrd (f : LForm) (s : State) : Out :=
  let ty := if f.ty == Ty.f32 then Ty.f32 else Ty.i32
  let xs := [src (.sel f.a) Ty.i32, src (.sel f.b) ty, src (.sel f.c) ty]
  fibreOp f.y xs [f.d.toNat, f.d.toNat + 1] s (fun s i =>
    s.issueMx f.y (anyLatch xs) i (mxCmd Mx.mrd f i (i.s 0) (i.s 0) (i.s 1) (i.s 2)))

/-- MST (R286). -/
def execMst (f : LForm) (s : State) : Out :=
  let a := if Mx.sp f then [src (.sel f.a) Ty.i32, src (.const 0#32) Ty.i32] else pairSrcs f.a
  let xs := a ++ [src (.sel f.b) Ty.i32, src (.sel f.c) Ty.i32]
  memOp f.y xs [] (Mx.sp f || addrPairOk (curWindow s) f.a) false s (fun s i =>
    s.issueMx f.y (anyLatch xs) i (mxCmd Mx.mst f i (i.s 0) (i.s 1) (i.s 2) (i.s 3)))

/-- MQRY (R287). -/
def execMqry (f : LForm) (s : State) : Out :=
  let z := LaneVec.splat 0#32
  fibreOp f.y [] [f.d.toNat] s (fun s i => s.issueMx f.y false i (mxCmd Mx.mqry f i z z z z))

end Sys2Proof.Machine
end

