-- ==== Sys2Proof/Machine/Flags.lean ====
section
/-!
DEFINITION. Rounding draws (R46) and the gathering of float flags over the active lanes (R50): what float,
conversion and cross-lane instructions share.
-/
namespace Sys2Proof.Machine

/-- The state of a thread after one draw (R46). -/
def drawStep (r : BitVec 64) : BitVec 64 := r * 0x5851F42D4C957F2D#64 + 0x14057B7EF767814F#64

/-- The 16-bit value that a draw yields from the state it leaves (R46). -/
def drawValue (r : BitVec 64) : Nat := (r.extractLsb' 48 16).toNat

/-- `n` draws of a thread: their values in order, and the state they leave. -/
def draws : Nat → BitVec 64 → List Nat × BitVec 64
  | 0, r => ([], r)
  | n + 1, r =>
    let r1 := drawStep r
    let (us, r2) := draws n r1
    (drawValue r1 :: us, r2)

/-- The rounding state of lane `l`. -/
def VIn.state (v : VIn) (l : Nat) : BitVec 64 := v.rs.getD l 0#64

/-- Flags of a list of results. -/
def allFlags (rs : List (Word × Flags5)) : Flags5 := rs.foldl (fun a x => a ||| x.2) Flags5.none

/-- A lane-wise function with flags, each active lane taking `k` draws of its own thread under .rs. -/
def roundLanes (v : VIn) (mode k : Nat) (f : Nat → List Nat → Word × Flags5) : VOut :=
  let ds := (List.range 32).map (fun l => if mode == 4 then draws k (v.state l) else ([], v.state l))
  let out := ds.zipIdx.map (fun (d, l) => if v.m.getLsbD l then f l d.1 else (0#32, Flags5.none))
  { r := LaneVec.of (fun l => (out.getD l (0#32, Flags5.none)).1), r2 := none, fl := allFlags out,
    rs := ds.zipIdx.map (fun (d, l) => if v.m.getLsbD l then d.2 else v.state l) }

/-- The same for a function whose flags need no draw. -/
def flagLanes (v : VIn) (f : Nat → Word × Flags5) : VOut := roundLanes v 0 0 (fun l _ => f l)

/-- The thread that gives the draws of a whole-fibre operation, `n` draws under .rs: their values, and
the states they leave. -/
def drawsAt (v : VIn) (lane mode n : Nat) : List Nat × List (BitVec 64) :=
  if mode == 4 then
    let d := draws n (v.state lane)
    (d.1, v.rs.set lane d.2)
  else ([], v.rs)

/-- The first draw of a list. -/
def draw1 (us : List Nat) : Nat := us.getD 0 0

/-- A rounded pattern as a lane's word with its flags. -/
def Rounded.word (r : Rounded) : Word × Flags5 := (BitVec.ofNat 32 r.pat, r.fl)

end Sys2Proof.Machine
end

