-- ==== Sys2Proof/Machine/FloatOps.lean ====
section
/-!
DEFINITION. The float instructions (R237 to R244) in their C, W and L forms. Each computes exactly and
rounds once; flags and draws are gathered by `roundLanes`.
-/
namespace Sys2Proof.Machine

/-- The value that a lane's word has under a float type. -/
def laneNum (t : BitVec 4) (w : Word) : Num := decodeFloat t w.toNat

/-- A float instruction of two sources with its exact result. -/
def floatTwo (op : Nat) (v : VForm) (g : Num → Num → Num × Flags5) (s : State) : Out :=
  vec op v.len v.y v.k v.d false [src v.a v.ty, src v.b v.ty] true 2 (fun i =>
    .ok (roundLanes i v.mode 1 (fun l us =>
      let (x, fl) := g (laneNum v.ty ((i.s 0).lane l)) (laneNum v.ty ((i.s 1).lane l))
      let r := toFloat v.ty v.mode (draw1 us) false x
      (BitVec.ofNat 32 r.pat, fl ||| r.fl)))) s

def opFadd (v : VForm) (s : State) : Out := floatTwo 0x20 v (fun x y => addNum (v.mode == 3) x y) s
def opFsub (v : VForm) (s : State) : Out := floatTwo 0x21 v (fun x y => addNum (v.mode == 3) x (negNum y)) s
def opFmul (v : VForm) (s : State) : Out := floatTwo 0x22 v mulNum s

/-- FFMA (R54, R239). -/
def opFfma (v : VForm) (s : State) : Out :=
  vec 0x87 v.len v.y v.k v.d false [src v.a v.ty, src v.b v.ty, src v.c v.ty] true 2 (fun i =>
    .ok (roundLanes i v.mode 1 (fun l us =>
      let (x, fl) := fmaNum (v.mode == 3) (laneNum v.ty ((i.s 0).lane l)) (laneNum v.ty ((i.s 1).lane l))
        (laneNum v.ty ((i.s 2).lane l))
      let r := toFloat v.ty v.mode (draw1 us) false x
      (BitVec.ofNat 32 r.pat, fl ||| r.fl)))) s

/-- FMIN and FMAX (R240). -/
def opFminmax (op : Nat) (isMax : Bool) (v : VForm) (s : State) : Out :=
  vec op v.len v.y v.k v.d false [src v.a v.ty, src v.b v.ty] true 2 (fun i =>
    .ok (flagLanes i (fun l =>
      let (r, fl) := fminmax v.ty isMax ((i.s 0).lane l).toNat ((i.s 1).lane l).toNat
      (BitVec.ofNat 32 r, fl)))) s

/-- FCMP (R241). -/
def opFcmp (v : VForm) (s : State) : Out :=
  vec 0x88 v.len v.y v.k v.d false [src v.a v.ty, src v.b v.ty] true 2 (fun i =>
    .ok (flagLanes i (fun l =>
      let (r, fl) := fcmp v.mode (laneNum v.ty ((i.s 0).lane l)) (laneNum v.ty ((i.s 1).lane l))
      (boolWord r, fl)))) s

/-- A function of R242 by its opcode8. -/
def opSpecial (op : Nat) (v : VForm) (s : State) : Out :=
  vec op v.len v.y v.k v.d false [src v.a v.ty] true 6 (fun i =>
    .ok (roundLanes i v.mode 1 (fun l us =>
      let (x, fl) := specialFn op (laneNum v.ty ((i.s 0).lane l))
      let r := toFloat v.ty v.mode (draw1 us) false x
      (BitVec.ofNat 32 r.pat, fl ||| r.fl)))) s

/-- FRND (R243). -/
def opFrnd (v : VForm) (s : State) : Out :=
  vec 0x2D v.len v.y v.k v.d false [src v.a v.ty] true 2 (fun i =>
    .ok (roundLanes i v.mode 1 (fun l us =>
      (frnd v.ty v.mode (draw1 us) (laneNum v.ty ((i.s 0).lane l))).word))) s

/-- FCLASS (R244). -/
def opFclass (v : VForm) (s : State) : Out :=
  vec 0x2E v.len v.y v.k v.d false [src v.a v.ty] true 2 (fun i =>
    lanewise i (fun l => fclass v.ty ((i.s 0).lane l).toNat)) s

/-! ### The meanings -/

def execFaddC (f : CForm) (s : State) : Out := opFadd (ofCForm Ty.f32 f (cReg f)) s
def execFsubC (f : CForm) (s : State) : Out := opFsub (ofCForm Ty.f32 f (cReg f)) s
def execFmulC (f : CForm) (s : State) : Out := opFmul (ofCForm Ty.f32 f (cReg f)) s
def execFaddW (f : WForm) (s : State) : Out := opFadd (ofWForm Ty.f32 f) s
def execFaddL (f : LForm) (s : State) : Out := opFadd (ofLForm f) s
def execFsubW (f : WForm) (s : State) : Out := opFsub (ofWForm Ty.f32 f) s
def execFsubL (f : LForm) (s : State) : Out := opFsub (ofLForm f) s
def execFmulW (f : WForm) (s : State) : Out := opFmul (ofWForm Ty.f32 f) s
def execFmulL (f : LForm) (s : State) : Out := opFmul (ofLForm f) s
def execFfma (f : LForm) (s : State) : Out := opFfma (ofLForm f) s
def execFminW (f : WForm) (s : State) : Out := opFminmax 0x23 false (ofWForm Ty.f32 f) s
def execFminL (f : LForm) (s : State) : Out := opFminmax 0x23 false (ofLForm f) s
def execFmaxW (f : WForm) (s : State) : Out := opFminmax 0x24 true (ofWForm Ty.f32 f) s
def execFmaxL (f : LForm) (s : State) : Out := opFminmax 0x24 true (ofLForm f) s
def execFcmp (f : LForm) (s : State) : Out := opFcmp (ofLForm f) s
def execFrcpW (f : WForm) (s : State) : Out := opSpecial 0x25 (ofWForm Ty.f32 f) s
def execFrcpL (f : LForm) (s : State) : Out := opSpecial 0x25 (ofLForm f) s
def execFrsqW (f : WForm) (s : State) : Out := opSpecial 0x26 (ofWForm Ty.f32 f) s
def execFrsqL (f : LForm) (s : State) : Out := opSpecial 0x26 (ofLForm f) s
def execFsqrtW (f : WForm) (s : State) : Out := opSpecial 0x27 (ofWForm Ty.f32 f) s
def execFsqrtL (f : LForm) (s : State) : Out := opSpecial 0x27 (ofLForm f) s
def execFexp2W (f : WForm) (s : State) : Out := opSpecial 0x28 (ofWForm Ty.f32 f) s
def execFexp2L (f : LForm) (s : State) : Out := opSpecial 0x28 (ofLForm f) s
def execFlog2W (f : WForm) (s : State) : Out := opSpecial 0x29 (ofWForm Ty.f32 f) s
def execFlog2L (f : LForm) (s : State) : Out := opSpecial 0x29 (ofLForm f) s
def execFsinW (f : WForm) (s : State) : Out := opSpecial 0x2A (ofWForm Ty.f32 f) s
def execFsinL (f : LForm) (s : State) : Out := opSpecial 0x2A (ofLForm f) s
def execFcosW (f : WForm) (s : State) : Out := opSpecial 0x2B (ofWForm Ty.f32 f) s
def execFcosL (f : LForm) (s : State) : Out := opSpecial 0x2B (ofLForm f) s
def execFtanhW (f : WForm) (s : State) : Out := opSpecial 0x2C (ofWForm Ty.f32 f) s
def execFtanhL (f : LForm) (s : State) : Out := opSpecial 0x2C (ofLForm f) s
def execFrndW (f : WForm) (s : State) : Out := opFrnd (ofWForm Ty.f32 f) s
def execFrndL (f : LForm) (s : State) : Out := opFrnd (ofLForm f) s
def execFclassW (f : WForm) (s : State) : Out := opFclass (ofWForm Ty.f32 f) s
def execFclassL (f : LForm) (s : State) : Out := opFclass (ofLForm f) s

end Sys2Proof.Machine
end

