-- ==== Sys2Proof/Machine/CrossLane.lean ====
section
/-!
DEFINITION. The cross-lane instructions (R253 to R258): SHFL, VOTE,
MATCH, LRED and LSCAN.
-/
namespace Sys2Proof.Machine

/-- The segment width of SHFL (R254). -/
def shflWidth (v : VForm) : Nat := 32 / 2 ^ (bitsOf v.imm.toNat 2 0)

/-- The source lane of SHFL by its mode (R254). -/
def shflLane (mode w l n : Nat) : Option Nat :=
  let base := l - l % w
  match mode with
  | 0 => if n < w then some (base + n) else none
  | 1 => if n ≤ l - base then some (l - n) else none
  | 2 => if n ≤ base + w - 1 - l then some (l + n) else none
  | _ => if n < w then some (base + ((l - base) ^^^ n)) else none

/-- SHFL (R254). -/
def opShfl (mode : Nat) (v : VForm) (s : State) : Out :=
  vec (0x30 + mode) v.len v.y v.k v.d false [srcAll v.a Ty.i32, src v.b Ty.i32, src v.c Ty.i32] true 3 (fun i =>
    lanewise i (fun l =>
      match shflLane mode (shflWidth v) l ((i.s 1).lane l).toNat with
      | some m => (i.s 0).lane m
      | none => if v.cf == 66 then (i.s 0).lane l else (i.s 2).lane l)) s

/-- The mask of VOTE (R255): the active lanes whose word is not zero. -/
def voteMask (m : LaneMask) (a : LaneVec) : LaneMask :=
  BitVec.ofNat 32 ((lanesOf m).foldl (fun x l => if a.lane l != 0#32 then x + 2 ^ l else x) 0)

/-- VOTE (R255): mode 0 .any, 1 .all, 2 .mask. -/
def opVote (mode : Nat) (v : VForm) (s : State) : Out :=
  vec (0x34 + mode) v.len v.y v.k v.d false [src v.a Ty.i32] true 3 (fun i =>
    let m := voteMask i.m (i.s 0)
    let w := match mode with
      | 0 => boolWord (m != 0#32)
      | 1 => boolWord (m == i.m)
      | _ => m
    lanewise i (fun _ => w)) s

/-- MATCH (R256). -/
def opMatch (v : VForm) (s : State) : Out :=
  vec 0x37 v.len v.y v.k v.d false [src v.a Ty.i32] true 3 (fun i => lanewise i (fun l =>
    BitVec.ofNat 32 ((lanesOf i.m).foldl (fun x k =>
      if (i.s 0).lane k == (i.s 0).lane l then x + 2 ^ k else x) 0))) s

/-- The identity of an op of LRED and LSCAN (R257). -/
def reduceIdentity (t : BitVec 4) (op : Nat) : Word :=
  let fl := tyIn t floatTypes
  match op with
  | 0 => if fl then BitVec.ofNat 32 (zeroPat t true) else 0#32
  | 1 => if fl then BitVec.ofNat 32 (infPat t false) else wordOfInt (intMax t)
  | 2 => if fl then BitVec.ofNat 32 (infPat t true) else wordOfInt (intMin t)
  | 3 => 0xFFFFFFFF#32
  | _ => 0#32

/-- One node of a reduction (R55, R257): the word and its flags; the draw is the caller's. -/
def reduceNode (t : BitVec 4) (op mode u : Nat) (x y : Word) : Word × Flags5 :=
  if tyIn t floatTypes then
    if op == 0 then
      let (r, fl) := addNum (mode == 3) (laneNum t x) (laneNum t y)
      let o := toFloat t mode u false r
      (BitVec.ofNat 32 o.pat, fl ||| o.fl)
    else
      let (r, fl) := fminmax t (op == 2) x.toNat y.toNat
      (BitVec.ofNat 32 r, fl)
  else
    let lt := decide (intOf t x.toNat < intOf t y.toNat)
    (match op with
     | 0 => x + y
     | 1 => if lt then x else y
     | 2 => if lt then y else x
     | 3 => x &&& y
     | 4 => x ||| y
     | _ => x ^^^ y, Flags5.none)

/-- One level of the tree of R55 with the draws still to use. -/
def reduceLevel (t : BitVec 4) (op mode : Nat) : List Nat → List Word → List Word × List Nat × Flags5
  | us, x :: y :: r =>
    let (w, fl) := reduceNode t op mode (draw1 us) x y
    let (ws, us', fl') := reduceLevel t op mode (us.drop 1) r
    (w :: ws, us', fl ||| fl')
  | us, l => (l, us, Flags5.none)

/-- The tree of R55, level by level. -/
def reduceTree (t : BitVec 4) (op mode : Nat) : Nat → List Nat → List Word → Word × Flags5
  | 0, _, l => (l.getD 0 0#32, Flags5.none)
  | n + 1, us, l =>
    let (ws, us', fl) := reduceLevel t op mode us l
    let (w, fl') := reduceTree t op mode n us' ws
    (w, fl ||| fl')

/-- The bits of a lane that an element of a type has, as a word (R31). -/
def laneElem (t : BitVec 4) (w : Word) : Word :=
  if tyIn t floatTypes then BitVec.ofNat 32 (w.toNat % 2 ^ typeBits t) else w

/-- The 32 inputs of LRED and LSCAN: identities in inactive lanes (R257). -/
def reduceInputs (t : BitVec 4) (op : Nat) (i : VIn) : List Word :=
  (List.range 32).map (fun l => if i.m.getLsbD l then laneElem t ((i.s 0).lane l) else reduceIdentity t op)

/-- LRED (R55, R257). -/
def execLred (f : LForm) (s : State) : Out :=
  let v := ofLForm f
  let op := bitsOf f.imm.toNat 2 0
  vec 0x89 8 v.y v.k v.d false [src v.a v.ty] true 3 (fun i =>
    let (us, rs) := drawsAt i (lowestLane i.m) v.mode 31
    let (w, fl) := reduceTree v.ty op v.mode 5 us (reduceInputs v.ty op i)
    .ok { r := LaneVec.splat w, r2 := none, fl := fl, rs := rs }) s

/-- LSCAN's inclusive values from lane `l` on, with their flags and the states of the threads (R56). -/
def scanFrom (t : BitVec 4) (op mode : Nat) (i : VIn) : Nat → Word → List Word → List (Word × Flags5 × BitVec 64)
  | _, _, [] => []
  | l, acc, x :: r =>
    let act := i.m.getLsbD l
    let st := i.state l
    let st' := if act && mode == 4 then drawStep st else st
    let (w, fl) := if act then reduceNode t op mode (drawValue st') acc x
      else reduceNode t op (if mode == 4 then 0 else mode) 0 acc x
    (w, fl, st') :: scanFrom t op mode i (l + 1) w r

/-- LSCAN's first value and its flags (R56): nothing is rounded, and a NaN it produces is the canonical one, a
signalling NaN setting NV (R36). -/
def scanFirst (t : BitVec 4) (x : Word) : Word × Flags5 :=
  if isIntType t then (x, Flags5.none)
  else
    match laneNum t x with
    | .nan sig => (BitVec.ofNat 32 (canonNaN t), if sig then Flags5.nv else Flags5.none)
    | _ => (x, Flags5.none)

/-- LSCAN (R56, R258). -/
def execLscan (f : LForm) (s : State) : Out :=
  let v := ofLForm f
  let op := bitsOf f.imm.toNat 2 0
  vec 0x8A 8 v.y v.k v.d false [src v.a v.ty] true 3 (fun i =>
    match reduceInputs v.ty op i with
    | [] => lanewise i (fun _ => 0#32)
    | x0 :: xs =>
      let t0 := scanFirst v.ty x0
      let t := (t0.1, t0.2, i.state 0) :: scanFrom v.ty op v.mode i 1 t0.1 xs
      let incl := fun l => (t.getD l (0#32, Flags5.none, 0#64)).1
      let before := fun l => (lanesOf i.m).filter (fun k => decide (k < l))
      .ok { r := LaneVec.of (fun l =>
              if f.imm.getLsbD 3 then
                match (before l).getLast? with
                | some k => incl k
                | none => reduceIdentity v.ty op
              else incl l),
            r2 := none, fl := t.foldl (fun a x => a ||| x.2.1) Flags5.none,
            rs := if i.rs.isEmpty then [] else t.map (fun x => x.2.2) }) s

/-! ### The meanings -/

def execShflSelW (f : WForm) (s : State) : Out := opShfl 0 (ofWForm Ty.i32 f) s
def execShflSelL (f : LForm) (s : State) : Out := opShfl 0 (ofLForm f) s
def execShflLoW (f : WForm) (s : State) : Out := opShfl 1 (ofWForm Ty.i32 f) s
def execShflLoL (f : LForm) (s : State) : Out := opShfl 1 (ofLForm f) s
def execShflHiW (f : WForm) (s : State) : Out := opShfl 2 (ofWForm Ty.i32 f) s
def execShflHiL (f : LForm) (s : State) : Out := opShfl 2 (ofLForm f) s
def execShflXorW (f : WForm) (s : State) : Out := opShfl 3 (ofWForm Ty.i32 f) s
def execShflXorL (f : LForm) (s : State) : Out := opShfl 3 (ofLForm f) s
def execVoteAnyW (f : WForm) (s : State) : Out := opVote 0 (ofWForm Ty.i32 f) s
def execVoteAnyL (f : LForm) (s : State) : Out := opVote 0 (ofLForm f) s
def execVoteAllW (f : WForm) (s : State) : Out := opVote 1 (ofWForm Ty.i32 f) s
def execVoteAllL (f : LForm) (s : State) : Out := opVote 1 (ofLForm f) s
def execVoteMaskW (f : WForm) (s : State) : Out := opVote 2 (ofWForm Ty.i32 f) s
def execVoteMaskL (f : LForm) (s : State) : Out := opVote 2 (ofLForm f) s
def execMatchW (f : WForm) (s : State) : Out := opMatch (ofWForm Ty.i32 f) s
def execMatchL (f : LForm) (s : State) : Out := opMatch (ofLForm f) s

end Sys2Proof.Machine
end

