-- ==== Sys2Proof/Machine/Once.lean ====
section
/-!
DEFINITION. Operations performed once (R303): how an atomic or pod operation of a fibre goes into flight, how
its reply reaches the fibre and, in redundant mode, the twin and the replay log (R305), how it fails (R115,
R312), and the flights that stand for requests of a peer (R311, R151).
-/
namespace Sys2Proof.Machine

/-! ### Flights that serve a peer -/

/-- The number, naming no fibre, under which a peer's request is served here. -/
def guestFib (src fib stream : Nat) (seq : BitVec 16) : Nat :=
  2 ^ 50 + src * 2 ^ 40 + fib % 256 * 2 ^ 32 + stream * 2 ^ 16 + seq.toNat

/-- A flight serves a peer. -/
def isGuest (fl : Flight) : Bool := decide (2 ^ 50 ≤ fl.fib)

/-- The fabric number, source and sequence number of the peer that a flight serves, and the fibre within its core. -/
def guestSrc (fl : Flight) : Nat := (fl.fib - 2 ^ 50) / 2 ^ 40
def guestFibre (fl : Flight) : Nat := (fl.fib - 2 ^ 50) / 2 ^ 32 % 256
def guestStream (fl : Flight) : Nat := (fl.fib - 2 ^ 50) / 2 ^ 16 % 2 ^ 16
def guestSeq (fl : Flight) : BitVec 16 := BitVec.ofNat 16 ((fl.fib - 2 ^ 50) % 2 ^ 16)

/-- The agent of a flight's lane (R317). -/
def flightAgent (s : State) (fl : Flight) (lane scope : Nat) : RelRec :=
  if isGuest fl then
    { scope := scope, fib := 2 ^ 41, lane := lane, wg := 0, core := guestStream fl, fn := 0, peer := some (guestSrc fl) }
  else agentOf s fl.fib lane scope

/-- A reply to a peer that has nothing but its address. -/
def emptyReply (fl : Flight) : PeerOut :=
  { src := guestSrc fl, stream := guestStream fl, seq := guestSeq fl, fault := none, waits := false, corrupt := false,
    status := 0, words := [], data := 0#512, rels := [] }

/-- Send a reply to a peer and end the flight that served it. -/
def State.answerPeer (s : State) (id : Nat) (r : PeerOut) : State :=
  { s.dropFlight id with replies := s.replies ++ [r] }

/-- The translation registers under which a flight's accesses are made. -/
def flightXl (s : State) (fl : Flight) : List (BitVec 32) :=
  match tget s.fibs fl.fib with
  | some f =>
    match wgOf s f with
    | some w => xlOf s w
    | none => (ctxOf s fl.ctx).force
  | none => (ctxOf s fl.ctx).force

/-! ### The twin's flight -/

/-- The flight of the twin that takes the reply of a performed-once operation. -/
def mirrorOf (s : State) (fl : Flight) : List Nat :=
  match twinFib s fl.fib with
  | none => []
  | some t => (s.flights.filter (fun (_, x) => x.fib == t && x.stage == .mirror)).map (·.1)

/-- What the comparator compares of an operation's kind (R303). -/
def kindOps (k : FKind) : List Nat :=
  match k with
  | .atom sub ty mode => [1, sub, ty.toNat, mode]
  | .tadd ty mode => [2, ty.toNat, mode]
  | .enq v w t es => [3, v, w, t.toNat] ++ (es.map (fun e => e.map (·.toNat))).flatten
  | .deq v w t => [4, v, w, t.toNat]
  | .podInit c => [5, c.toNat]
  | .podClose => [6]
  | .podQuery w => [7, w]
  | _ => [0]

/-- What the comparator compares: kind, mask, and each lane's address and data. -/
def flightOps (fl : Flight) : List Nat :=
  kindOps fl.kind ++ [fl.mask.toNat] ++ (fl.lanes.map (fun x => [x.lane, x.va.toNat, x.x.toNat, x.y.toNat])).flatten

/-- A reply as the replay log keeps it: the flags, and for each register written a mask and its lanes. -/
def replyWords (fl : BitVec 5) (outs : List (LaneMask × LaneVec)) : List Word :=
  fl.setWidth 32 :: (outs.map (fun o => o.1 :: o.2.toList)).flatten

/-- Register `k` of a logged reply. -/
def replyOut (r : List Word) (k : Nat) : LaneMask × LaneVec :=
  let x := (r.drop (1 + 33 * k)).take 33
  (x.headD 0#32, LaneVec.of (fun l => x.getD (l + 1) 0#32))

/-- The workgroup that keeps the replay log of a fibre's operations: its pair's primary. -/
def logWg (s : State) (fid : Nat) : Option Nat :=
  match tget s.fibs fid with
  | none => none
  | some f =>
    match tget s.wgs f.wg with
    | none => none
    | some w =>
      match w.red with
      | none => none
      | some r => if r.primary then some f.wg else some r.twin

/-- An operation enters the replay log, and the next one will be compared with the entry after it (R305). -/
def State.logOnce (s : State) (fid : Nat) (ops : List Nat) (reply : List Word) : State :=
  match logWg s fid with
  | none => s
  | some p =>
    s.modWg p (fun w => { w with red := w.red.map (fun r =>
      { r with log := r.log ++ [{ fib := fid % 256, ops := ops, reply := reply }], rerun := r.rerun + 1 }) })

/-! ### Completion -/

/-- A reply reaches one fibre: its registers and flags are written in the threads that have not exited (R222), its core refreshes
after an acquire, and it goes on (R135, R145). -/
def State.giveReply (s : State) (id : Nat) (outs : List (LaneMask × LaneVec)) (flags : BitVec 5) (refresh : Bool) : State :=
  match tget s.flights id with
  | none => s
  | some fl =>
    let live := match tget s.fibs fl.fib with | some f => liveMask f | none => 0#32
    let s := (fl.dst.zip outs).foldl (fun (s : State) (p, o) => s.writePlace fl.fib p (o.1 &&& live) o.2 false) s
    let s := if refresh then s.refresh fl.core else s
    (s.dropFlight id).modFib fl.fib (fun f =>
      let f := orFlags f flags
      if f.hold == .flight id then advance (leaveHold f) fl.mask fl.len else f)

/-- A performed-once operation completes: in both twins of a redundant pair, and in the replay log. -/
def State.completeOnce (s : State) (id : Nat) (outs : List (LaneMask × LaneVec)) (flags : BitVec 5) (refresh : Bool) : State :=
  match tget s.flights id with
  | none => s
  | some fl =>
    let s := s.logOnce fl.fib (flightOps fl) (replyWords flags outs)
    (id :: mirrorOf s fl).foldl (fun s i => s.giveReply i outs flags refresh) s

/-- Which lanes have been performed, in the flight of the twin. -/
def sameReturns (fl : Flight) (xs : List LaneReq) : List LaneReq :=
  xs.map (fun x => { x with ret := (laneReq fl x.lane).bind (·.ret) })

/-- The operation fails on a fault of kind `k` at its line `n`, in both twins of a pair; a peer is told (R312). -/
def State.failOnce (s : State) (id k n : Nat) : State :=
  match tget s.flights id with
  | none => s
  | some fl =>
    if isGuest fl then s.answerPeer id { emptyReply fl with fault := some k }
    else
      let s := (mirrorOf s fl).foldl (fun s i => s.modFlight i (fun g => { g with lanes := sameReturns fl g.lanes })) s
      (id :: mirrorOf s fl).foldl (fun s i => s.failFlight i k n) s

/-! ### Going into flight -/

/-- The flight of a memory instruction that a fibre issues. -/
def newFlight (s : State) (i : FIn) (w : Workgroup) (kind : FKind) (dst : List Nat) (scope ord : Nat)
    (lanes : List LaneReq) (lines : List LineReq) : Flight :=
  { kind := kind, fib := i.fid, cmd := none, ctx := w.ctx, core := w.core, pc := s.cur.pc, len := 8, mask := i.m,
    dst := dst.map (regPlace i.f), scope := scope, ord := ord, lanes := lanes, lines := lines, stage := .request,
    done := 0#32, flags := 0#5, since := s.tick, retry := 0, split := false, fault := none,
    waiters := 0 }

/-- The request that a peer receives for the lanes of an atomic on one line (R310). -/
def atomBody (fl : Flight) (sub : Nat) (ty : BitVec 4) (mode : Nat) (xs : List LaneReq) : PeerBody :=
  .atom (BitVec.ofNat 4 sub) ty (BitVec.ofNat 3 mode) fl.ord fl.scope
    (xs.map (fun x => (x.place.off, x.x, x.y, BitVec.ofNat 16 x.u)))

/-- The AtomicOp of an operation, and its operand (R137). -/
def hostAtomOp (sub : Nat) (x : Word) : HostAtomic × Word :=
  match sub with
  | 0 => (.fetchAdd, x)
  | 0xA => (.fetchAdd, 0#32)
  | 7 => (.cas, x)
  | _ => (.swap, x)

/-- Atomics of one instruction on host memory go out lane by lane (R137), and those on a peer line by line. -/
def State.sendAtoms (s : State) (id : Nat) (fl : Flight) (sub : Nat) (ty : BitVec 4) (mode : Nat) : State :=
  let s := fl.lanes.foldl (fun (s : State) x =>
    match x.place with
    | .sys a =>
      if x.ret.isSome then s
      else s.asFlight id (fun s => s.send (.atomic a (hostAtomOp sub x.x).1 (hostAtomOp sub x.x).2 x.y id x.lane))
    | _ => s) s
  fl.lines.foldl (fun (s : State) ln =>
    match ln.place with
    | .peer p o =>
      let xs := fl.lanes.filter (fun x => x.place.line == ln.place && x.ret.isNone)
      if xs.isEmpty then s else s.sendPeer fl.core p o fl.ctx (atomBody fl sub ty mode xs)
    | _ => s) s

/-- A pod operation at a peer is sent to it (R151). -/
def State.sendPod (s : State) (fl : Flight) (body : PeerBody) : State :=
  match fl.lanes with
  | x :: _ =>
    match x.place with
    | .peer p o => s.sendPeerFor (fl.fib % 256) fl.core p o fl.ctx body
    | _ => s
  | [] => s

/-- Send what a flight asks of peers and of the host. -/
def State.armFlight (s : State) (id : Nat) : State :=
  match tget s.flights id with
  | none => s
  | some fl =>
    match fl.kind with
    | .atom sub ty mode => s.sendAtoms id fl sub ty mode
    | .tadd ty mode => s.sendAtoms id fl 0xC ty mode
    | .enq v w t es => s.sendPod fl (.podOp true v w t (popMask fl.mask) fl.scope es.flatten)
    | .deq v w t => s.sendPod fl (.podOp false v w t (popMask fl.mask) fl.scope [])
    | .podInit c => s.sendPod fl (.podInit c fl.scope)
    | .podClose => s.sendPod fl (.podClose fl.scope)
    | .podQuery k => s.sendPod fl (.podQuery k)
    | _ => s

/-- A fibre's performed-once operation goes into flight: in redundant mode it first waits for the comparator
(R303); otherwise `hold` keeps the fibre at the instruction until it completes. -/
def State.launchOnce (s : State) (i : FIn) (fl : Flight) (weight : Nat) (hold y latch : Bool) : State :=
  let (id, s) := s.newId
  let s := s.modFib i.fid (fun g => addEnergy g weight)
  if (redKey s i.f.wg).isSome then
    (s.setFlight id { fl with stage := .compare }).holdFor i.fid (.compare id) y latch
  else
    let s := (s.setFlight id fl).armFlight id
    if hold then s.holdFor i.fid (.flight id) y latch else s.modFib i.fid (fun g => advance g i.m fl.len)

/-- The fibre of a flight enters the fibre wait of R345: its ready threads pass to state 4. -/
def State.flightWaits (s : State) (id : Nat) : State :=
  match tget s.flights id with
  | none => s
  | some fl =>
    let wait := fun (s : State) (i : Nat) => s.modFib fl.fib (fun f =>
      if f.hold == .flight i then enterHold f (.flight i) true s.tick else f)
    let s := wait s id
    (mirrorOf s fl).foldl (fun s i =>
      match tget s.flights i with
      | some x => s.modFib x.fib (fun f => if f.hold == .flight i then enterHold f (.flight i) true s.tick else f)
      | none => s) s

end Sys2Proof.Machine
end

