-- ==== Sys2Proof/Machine/RunnerMem.lean ====
section
/-!
DEFINITION. What runners read and write: the tensor object table (R123 to R126), the copy descriptor and the
tile copy (R166, R167), reads and writes of a runner at the home slices, in host memory and at peers (R156, R176,
R179, R303), and what stops a runner (R114, R180).
-/
namespace Sys2Proof.Machine

/-! ### The tensor object table (R123 to R125) -/

/-- The fields of a table entry as a number. -/
def objEntryOf (n idx : Nat) : ObjEntry :=
  { base := BitVec.ofNat 64 (bitsOf n 511 448)
    ext := [bitsOf n 447 416, bitsOf n 415 384, bitsOf n 383 352, bitsOf n 351 320, bitsOf n 319 288]
    str := [bitsOf n 287 248, bitsOf n 247 208, bitsOf n 207 168, bitsOf n 167 128]
    scale := BitVec.ofNat 64 (bitsOf n 127 64), owner := BitVec.ofNat 16 (bitsOf n 63 48),
    mx := bitsOf n 11 11 == 1, wr := bitsOf n 10 10 == 1, rd := bitsOf n 9 9 == 1, ndim := bitsOf n 8 6,
    fmt := BitVec.ofNat 4 (bitsOf n 5 2), index := idx }

/-- Check 2 of R125. -/
def objValid (n : Nat) : Bool := bitsOf n 0 0 == 1 && bitsOf n 1 1 == 0 && bitsOf n 47 12 == 0

/-- The bytes that BASE and the strides are multiples of (R125, check 5). -/
def objUnit (t : BitVec 4) : Nat := if tyIn t packed4 then 32 else elemSize t

/-- Check 5 of R125, SCALE apart. -/
def objFormed (e : ObjEntry) : Bool :=
  1 ≤ e.ndim && e.ndim ≤ 5 &&
  e.ext.zipIdx.all (fun (x, d) => if d < e.ndim then x != 0 else x == 0) &&
  e.str.zipIdx.all (fun (x, d) => (decide (d + 1 < e.ndim) || x == 0) && x % objUnit e.fmt == 0) &&
  e.base.toNat % objUnit e.fmt == 0

/-- An entry that the device holds (R126). -/
def heldObj (s : State) (c : CtxKey) (tab : BitVec 32) (idx : Nat) : Option ObjEntry :=
  match s.objs.find? (fun x => x.1 == c && x.2.1 == tab && x.2.2.index == idx) with
  | some x => some x.2.2
  | none => none

/-- Checks 1 to 5 of R125 on an object index for a use; `error` holds the kind of the fault. -/
def objCheck (s : State) (c : CtxKey) (xl : List (BitVec 32)) (idx : Nat) (use : ObjEntry → Bool) : Except Nat ObjEntry :=
  let tab := xl.getD 2 0#32
  let go := fun (e : ObjEntry) =>
    if e.owner == xlCtxid xl && use e && objFormed e then .ok e else .error 5
  if bitsOf (xl.getD 3 0#32).toNat 16 0 ≤ idx then .error 5
  else
    match heldObj s c tab idx with
    | some e => go e
    | none =>
      let (b, size) := fnWindow s c.fn
      let o := bitsOf tab.toNat 27 0 * 4096 + 64 * idx
      if size < o + 64 then .error 5
      else if poisoned s (b + o) then .error 6
      else
        let n := readNat s.mem (b + o) 64
        if objValid n then go (objEntryOf n idx) else .error 5

/-- The device holds an entry that it has read. -/
def State.holdObj (s : State) (c : CtxKey) (xl : List (BitVec 32)) (e : ObjEntry) : State :=
  let tab := xl.getD 2 0#32
  if (heldObj s c tab e.index).isSome then s else { s with objs := s.objs ++ [(c, tab, e)] }

/-! ### The copy descriptor (R166) -/

/-- A copy descriptor from its thirteen words. -/
def copyDesc (w : Nat → Nat) : CopyDesc :=
  { org := (List.range 5).map w, tex := (List.range 5).map (fun i => w (5 + i)), spoff := w 10, pitch := w 11, scoff := w 12 }

/-- The tile has no scale bytes. -/
def CopyDesc.noScale (d : CopyDesc) : Bool := d.scoff == 0xFFFFFFFF

/-- Bytes of one tile row. -/
def tileRow (d : CopyDesc) (t : BitVec 4) : Nat :=
  let n := d.tex.getD 0 0
  if tyIn t packed4 then n / 2 else n * elemSize t

/-- Bytes from one tile row to the next. -/
def tilePitch (d : CopyDesc) (t : BitVec 4) : Nat := if d.pitch == 0 then (tileRow d t + 15) / 16 * 16 else d.pitch

/-- The rows of a tile. -/
def tileRows (d : CopyDesc) (e : ObjEntry) : Nat := ((List.range 5).filter (fun k => 1 ≤ k && k < e.ndim)).foldl (fun a k => a * d.tex.getD k 0) 1

/-- The scale bytes of a tile row. -/
def tileScales (d : CopyDesc) : Nat := (d.tex.getD 0 0 + 31) / 32

/-- The descriptor rules of R166 apart from SCALE. -/
def descOk (d : CopyDesc) (e : ObjEntry) (t : BitVec 4) : Bool :=
  let four := tyIn t packed4
  let org0 := d.org.getD 0 0
  let tex0 := d.tex.getD 0 0
  (List.range 5).all (fun k =>
    if k < e.ndim then d.tex.getD k 0 != 0 else d.org.getD k 0 == 0 && d.tex.getD k 0 == 0) &&
  d.spoff % (if four then 32 else 16) == 0 &&
  (d.pitch == 0 || (d.pitch % 16 == 0 && decide (tileRow d t ≤ d.pitch))) &&
  (!four || (org0 % 64 == 0 && tex0 % 64 == 0)) &&
  (d.noScale || (org0 % 32 == 0 && (tex0 % 32 == 0 || decide (e.ext.getD 0 0 ≤ org0 + tex0))))

/-- Every element of the tile lies within the extents (R125, check 7). -/
def tileInside (d : CopyDesc) (e : ObjEntry) : Bool :=
  (List.range 5).all (fun k => decide (e.ndim ≤ k) || decide (d.org.getD k 0 + d.tex.getD k 0 ≤ e.ext.getD k 0))

/-- The tile and its scale bytes lie in an allocation of `n` bytes. -/
def tileFits (d : CopyDesc) (e : ObjEntry) (t : BitVec 4) (n : Nat) : Bool :=
  let r := tileRows d e
  decide (d.spoff + (r - 1) * tilePitch d t + tileRow d t ≤ n) && (d.noScale || decide (d.scoff + r * tileScales d ≤ n))

/-- Checks 2 to 6 of R168: a trap code, or the object fault. -/
inductive TileBad where
  | operand | object | bounds
  deriving DecidableEq, Repr

def tileCheck (d : CopyDesc) (e : ObjEntry) (t : BitVec 4) (pad : Bool) (n : Nat) : Option TileBad :=
  if !descOk d e t then some .operand
  else if !d.noScale && e.scale == 0#64 then some .object
  else if e.fmt != t then some .object
  else if !pad && !tileInside d e then some .object
  else if !tileFits d e t n then some .bounds
  else none

/-- The element and scale bytes of a tile (R447). -/
def tileBytes (d : CopyDesc) (e : ObjEntry) (t : BitVec 4) : Nat :=
  tileRows d e * (tileRow d t + (if d.noScale then 0 else tileScales d))

/-! ### The rows of a tile (R124, R167) -/

/-- The tile coordinates of dimensions 1 to 4 of row `r`. -/
def tileCoords (d : CopyDesc) (e : ObjEntry) (r : Nat) : List Nat :=
  ((List.range 4).foldl (fun (a : List Nat × Nat) k =>
    let n := if k + 1 < e.ndim then d.tex.getD (k + 1) 1 else 1
    (a.1 ++ [a.2 % n], a.2 / n)) ([], r)).1

/-- The object coordinates of dimensions 1 to 4 of row `r`. -/
def rowCoords (d : CopyDesc) (e : ObjEntry) (r : Nat) : List Nat :=
  (tileCoords d e r).zipIdx.map (fun (t, k) => if k + 1 < e.ndim then d.org.getD (k + 1) 0 + t else 0)

/-- A row lies within the extents of dimensions 1 to 4. -/
def rowInside (e : ObjEntry) (g : List Nat) : Bool :=
  g.zipIdx.all (fun (x, k) => decide (e.ndim ≤ k + 1) || decide (x < e.ext.getD (k + 1) 0))

/-- The address of the first element of a row of an object (R124). -/
def rowAddr (e : ObjEntry) (g : List Nat) : Nat :=
  (e.base.toNat + (g.zipIdx.map (fun (x, k) => x * e.str.getD k 0)).sum) % 2 ^ 64

/-- The linear index of a row of an object (R123). -/
def rowLinear (e : ObjEntry) (g : List Nat) : Nat :=
  (g.zipIdx.foldr (fun (x, k) a => x + (if k + 1 < e.ndim then e.ext.getD (k + 1) 0 else 1) * a) 0)

/-- The bits of each byte of a run of `n` elements from ORG0 that hold elements of which the first `inn` lie within
the extents: 255, 15 or 0. The partner nibble of a .q4 row of odd length lies beyond the extents and is not moved, as R167 gives
code 0 there; DESIGN CHOICE beside R53 (log entry 51). -/
def elemBits (t : BitVec 4) (n inn : Nat) : List Nat :=
  if tyIn t packed4 then
    (List.range (n / 2)).map (fun b =>
      let i := 64 * (b / 32) + elemAt (2 * (b % 32))
      if i + 1 < inn then 255 else if i < inn then 15 else 0)
  else (List.range (n * elemSize t)).map (fun b => if b < inn * elemSize t then 255 else 0)

/-- The byte offset of element i0 within its row, at a group boundary for 4-bit types (R124). -/
def elemOff (t : BitVec 4) (i0 : Nat) : Nat := if tyIn t packed4 then 32 * (i0 / 64) else i0 * elemSize t

/-- One row of bytes of a tile copy: where it lies in memory and in the scratchpad, and which bits move. -/
structure MoveRow where
  va : Nat
  sp : Nat
  bits : List Nat
  deriving DecidableEq, Repr

/-- Row `r` of a tile: its elements. -/
def tileMove (d : CopyDesc) (e : ObjEntry) (t : BitVec 4) (r : Nat) : MoveRow :=
  let g := rowCoords d e r
  let org0 := d.org.getD 0 0
  let tex0 := d.tex.getD 0 0
  let inn := if rowInside e g then min tex0 (e.ext.getD 0 0 - org0) else 0
  { va := (rowAddr e g + elemOff t org0) % 2 ^ 64, sp := d.spoff + r * tilePitch d t, bits := elemBits t tex0 inn }

/-- Row `r` of a tile: its scale bytes; a block moves when it holds an element within the extents. -/
def scaleMove (d : CopyDesc) (e : ObjEntry) (r : Nat) : MoveRow :=
  let g := rowCoords d e r
  let org0 := d.org.getD 0 0
  let inn := if rowInside e g then min (d.tex.getD 0 0) (e.ext.getD 0 0 - org0) else 0
  { va := (e.scale.toNat + rowLinear e g * ((e.ext.getD 0 0 + 31) / 32) + org0 / 32) % 2 ^ 64,
    sp := d.scoff + r * tileScales d,
    bits := (List.range (tileScales d)).map (fun b => if 32 * b < inn then 255 else 0) }

/-- The rows that a tile copy moves, each row's elements before its scale bytes. -/
def tileMoves (d : CopyDesc) (e : ObjEntry) (t : BitVec 4) : List MoveRow :=
  (List.range (tileRows d e)).map (tileMove d e t) ++
  (if d.noScale then [] else (List.range (tileRows d e)).map (scaleMove d e))

/-- The runs of bytes of a row that some bit of moves. -/
def moveRuns (m : MoveRow) : List (Nat × Nat) :=
  m.bits.zipIdx.foldl (fun (a : List (Nat × Nat)) (b, k) =>
    if b == 0 then a
    else
      match a.getLast? with
      | some (o, n) => if o + n == k then a.dropLast ++ [(o, n + 1)] else a ++ [(k, 1)]
      | none => [(k, 1)]) []

/-! ### What stops a runner -/

/-- Why an access of a runner cannot be made: a fault of R112, a cause of R181, or lines to be read first. -/
inductive RStop where
  | fault (x : AccFault)
  | cause (c : BitVec 8)
  | need (lines : List (Addr × Place))
  deriving DecidableEq, Repr

/-- The agent of a runner's access: its command, its workgroup and its translation. -/
structure RunCtx where
  cid : Nat
  wid : Nat
  ctx : CtxKey
  xl : List (BitVec 32)
  held : List (Addr × Byte)
  deriving DecidableEq, Repr

/-- Who translates for a command: its group, and for the packet cores a unit without a TLB (R110). -/
def runWalker (s : State) (cid : Nat) : Walker :=
  match tget s.cmds cid with
  | some c => .group c.grp
  | none => .device

/-- The agent that performs a command. -/
def runCtx (s : State) (cid : Nat) : Option RunCtx :=
  match tget s.cmds cid with
  | none => none
  | some c =>
    match tget s.wgs c.wg with
    | none => none
    | some w => some { cid := cid, wid := c.wg, ctx := w.ctx, xl := xlOf s w, held := c.held }

/-- The lines of host memory and of peers that a command is reading. -/
def gatherOf (s : State) (cid : Nat) : Option (Nat × Flight) :=
  s.flights.find? (fun (_, fl) => fl.cmd == some cid && fl.kind == .gather)

/-- A line that a command has read. -/
def gathered (s : State) (cid : Nat) (p : Place) : Option (BitVec 512) :=
  match gatherOf s cid with
  | none => none
  | some (_, fl) =>
    match fl.lines.find? (fun ln => ln.place == p.line) with
    | some ln => ln.data
    | none => none

/-- The place of one piece of a line, or the kind of its fault; a read fails on poison, and a sum of 2^64 or more is no canonical
address (R104). -/
def runPlace (s : State) (r : RunCtx) (acc : Acc) (va : Nat) : Except Nat Place :=
  if 2 ^ 64 ≤ va then .error 3
  else
    match translateBy s (runWalker s r.cid) r.ctx r.xl false acc (BitVec.ofNat 64 va) with
    | .error k => .error k
    | .ok (.dev d k) => if acc != .write && poisoned s d then .error 6 else .ok (.dev d k)
    | .ok p => .ok p

/-- The lowest of some addresses that fail on the page of `va`, itself among them (R116). -/
def lowestBad (s : State) (r : RunCtx) (acc : Acc) (va k : Nat) (vas : List Nat) : Nat :=
  (vas.filter (fun v => v / 4096 == va / 4096 && (match runPlace s r acc v with | .error j => j == k | .ok _ => false))).foldl min va

/-- The pieces of a list of ranges with their places. -/
def runPlaces (s : State) (r : RunCtx) (acc : Acc) (obj : Nat) (rs : List (Nat × Nat)) :
    Except RStop (List (Nat × Nat × Place)) :=
  let xs := (rs.map (fun x => linePieces (x.2 + 1) x.1 x.2)).flatten
  xs.foldlM (fun (a : List (Nat × Nat × Place)) (va, n) =>
    match runPlace s r acc va with
    | .ok p => .ok (a ++ [(va, n, p)])
    | .error k => .error (RStop.fault
      { kind := k, va := BitVec.ofNat 64 (lowestBad s r acc va k (xs.map (·.1))), acc := accCode acc, obj := obj, lane := 0,
        replayable := xlRply r.xl && k == 0 })) []

/-- The group's TLB holds the translations of what its runner has accessed (R110). -/
def State.holdRun (s : State) (r : RunCtx) (acc : Acc) (rs : List (Nat × Nat)) : State :=
  let pages := ((rs.map (fun x => linePieces (x.2 + 1) x.1 x.2)).flatten.map (fun x => x.1 % 2 ^ 64 / 4096 * 4096)).eraseDups
  pages.foldl (fun (s : State) va => s.holdBy (runWalker s r.cid) acc r.ctx r.xl (BitVec.ofNat 64 va)) s

/-- A runner's own held writes cover what it reads (R303). -/
def overlay (held : List (Addr × Byte)) (va : Nat) (bs : List Byte) : List Byte :=
  if held.isEmpty then bs
  else bs.zipIdx.map (fun (b, i) =>
    match held.reverse.find? (fun x => x.1 == BitVec.ofNat 64 (va + i)) with
    | some x => x.2
    | none => b)

/-- A gathered line has failed: the fault is kept for what waits for it. -/
def gatherFault (s : State) (cid : Nat) : Option AccFault :=
  match gatherOf s cid with
  | some (_, fl) => fl.fault
  | none => none

/-- Read ranges of memory; each range gives its bytes. Lines of host memory and of peers that are not at hand are
asked for first. -/
def runRead (s : State) (r : RunCtx) (obj : Nat) (rs : List (Nat × Nat)) : Except RStop (List (List Byte)) :=
  match runPlaces s r .read obj rs with
  | .error e => .error e
  | .ok ps =>
    let miss := ps.filterMap (fun (va, _, p) =>
      if p.remote && (gathered s r.cid p).isNone then some (BitVec.ofNat 64 va &&& ~~~ 63#64, p.line) else none)
    match gatherFault s r.cid with
    | some x => .error (.fault x)
    | none =>
    if !miss.isEmpty then .error (.need miss.eraseDups)
    else
      rs.foldlM (fun (a : List (List Byte)) x =>
        match runPlaces s r .read obj [x] with
        | .error e => .error e
        | .ok qs => .ok (a ++ [(qs.map (fun (va, n, p) =>
            overlay r.held va (match p with
              | .dev d _ => readBytes s.mem d n
              | p =>
                let l := (gathered s r.cid p).getD 0#512
                (List.range n).map (fun i => lineByte l (p.off + i))))).flatten])) []

/-- Join a piece of a write to the lines of an instruction. -/
def joinPiece (ls : List StoreLine) (va : Nat) (p : Place) (bs : List Byte) : List StoreLine :=
  let m := byteMask p.off bs.length
  let d := bytesLine p.off bs
  if ls.any (fun y => y.place == p.line) then
    ls.map (fun y => if y.place == p.line then { y with mask := y.mask ||| m, data := mergeLine y.data d m } else y)
  else ls ++ [{ va := BitVec.ofNat 64 va &&& ~~~ 63#64, place := p.line, mask := m, data := d }]

/-- The first byte of a mask. -/
def firstByte (m : BitVec 64) : Nat := ((List.range 64).find? (fun i => m.getLsbD i)).getD 0

/-- The lines of an instruction's writes, later writes over earlier ones; a part of a poisoned line fails (R102). -/
def runLines (s : State) (r : RunCtx) (obj : Nat) (ws : List (Nat × List Byte)) : Except RStop (List StoreLine) :=
  let all : Except RStop (List StoreLine) := ws.foldlM (fun (a : List StoreLine) (va, bs) =>
    match runPlaces s r .write obj [(va, bs.length)] with
    | .error e => .error e
    | .ok ps => .ok ((ps.foldl (fun (b : List StoreLine × List Byte) (v, n, p) =>
        (joinPiece b.1 v p (b.2.take n), b.2.drop n)) (a, bs)).1)) []
  match all with
  | .error e => .error e
  | .ok ls =>
    match ls.find? (fun ln => match ln.place with | .dev d _ => !writeLands s d ln.mask | _ => false) with
    | some ln => .error (.fault { kind := 6, va := ln.va + BitVec.ofNat 64 (firstByte ln.mask), acc := 1, obj := obj, lane := 0, replayable := false })
    | none => .ok ls

/-- A flight of a runner's command: `core` is its group's number on the fabric (R310); the
packet cores and the policy core take one of their own. -/
def runFlight (s : State) (r : RunCtx) (kind : FKind) (lines : List LineReq) : Flight :=
  let grp := match tget s.cmds r.cid with
    | some c => c.grp
    | none => 1022
  { kind := kind, fib := 2 ^ 40 + r.cid, cmd := some r.cid, ctx := r.ctx, core := 1024 + grp, pc := 0#64, len := 0,
    mask := 1#32, dst := [], scope := 0, ord := 0, lanes := [], lines := lines, stage := .request, done := 0#32,
    flags := 0#5, since := s.tick, retry := 0, split := false, fault := none, waiters := 0 }

/-- The lines that a command needs are asked for. -/
def State.gather (s : State) (r : RunCtx) (need : List (Addr × Place)) : State :=
  let new : List LineReq := need.map (fun (va, p) => { va := va, place := p, ownMask := 0#64, own := 0#512, data := none })
  match gatherOf s r.cid with
  | some (id, fl) => (s.setFlight id { fl with lines := fl.lines ++ new }).sendLines id fl.core r.ctx new
  | none =>
    let (id, s) := s.newId
    let fl := runFlight s r .gather new
    (s.setFlight id fl).sendLines id fl.core r.ctx new

/-- What a command has gathered is used up. -/
def State.dropGather (s : State) (cid : Nat) : State :=
  { s with flights := s.flights.filter (fun (_, fl) => !(fl.cmd == some cid && fl.kind == .gather)) }

/-- One line of a runner's write is performed (R179); one that a poisoned line no longer takes is lost with a record. -/
def State.putLine (s : State) (r : RunCtx) (ln : StoreLine) : State :=
  match ln.place with
  | .dev d _ =>
    if writeLands s d ln.mask then s.asWriter (cmdLids s r.cid) (fun s => s.sliceWrite d ln.data ln.mask)
    else s.errorRecord (dieOf d) 0x22 1 ln.va.toNat 0 0 0#32 (some r.ctx) 0#8
  | .sys a => s.asWriter (cmdLids s r.cid) (fun s => s.hostWrites a ln.mask ln.data)
  | .peer p o => s.sendPeer (runFlight s r .putLines []).core p o r.ctx (.write ln.mask ln.data none)

/-- Lines at peers stay in flight until they are acknowledged. -/
def peerLines (ls : List StoreLine) : List LineReq :=
  ls.filterMap (fun ln => match ln.place with
    | .peer _ _ => some { va := ln.va, place := ln.place, ownMask := 0#64, own := 0#512, data := none }
    | _ => none)

/-- Lines of device memory stay in flight until each has been performed. -/
def localLines (ls : List StoreLine) : List LineReq :=
  ls.map (fun ln => { va := ln.va, place := ln.place, ownMask := ln.mask, own := ln.data, data := none })

/-- Lines in flight, if there are any. -/
def State.flyLines (s : State) (r : RunCtx) (ls : List LineReq) : State :=
  if ls.isEmpty then s
  else
    let (id, s) := s.newId
    s.setFlight id (runFlight s r .putLines ls)

/-- The lines are performed at once: those of one rank's slot, whose arrival word rises after them (R178). -/
def State.performNow (s : State) (r : RunCtx) (ls : List StoreLine) : State :=
  (ls.foldl (fun (s : State) ln => s.putLine r ln) s).flyLines r (peerLines ls)

/-- The line lies in this device's memory. -/
def StoreLine.local (ln : StoreLine) : Bool := match ln.place with | .dev _ _ => true | _ => false

/-- The lines are performed: a single one of device memory at once, several each in its own time (R179). -/
def State.performLines (s : State) (r : RunCtx) (ls : List StoreLine) : State :=
  let here := ls.filter StoreLine.local
  if here.length ≤ 1 then s.performNow r ls
  else (s.performNow r (ls.filter (fun ln => !ln.local))).flyLines r (localLines here)

/-- Line `n` of a runner's write is performed at its home slice (R179). -/
def State.putOne (s : State) (id n : Nat) : State :=
  match tget s.flights id with
  | none => s
  | some fl =>
    match fl.kind, fl.lines[n]? with
    | .putLines, some ln =>
      match ln.place, ln.data, fl.cmd with
      | .dev _ _, none, some cid =>
        let r : RunCtx := { cid := cid, wid := 0, ctx := fl.ctx, xl := [], held := [] }
        let s := s.putLine r { va := ln.va, place := ln.place, mask := ln.ownMask, data := ln.own }
        (s.fillLine id n 0#512).flightArrived id
      | _, _, _ => s
    | _, _ => s

/-- The bytes of a line that a mask names. -/
def lineBytes (ln : StoreLine) : List (Addr × Byte) :=
  (List.range 64).filterMap (fun k =>
    if ln.mask.getLsbD k then some (ln.va + BitVec.ofNat 64 k, lineByte ln.data k) else none)

/-- The writes of an instruction or copy: performed, or held in redundant mode (R303). -/
def State.runWrite (s : State) (r : RunCtx) (ls : List StoreLine) : State :=
  if (redKey s r.wid).isSome then
    let core := match tget s.wgs r.wid with
      | some w => w.core
      | none => 0
    (s.modCmd r.cid (fun c => { c with held := c.held ++ (ls.map lineBytes).flatten })).checkOverflow core r.wid
  else (s.holdRun r .write (ls.map (fun ln => (ln.va.toNat, 1)))).performLines r ls

/-- A command has lines of device memory still to be performed. -/
def putsLocal (s : State) (cid : Nat) : Bool :=
  s.flights.any (fun (_, fl) => fl.cmd == some cid && fl.kind == .putLines &&
    fl.lines.any (fun ln => ln.data.isNone && !ln.place.remote))

/-- A command has writes still to be performed. -/
def putsPending (s : State) (cid : Nat) : Bool :=
  s.flights.any (fun (_, fl) => fl.cmd == some cid && fl.kind == .putLines)

/-- A command is reading lines that have not all arrived. -/
def gatherPending (s : State) (cid : Nat) : Bool :=
  match gatherOf s cid with
  | some (_, fl) => !linesReady fl
  | none => false

/-- A command stops: on a cause, on a fault, frozen, or to wait for lines (R114, R180). -/
def State.runStop (s : State) (cid : Nat) (e : RStop) : State :=
  match runCtx s cid with
  | none => s
  | some r =>
    match e with
    | .cause c => s.cmdFault cid c
    | .need ls => s.gather r ls
    | .fault x =>
      if !x.replayable then s.runnerAccessFault cid x
      else
        match tget s.cmds cid with
        | none => s
        | some c =>
          let s := (s.dropGather cid).postFault r.ctx
            (faultRecord s (xlAsid r.xl) true (runnerReq c.grp c.runner) [x] true)
          match tget s.runners cid with
          | some _ => s.modRunner cid (fun g => { g with frozen := [x] })
          | none => s.modCmd cid (fun c => { c with stage := .frozen x })

/-! ### The tile copy (R167) -/

/-- A byte with some of its bits replaced. -/
def mixByte (bits : Nat) (old new : Byte) : Byte :=
  let m : Byte := BitVec.ofNat 8 bits
  (old &&& ~~~ m) ||| (new &&& m)

/-- The ranges of memory that a row's bytes take. -/
def moveRanges (m : MoveRow) : List (Nat × Nat) := (moveRuns m).map (fun (o, n) => (m.va + o, n))

/-- The bytes of a row by place, from the bytes of its runs. -/
def spreadRuns (runs : List (Nat × Nat)) (bs : List (List Byte)) (n : Nat) : List Byte :=
  (List.range n).map (fun k =>
    match (runs.zip bs).find? (fun x => decide (x.1.1 ≤ k) && decide (k < x.1.1 + x.1.2)) with
    | some x => x.2.getD (k - x.1.1) 0#8
    | none => 0#8)

/-- Move rows from memory to the scratchpad; bits outside the extents become 0 under `pad`. -/
def State.loadRows (s : State) (r : RunCtx) (obj : Nat) (pad : Bool) (ms : List MoveRow) : Except RStop State :=
  let rs := (ms.map moveRanges).flatten
  match runRead s r obj rs with
  | .error e => .error e
  | .ok bss => .ok ((ms.foldl (fun (a : State × List (List Byte)) m =>
      let runs := moveRuns m
      let data := spreadRuns runs (a.2.take runs.length) m.bits.length
      let out := (data.zip m.bits).map (fun (b, k) => mixByte k 0#8 b)
      let s := if pad then a.1.spadEngine r.wid m.sp out
        else runs.foldl (fun (s : State) (o, n) => s.spadEngine r.wid (m.sp + o) ((out.drop o).take n)) a.1
      (s, a.2.drop runs.length)) (s.holdRun r .read rs, bss)).1)

/-- The writes of rows from the scratchpad to memory. -/
def storeRows (s : State) (r : RunCtx) (obj : Nat) (spad : Bytes) (ms : List MoveRow) :
    Except RStop (List (Nat × List Byte)) :=
  let part := ms.map (fun m => m.bits.zipIdx.filterMap (fun (b, k) => if b == 15 then some (m.va + k, 1) else none))
  match runRead s r obj part.flatten with
  | .error e => .error e
  | .ok _ =>
    ms.foldlM (fun (a : List (Nat × List Byte)) m =>
      let old := fun (k : Nat) =>
        match runRead s r obj [(m.va + k, 1)] with
        | .ok ((b :: _) :: _) => b
        | _ => 0#8
      let bs := readBytes spad m.sp m.bits.length
      Except.ok (a ++ (moveRuns m).map (fun (o, n) =>
        (m.va + o, (List.range n).map (fun i =>
          let b := bs.getD (o + i) 0#8
          if m.bits.getD (o + i) 0 == 255 then b else mixByte 15 (old (o + i)) b))))) []

/-- A read of the scratchpad by a runner meets poison (R187). -/
def spadPoisoned (w : Workgroup) (off n : Nat) : Bool := n != 0 && spadBad w off n

/-- Rows leave the scratchpad for memory. -/
def State.saveRows (s : State) (r : RunCtx) (obj : Nat) (ms : List MoveRow) : Except RStop State :=
  match tget s.wgs r.wid with
  | none => .ok s
  | some w =>
    if ms.any (fun m => (moveRuns m).any (fun (o, n) => spadPoisoned w (m.sp + o) n)) then .error (.cause 0x16#8)
    else
      match storeRows s r obj w.spad ms with
      | .error e => .error e
      | .ok ws =>
        match runLines s r obj ws with
        | .error e => .error e
        | .ok ls =>
          .ok ((s.spadMend r.wid ((ms.map (fun m => (moveRuns m).map (fun (o, n) => (m.sp + o, n)))).flatten)).runWrite r ls)

/-- The tile copy of R167, once its descriptor has been checked. -/
def State.tileCopy (s : State) (r : RunCtx) (d : CopyDesc) (e : ObjEntry) (t : BitVec 4) (st pad : Bool) : Except RStop State :=
  let ms := tileMoves d e t
  if st then s.saveRows r e.index ms else s.loadRows r e.index pad ms

end Sys2Proof.Machine
end

