-- ==== Sys2Proof/Machine/Async.lean ====
section
/-!
DEFINITION. The fibre's side of the runners: CPY, CPYX, RUNS and COLL (R162, R168 to R173, R177), their checks, the
handle each takes and the queue of the group that serves the core (R154, R155).
-/
namespace Sys2Proof.Machine

/-! ### Groups and queues (R19, R154, R155) -/

/-- A group as it is; one that is not listed has eight active runners and serves itself. -/
def groupRec (s : State) (g : Nat) : Group := (tget s.groups g).getD { active := List.range 8, servedBy := g }

/-- The group that serves a core: three clusters to a group, and then the group it is merged with. -/
def groupOf (s : State) (core : Nat) : Nat := (groupRec s (core / 256 * 4 + core / 16 % 16 / 3)).servedBy

/-- The active runners of a group (R155). -/
def groupActive (s : State) (g : Nat) : Nat := (groupRec s g).active.length

/-- The command is a runner program. -/
def Cmd.isProgram (c : Cmd) : Bool :=
  match c.kind with
  | .program _ _ _ => true
  | _ => false

/-- The commands queued in a group, and the programs among them. -/
def queuedCmds (s : State) (g : Nat) : List (Nat × Cmd) := s.cmds.filter (fun (_, c) => c.grp == g && c.stage == .queued)

/-- The queue has no room for a command (R154, R155). -/
def queueFull (s : State) (g : Nat) (program : Bool) : Bool :=
  let q := queuedCmds s g
  decide (64 ≤ q.length) || (program && decide (48 ≤ (q.filter (fun (_, c) => c.isProgram)).length))

/-! ### Handles (R162) -/

/-- The lowest free handle. -/
def freeHandle (w : Workgroup) : Option Nat := w.handles.findIdx? (fun h => h.st == .free)

/-- The word that stands for no handle (R162), and for a program that cannot start (R173). -/
def noHandle : Word := 0x80000000#32
def noProgram : Word := 0x80000001#32

/-- The command writes its word and its fibre runs on. -/
def State.asyncDone (s : State) (i : FIn) (d : BitVec 6) (w : Word) (energy : Nat) : State :=
  (s.writeReg i.fid d.toNat i.m (LaneVec.splat w)).modFib i.fid (fun f => addEnergy (advance f i.m 8) energy)

/-- A command enters its group's queue under a handle. -/
def State.enqueueCmd (s : State) (wid : Nat) (w : Workgroup) (kind : CmdKind) (h : Nat) : Nat × State :=
  let (id, s) := s.newId
  (id, s.setCmd id
    { kind := kind, stage := .queued, grp := groupOf s w.core, wg := wid, handle := h, sent := 0, cancelled := false,
      sgc := none, held := [] })

/-- A command with a handle of its own: no handle, a full queue, or its start (R154, R162). -/
def State.startCmd (s : State) (i : FIn) (w : Workgroup) (d : BitVec 6) (y : Bool) (latch : Bool) (kind : CmdKind)
    (program : Bool) (energy : Nat) : State :=
  match freeHandle w with
  | none => s.asyncDone i d noHandle energy
  | some h =>
    if queueFull s (groupOf s w.core) program then s.stallKept i y latch
    else
      let (id, s) := s.enqueueCmd i.f.wg w kind h
      (s.setHandle i.f.wg h { st := .filling, cause := 0#8, cmd := some id, owner := none }).asyncDone i d
        (BitVec.ofNat 32 h) energy

/-! ### Traps of the checks (R168) -/

/-- The object fault, or poison met in the table (R125, R387). -/
def objTrap (kind idx : Nat) (m : LaneMask) : Trap := trapAddr (0x10 + kind) m (if kind == 5 then BitVec.ofNat 64 idx else 0#64)

/-- An object index of a fibre's instruction fails: a poisoned entry, kind 6, is recorded (R115, R116), with no address of
its own (log entry 51). -/
def State.objFail (s : State) (i : FIn) (w : Workgroup) (kind idx : Nat) : State :=
  let s := if kind == 5 then s
    else s.postFault w.ctx { tick := s.tick, va := 0#64, obj := idx, asid := xlAsid (xlOf s w), kind := kind, acc := 0,
                             run := false, req := i.fid, lanes := i.m, rpl := false }
  s.raise i.fid (objTrap kind idx i.m)

/-- The trap of a tile check. -/
def tileTrap (b : TileBad) (idx : Nat) (m : LaneMask) : Trap :=
  match b with
  | .operand => trapOf 0x02 m
  | .object => objTrap 5 idx m
  | .bounds => trapOf 0x32 m

/-! ### Follow-on commands (R172) -/

/-- The instruction of a follow-on command, or none where its fields fail. -/
def followInstr (word : BitVec 64) : Option (Nat × LForm) :=
  let used := fun (op : Nat) (f : LForm) (b : Bool) (c : Bool) =>
    if !f.k && !f.y && f.a == 0#7 && f.b == (if b then 1#7 else 0#7) && f.c == (if c then 2#7 else 0#7) then some (op, f)
    else none
  match decode (leBytes word.toNat 8) with
  | .ok (.mld f, _) => used Mx.mld f (!Mx.float f) true
  | .ok (.mxm f, _) => used Mx.mxm f (!Mx.float f) true
  | .ok (.mhad f, _) => used Mx.mhad f true true
  | .ok (.mz f, _) => used Mx.mz f false false
  | _ => none

/-- A matrix command of a runner, each used source reading its word in every lane. -/
def followCmd (op : Nat) (f : LForm) (a b c : Word) (wid : Nat) : MxCmd :=
  { op := op, f := f, a := LaneVec.splat a, a2 := LaneVec.splat 0#32, b := LaneVec.splat b, c := LaneVec.splat c,
    mask := BitVec.allOnes 32, wg := wid, fib := none, cmd := none, handle := none, swap := false, departed := false,
    rows := 0, pages := [], seen := [] }

/-- The checks of R172 at issue; an answer is the trap that the failed check names. -/
def followTrap (word : BitVec 64) (a b c : Word) (w : Workgroup) (m : LaneMask) : Option Trap :=
  match followInstr word with
  | none => some (trapOf 0x01 m)
  | some (op, f) =>
    let x := followCmd op f a b c 0
    if !x.operandsOk then some (trapOf 0x02 m)
    else
      match x.grantCause w with
      | some cause => some (trapCause 0x52 cause m)
      | none => if !x.extentOk w then some (trapOf 0x32 m) else none

/-! ### CPY and CPYX (R168 to R171) -/

/-- Mode bits of CPY and CPYX. -/
def Cpy.st (f : LForm) : Bool := f.mode.getLsbD 0
def Cpy.pad (f : LForm) : Bool := f.mode.getLsbD 1
def Cpy.wg (f : LForm) : Bool := f.mode.getLsbD 2

/-- A collective with no handle, or whose handle no longer belongs to it, is closed once every slot has joined. -/
def collClosed (s : State) (w : Workgroup) (c : Collective) : Bool :=
  c.pending.isEmpty && (c.handle.isNone || c.cancelled) && w.slots.all (fun x => c.joined.contains x || slotExited s x) &&
  (match c.handle with
   | some h => (handleOf w h).st != .draining
   | none => true)

/-- Collectives that are over are forgotten. -/
def State.pruneColls (s : State) (wid : Nat) : State :=
  match tget s.wgs wid with
  | none => s
  | some w => s.setWg wid { w with colls := w.colls.filter (fun c => !collClosed s w c) }

/-- The number of a slot within its workgroup. -/
def slotNumber (w : Workgroup) (slot : Nat) : Nat := w.slots.idxOf slot

/-- The follow-on command of a collective is that of the lowest-numbered slot that has supplied one (R170). -/
def lowerFollow (old new : Option (Nat × BitVec 64 × Word × Word × Word)) : Option (Nat × BitVec 64 × Word × Word × Word) :=
  match old, new with
  | none, x => x
  | x, none => x
  | some a, some b => if b.1 < a.1 then some b else some a

/-- Slice k of a slot joins its collective (R170, R171): `h` is the handle, if one was found. -/
def State.joinColl (s : State) (i : FIn) (w : Workgroup) (d : BitVec 6) (k h : Nat) (kind : CmdKind) (cancelled : Bool)
    (follow : Option (Nat × BitVec 64 × Word × Word × Word)) (energy : Nat) : State :=
  let s := s.modSlot i.f.slot (fun x => { x with copies := k + 1 })
  let join := fun (s : State) (cs : List Nat) => s.modWg i.f.wg (fun w => { w with colls := w.colls.map (fun (c : Collective) =>
    if c.k == k then { c with joined := c.joined ++ [i.f.slot], pending := c.pending ++ cs, follow := lowerFollow c.follow follow }
    else c) })
  if cancelled then (join s []).asyncDone i d (BitVec.ofNat 32 h) energy
  else
    let (id, s) := s.enqueueCmd i.f.wg w kind h
    let s := if (handleOf w h).cmd.isNone || (handleOf w h).st != .filling then
        s.setHandle i.f.wg h { st := .filling, cause := 0#8, cmd := some id, owner := none }
      else s
    (join s [id]).asyncDone i d (BitVec.ofNat 32 h) energy

/-- A slice of a collective copy (R170, R171). -/
def State.startSlice (s : State) (i : FIn) (d : BitVec 6) (y latch : Bool) (kind : Nat → CmdKind)
    (follow : Option (BitVec 64 × Word × Word × Word)) (energy : Nat) : State :=
  let s := s.pruneColls i.f.wg
  match tget s.wgs i.f.wg, tget s.slots i.f.slot with
  | some w, some x =>
    let k := x.copies
    let fo := match follow with
      | some (a, b) => some (slotNumber w i.f.slot, a, b)
      | none => none
    let full := queueFull s (groupOf s w.core) false
    let none_ := fun (s : State) =>
      (s.modSlot i.f.slot (fun x => { x with copies := k + 1 })).asyncDone i d noHandle energy
    match w.colls.find? (fun c => c.k == k) with
    | some c =>
      match c.handle with
      | none =>
        (none_ s).modWg i.f.wg (fun w => { w with colls := w.colls.map (fun (c : Collective) =>
          if c.k == k then { c with joined := c.joined ++ [i.f.slot] } else c) })
      | some h =>
        if !c.cancelled && full then s.stallKept i y latch
        else s.joinColl i w d k h (kind k) c.cancelled fo energy
    | none =>
      if 8 ≤ w.colls.length then s.stallKept i y latch
      else
        let h := freeHandle w
        let c : Collective := { k := k, handle := h, joined := [], pending := [], follow := none, cancelled := false }
        match h with
        | none =>
          (none_ s).modWg i.f.wg (fun w => { w with colls := w.colls ++ [{ c with joined := [i.f.slot] }] })
        | some n =>
          if full then s.stallKept i y latch
          else
            (s.modWg i.f.wg (fun w => { w with colls := w.colls ++ [c] })).joinColl i w d k n (kind k)
              false fo energy
  | _, _ => s

/-- CPY and CPYX: `x` for CPYX (R168). -/
def opCopy (x : Bool) (f : LForm) (s : State) : Out :=
  let xs := srcLanes (.sel f.a) Ty.i32 0x1FFF#32 :: (if x then [srcLanes (.sel f.b) Ty.i32 0x1F#32] else [])
  memOp f.y xs [f.d.toNat] (decide (f.a.toNat < 64) && (!x || decide (f.b.toNat < 64))) false s (fun s i =>
    match wgOf s i.f with
    | none => .next s
    | some w =>
      if !Cpy.st f && atomOpen s i.fid then .next (s.stallKept i f.y (anyLatch xs))
      else
      let xl := xlOf s w
      let idx := f.imm.toNat
      let d := copyDesc (fun k => ((i.s 0).lane k).toNat)
      match objCheck s w.ctx xl idx (fun e => if x then e.rd && e.mx else if Cpy.st f then e.wr else e.rd) with
      | .error k => .next (s.objFail i w k idx)
      | .ok e =>
        let s := s.holdObj w.ctx xl e
        match tileCheck d e f.ty (Cpy.pad f) w.scratch with
        | some b => .next (s.raise i.fid (tileTrap b idx i.m))
        | none =>
          let l := fun k => (i.s 1).lane k
          let word : BitVec 64 := l 1 ++ l 0
          match (if x then followTrap word (l 2) (l 3) (l 4) w i.m else none) with
          | some t => .next (s.raise i.fid t)
          | none =>
            let fo := if x then some (word, l 2, l 3, l 4) else none
            let energy := 8 * ((tileBytes d e f.ty + 63) / 64)
            if Cpy.wg f then
              .next (s.startSlice i f.d f.y false (fun k => .copy d e f.ty (Cpy.st f) (Cpy.pad f) none (some k)) fo energy)
            else
              .next (s.startCmd i w f.d f.y false (.copy d e f.ty (Cpy.st f) (Cpy.pad f) fo none) false energy))

def execCpy (f : LForm) (s : State) : Out := opCopy false f s
def execCpyx (f : LForm) (s : State) : Out := opCopy true f s

/-! ### RUNS (R173) -/

/-- A fibre waits for a line of host memory that it reads as code: it stalls, and issues again when the line is
there (R66). -/
def State.fetchLine (s : State) (fid : Nat) (va : Addr) (line : Nat) : State :=
  match tget s.fibs fid with
  | none => s
  | some f =>
    let (id, s) := s.newId
    let ln : LineReq := { va := va, place := .sys line, ownMask := 0#64, own := 0#512, data := none }
    let fl : Flight :=
      { kind := .fetch, fib := fid, cmd := none, ctx := fibCtx s f, core := fibCore fid, pc := va, len := 0, mask := 1#32,
        dst := [], scope := 0, ord := 0, lanes := [], lines := [ln], stage := .request, done := 0#32, flags := 0#5,
        since := s.tick, retry := 0, split := false, fault := none, waiters := 0 }
    let s := ((s.setFlight id fl).send (.read line 64 id)).modFib fid (fun f => enterHold f (.flight id) false s.tick)
    { s with cur := { s.cur with stalled := true } }

/-- The 64 bytes of a program's header as RUNS reads them. -/
inductive HeaderRead where
  | bytes (n : Nat)
  | fault (kind : Nat)
  | sys (line : Nat)
  deriving DecidableEq, Repr

def readHeader (s : State) (w : Workgroup) (a : Addr) : HeaderRead :=
  match translate s w.ctx (xlOf s w) false .read a with
  | .error k => .fault k
  | .ok (.dev d _) => if poisoned s d then .fault 6 else .bytes (readNat s.mem d 64)
  | .ok (.sys h) =>
    match launchOf s w with
    | some l =>
      match tget l.codeSys (lineBase h) with
      | some x => .bytes x.toNat
      | none => .sys (lineBase h)
    | none => .fault 8
  | .ok (.peer _ _) => .fault 4

/-- RUNS: the entry address comes from the lowest active lane, the arguments from every lane. -/
def execRuns (f : LForm) (s : State) : Out :=
  let xs := pairSrcs f.a ++ [srcAll (.sel f.b) Ty.i32]
  memOp f.y xs [f.d.toNat] (addrPairOk (curWindow s) f.a) false s (fun s i =>
    match wgOf s i.f with
    | none => .next s
    | some w =>
      let entry := laneAddrOf i (lowestLane i.m)
      let latch := anyLatch xs
      if atomOpen s i.fid then .next (s.stallKept i f.y latch)
      else if entry.toNat % 64 != 0 then .next (s.asyncDone i f.d noProgram 64)
      else
        let a := entry - 64#64
        match readHeader s w a with
        | .fault k => .next (s.accessFault i.fid i.m [laneFault false (lowestLane i.m) a k 0])
        | .sys line => .next ((s.keepSources i).fetchLine i.fid a line)
        | .bytes n =>
          let det := match launchOf s w with
            | some l => l.lr.det
            | none => false
          if !runnerHeaderOk n det then .next (s.asyncDone i f.d noProgram 64)
          else .next (s.startCmd i w f.d f.y latch (.program entry (headerOf entry n).priv (i.s 2)) true 64))

/-! ### COLL (R177) -/

/-- The elements of the send object that a COLL reads. -/
def collElems (op n rank count : Nat) : Nat :=
  if op == 2 then n * count else if op == 3 && rank != 0 then 0 else count

/-- The sends that a participant makes (R178). -/
def collSends (op n rank : Nat) : Nat := if op == 3 && rank != 0 then 0 else n

def execColl (f : LForm) (s : State) : Out :=
  let xs := [srcLanes (.sel f.a) Ty.i32 0x3F#32]
  memOp f.y xs [f.d.toNat] (decide (f.a.toNat < 64)) false s (fun s i =>
    match wgOf s i.f with
    | none => .next s
    | some w =>
      if atomOpen s i.fid then .next (s.stallKept i f.y (anyLatch xs))
      else
      let xl := xlOf s w
      let idx := f.imm.toNat
      let op := f.mode.toNat
      let l := fun k => ((i.s 0).lane k).toNat
      let grp : Addr := (i.s 0).lane 5 ++ (i.s 0).lane 4
      match objCheck s w.ctx xl idx (fun e => e.rd) with
      | .error k => .next (s.objFail i w k idx)
      | .ok e =>
        let s := s.holdObj w.ctx xl e
        if l 0 < 2 || 256 < l 0 || l 0 ≤ l 1 || l 2 == 0 || 2 ^ 24 < l 2 || grp.toNat % 64 != 0 then
          .next (s.raise i.fid (trapOf 0x02 i.m))
        else if e.ndim != 1 || e.fmt != f.ty || e.ext.getD 0 0 < collElems op (l 0) (l 1) (l 2) then
          .next (s.raise i.fid (objTrap 5 idx i.m))
        else
          .next (s.startCmd i w f.d f.y false (.coll op f.ty (l 0) (l 1) (l 2) (l 3) grp e) false
            (8 * ((l 2 * elemSize f.ty * collSends op (l 0) (l 1) + 63) / 64))))

end Sys2Proof.Machine
end

