-- ==== Sys2Proof/Machine/Atomics.lean ====
section
/-!
DEFINITION. Atomic operations (R131 to R139): ATOM and its events at the home slices, the ticketed add, and
ATOMS in the scratchpad.
-/
namespace Sys2Proof.Machine

/-! ### The new value of a word (R132, R133) -/

/-- The new value of a word and the flags that arise. -/
def atomNew (sub : Nat) (ty : BitVec 4) (mode u : Nat) (old x y : Word) : Word × Flags5 :=
  let lt := fun (p q : Word) => decide (intOf ty p.toNat < intOf ty q.toNat)
  match sub with
  | 6 => (x, Flags5.none)
  | 7 => (if old == y then x else old, Flags5.none)
  | 8 => (if lt old x then old + 1#32 else old, Flags5.none)
  | 9 => (if lt x old then old - 1#32 else old, Flags5.none)
  | 0xA => (old, Flags5.none)
  | 0xB => (x, Flags5.none)
  | 0xC => reduceNode ty 0 mode u old x
  | k => reduceNode ty k mode u old x

/-- The instruction reads its b operand, or its c operand. -/
def atomReadsB (sub : Nat) : Bool := sub != 0xA
def atomReadsC (sub : Nat) : Bool := sub == 7 || sub == 0xC

/-- The data sources of ATOM and ATOMS. -/
def atomSrcs (f : LForm) : List Src :=
  (if atomReadsB (Mem.sub f) then [src (.sel f.b) f.ty] else []) ++
  (if atomReadsC (Mem.sub f) then [src (.sel f.c) f.ty] else [])

/-- Operands x and y of a lane, the data sources standing from place `k` on. -/
def atomX (f : LForm) (i : FIn) (k l : Nat) : Word := if atomReadsB (Mem.sub f) then (i.s k).lane l else 0#32
def atomY (f : LForm) (i : FIn) (k l : Nat) : Word := if atomReadsC (Mem.sub f) then (i.s (k + 1)).lane l else 0#32

/-- The destination register: none for .st. -/
def atomDests (f : LForm) : List Nat := if Mem.sub f == 0xB then [] else [f.d.toNat]

/-- The draw of each lane at issue under .rs (R133), and the fibre's rounding states after it. -/
def atomDraws (f : LForm) (i : FIn) : (Nat → Nat) × List (BitVec 64) :=
  let rs := roundStates i.f
  if f.mode == 4#3 then
    (fun l => drawValue (drawStep (rs.getD l 0#64)),
     rs.zipIdx.map (fun (r, l) => if i.m.getLsbD l then drawStep r else r))
  else (fun _ => 0, rs)

/-! ### ATOM (R135, R137) -/

/-- Whether AtomicOps can carry the operation to host memory (R137). -/
def hostAtomic (sub : Nat) (ty : BitVec 4) : Bool := [0, 6, 7, 0xA, 0xB].contains sub && ty != Ty.f32

/-- Lanes on host memory whose operation no AtomicOp carries raise the protection fault (R137). -/
def hostAtomFaults (sub : Nat) (ty : BitVec 4) (xs : List (Nat × Addr × Place)) : List AccFault :=
  if hostAtomic sub ty then []
  else xs.filterMap (fun x => match x.2.2 with
    | .sys _ => some (laneFault false x.1 x.2.1 1 2)
    | _ => none)

/-- The ordering under which an ATOM is performed: after a release fence a relaxed one is a release at the
fence's scope, which code 4 says (R323). -/
def atomOrder (f : LForm) (i : FIn) : Nat × Nat :=
  match i.f.relMark with
  | some sc =>
    if Mem.ord f == 0 && Mem.sub f != 0xA then (4, sc) else (Mem.ord f, Mem.scope f)
  | none => (Mem.ord f, Mem.scope f)

/-- The rounding state of a lane in front of its draw (R133). -/
def laneState (f : LForm) (i : FIn) (l : Nat) : Option (BitVec 64) :=
  if f.mode == 4#3 then (roundStates i.f)[l]? else none

/-- ATOM and .tadd once the lanes' addresses are aligned. -/
def State.atomIssue (s : State) (i : FIn) (f : LForm) (las : List LaneAddr) (latch : Bool) : State :=
  match wgOf s i.f with
  | none => s
  | some w =>
    let sub := Mem.sub f
    let xl := xlOf s w
    let (ok, bad) := translateLanes s (.core w.core) w.ctx xl (privOf i.f) (if sub == 0xA then .read else .atomic) true las
    let bad := bad ++ hostAtomFaults sub f.ty ok
    if !bad.isEmpty then s.accessFault i.fid i.m bad
    else
      match watchHalt s i false 3 (if sub == 0xC then 8 else 4) las with
      | some s => s
      | none =>
        let s := s.holdAll (if sub == 0xA then .read else .atomic) w.ctx xl (las.map (·.2))
        let (u, rs) := atomDraws f i
        let (ord, scope) := atomOrder f i
        let lanes := ok.map (fun x =>
          { lane := x.1, va := x.2.1, place := x.2.2, x := atomX f i 2 x.1, y := atomY f i 2 x.1, u := u x.1, ret := none,
            rs := laneState f i x.1 })
        let lines := (accessLines 4 ok).map (fun x =>
          { va := x.1, place := x.2.1, ownMask := 0#64, own := 0#512, data := none })
        let kind := if sub == 0xC then FKind.tadd f.ty f.mode.toNat else FKind.atom sub f.ty f.mode.toNat
        let fl := newFlight s i w kind (atomDests f) scope ord lanes lines
        let acq := Mem.ord f == 1 || Mem.ord f == 3
        let s := s.modFib i.fid (fun g =>
          { setRoundStates g rs with
            fences := if acq then
              g.fences ++ [{ rel := false, acq := true, scope := Mem.scope f, refresh := false, flt := some s.ids }]
              else g.fences })
        let s := s.launchOnce i fl (8 * popMask i.m) (sub == 0xC || lines.any (fun ln => ln.place.remote)) f.y latch
        if sub == 0xC && (redKey s i.f.wg).isNone then s.flightWaits (s.ids - 1) else s

/-- ATOM. -/
def opAtom (f : LForm) (s : State) : Out :=
  let xs := pairSrcs f.a ++ atomSrcs f
  memOp f.y xs (atomDests f) (addrPairOk (curWindow s) f.a) (decide (2 ≤ Mem.ord f)) s (fun s i =>
    let las := (lanesOf i.m).map (fun l => (l, laneAddrOf i l))
    match alignTrap false (if Mem.sub f == 0xC then 8 else 4) las with
    | some t => .next (s.raise i.fid t)
    | none => .next (s.atomIssue i f las (anyLatch xs)))

def execAtom (f : LForm) (s : State) : Out := opAtom f s

/-! ### One lane at its home slice -/

/-- The atomic is an acquire, or a release at its scope. -/
def ordAcq (o : Nat) : Bool := o == 1 || o == 3
def ordRel (o : Nat) : Bool := decide (2 ≤ o)

/-- What a lane that read a line finds of its release record (R326, R328); that of a peer is told of it, and judges it itself. -/
def State.laneReads (s : State) (id : Nat) (fl : Flight) (sub lane : Nat) (r : Option RelRec) : State :=
  if isGuest fl then
    match r with
    | some e => if sub == 0xB then s else s.modFlight id (fun g => { g with rels := g.rels ++ [(lane, e)] })
    | none => s
  else if ordAcq fl.ord then s.noteAcquire fl.ctx (flightAgent s fl lane fl.scope) fl.scope r
  else if (fl.ord == 0 || fl.ord == 4) && sub != 0xB then s.seeRel fl.fib lane r
  else s

/-- The record that a lane's write leaves with the line (R326). -/
def State.laneRecord (s : State) (fl : Flight) (sub lane d : Nat) : State :=
  if sub == 0xA then s
  else if ordRel fl.ord then s.setRel d (some (flightAgent s fl lane fl.scope))
  else if sub == 0xB && fl.ord == 0 then s.clearRel d
  else s

/-- Perform one lane on the word at a device address: the old value, the flags and the state after it. -/
def State.atomLane (s : State) (id : Nat) (fl : Flight) (sub : Nat) (ty : BitVec 4) (mode : Nat) (x : LaneReq) (d : Nat) :
    Word × Flags5 × State :=
  let old := readWord s.mem d
  let (new, fs) := atomNew sub ty mode x.u old x.x x.y
  let s := s.laneReads id fl sub x.lane (tget s.lineRel (lineBase d))
  let s := if sub == 0xA then s else s.asWriter (flightLids s fl) (fun s => s.putMem d (leBytes new.toNat 4))
  (old, fs, s.laneRecord fl sub x.lane d)

/-- A lane of a flight has its result. -/
def setRet (lane : Nat) (r : Word) (fl : Flight) : Flight :=
  { fl with lanes := fl.lanes.map (fun x => if x.lane == lane then { x with ret := some r } else x) }

/-- Line `n` of a flight has been served. -/
def lineServed (n : Nat) (fl : Flight) : Flight :=
  { fl with lines := fl.lines.modify n (fun ln => { ln with data := some 0#512 }) }

/-- Every lane of a flight has its result. -/
def lanesReady (fl : Flight) : Bool := fl.lanes.all (fun x => x.ret.isSome)

/-- The results of the lanes. -/
def retVec (fl : Flight) : LaneVec := LaneVec.of (fun l =>
  match laneReq fl l with
  | some x => x.ret.getD 0#32
  | none => 0#32)

/-- An atomic whose lines have all been served completes (R135); one that serves a peer answers it. -/
def State.finishAtom (s : State) (id : Nat) : State :=
  match tget s.flights id with
  | none => s
  | some fl =>
    if !lanesReady fl then s
    else if isGuest fl then
      let more := match fl.kind with
        | .tadd _ _ => [fl.flags.setWidth 32]
        | _ => []
      s.answerPeer id { emptyReply fl with words := fl.lanes.map (fun x => x.ret.getD 0#32) ++ more, rels := fl.rels }
    else s.completeOnce id [(fl.mask, retVec fl)] fl.flags (ordAcq fl.ord && decide (5 ≤ fl.scope))

/-! ### .tadd (R139) -/

/-- How far a lane's ticket lies ahead of the cell's, as a signed number. -/
def ticketAhead (t w : Word) : Int := (t - w).toInt

/-- Evaluate one lane of a .tadd: refused, performed, or left waiting. -/
def State.taddLane (s : State) (id : Nat) (x : LaneReq) (d : Nat) : State :=
  match tget s.flights id with
  | none => s
  | some fl =>
    match fl.kind with
    | .tadd ty mode =>
      let k := ticketAhead x.y (readWord s.mem (d + 4))
      if k < 0 then s.modFlight id (setRet x.lane 1#32)
      else if k > 0 then s
      else
        let (_, fs, s) := s.atomLane id fl 0xC ty mode x d
        let s := s.asWriter (flightLids s fl) (fun s => s.putMem (d + 4) (leBytes (readWord s.mem (d + 4) + 1#32).toNat 4))
        s.modFlight id (fun fl => { setRet x.lane 0#32 fl with flags := fl.flags ||| fs })
    | _ => s

/-- The key of a cell or a control block in the wait tables: its address, and 0 enqueuers, 1 dequeuers,
2 PODI.init, 3 ticketed adds. -/
def waitKey (d dir : Nat) : Nat := 4 * d + dir

/-- Entries of the wait table of the slice that holds an address (R149). -/
def waitTableUsed (s : State) (d : Nat) : Nat :=
  (s.podWait.filter (fun e => dieOf (e.1 / 4) == dieOf d && homeSlice s (e.1 / 4) == homeSlice s d)).length

/-- A flight's entries leave the wait tables. -/
def State.unwait (s : State) (id : Nat) : State := { s with podWait := s.podWait.filter (fun e => e.2 != id) }

/-- A flight waits for another agent from now on, if it did not before (R149). -/
def State.blockFlight (s : State) (id : Nat) : State :=
  s.modFlight id (fun fl => { fl with blocked := some (fl.blocked.getD s.tick) })

/-- Record a flight as a waiter, unless it is recorded or the table is full; it then begins again later (R149). -/
def State.recordWaiter (s : State) (id d dir : Nat) : State :=
  if s.podWait.contains (waitKey d dir, id) then s
  else if 512 ≤ waitTableUsed s d then s.modFlight id (fun fl => { fl with retry := s.tick + 256 })
  else { s with podWait := s.podWait ++ [(waitKey d dir, id)] }

/-- The lanes of a .tadd that are left on its line `n`: each cell records the flight once. -/
def State.taddRecord (s : State) (id n : Nat) : State :=
  match tget s.flights id with
  | none => s
  | some fl =>
    (lanesOnLine fl n).foldl (fun (s : State) x =>
      match x.ret, x.place with
      | none, .dev d _ => (s.recordWaiter id d 3).blockFlight id
      | _, _ => s) s

/-- Evaluate the lanes of a .tadd that lie on line `n`, in rounds, so that lanes on one cell go in ticket order. -/
def State.taddLine (s : State) (id n : Nat) : Nat → State
  | 0 => s
  | fuel + 1 =>
    match tget s.flights id with
    | none => s
    | some fl =>
      let s := (lanesOnLine fl n).foldl (fun (s : State) x =>
        match x.place with
        | .dev d _ =>
          match tget s.flights id with
          | none => s
          | some g =>
            if (match laneReq g x.lane with | some y => y.ret.isNone | none => false) then s.taddLane id x d else s
        | _ => s) s
      s.taddLine id n fuel

/-- When every lane of a .tadd has its status its waits end and it completes. -/
def State.finishTadd (s : State) (id : Nat) : State :=
  match tget s.flights id with
  | none => s
  | some fl => if lanesReady fl then (s.unwait id).finishAtom id else s

/-! ### ATOMIC_EVENT and ATOM_COMPLETE -/

/-- The lanes of an atomic on one local line, in ascending order, as one event (R135). -/
def State.atomLine (s : State) (id n sub : Nat) (ty : BitVec 4) (mode : Nat) (fl : Flight) : State :=
  (lanesOnLine fl n).foldl (fun (s : State) x =>
    match x.place with
    | .dev d _ =>
      let (old, fs, s) := s.atomLane id fl sub ty mode x d
      s.modFlight id (fun g => { setRet x.lane old g with flags := g.flags ||| fs })
    | _ => s) s

/-- The atomic work of a flight on its line `n`. -/
def State.atomicEvent (s : State) (id n : Nat) : State :=
  match tget s.flights id with
  | none => s
  | some fl =>
    if fl.stage == .compare || fl.stage == .mirror then s
    else
      match fl.lines[n]? with
      | none => s
      | some ln =>
        match ln.place, ln.data with
        | .dev d _, none =>
          if mustFollow s id fl (openOnLine fl n) then s
          else if poisoned s d then (s.unwait id).failOnce id 6 n
          else
            match fl.kind with
            | .atom sub ty mode => (s.atomLine id n sub ty mode fl).modFlight id (lineServed n)
            | .tadd _ _ =>
              ((((s.taddLine id n 32).modFlight id (lineServed n)).taddRecord id n).finishTadd id)
            | _ => s
        | _, _ => s

def execAtomicEvent (flt line : Nat) (s : State) : Out := .next (if flightHalted s flt then s else s.atomicEvent flt line)

/-- The results of a line's lanes as a peer gives them; the flags follow from the old values (R133), and after the
statuses of a .tadd they stand as a word of their own. -/
def peerRets (sub : Nat) (ty : BitVec 4) (mode : Nat) (xs : List LaneReq) (old : List Word) (fl : Flight) : Flight :=
  let more := if sub == 0xC then (old.getD xs.length 0#32).setWidth 5 else Flags5.none
  (xs.zip old).foldl (fun (g : Flight) (x, o) =>
    let fs := if sub == 0xC then more else (atomNew sub ty mode x.u o x.x x.y).2
    { setRet x.lane o g with flags := g.flags ||| fs }) fl

/-- A peer's reply to one line of an atomic (R311, R312). -/
def State.peerAtom (s : State) (id : Nat) (r : PeerReply) : State :=
  match tget s.flights id with
  | none => s
  | some fl =>
    match fl.lines[r.line]? with
    | none => s
    | some ln =>
      match ln.place, ln.data with
      | .peer p o, none =>
        let s := s.ackPeer fl.core p o
        match r.fault with
        | some k => (s.unwait id).failOnce id k r.line
        | none =>
          let (sub, ty, mode) := match fl.kind with
            | .atom sub ty mode => (sub, ty, mode)
            | .tadd ty mode => (0xC, ty, mode)
            | _ => (0xA, Ty.i32, 0)
          let xs := lanesOnLine fl r.line
          let s := xs.foldl (fun (s : State) x => s.laneReads id fl sub x.lane r.rel) s
          s.modFlight id (fun g => lineServed r.line (peerRets sub ty mode xs r.old g))
      | _, _ => s

/-- ATOM_COMPLETE: a peer's reply, if one has come; then the instruction completes if nothing is missing. -/
def State.atomComplete (s : State) (id : Nat) (rep : Option PeerReply) : State :=
  let s := match rep with
    | some r => s.peerAtom id r
    | none => s
  match tget s.flights id with
  | none => s
  | some fl =>
    if fl.stage == .compare || fl.stage == .mirror then s
    else
      match fl.kind with
      | .atom _ _ _ => s.finishAtom id
      | .tadd _ _ => s.finishTadd id
      | _ => s

def execAtomComplete (flt : Nat) (rep : Option PeerReply) (s : State) : Out := .next (s.atomComplete flt rep)

/-! ### ATOMS (R138) -/

/-- Read a word of the allocation. -/
def spadWord (w : Workgroup) (off : Nat) : Word := readWord w.spad off

/-- Write a word in place, keeping its release record. -/
def Workgroup.spadAtom (w : Workgroup) (off : Nat) (x : Word) : Workgroup :=
  { w with spad := writeBytes w.spad off (leBytes x.toNat 4) }

/-- The record that a lane's write leaves with its scratchpad word (R326). -/
def Workgroup.spadRecord (w : Workgroup) (off sub ord : Nat) (r : RelRec) : Workgroup :=
  if sub == 0xA then w
  else if ordRel ord then { w with spadRel := tset w.spadRel off r }
  else if sub == 0xB && ord == 0 then { w with spadRel := tdel w.spadRel off }
  else w

/-- What a lane's read of a scratchpad word finds. -/
def State.spadReads (s : State) (i : FIn) (w : Workgroup) (sub ord scope lane off : Nat) : State :=
  let r := tget w.spadRel off
  if ordAcq ord then s.noteAcquire w.ctx (agentOf s i.fid lane scope) scope r
  else if (ord == 0 || ord == 4) && sub != 0xB then s.seeRel i.fid lane r
  else s

/-- One lane of ATOMS: its result, flags and the state after it. -/
def State.atomsLane (s : State) (i : FIn) (f : LForm) (ord scope u lane off : Nat) : Word × Flags5 × State :=
  match wgOf s i.f with
  | none => (0#32, Flags5.none, s)
  | some w =>
    let sub := Mem.sub f
    let x := atomX f i 1 lane
    let old := spadWord w off
    let (new, fs) := atomNew sub f.ty f.mode.toNat u old x (atomY f i 1 lane)
    let s := s.spadReads i w sub ord scope lane off
    (old, fs, s.setWg i.f.wg ((w.spadAtom off new).spadRecord off sub ord (agentOf s i.fid lane scope)))

/-- ATOMS once its checks have passed: every lane in ascending order, as one event. -/
def State.atomsDo (s : State) (i : FIn) (f : LForm) (las : List LaneAddr) : State :=
  let (u, rs) := atomDraws f i
  let (ord, scope) := atomOrder f i
  let (outs, fl, s) := las.foldl (fun (a : List (Nat × Word) × Flags5 × State) x =>
    let (old, fs, s) := a.2.2.atomsLane i f ord scope (u x.1) x.1 x.2.toNat
    (a.1 ++ [(x.1, old)], a.2.1 ||| fs, s)) ([], Flags5.none, s)
  let s := (atomDests f).foldl (fun (s : State) d =>
    s.writeReg i.fid d i.m (LaneVec.of (fun l => (tget outs l).getD 0#32))) s
  s.modFib i.fid (fun g => addEnergy (advance (setRoundStates (orFlags g fl) rs) i.m 8) (8 * popMask i.m))

/-- A lane of a .tadd in the scratchpad is evaluated against its cell (R138, R139). -/
def State.taddsLane (s : State) (id lane off : Nat) : State :=
  match tget s.flights id with
  | none => s
  | some fl =>
    match fl.kind, laneReq fl lane, tget s.fibs fl.fib with
    | .tadds ty mode, some x, some f =>
      let s := s.spadMend f.wg [(off, 8)]
      match wgOf s f with
      | none => s
      | some w =>
        let k := ticketAhead x.y (spadWord w (off + 4))
        if k < 0 then s.modFlight id (setRet lane 1#32)
        else if k > 0 then s
        else
          let r := tget w.spadRel off
          let (new, fs) := atomNew 0xC ty mode x.u (spadWord w off) x.x x.y
          let s := s.laneReads id fl 0xC lane r
          let w := (w.spadAtom off new).spadRecord off 0xC fl.ord (agentOf s fl.fib lane fl.scope)
          let s := s.setWg f.wg (w.spadAtom (off + 4) (spadWord w (off + 4) + 1#32))
          s.modFlight id (fun fl => { setRet lane 0#32 fl with flags := fl.flags ||| fs })
    | _, _, _ => s

/-- Evaluate the lanes that are left, in rounds. -/
def State.taddsRounds (s : State) (id : Nat) : Nat → State
  | 0 => s
  | fuel + 1 =>
    match tget s.flights id with
    | none => s
    | some fl =>
      (fl.lanes.foldl (fun (s : State) x =>
        if x.ret.isNone then s.taddsLane id x.lane x.va.toNat else s) s).taddsRounds id fuel

/-- A .tadd in the scratchpad whose lanes all have their status completes. -/
def State.finishTadds (s : State) (id : Nat) : State :=
  match tget s.flights id with
  | none => s
  | some fl =>
    if lanesReady fl then s.giveReply id [(fl.mask, retVec fl)] fl.flags (ordAcq fl.ord && decide (5 ≤ fl.scope)) else s

/-- ATOMS.tadd: lanes that are ahead of their cell's ticket wait, and the fibre with them. -/
def State.taddsIssue (s : State) (i : FIn) (f : LForm) (las : List LaneAddr) (latch : Bool) : State :=
  match wgOf s i.f with
  | none => s
  | some w =>
    let (u, rs) := atomDraws f i
    let (ord, scope) := atomOrder f i
    let lanes := las.map (fun x =>
      { lane := x.1, va := x.2, place := .dev 0 0, x := atomX f i 1 x.1, y := atomY f i 1 x.1, u := u x.1, ret := none,
        rs := laneState f i x.1 })
    let fl := newFlight s i w (.tadds f.ty f.mode.toNat) (atomDests f) scope ord lanes []
    let (id, s) := s.newId
    let s := (s.setFlight id fl).modFib i.fid (fun g => addEnergy (setRoundStates g rs) (8 * popMask i.m))
    let s := (s.holdFor i.fid (.flight id) f.y latch).flightWaits id
    ((s.taddsRounds id 32).blockFlight id).finishTadds id

/-- ATOMS. -/
def opAtoms (f : LForm) (s : State) : Out :=
  let xs := src (.sel f.a) Ty.i32 :: atomSrcs f
  memOp f.y xs (atomDests f) true (decide (2 ≤ Mem.ord f)) s (fun s i =>
    let size := if Mem.sub f == 0xC then 8 else 4
    let las := (lanesOf i.m).map (fun l => (l, ((i.s 0).lane l).setWidth 64))
    match alignTrap true size las, boundsTrap true (pastEnd (spadSize s i.f) size las), wgOf s i.f with
    | some t, _, _ => .next (s.raise i.fid t)
    | none, some t, _ => .next (s.raise i.fid t)
    | none, none, none => .next s
    | none, none, some w =>
      let bad := spadFaults w size false las
      if !bad.isEmpty then .next (s.raise i.fid (spadTrap bad))
      else
        match watchHalt s i true 3 size las with
        | some s => .next s
        | none =>
          let s := s.spadMend i.f.wg (laneRanges size las)
          .next (if Mem.sub f == 0xC then s.taddsIssue i f las (anyLatch xs) else s.atomsDo i f las))

def execAtoms (f : LForm) (s : State) : Out := opAtoms f s

/-! ### TADD_WAKE -/

/-- A lane of a waiting .tadd evaluates again when its cell's ticket word has changed (TADD_WAKE). -/
def State.taddWake (s : State) (id lane : Nat) : State :=
  match tget s.flights id with
  | none => s
  | some fl =>
    match fl.kind, laneReq fl lane with
    | .tadds _ _, some x =>
      if x.ret.isNone then (s.taddsLane id lane x.va.toNat).finishTadds id else s
    | .tadd _ _, some x =>
      match x.place, x.ret with
      | .dev d _, none =>
        if fl.stage == .compare || fl.stage == .mirror then s
        else if poisoned s d then (s.unwait id).failOnce id 6 (fl.lines.findIdx (fun ln => ln.place == x.place.line))
        else (s.taddLane id x d).finishTadd id
      | _, _ => s
    | _, _ => s

def execTaddWake (flt lane : Nat) (s : State) : Out := .next (if flightHalted s flt then s else s.taddWake flt lane)

end Sys2Proof.Machine
end

