-- ==== Sys2Proof/Machine/Runner.lean ====
section
/-!
DEFINITION. The runner-only instructions XMOV, XTIL, XGTH, XSCT, XRED, XFIL, XSIG, XWT, XMXM, XHS and XEND
(R174 to R176). A runner performs an instruction as one step once every line that it reads is at hand.
-/
namespace Sys2Proof.Machine

/-! ### Operands (R174) -/

/-- A register pair of a runner. -/
def runnerPairOk (r : Runner) (a : BitVec 7) : Bool :=
  a.toNat < 64 && a.toNat % 2 == 0 && decide (a.toNat + 1 < r.regs.length)

/-- The address that a pair holds. -/
def runnerPair (r : Runner) (a : BitVec 7) : Nat :=
  (r.regs.getD a.toNat 0#32).toNat + 2 ^ 32 * (r.regs.getD (a.toNat + 1) 0#32).toNat

/-- A run of `n` registers from a on. -/
def runnerRange (r : Runner) (a : BitVec 7) (n : Nat) : Bool := a.toNat < 64 && decide (a.toNat + n ≤ r.regs.length)

/-- A source as a number. -/
def runnerVal (s : State) (r : Runner) (a : BitVec 7) : Nat := (runnerWord s r (src (.sel a) Ty.i32)).toNat

/-- A runner-only instruction: its sources, pairs, register runs and destination are checked, then `k`. -/
def runnerOp (s : State) (xs pairs : List (BitVec 7)) (runs : List (BitVec 7 × Nat)) (d : Option (BitVec 6))
    (k : RunCtx → Workgroup → Runner → Out) : Out :=
  onRunner s (fun rid =>
    match tget s.runners rid, runCtx s rid with
    | some r, some c =>
      match tget s.wgs c.wid with
      | none => .next s
      | some w =>
        let dOk := match d with
          | some x => decide (x.toNat < r.regs.length)
          | none => true
        let os := xs.map (fun a => src (.sel a) Ty.i32)
        if !runnerOpdsOk r os || !os.all runnerOnlyOpd || !pairs.all (runnerPairOk r) ||
            !runs.all (fun x => runnerRange r x.1 x.2) || !dOk then .next (s.runnerFault rid 0x02#8)
        else k c w r
    | _, _ => .next s)

/-- The instruction takes effect and the runner goes on. -/
def State.runnerNext (s : State) (c : RunCtx) (d : Option (Nat × Word)) : State :=
  (s.dropGather c.cid).modRunner c.cid (fun r => runnerDone r d 8)

/-- The instruction does not take effect now: nothing of it has been done. -/
def State.runnerStall (s : State) : State := { s with cur := { s.cur with stalled := true } }

/-- The end of an instruction that reads or writes memory. -/
def runnerMem (s : State) (c : RunCtx) (x : Except RStop State) : Out :=
  match x with
  | .ok s => .next (s.runnerNext c none)
  | .error e => .next ((s.runStop c.cid e).runnerStall)

/-- A runner fault. -/
def runnerBad (s : State) (c : RunCtx) (cause : Nat) : Out := .next (s.cmdFault c.cid (BitVec.ofNat 8 cause))

/-- An object index of a runner's instruction fails: on kind 6, a poisoned entry, with a record (R115, R180), which carries no
address of its own (log entry 51). -/
def runnerObj (s : State) (c : RunCtx) (kind idx : Nat) : Out :=
  .next (s.runnerAccessFault c.cid { kind := kind, va := 0#64, acc := 0, obj := idx, lane := 0, replayable := false })

/-- A scratchpad range outside the allocation. -/
def rangeBad (w : Workgroup) (off n : Nat) : Bool := n != 0 && decide (w.scratch < off + n)

/-- Read one range of memory. -/
def runRead1 (s : State) (c : RunCtx) (obj va n : Nat) : Except RStop (List Byte) :=
  match runRead s c obj [(va, n)] with
  | .ok (bs :: _) => .ok bs
  | .ok [] => .ok []
  | .error e => .error e

/-- Write one range of memory. -/
def State.runWrite1 (s : State) (c : RunCtx) (va : Nat) (bs : List Byte) : Except RStop State :=
  match runLines s c 0 [(va, bs)] with
  | .ok ls => .ok (s.runWrite c ls)
  | .error e => .error e

/-! ### XMOV (R175) -/

/-- The address of XMOV's word: the exact sum, whose low 64 bits stand for a negative one; neither that nor a sum of 2^64 or more
is canonical (R9, R104, R175; DEDUCED, log entry 51). -/
def wordAddr (base : Nat) (off : Int) : Nat :=
  if (base : Int) + off < 0 then (((base : Int) + off) % 2 ^ 64).toNat else ((base : Int) + off).toNat

/-- XMOV of one word: modes 0 to 3. -/
def xmovWord (f : LForm) (s : State) : Out :=
  let off := f.imm.toInt
  let mem := decide (f.mode.toNat ≤ 1)
  let store := f.mode.getLsbD 0
  runnerOp s ((if mem then [] else [f.a]) ++ (if store then [f.c] else [])) (if mem then [f.a] else []) []
    (if store then none else some f.d) (fun c w r =>
      let va := wordAddr (runnerPair r f.a) off
      let sp := (runnerVal s r f.a : Int) + off
      let x := runnerVal s r f.c
      if mem then
        if va % 4 != 0 then runnerBad s c 0x03
        else if store then runnerMem s c (s.runWrite1 c va (leBytes x 4))
        else
          match runRead1 s c 0 va 4 with
          | .ok bs => .next ((s.holdRun c .read [(va, 4)]).runnerNext c (some (f.d.toNat, BitVec.ofNat 32 (leValue bs))))
          | .error e => runnerMem s c (.error e)
      else if sp % 4 != 0 then runnerBad s c 0x03
      else if sp < 0 || rangeBad w sp.toNat 4 then runnerBad s c 0x04
      else if store then .next ((s.spadEngine c.wid sp.toNat (leBytes x 4)).runnerNext c none)
      else if spadPoisoned w sp.toNat 4 then runnerBad s c 0x16
      else .next ((s.spadMend c.wid [(sp.toNat, 4)]).runnerNext c (some (f.d.toNat, readWord w.spad sp.toNat))))

/-- XMOV of a block: modes 4 to 6. -/
def xmovBlock (f : LForm) (s : State) : Out :=
  let m := f.mode.toNat
  let fromMem := decide (m ≤ 5)
  let toMem := m == 4 || m == 6
  runnerOp s ((if fromMem then [] else [f.a]) ++ (if toMem then [] else [f.b]) ++ [f.c])
    ((if fromMem then [f.a] else []) ++ (if toMem then [f.b] else [])) [] none (fun c w r =>
      let n := runnerVal s r f.c
      let a := if fromMem then runnerPair r f.a else runnerVal s r f.a
      let b := if toMem then runnerPair r f.b else runnerVal s r f.b
      if 2 ^ 24 < n then runnerBad s c 0x02
      else if a % 16 != 0 || b % 16 != 0 || n % 16 != 0 then runnerBad s c 0x03
      else if (!fromMem && rangeBad w a n) || (!toMem && rangeBad w b n) then runnerBad s c 0x04
      else if !fromMem && spadPoisoned w a n then runnerBad s c 0x16
      else
        match (if fromMem then runRead1 s c 0 a n else .ok (readBytes w.spad a n)) with
        | .error e => runnerMem s c (.error e)
        | .ok bs =>
          let s := if fromMem then s.holdRun c .read [(a, n)] else s.spadMend c.wid [(a, n)]
          if n == 0 then .next (s.runnerNext c none)
          else if toMem then runnerMem s c (s.runWrite1 c b bs)
          else .next ((s.spadEngine c.wid b bs).runnerNext c none))

/-- XMOV. -/
def execXmov (f : LForm) (s : State) : Out := if f.mode.toNat ≤ 3 then xmovWord f s else xmovBlock f s

/-! ### XTIL, XGTH and XSCT (R176) -/

/-- The cause of a tile check in a runner. -/
def tileCause (b : TileBad) : Nat :=
  match b with
  | .operand => 0x02
  | .object => 0x15
  | .bounds => 0x04

/-- XTIL: the checks of R168 and the tile copy. -/
def execXtil (f : LForm) (s : State) : Out :=
  runnerOp s [] [] [(f.a, 13)] none (fun c w r =>
    let d := copyDesc (fun k => (r.regs.getD (f.a.toNat + k) 0#32).toNat)
    match objCheck s c.ctx c.xl f.imm.toNat (fun e => if Cpy.st f then e.wr else e.rd) with
    | .error k => runnerObj s c k f.imm.toNat
    | .ok e =>
      match tileCheck d e f.ty (Cpy.pad f) w.scratch with
      | some b => runnerBad s c (tileCause b)
      | none => runnerMem s c ((s.holdObj c.ctx c.xl e).tileCopy c d e f.ty (Cpy.st f) (Cpy.pad f)))

/-- The rows of an object: the product of EXT1 to EXT(NDIM - 1). -/
def objRows (e : ObjEntry) : Nat := ((List.range 5).filter (fun k => 1 ≤ k && k < e.ndim)).foldl (fun a k => a * e.ext.getD k 0) 1

/-- The coordinates of a row by its linear index. -/
def coordsOf (e : ObjEntry) (j : Nat) : List Nat :=
  ((List.range 4).foldl (fun (a : List Nat × Nat) k =>
    let n := if k + 1 < e.ndim then e.ext.getD (k + 1) 1 else 1
    (a.1 ++ [a.2 % n], a.2 / n)) ([], j)).1

/-- The bytes of a whole row, and from one row to the next in the scratchpad. -/
def gatherRow (e : ObjEntry) (t : BitVec 4) : Nat × Nat :=
  let x := e.ext.getD 0 0
  if tyIn t packed4 then (32 * ((x + 63) / 64), 32 * ((x + 63) / 64))
  else (x * elemSize t, (x * elemSize t + 15) / 16 * 16)

/-- The moves of XGTH and XSCT: the rows in ascending k, then the scale bytes. -/
def gatherMoves (e : ObjEntry) (t : BitVec 4) (a : Nat) (idx : List Nat) (sc : Bool) : List MoveRow :=
  let (n, pitch) := gatherRow e t
  let nb := (e.ext.getD 0 0 + 31) / 32
  idx.zipIdx.map (fun (j, k) =>
    { va := rowAddr e (coordsOf e j), sp := a + k * pitch, bits := List.replicate n 255 }) ++
  (if sc then idx.zipIdx.map (fun (j, k) =>
    { va := (e.scale.toNat + j * nb) % 2 ^ 64, sp := a + idx.length * pitch + k * nb, bits := List.replicate nb 255 })
   else [])

/-- XGTH and XSCT (`st`). -/
def opGather (st : Bool) (f : LForm) (s : State) : Out :=
  let sc := f.mode.getLsbD 0
  runnerOp s [f.a, f.c] [f.b] [] none (fun c w r =>
    let a := runnerVal s r f.a
    let n := runnerVal s r f.c
    let ia := runnerPair r f.b
    match objCheck s c.ctx c.xl f.imm.toNat (fun e => if st then e.wr else e.rd) with
    | .error k => runnerObj s c k f.imm.toNat
    | .ok e =>
      if n == 0 || decide (4096 < n) then runnerBad s c 0x02
      else if (sc && e.scale == 0#64) || e.fmt != f.ty then runnerBad s c 0x15
      else if ia % 4 != 0 || a % (if tyIn f.ty packed4 then 32 else 16) != 0 then runnerBad s c 0x03
      else
        match runRead1 s c 0 ia (4 * n) with
        | .error x => runnerMem s c (.error x)
        | .ok bs =>
          let idx := (List.range n).map (fun k => leValue ((bs.drop (4 * k)).take 4))
          let (_, pitch) := gatherRow e f.ty
          if idx.any (fun j => decide (objRows e ≤ j)) then runnerBad s c 0x15
          else if rangeBad w a (n * pitch + (if sc then n * ((e.ext.getD 0 0 + 31) / 32) else 0)) then runnerBad s c 0x04
          else
            let s' := (s.holdObj c.ctx c.xl e).holdRun c .read [(ia, 4 * n)]
            let ms := gatherMoves e f.ty a idx sc
            runnerMem s c (if st then s'.saveRows c e.index ms else s'.loadRows c e.index true ms))

def execXgth (f : LForm) (s : State) : Out := opGather false f s
def execXsct (f : LForm) (s : State) : Out := opGather true f s

/-! ### XRED (R176) -/

/-- The new elements of a part of a line: `old` and `x` word by word. -/
def redWords (ty : BitVec 4) (mode : Nat) (old x : List Byte) : List Byte :=
  ((List.range (x.length / 4)).map (fun k =>
    let w := fun (bs : List Byte) => BitVec.ofNat 32 (leValue ((bs.drop (4 * k)).take 4))
    leBytes (reduceNode ty 0 mode 0 (w old) (w x)).1.toNat 4)).flatten

/-- One destination line of XRED at `va`: its event at its home slice, or what stops it. -/
def State.redLine (s : State) (c : RunCtx) (ty : BitVec 4) (mode va : Nat) (x : List Byte) : Except RStop State :=
  match runPlaces s c .readWrite 0 [(va, x.length)] with
  | .error e => .error e
  | .ok ps =>
    match ps, redKey s c.wid with
    | [(_, _, .peer p o)], none =>
      match tget s.cmds c.cid with
      | none => .ok s
      | some k =>
        let s := s.sendPeer (1024 + k.grp) p (lineBase o) c.ctx (.red ty (BitVec.ofNat 3 mode) (o % 64) x)
        let (id, s) := s.newId
        .ok (s.setFlight id (runFlight s c .putLines
          [{ va := BitVec.ofNat 64 va &&& ~~~ 63#64, place := .peer p (lineBase o), ownMask := 0#64, own := 0#512, data := none }]))
    | _, _ =>
      match runRead1 s c 0 va x.length with
      | .error e => .error e
      | .ok old =>
        let new := redWords ty mode old x
        .ok (s.runWrite c (ps.foldl (fun ls (v, _, p) => joinPiece ls v p new) []))

/-- The destination lines of XRED that are still to be done, in ascending address (R182). -/
def State.redLines (s : State) (c : RunCtx) (ty : BitVec 4) (mode : Nat) : List (Nat × List Byte) → State × Option RStop
  | [] => (s, none)
  | (va, x) :: r =>
    match runCtx s c.cid with
    | none => (s, none)
    | some c =>
      match s.redLine c ty mode va x with
      | .error e => (s, some e)
      | .ok s => ((s.dropGather c.cid).modRunner c.cid (fun g => { g with lines := g.lines ++ [va] })).redLines c ty mode r

/-- XRED: lines already performed keep their sums when one stops it. -/
def execXred (f : LForm) (s : State) : Out :=
  runnerOp s [f.a, f.c] [f.b] [] none (fun c w r =>
    let a := runnerVal s r f.a
    let n := runnerVal s r f.c
    let va := runnerPair r f.b
    if 2 ^ 22 < n then runnerBad s c 0x02
    else if a % 4 != 0 || va % 4 != 0 then runnerBad s c 0x03
    else if rangeBad w a (4 * n) then runnerBad s c 0x04
    else if spadPoisoned w a (4 * n) then runnerBad s c 0x16
    else
      let parts := (linePieces (4 * n + 1) va (4 * n)).map (fun (v, k) => (v % 2 ^ 64, readBytes w.spad (a + (v - va)) k))
      let s := s.spadMend c.wid [(a, 4 * n)]
      match s.redLines c f.ty f.mode.toNat (parts.filter (fun x => !r.lines.contains x.1)) with
      | (s, none) => .next ((s.modRunner c.cid (fun g => { g with lines := [] })).runnerNext c none)
      | (s, some e) => .next ((s.runStop c.cid e).runnerStall))

/-! ### XFIL, XSIG and XWT (R176) -/

/-- XFIL. -/
def execXfil (f : LForm) (s : State) : Out :=
  let sp := f.mode.getLsbD 0
  runnerOp s ((if sp then [f.a] else []) ++ [f.b, f.c]) (if sp then [] else [f.a]) [] none (fun c w r =>
    let a := if sp then runnerVal s r f.a else runnerPair r f.a
    let n := runnerVal s r f.c
    let bs := ((List.range (n / 4)).map (fun _ => leBytes (runnerVal s r f.b) 4)).flatten
    if a % 4 != 0 || n % 4 != 0 then runnerBad s c 0x03
    else if sp && rangeBad w a n then runnerBad s c 0x04
    else if n == 0 then .next (s.runnerNext c none)
    else if sp then .next ((s.spadEngine c.wid a bs).runnerNext c none)
    else runnerMem s c (s.runWrite1 c a bs))

/-- XSIG: an arrival, or an initialisation, after the runner's earlier writes. -/
def execXsig (f : LForm) (s : State) : Out :=
  runnerOp s [f.a, f.b] [] [] none (fun c w r =>
    let x := runnerVal s r f.a
    let n := runnerVal s r f.b
    let init := f.mode.getLsbD 0
    if w.cbars.length ≤ x then runnerBad s c 0x05
    else if (init && decide (2 ^ 16 ≤ n)) || (!init && n == 0) then runnerBad s c 0x02
    else if putsPending s c.cid then .next s.runnerStall
    else
      let s := s.runnerNext c none
      .next (if init then s.initCbar c.wid x n else s.arriveCbar c.wid x n))

/-- XWT: the runner blocks while GEN is g. -/
def execXwt (f : LForm) (s : State) : Out :=
  runnerOp s [f.a, f.b] [] [] (some f.d) (fun c w r =>
    let x := runnerVal s r f.a
    let g : BitVec 16 := BitVec.ofNat 16 (runnerVal s r f.b)
    if w.cbars.length ≤ x then runnerBad s c 0x05
    else if (cbarOf w x).gen == g then
      .next (s.modRunner c.cid (fun r => { r with xwt := some (f.d.toNat * 64 + x, g), since := s.tick }))
    else .next (s.runnerNext c (some (f.d.toNat, (cbarOf w x).gen.setWidth 32))))

/-! ### XMXM, XHS and XEND (R176) -/

/-- Every check that a runner's matrix command must pass at issue (R289). -/
def mxmPasses (x : MxCmd) (w : Workgroup) : Bool :=
  x.operandsOk && (x.grantCause w).isNone && (x.stateCause w).isNone && x.extentOk w && (x.checkPass w).isNone

/-- XMXM. -/
def execXmxm (f : LForm) (s : State) : Out :=
  runnerOp s [] [f.a] [(f.b, 3)] none (fun c w r =>
    let reg := fun k => r.regs.getD k 0#32
    match followInstr (reg (f.a.toNat + 1) ++ reg f.a.toNat) with
    | none => runnerBad s c 0x0A
    | some (op, g) =>
      let x : MxCmd :=
        { followCmd op g (reg f.b.toNat) (reg (f.b.toNat + 1)) (reg (f.b.toNat + 2)) c.wid with swap := w.swap }
      if !mxmPasses x w then runnerBad s c 0x0A
      else if 16 ≤ (mxQueue s w.core).length then .next s.runnerStall
      else
        let s := s.spadMend c.wid (x.rowRanges ++ x.scaleRanges)
        let (_, s) := s.acceptMx w.core { x with seen := rangeBytes w.spad x.checkRanges }
        .next (s.runnerNext c none))

/-- XHS.new and XHS.pub. A handle number of 64 or more names no handle of the runner: cause 0x06 (R176, R181; DESIGN CHOICE, log
entry 51). -/
def execXhs (f : LForm) (s : State) : Out :=
  if f.mode.getLsbD 0 then
    runnerOp s [f.a] [] [] none (fun c w r =>
      let h := runnerVal s r f.a
      let x := handleOf w h
      if 64 ≤ h || x.st != .filling || x.owner != some c.cid then runnerBad s c 0x06
      else if putsPending s c.cid then .next s.runnerStall
      else
        let s := s.modRunner c.cid (fun r => { r with opened := r.opened.filter (· != h) })
        let s := s.setHandle c.wid h { st := .full, cause := 0#8, cmd := none, owner := none }
        .next ((s.wakeHandle c.wid h).runnerNext c none))
  else
    runnerOp s [] [] [] (some f.d) (fun c w _ =>
      match freeHandle w with
      | none => .next (s.runnerNext c (some (f.d.toNat, noHandle)))
      | some h =>
        let s := s.setHandle c.wid h { st := .filling, cause := 0#8, cmd := none, owner := some c.cid }
        let s := s.modRunner c.cid (fun r => { r with opened := r.opened ++ [h] })
        .next (s.runnerNext c (some (f.d.toNat, BitVec.ofNat 32 h))))

/-- SGC of a command's held writes: the final value of every byte (R303). -/
def sgcOf (held : List (Addr × Byte)) : BitVec 64 :=
  (held.reverse.foldl (fun (a : BitVec 64 × List Addr) x =>
    if a.2.contains x.1 then a else (a.1 + sgMix x.1.toNat x.2.toNat 0 0, a.2 ++ [x.1])) (0#64, [])).1

/-- A command has ended; HANDLE_FULL, or the comparator, follows (R161, R303). -/
def Cmd.land (tick : Nat) (c : Cmd) : Cmd :=
  { c with stage := .landed, landedAt := tick, sgc := if c.held.isEmpty then none else some (sgcOf c.held) }

/-- XEND: handles still opened by the runner take cause 0x07, and the runner is freed. -/
def execXend (_ : LForm) (s : State) : Out :=
  runnerOp s [] [] [] none (fun c _ r =>
    if putsPending s c.cid then .next s.runnerStall
    else
      let s := { s with runners := tdel s.runners c.cid }
      let s := r.opened.foldl (fun (s : State) h =>
        (s.setHandle c.wid h { st := .error, cause := 0x07#8, cmd := none, owner := none }).wakeHandle c.wid h) s
      .next ((s.dropGather c.cid).modCmd c.cid (Cmd.land s.tick)))

end Sys2Proof.Machine
end

