-- ==== Sys2Proof/Machine/Groups.lean ====
section
/-!
DEFINITION. The events of the runner groups: RUNNER_DISPATCH (R154, R155), HANDLE_FULL (R161), DRAIN_SETTLE (R163,
R171), COLL_WAIT_END (R178), FOLLOW_ON_COMMAND (R172, R289) and RUNNER_GROUP_MERGE (R155).
-/
namespace Sys2Proof.Machine

/-! ### Dispatch (R154, R155) -/

/-- The runner that a command holds. -/
def holdsRunner (c : Cmd) : Bool :=
  match c.stage with
  | .running _ => true
  | .waiting => true
  | .frozen _ => true
  | _ => false

/-- Commands that hold a runner of a group. -/
def busyCmds (s : State) (g : Nat) : List (Nat × Cmd) := s.cmds.filter (fun (_, c) => c.grp == g && holdsRunner c)

/-- The lowest idle active runner of a group, if one is idle. -/
def idleRunner (s : State) (g : Nat) : Option Nat :=
  let busy := busyCmds s g
  if groupActive s g ≤ busy.length then none
  else (groupRec s g).active.find? (fun k => !busy.any (fun (_, c) => c.runner == k))

/-- A program may start beside those that run (R155). -/
def programRoom (s : State) (g : Nat) : Bool :=
  decide (((busyCmds s g).filter (fun (_, c) => c.isProgram)).length + 2 < groupActive s g)

/-- The next command that the group takes: in arrival order, passing over programs that have no room. -/
def nextCmd (s : State) (g : Nat) : Option (Nat × Cmd) :=
  (queuedCmds s g).find? (fun (_, c) => !c.cancelled && wgTakes s c.wg && (!c.isProgram || programRoom s g))

/-- A copy or collective that waited for lines and has them all. -/
def resumable (s : State) (g : Nat) : Option (Nat × Cmd) :=
  s.cmds.find? (fun (i, c) => c.grp == g && !c.isProgram && !c.cancelled && !wgHalted s c.wg &&
    (match c.stage with | .running _ => true | _ => false) && (gatherOf s i).isSome && !gatherPending s i)

/-- The work of a copy (R169). -/
def State.copyWork (s : State) (r : RunCtx) (d : CopyDesc) (e : ObjEntry) (t : BitVec 4) (st pad : Bool) : State :=
  match s.tileCopy r d e t st pad with
  | .error x => s.runStop r.cid x
  | .ok s => (s.dropGather r.cid).modCmd r.cid (Cmd.land s.tick)

/-! ### COLL (R177, R178) -/

/-- The group record: RECV and CELL of each rank. -/
def groupEntries (n : Nat) (bs : List Byte) : List (Nat × Nat) :=
  (List.range n).map (fun j => (leValue ((bs.drop (16 * j)).take 8), leValue ((bs.drop (16 * j + 8)).take 8)))

/-- An address of this rank is on this device. -/
def localAddr (s : State) (r : RunCtx) (va : Nat) : Bool :=
  match translate s r.ctx r.xl false .read (BitVec.ofNat 64 va) with
  | .ok (.peer _ _) => false
  | _ => true

/-- The group record is well formed: RECV at a multiple of the element size, CELL of 4, and this rank's own on this device
(R177, which does not say what makes an entry malformed: DESIGN CHOICE, log entry 51). -/
def groupRecordOk (s : State) (r : RunCtx) (t : BitVec 4) (rank : Nat) (es : List (Nat × Nat)) : Bool :=
  es.all (fun x => x.1 % elemSize t == 0 && x.2 % 4 == 0) &&
  (match es[rank]? with
   | some x => localAddr s r x.1 && localAddr s r x.2
   | none => false)

/-- Add 1 to a rank's arrival word as a release at fabric scope (R178). -/
def State.bumpCell (s : State) (r : RunCtx) (cell : Nat) : Except RStop State :=
  match runPlaces s r .atomic 0 [(cell, 4)] with
  | .error e => .error e
  | .ok ps =>
    match ps with
    | (_, _, .dev d _) :: _ =>
      .ok ((s.asWriter (cmdLids s r.cid) (fun s => s.sliceWriteNat d 4 ((readNat s.mem d 4 + 1) % 2 ^ 32))).setRel d (some (runnerAgent s r.wid 8)))
    | (_, _, .sys a) :: _ =>
      let (id, s) := s.newId
      let ln : LineReq := { va := BitVec.ofNat 64 cell, place := .sys (lineBase a), ownMask := 0#64, own := 0#512, data := none }
      .ok ((s.setFlight id (runFlight s r .putLines [ln])).asWriter (cmdLids s r.cid) (fun s => s.send (.atomic a .fetchAdd 1#32 0#32 id 0)))
    | (_, _, .peer p o) :: _ =>
      match tget s.cmds r.cid with
      | none => .ok s
      | some c =>
        let s := s.sendPeer (1024 + c.grp) p (lineBase o) r.ctx (.atom 0#4 Ty.i32 0#3 2 8 [(o % 64, 1#32, 0#32, 0#16)])
        let (id, s) := s.newId
        let ln : LineReq := { va := BitVec.ofNat 64 cell, place := .peer p (lineBase o), ownMask := 0#64, own := 0#512, data := none }
        .ok (s.setFlight id (runFlight s r .putLines [ln]))
    | [] => .ok s

/-- The bytes that rank j receives, and where (R178). -/
def collSlice (op : Nat) (t : BitVec 4) (rank count : Nat) (recv : Nat) (data : List Byte) (j : Nat) : Nat × List Byte :=
  let n := count * elemSize t
  (recv + (if op == 3 then 0 else rank) * n, if op == 2 then (data.drop (j * n)).take n else data)

/-- The send to one rank: its slot, then its arrival word. In redundant mode the bytes are held, and the words
rise when the comparator has passed them (R303). -/
def State.collSend (s : State) (r : RunCtx) (x : Nat × List Byte) (cell : Nat) : Except RStop State :=
  match runLines s r 0 [x] with
  | .error e => .error e
  | .ok ls =>
    if (redKey s r.wid).isSome then .ok (s.runWrite r ls)
    else
      match runPlaces s r .atomic 0 [(cell, 4)] with
      | .error e => .error e
      | .ok _ => ((s.holdRun r .write (ls.map (fun ln => (ln.va.toNat, 1)))).performNow r ls).bumpCell r cell

/-- The sends to a list of ranks in ascending order, with the progress of R182. -/
def State.collSendAll (s : State) (r : RunCtx) (x : Nat → Nat × List Byte) (cell : Nat → Nat) : List Nat → State × Option RStop
  | [] => (s, none)
  | j :: js =>
    match s.collSend r (x j) (cell j) with
    | .error e => (s, some e)
    | .ok s => (s.modCmd r.cid (fun c => { c with sent := j + 1 })).collSendAll r x cell js

/-- The sends of a COLL (R178). In redundant mode they end as held writes for the comparator. -/
def State.collWork (s : State) (r : RunCtx) (op : Nat) (t : BitVec 4) (n rank count sent : Nat) (grp : Addr) (e : ObjEntry) : State :=
  match runRead1 s r 0 grp.toNat (16 * n) with
  | .error x => s.runStop r.cid x
  | .ok bs =>
    let es := groupEntries n bs
    if !groupRecordOk s r t rank es then s.cmdFault r.cid 0x08#8
    else
      match runRead1 s r e.index e.base.toNat (collElems op n rank count * elemSize t) with
      | .error x => s.runStop r.cid x
      | .ok data =>
        let s := s.holdRun r .read [(grp.toNat, 16 * n), (e.base.toNat, collElems op n rank count * elemSize t)]
        let at_ := fun j => es.getD j (0, 0)
        let js := (List.range (collSends op n rank)).filter (fun j => decide (sent ≤ j))
        match s.collSendAll r (fun j => collSlice op t rank count (at_ j).1 data j) (fun j => (at_ j).2) js with
        | (s, some x) => s.runStop r.cid x
        | (s, none) =>
          let s := s.dropGather r.cid
          if (redKey s r.wid).isSome && !(js.isEmpty) then s.modCmd r.cid (fun c => { c.land s.tick with sent := 0 })
          else s.modCmd r.cid (fun c => { c with sent := n, stage := .waiting })

/-- The sum over ranks of one element of the slots (R178). -/
def collReduce (t : BitVec 4) (slots : List (List Byte)) (i : Nat) : Word :=
  let w := fun (bs : List Byte) => BitVec.ofNat 32 (leValue ((bs.drop (4 * i)).take 4))
  match slots with
  | [] => 0#32
  | b :: r => r.foldl (fun a x => (reduceNode t 0 0 0 a (w x)).1) (w b)

/-- Whether the arrival word has reached EXPECT (R178). -/
def arrived (cell expect : Nat) : Bool := (BitVec.ofNat 32 cell - BitVec.ofNat 32 expect).toInt ≥ 0

/-- COLL_WAIT_END: the arrival word has reached EXPECT; the result is written. -/
def State.collWaitEnd (s : State) (cid : Nat) : State :=
  match tget s.cmds cid, runCtx s cid with
  | some c, some r =>
    match c.kind, c.stage with
    | .coll op t n rank count expect grp _, .waiting =>
      if c.cancelled || gatherPending s cid || putsPending s cid then s
      else
        match runRead1 s r 0 grp.toNat (16 * n) with
        | .error x => s.runStop cid x
        | .ok bs =>
          let (recv, cell) := (groupEntries n bs).getD rank (0, 0)
          match runRead1 s r 0 cell 4 with
          | .error x => s.runStop cid x
          | .ok v =>
            if !arrived (leValue v) expect then s.dropGather cid
            else
              let s := match translate s r.ctx r.xl false .read (BitVec.ofNat 64 cell) with
                | .ok (.dev d _) => s.noteAcquire r.ctx (runnerAgent s r.wid 8) 8 (tget s.lineRel (lineBase d))
                | _ => s
              let s := s.holdRun r .read [(grp.toNat, 16 * n), (cell, 4), (recv, n * count * 4)]
              if op == 1 || op == 2 then
                let k := count * 4
                match runRead s r 0 ((List.range n).map (fun j => (recv + j * k, k))) with
                | .error x => s.runStop cid x
                | .ok slots =>
                  let out := ((List.range count).map (fun i => leBytes (collReduce t slots i).toNat 4)).flatten
                  match s.runWrite1 r (recv + n * k) out with
                  | .error x => s.runStop cid x
                  | .ok s => (s.dropGather cid).modCmd cid (Cmd.land s.tick)
              else (s.dropGather cid).modCmd cid (Cmd.land s.tick)
    | _, _ => s
  | _, _ => s

def execCollWaitEnd (cmd : Nat) (s : State) : Out := .next (if cmdHalted s cmd then s else s.collWaitEnd cmd)

/-! ### RUNNER_DISPATCH -/

/-- A runner begins, or goes on with, a command. -/
def State.runCmd (s : State) (cid : Nat) (c : Cmd) (k : Nat) : State :=
  let s := s.modCmd cid (fun c => { c with stage := .running k, served := k })
  match runCtx s cid with
  | none => s
  | some r =>
    match c.kind with
    | .copy d e t st pad _ _ => s.copyWork r d e t st pad
    | .coll op t n rank count _ grp e => s.collWork r op t n rank count c.sent grp e
    | .program entry p args =>
      if (tget s.runners cid).isSome then s.modRunner cid (fun r => { r with grp := c.grp })
      else s.setRunner cid
        { grp := c.grp, wg := c.wg, cmd := cid,
          regs := (List.range p).map (fun i => if i < 32 then args.lane i else 0#32),
          pc := entry, opened := [], lines := [], xwt := none, since := s.tick, frozen := [] }

/-- RUNNER_DISPATCH: work that has its lines goes on first; then the group takes its next command. -/
def State.runnerDispatch (s : State) (g : Nat) : State :=
  match resumable s g with
  | some (i, c) => s.runCmd i c c.runner
  | none =>
    match idleRunner s g, nextCmd s g with
    | some k, some (i, c) => s.runCmd i c k
    | _, _ => s

def execRunnerDispatch (grp : Nat) (s : State) : Out := .next (s.runnerDispatch grp)

/-! ### The end of a command (R161, R170) -/

/-- The collective that a command is a slice of. -/
def cmdColl (s : State) (c : Cmd) : Option Collective :=
  match c.kind with
  | .copy _ _ _ _ _ _ (some k) =>
    match tget s.wgs c.wg with
    | some w => w.colls.find? (fun x => x.k == k)
    | none => none
  | _ => none

/-- A command's bytes have landed and are performed (R161). -/
def landed (s : State) (cid : Nat) : Bool :=
  match tget s.cmds cid with
  | some c => (c.stage == .landed || c.stage == .accepted) && c.sgc.isNone && c.held.isEmpty && !putsPending s cid
  | none => true

/-- Every slot has supplied its slice, and every slice has landed (R170). -/
def collLanded (s : State) (w : Workgroup) (x : Collective) : Bool :=
  w.slots.all (fun i => x.joined.contains i || slotExited s i) && x.pending.all (landed s)

/-- The follow-on command that is due at the end of a collective: that of the lowest-numbered slot that issued a
slice, if it issued CPYX (R170). -/
def collFollow (w : Workgroup) (x : Collective) : Option (BitVec 64 × Word × Word × Word) :=
  let low := x.joined.foldl (fun a i => min a (slotNumber w i)) w.slots.length
  match x.follow with
  | some (k, f) => if k == low then some f else none
  | none => none

/-- The follow-on command that a copy still owes (R172). -/
def followDue (s : State) (cid : Nat) : Option (BitVec 64 × Word × Word × Word) :=
  match tget s.cmds cid with
  | none => none
  | some c =>
    if c.stage != .landed || c.cancelled then none
    else
      match c.kind, tget s.wgs c.wg with
      | .copy _ _ _ _ _ fo none, some _ => if landed s cid then fo else none
      | .copy _ _ _ _ _ _ (some _), some w =>
        match cmdColl s c with
        | some x =>
          if collLanded s w x && !x.cancelled && (handleOf w c.handle).cmd == some cid &&
              !x.pending.any (fun i => (match tget s.cmds i with | some y => y.stage == .accepted | none => false)) then
            collFollow w x
          else none
        | none => none
      | _, _ => none

/-- FOLLOW_ON_COMMAND: the array accepts the follow-on command. -/
def State.followOn (s : State) (cid : Nat) : State :=
  match tget s.cmds cid, followDue s cid with
  | some c, some (word, a, b, x) =>
    match tget s.wgs c.wg, followInstr word with
    | some w, some (op, f) =>
      if 16 ≤ (mxQueue s w.core).length then s
      else
        let (_, s) := s.acceptMx w.core { followCmd op f a b x c.wg with handle := some c.handle, cmd := some cid }
        s.modCmd cid (fun c => { c with stage := .accepted })
    | _, _ => s
  | _, _ => s

def execFollowOnCommand (cmd : Nat) (s : State) : Out := .next (if cmdHalted s cmd then s else s.followOn cmd)

/-- A command has completed in the sense of R161. -/
def cmdComplete (s : State) (cid : Nat) : Bool :=
  match tget s.cmds cid with
  | none => false
  | some c =>
    !c.cancelled && landed s cid && (followDue s cid).isNone &&
    (match c.kind, tget s.wgs c.wg with
     | .copy _ _ _ _ _ _ (some _), some w =>
       match cmdColl s c with
       | some x => x.cancelled || (collLanded s w x && x.pending.all (fun i => (followDue s i).isNone))
       | none => true
     | _, _ => true)

/-- A command is over: its handle becomes full when it still is the command's, and the command is forgotten. -/
def State.handleFull (s : State) (cid : Nat) : State :=
  match tget s.cmds cid with
  | none => s
  | some c =>
    if !cmdComplete s cid then s
    else
      match tget s.wgs c.wg with
      | none => s
      | some w =>
        let x := handleOf w c.handle
        match cmdColl s c with
        | none =>
          let s := { s with cmds := tdel s.cmds cid }
          if x.st == .filling && x.cmd == some cid then
            (s.setHandle c.wg c.handle { x with st := .full }).wakeHandle c.wg c.handle
          else s
        | some k =>
          if k.cancelled then
            ({ s with cmds := tdel s.cmds cid }).modWg c.wg (fun w => { w with colls := w.colls.map (fun (y : Collective) =>
              if y.k == k.k then { y with pending := y.pending.filter (· != cid) } else y) })
          else
            let s := { s with cmds := s.cmds.filter (fun (i, _) => !k.pending.contains i) }
            let s := s.modWg c.wg (fun w => { w with colls := w.colls.filter (fun (y : Collective) => y.k != k.k) })
            (s.setHandle c.wg c.handle { x with st := .full }).wakeHandle c.wg c.handle

def execHandleFull (cmd : Nat) (s : State) : Out := .next (if cmdHalted s cmd then s else s.handleFull cmd)

/-! ### DRAIN_SETTLE (R163, R171) -/

/-- A draining handle may settle: what was sent is performed, and of a collective every slot has joined. -/
def drainReady (s : State) (wid h : Nat) : Bool :=
  match tget s.wgs wid with
  | none => false
  | some w =>
    (handleOf w h).st == .draining &&
    !s.cmds.any (fun (i, c) => c.wg == wid && c.handle == h && putsPending s i) &&
    w.colls.all (fun x => x.handle != some h || w.slots.all (fun i => x.joined.contains i || slotExited s i))

/-- The cancel of a handle settles: its runners stop, what has not been written is dropped, the handle is free. -/
def State.drainSettle (s : State) (wid h : Nat) : State :=
  if !drainReady s wid h then s
  else
    let mine := (s.cmds.filter (fun (_, c) => c.wg == wid && c.handle == h)).map (·.1)
    let s := { s with
      cmds := s.cmds.filter (fun (i, _) => !mine.contains i)
      runners := s.runners.filter (fun (_, r) => !mine.contains r.cmd)
      flights := s.flights.filter (fun (_, fl) => match fl.cmd with | some c => !mine.contains c | none => true) }
    let s := s.modWg wid (fun w => { w with colls := w.colls.filter (fun (x : Collective) => x.handle != some h) })
    (s.setHandle wid h { st := .free, cause := 0#8, cmd := none, owner := none }).wakeHandle wid h

def execDrainSettle (wg h : Nat) (s : State) : Out := .next (if wgHalted s wg then s else s.drainSettle wg h)

/-! ### RUNNER_GROUP_MERGE (R155) -/

/-- The compute dies that a die is bridged to. -/
def bridgedDies (d : Nat) : List Nat := if d == 0 || d == 3 then [1, 2] else [0, 3]

/-- The group with the most active runners among some, of those that serve themselves; the lowest on a tie. -/
def mostActive (s : State) (gs : List Nat) : Option Nat :=
  gs.foldl (fun (a : Option Nat) g =>
    if (groupRec s g).servedBy != g then a
    else
      match a with
      | none => some g
      | some b => if groupActive s b < groupActive s g then some g else a) none

/-- The group that one with too few active runners is merged with. -/
def mergeTarget (s : State) (die g : Nat) : Option Nat :=
  let own := ((List.range 4).map (fun k => 4 * die + k)).filter (fun k => k != 4 * die + g && decide (3 ≤ groupActive s k))
  match mostActive s own with
  | some t => some t
  | none => mostActive s ((bridgedDies die).map (fun d => (List.range 4).map (fun k => 4 * d + k))).flatten

/-- The number in a merged group of runner `k` of a group: one that a further group brought keeps its own (R155). -/
def homeRunner (g k : Nat) : Nat := if k < 16 then 16 * (g + 1) + k else k

/-- RUNNER_GROUP_MERGE: between launches, the merged group serves both and takes the commands of both. -/
def State.mergeGroups (s : State) (die g : Nat) : State :=
  let me := 4 * die + g
  if !s.launches.isEmpty || (groupRec s me).servedBy != me || decide (3 ≤ groupActive s me) then s
  else
    match mergeTarget s die g with
    | none => s
    | some t =>
      let a := (groupRec s t).active ++ (groupRec s me).active.map (homeRunner me)
      let gs := (List.range 16).filter (fun k => (groupRec s k).servedBy == me)
      let s := { s with groups := tset s.groups t { active := a, servedBy := t } }
      let s := gs.foldl (fun (s : State) k => { s with groups := tset s.groups k { groupRec s k with servedBy := t } }) s
      { s with cmds := s.cmds.map (fun ((i, c) : Nat × Cmd) => (i, if c.grp == me then { c with grp := t } else c)) }

def execRunnerGroupMerge (die grp : Nat) (s : State) : Out := .next (s.mergeGroups die grp)

end Sys2Proof.Machine
end

