-- ==== Sys2Proof/Machine/Queues.lean ====
section
/-!
DEFINITION. The packet cores: the context table (R118, R366), the fetch of packets (R368, R371, R372), queue errors
(R370), and the packets NOP, CHAIN, INVAL, SIGNAL and WAITV with their events (R120, R370, R372).
-/
namespace Sys2Proof.Machine

/-! ### Contexts and what the packet cores read -/

/-- The context that owns a queue (R367). -/
def queueCtx (s : State) (q : QueueRef) : CtxKey := { fn := q.fn, id := descField s q 383 368 }

/-- A context's table entry (R366); one beyond the function's window is zero. -/
def ctxEntry (s : State) (c : CtxKey) : BitVec 512 :=
  match fnRec s c.fn with
  | some f =>
    match fnAddr s c.fn ((f.ctxtab.extractLsb' 6 34).toNat * 64 + 64 * c.id) 64 with
    | some a => readLine s.mem a
    | none => 0#512
  | none => 0#512

/-- A 32-bit word of a line. -/
def lineWord (l : BitVec 512) (i : Nat) : Word := l.extractLsb' (32 * i) 32

/-- A launch of the context has been accepted and not completed. -/
def ctxRuns (s : State) (c : CtxKey) : Bool := s.launches.any (fun (_, l) => l.ctx == c)

/-- The registers of R118 as last written, which the next launch takes. -/
def writtenXl (x : Ctx) : List (BitVec 32) := [x.xlroot, x.xlctl, x.objtab, x.objcnt, x.fqbase]

/-- A context takes what software has changed in its table entry since the device last read it. -/
def takeEntry (x : Ctx) (e : BitVec 512) : Ctx :=
  { (List.range 6).foldl (fun (y : Ctx) i =>
      if lineWord e i == lineWord x.entry i then y else srWriteCtx y (0x810 + i) (lineWord e i)) x with entry := e }

/-- The line of a context's table entry is poisoned (R102). -/
def entryPoisoned (s : State) (c : CtxKey) : Bool :=
  match fnRec s c.fn with
  | some f =>
    match fnAddr s c.fn ((f.ctxtab.extractLsb' 6 34).toNat * 64 + 64 * c.id) 64 with
    | some a => poisoned s a
    | none => false
  | none => false

/-- Read a context's table entry; the registers come into force while no launch of the context runs (R118). -/
def State.readEntry (s : State) (c : CtxKey) : State :=
  let x := takeEntry (ctxOf s c) (ctxEntry s c)
  s.setCtx c (if ctxRuns s c then x else { x with force := writtenXl x })

/-- The packet cores as an agent, for one queue. -/
def queueAgent (q : QueueRef) : Nat := 2 ^ 41 + q.fn * 64 + q.q

/-- The packet cores' accesses for a queue, under a list of translation registers. -/
def queueRun (s : State) (q : QueueRef) (xl : List (BitVec 32)) : RunCtx :=
  { cid := queueAgent q, wid := 2 ^ 41, ctx := queueCtx s q, xl := xl, held := [] }

/-- The release record of the packet cores. -/
def queueRel (s : State) (q : QueueRef) (scope : Nat) : RelRec :=
  { serviceRel (queueCtx s q).fn with scope := scope }

/-- A fault of the packet cores is posted (R116, R370, R376). REQ and RUN are 0: R116 gives codes for fibres and runners alone
(DESIGN CHOICE, log entry 51). -/
def State.queueFault (s : State) (q : QueueRef) (x : AccFault) : State :=
  let c := queueCtx s q
  s.postFault c { tick := s.tick, va := x.va, obj := 0, asid := xlAsid (ctxOf s c).force, kind := x.kind,
                  acc := x.acc, run := false, req := 0, lanes := 0#32, rpl := false }

/-! ### The next packet (R368, R371, R372) -/

/-- A packet from its 16 bytes (R369). -/
def packetOf (n : Nat) : Packet :=
  { ptr := BitVec.ofNat 64 (bitsOf n 127 64), arg := BitVec.ofNat 32 (bitsOf n 63 32),
    rsvdHi := BitVec.ofNat 19 (bitsOf n 31 13), obj := bitsOf n 12 12 == 1, alla := bitsOf n 11 11 == 1,
    ind := bitsOf n 10 10 == 1, irq := bitsOf n 9 9 == 1, bar := bitsOf n 8 8 == 1,
    rsvdLo := BitVec.ofNat 4 (bitsOf n 7 4), ty := BitVec.ofNat 4 (bitsOf n 3 0) }

/-- The CHAIN whose block goes on: the one that began last of those that have packets left. -/
def openChain (x : Queue) : Option (Pkt × Addr × Nat) :=
  (x.pkts.filterMap (fun (p : Pkt) => match p.kind with
    | .chain block count next => if next < count then some (p, block, next) else none
    | _ => none)).getLast?

/-- LOGN of a queue: below 4, as in a descriptor that nothing has written, its reset value 4 (R367, log entry 51). -/
def queueLogn (s : State) (q : QueueRef) : Nat := max 4 (descField s q 354 350)

/-- Where the next packet of a queue lies, its depth and its CHAIN; none when the queue is not served or has none. -/
def nextAddr (s : State) (q : QueueRef) : Option (Nat × Nat × Option Nat) :=
  if q.q ≥ 64 || (fnRec s q.fn).isNone || s.boot != .up || s.contained then none
  else if descField s q 356 356 == 0 || descField s q 355 355 == 1 then none
  else
    match openChain (queueOf s q) with
    | some (p, block, next) => some (block.toNat + 16 * next, p.depth + 1, some p.id)
    | none =>
      let head := descField s q 415 384
      if head == descField s q 447 416 then none
      else some (descField s q 511 448 + 16 * (head % 2 ^ queueLogn s q), 0, none)

/-- A CHAIN and those that hold it, on fuel. -/
def chainsOf : Nat → Queue → Option Nat → List Nat
  | 0, _, _ => []
  | _, _, none => []
  | fuel + 1, x, some id =>
    id :: chainsOf fuel x (match x.pkts.find? (fun p => p.id == id) with
      | some p => p.parent
      | none => none)

/-- A queue error (R370, R372): ERR and HALT are written and HEAD stands at the packet; an error in a block gives up
the block, and HEAD stands at the CHAIN of the ring. -/
def State.queueError (s : State) (q : QueueRef) (parent : Option Nat) (code : Nat) : State :=
  let s := s.dropGather (queueAgent q)
  let s := (s.setDesc q 367 360 code).setDesc q 355 355 1
  let x := queueOf s q
  let s := s.setQueue q { x with latch := none }
  match parent with
  | none => s
  | some c =>
    let up := chainsOf 6 x parent
    let s := s.setQueue q { x with latch := none, pkts := x.pkts.filter (fun p => !(up.contains p.id)) }
    match x.pkts.find? (fun p => p.id == c) with
    | some p => s.setDesc q 415 384 p.head
    | none => s

/-- A packet that has begun meets a queue error: it is given up, and HEAD stands at it, or at the CHAIN of the ring that holds it
(R370, R372). -/
def State.packetError (s : State) (q : QueueRef) (p : Pkt) (code : Nat) : State :=
  let x := queueOf s q
  let s := (s.setQueue q { x with pkts := x.pkts.filter (fun y => y.id != p.id) }).queueError q p.parent code
  s.setDesc q 415 384 p.head

/-- The misuse of a packet (R370): its code. -/
def misuse (q : QueueRef) (p : Packet) (depth : Nat) : Option Nat :=
  let low := fun (n : Nat) => p.ptr.toNat % n != 0
  match p.ty.toNat with
  | 0 =>
    if p.ptr != 0#64 || p.arg != 0#32 || p.rsvdHi != 0#19 || p.rsvdLo != 0#4 || p.obj || p.alla || p.ind || p.irq || p.bar then some 1
    else none
  | 1 => if p.obj || p.alla || p.arg != 0#32 || low 128 then some 1 else none
  | 2 => if low 16 || p.arg.toNat ≥ 2 ^ 16 then some 1 else if 4 ≤ depth then some 3 else none
  | 3 => if (p.alla && q.fn != 0) || p.ind || low 4096 then some 1 else none
  | 4 => if p.obj || p.alla || p.ind || low 4 then some 1 else none
  | 5 => if p.obj || p.alla || p.ind || low 4 then some 1 else none
  | _ => some 2

/-- A packet begins (R371): HEAD, or its block's position, moves past it, and it stands among those not completed. -/
def State.beginPkt (s : State) (q : QueueRef) (parent : Option Nat) (p : Pkt) : State :=
  let s := s.dropGather (queueAgent q)
  let x := queueOf s q
  let pkts := x.pkts.map (fun (y : Pkt) =>
    if some y.id == parent then
      { y with kind := match y.kind with
          | .chain block count next => .chain block count (next + 1)
          | k => k }
    else y)
  let head := match parent.bind (fun c => x.pkts.find? (fun y => y.id == c)) with
    | some y => y.head
    | none => descField s q 415 384
  let s := s.setQueue q { x with pkts := pkts ++ [{ p with head := head }], latch := none }
  if parent.isNone then s.setDesc q 415 384 (descField s q 415 384 + 1) else s

/-- The next packet of a queue, when it is ready to begin: its place among the packets, or the state that reading it
brings about. `ty` admits the types that the event serves. -/
inductive PktRead where
  | wait (s : State)
  | ready (s : State) (depth : Nat) (parent : Option Nat)
  deriving DecidableEq, Repr

def readPacket (s : State) (q : QueueRef) (p : Packet) (ty : Nat → Bool) : PktRead :=
  match nextAddr s q with
  | none => .wait s
  | some (va, depth, parent) =>
    if !ty p.ty.toNat then .wait s
    else if entryPoisoned s (queueCtx s q) then
      .wait ((s.queueFault q { kind := 6, va := 0#64, acc := 0, obj := 0, lane := 0, replayable := false }).queueError q parent 4)
    else
      let s1 := s.readEntry (queueCtx s q)
      let r := queueRun s1 q (ctxOf s1 (queueCtx s q)).force
      match runRead s1 r 0 [(va % 2 ^ 64, 16)] with
      | .error (.need ls) => .wait (s1.gather r ls)
      | .error (.fault x) => .wait ((s1.queueFault q x).queueError q parent 4)
      | .error (.cause _) => .wait s1
      | .ok bs =>
        if packetOf (leValue bs.flatten) != p then .wait s
        else
          let up := chainsOf 6 (queueOf s q) parent
          if p.bar && (queueOf s q).pkts.any (fun y => !(up.contains y.id)) then .wait s
          else
            match misuse q p depth with
            | some code => .wait (s1.queueError q parent code)
            | none => .ready s1 depth parent

/-- The record of a packet that begins. -/
def newPkt (id : Nat) (kind : PktKind) (p : Packet) (depth : Nat) (parent : Option Nat) : Pkt :=
  { id := id, kind := kind, irq := p.irq, depth := depth, parent := parent }

/-! ### NOP and CHAIN -/

/-- A packet without work of its own, and one of a reserved type. -/
def execNopPacket (q : QueueRef) (p : Packet) (s : State) : Out :=
  match readPacket s q p (fun t => t == 0 || decide (6 ≤ t)) with
  | .wait s => .next s
  | .ready s depth parent =>
    let (id, s) := s.newId
    .next ((s.beginPkt q parent (newPkt id (.signal none) p depth parent)).completePkt q id)

/-- CHAIN: its block's packets run in place of it (R372). -/
def execChain (q : QueueRef) (p : Packet) (s : State) : Out :=
  match readPacket s q p (fun t => t == 2) with
  | .wait s => .next s
  | .ready s depth parent =>
    let (id, s) := s.newId
    .next (s.beginPkt q parent (newPkt id (.chain p.ptr (p.arg.toNat % 2 ^ 16 + 1) 0) p depth parent))

/-! ### SIGNAL and WAITV (R370) -/

/-- A poisoned word met by a packet (R370, R429). -/
def State.poisonedWord (s : State) (q : QueueRef) (va : Addr) (dpa : Nat) : State :=
  s.errorRecord (dieOf dpa) 0x28 1 va.toNat q.q 0 0#32 (some (queueCtx s q)) 0#8

/-- SIGNAL: the write of ARG is a release at .sys. -/
def execSignal (q : QueueRef) (p : Packet) (s : State) : Out :=
  match readPacket s q p (fun t => t == 4) with
  | .wait s => .next s
  | .ready s depth parent =>
    let r := queueRun s q (ctxOf s (queueCtx s q)).force
    match translate s r.ctx r.xl false .write p.ptr with
    | .error k =>
      .next ((s.queueFault q { kind := k, va := p.ptr, acc := 1, obj := 0, lane := 0, replayable := false }).queueError q parent 4)
    | .ok (.dev d _) =>
      if poisoned s d then .next ((s.poisonedWord q p.ptr d).queueError q parent 6)
      else
        let (id, s) := s.newId
        let s := s.beginPkt q parent (newPkt id (.signal none) p depth parent)
        .next (((s.sliceWriteNat d 4 p.arg.toNat).setRel d (some (queueRel s q 9))).completePkt q id)
    | .ok _ =>
      match runLines s r 0 [(p.ptr.toNat, leBytes p.arg.toNat 4)] with
      | .error _ => .next s
      | .ok ls =>
        let flt := if (peerLines ls).isEmpty then none else some s.ids
        let s := s.performLines r ls
        let (id, s) := s.newId
        let s := s.beginPkt q parent (newPkt id (.signal flt) p depth parent)
        .next (if flt.isNone then s.completePkt q id else s)

/-- WAITV's condition: the word has reached ARG. -/
def waitvMet (w arg : Word) : Bool := decide (0 ≤ (w - arg).toInt)

/-- What a WAITV finds when it reads its word as an acquire at .sys. -/
inductive WaitvRead where
  | met (s : State)
  | unmet (s : State)
  | bad (s : State) (code : Nat)
  | need (s : State)
  deriving DecidableEq, Repr

def readWaitv (s : State) (q : QueueRef) (va : Addr) (arg : Word) : WaitvRead :=
  let r := queueRun s q (ctxOf s (queueCtx s q)).force
  match runRead s r 0 [(va.toNat, 4)] with
  | .error (.need ls) => .need (s.gather r ls)
  | .error (.fault x) =>
    if x.kind == 6 then
      match translate s r.ctx r.xl false .read va with
      | .ok (.dev d _) => if poisoned s d then .bad (s.poisonedWord q va d) 6 else .bad (s.queueFault q x) 4
      | _ => .bad (s.queueFault q x) 4
    else .bad (s.queueFault q x) 4
  | .error (.cause _) => .unmet s
  | .ok bs =>
    let s := match translate s r.ctx r.xl false .read va with
      | .ok (.dev d _) => s.noteAcquire r.ctx (queueRel s q 9) 9 (tget s.lineRel (lineBase d))
      | _ => s
    let s := s.dropGather r.cid
    if waitvMet (BitVec.ofNat 32 (leValue bs.flatten)) arg then .met s else .unmet s

/-- WAITV begins, and completes at once when its word has already reached ARG. -/
def execWaitv (q : QueueRef) (p : Packet) (s : State) : Out :=
  match readPacket s q p (fun t => t == 5) with
  | .wait s => .next s
  | .ready s depth parent =>
    match readWaitv s q p.ptr p.arg with
    | .need s => .next s
    | .bad s code => .next (s.queueError q parent code)
    | .met s =>
      let (id, s) := s.newId
      .next ((s.beginPkt q parent (newPkt id (.waitv p.ptr p.arg) p depth parent)).completePkt q id)
    | .unmet s =>
      let (id, s) := s.newId
      .next (s.beginPkt q parent (newPkt id (.waitv p.ptr p.arg) p depth parent))

/-- A WAITV of the queue reads its word again. -/
def State.recheckWaitv (s : State) (q : QueueRef) (p : Pkt) : State :=
  match p.kind with
  | .waitv va arg =>
    match readWaitv s q va arg with
    | .met s => s.completePkt q p.id
    | .unmet s => s
    | .need s => s
    | .bad s code => s.packetError q p code
  | _ => s

def execWaitvRecheck (q : QueueRef) (s : State) : Out :=
  .next ((queueOf s q).pkts.foldl (fun (s : State) p => s.recheckWaitv q p) s)

/-! ### INVAL (R120) -/

/-- An address lies among the pages that a request names: `n` pages of 4 KiB from `va`, or all for 0. -/
def invalTakes (va n x size : Nat) : Bool := n == 0 || (decide (x < va + 4096 * n) && decide (va < x + size))

/-- A request names an address space of the queue's function: its context's, or all for ALLA (R120, R369). -/
def invalAsid (s : State) (q : QueueRef) (alla : Bool) (fn : Nat) (asid : BitVec 12) : Bool :=
  fn == q.fn && (alla || asid == xlAsid (ctxOf s (queueCtx s q)).force)

/-- The contexts of the address spaces that a request names. -/
def invalCtx (s : State) (q : QueueRef) (alla : Bool) (c : CtxKey) : Bool := invalAsid s q alla c.fn (xlAsid (ctxOf s c).force)

/-- A held translation that a request removes (R120 step 2). -/
def invalEntry (s : State) (q : QueueRef) (alla : Bool) (va n : Nat) (t : TlbEntry) : Bool :=
  invalAsid s q alla t.fn t.asid && invalTakes va n t.vbase t.size

/-- The ranges of addresses whose accesses a request waits for: the pages named, as address and count of pages, and all that the
removed translations map. -/
def invalRanges (s : State) (q : QueueRef) (alla : Bool) (va n : Nat) : List (Nat × Nat) :=
  (va, n) :: (s.tlb.filter (invalEntry s q alla va n)).map (fun t => (t.vbase, t.size / 4096))

/-- An access of `size` bytes at an address is waited for. -/
def invalHits (rs : List (Nat × Nat)) (x size : Nat) : Bool := rs.any (fun r => invalTakes r.1 r.2 x size)

/-- A flight has an access that is waited for. -/
def flightHits (rs : List (Nat × Nat)) (fl : Flight) : Bool :=
  fl.lines.any (fun ln => invalHits rs ln.va.toNat 64) || fl.lanes.any (fun x => invalHits rs x.va.toNat 16)

/-- INVAL (R120): the matching translations go, and the accesses made under them are waited for. -/
def execInval (q : QueueRef) (p : Packet) (s : State) : Out :=
  match readPacket s q p (fun t => t == 3) with
  | .wait s => .next s
  | .ready s depth parent =>
    let va := p.ptr.toNat
    let n := p.arg.toNat
    let c := fun (k : CtxKey) => invalCtx s q p.alla k
    let gone := fun (t : TlbEntry) => invalEntry s q p.alla va n t
    let rs := invalRanges s q p.alla va n
    let fl := (s.flights.filter (fun (_, x) => c x.ctx && flightHits rs x)).map (·.1)
    let es := (s.cores.map (fun (i, k) => (k.path.filter (fun (_, e) => c e.ctx && invalHits rs e.va.toNat 64)).map
      (fun (j, _) => (i, j)))).flatten
    let mx := (s.cores.map (fun (i, k) => (k.mq.filter (fun (_, x) => x.departed && !x.pages.isEmpty && (match tget s.wgs x.wg with
      | some w => c w.ctx
      | none => false))).map (fun (j, _) => (i, j)))).flatten
    let cm := (s.cmds.filter (fun (_, x) => x.stage != .queued && (match tget s.wgs x.wg with
      | some w => c w.ctx
      | none => false))).map (·.1)
    let (id, s) := s.newId
    let s := s.beginPkt q parent (newPkt id (.inval id) p depth parent)
    .next { s with
      tlb := s.tlb.filter (fun t => !(gone t))
      objs := if p.obj then s.objs.filter (fun x => !(c x.1)) else s.objs
      invals := tset s.invals id { qr := q, pkt := id, flights := fl, entries := es, cmds := cm, mx := mx } }

/-- The work that an invalidation waits for has ended. -/
def invalOver (s : State) (x : Inval) : Bool :=
  x.flights.all (fun i => (tget s.flights i).isNone) &&
  x.entries.all (fun (i, j) => (tget (coreOf s i).path j).isNone) &&
  x.mx.all (fun (i, j) => (tget (coreOf s i).mq j).isNone) &&
  x.cmds.all (fun i => match tget s.cmds i with
    | none => true
    | some c => c.stage == .landed || c.stage == .accepted)

/-- INVAL_COMPLETE. -/
def execInvalComplete (id : Nat) (s : State) : Out :=
  match tget s.invals id with
  | none => .next s
  | some x =>
    if !invalOver s x then .next s
    else .next ({ s with invals := tdel s.invals id }.completePkt x.qr x.pkt)

/-! ### The doorbell (R368) -/

/-- DBELL: a new TAIL, or the queue error 0x05. -/
def execDbell (q : QueueRef) (tail : Word) (s : State) : Out :=
  if q.q ≥ 64 || (fnRec s q.fn).isNone || s.boot != .up then .next s
  else
    let head : Word := BitVec.ofNat 32 (descField s q 415 384)
    let dbt : Word := BitVec.ofNat 32 (descField s q 447 416)
    let size := 2 ^ queueLogn s q
    if decide (size < (tail - head).toNat) || decide ((tail - head).toNat < (dbt - head).toNat) then
      .next ((s.setDesc q 367 360 5).setDesc q 355 355 1)
    else .next (s.setDesc q 447 416 tail.toNat)

end Sys2Proof.Machine
end

