-- ==== Sys2Proof/Machine/Launch.lean ====
section
/-!
DEFINITION. The launch: the record (R374), the levels of a launch (R335, R336, R375), the launch check (R376, R377,
R380), acceptance (R378, R379) and the measurement of an enclave (R436).
-/
namespace Sys2Proof.Machine

/-! ### The record (R374) -/

/-- The fields of a launch record; `g` is the group count as R373 latches it. -/
def recordOf (addr : Addr) (n g : Nat) : Record :=
  { addr := addr, stksz := bitsOf n 959 928, g := g, x := (List.range 6).map (fun i => bitsOf n (815 + 16 * i) (800 + 16 * i)),
    fairlim := bitsOf n 799 784 + 1, wdt := bitsOf n 703 656, cbars := bitsOf n 607 602, banks := bitsOf n 601 600,
    tiles := bitsOf n 599 595, pool := bitsOf n 591 591 == 1, shoff := bitsOf n 589 589 == 1, rdn := bitsOf n 588 588 == 1,
    det := bitsOf n 587 587 == 1, auxa := BitVec.ofNat 64 (bitsOf n 511 448), pmapa := BitVec.ofNat 64 (bitsOf n 447 384),
    cpla := BitVec.ofNat 64 (bitsOf n 383 320), wda := BitVec.ofNat 64 (bitsOf n 319 256),
    stkbase := BitVec.ofNat 64 (bitsOf n 255 192), seed := BitVec.ofNat 64 (bitsOf n 191 128), fbase := bitsOf n 95 64,
    ccnt := bitsOf n 991 960 }

/-- The address of the kernel header. -/
def recKhdr (n : Nat) : Addr := BitVec.ofNat 64 (bitsOf n 63 0)

/-- SEEDSRC. -/
def recSeedsrc (n : Nat) : Bool := bitsOf n 590 590 == 1

/-- ICNTA. -/
def recIcnta (n : Nat) : Nat := bitsOf n 575 512

/-! ### Levels (R335, R336, R375) -/

/-- The domain of a level descriptor (R96). -/
def lvlDomain (d : BitVec 8) : Nat := d.toNat % 8

/-- The scope of a level descriptor (R96). -/
def lvlScope (d : BitVec 8) : Nat := d.toNat / 8 % 16

/-- The scope that a domain has of its own (R335). -/
def ownScope (d : Nat) : Nat := [2, 3, 5, 6, 7, 8].getD d 9

/-- The level bound to the workgroup; 1 without declared levels. -/
def wgLevel (h : Header) : Nat := if h.nlev == 0 then 1 else 2 + (h.lvl.map lvlDomain).idxOf 1

/-- The extent X_n. -/
def extentOf (r : Record) (n : Nat) : Nat := r.x.getD (n - 2) 0

/-- The product of the extents X_a to X_b. -/
def extents (r : Record) (a b : Nat) : Nat :=
  (List.range (b + 1 - a)).foldl (fun p k => p * extentOf r (a + k)) 1

/-- The fibres of one workgroup (R335). -/
def wgFibres (h : Header) (r : Record) : Nat := if h.nlev == 0 then h.nfib else extents r 2 (wgLevel h)

/-- The workgroups of a launch (R375). -/
def wgCount (h : Header) (r : Record) : Nat := r.g * extents r (wgLevel h + 1) (1 + h.nlev)

/-- The slots of one workgroup. -/
def wgSlots (h : Header) (r : Record) : Nat := (wgFibres h r + h.nfib - 1) / h.nfib

/-- The domains of the declared levels rise strictly. -/
def domainsRise : List Nat → Bool
  | a :: b :: r => decide (a < b) && domainsRise (b :: r)
  | _ => true

/-- The conditions of R335, and that W is at most 2^32 - 1 (R376). -/
def hierarchyOk (h : Header) (r : Record) : Bool :=
  (h.nlev == 0 ||
    (let ds := h.lvl.map lvlDomain
     domainsRise ds && ds.contains 1 && (!(ds.contains 0) || extentOf r 2 == h.nfib) &&
     decide (1 ≤ wgFibres h r) && decide (wgFibres h r ≤ 256) && decide (wgSlots h r ≤ 64) &&
     h.lvl.all (fun d => decide (ownScope (lvlDomain d) ≤ lvlScope d)) &&
     (List.range h.nlev).all (fun k => decide (1 ≤ extentOf r (2 + k))))) &&
  decide (wgCount h r < 2 ^ 32)

/-- The index of workgroup w's unit at level n above the workgroup level (R375). -/
def unitOf (h : Header) (r : Record) (w n : Nat) : Nat := w / extents r (wgLevel h + 1) n

/-- The levels above the workgroup that are bound to a cluster or a die, with the divisor of a core code that gives it. -/
def boundLevels (h : Header) : List (Nat × Nat) :=
  h.lvl.zipIdx.filterMap (fun (d, i) =>
    if lvlDomain d == 2 then some (i + 2, 16) else if lvlDomain d == 3 then some (i + 2, 256) else none)

/-- The coordinates crd1 to crd7 of fibre j of workgroup w, by the levels from 1 up to the top, the top unit's index
without FBASE (R336). -/
def rawCoords (h : Header) (r : Record) (w j : Nat) : List Nat :=
  if h.nlev == 0 then [h.nfib * w + j]
  else
    let wl := wgLevel h
    let low := (List.range (wl - 1)).foldl (fun (a : List Nat × Nat) k =>
      let x := extentOf r (k + 2)
      (a.1 ++ [a.2 % x], a.2 / x)) ([], j)
    let high := (List.range (1 + h.nlev - wl)).foldl (fun (a : List Nat × Nat) k =>
      let x := extentOf r (wl + 1 + k)
      (a.1 ++ [a.2 % x], a.2 / x)) ([], w)
    low.1 ++ high.1 ++ [high.2]

/-- crd1 to crd7 as selectors 71 to 77 read them: FBASE is added to a top level bound to fabric (R336, R374). -/
def crdList (h : Header) (r : Record) (w j : Nat) : List Nat :=
  let c := rawCoords h r w j
  let fab := h.lvl.getLast?.map lvlDomain == some 5
  let c := if fab then c.modify (c.length - 1) (fun x => (x + r.fbase) % 2 ^ 32) else c
  (c ++ List.replicate 7 0).take 7

/-- The launch-wide index u of a fibre (R336), from which its threads' tid follows. -/
def fibreIndex (h : Header) (r : Record) (w j : Nat) : Nat :=
  if h.nlev == 0 then h.nfib * w + j
  else
    let c := rawCoords h r w j
    (List.range h.nlev).foldr (fun k u => c.getD k 0 + extentOf r (k + 2) * u) (c.getD h.nlev 0)

/-! ### Room on a core (R377) -/

/-- The grants of a workgroup's slots (R207): registers of each slot in ascending order. -/
def slotGrants (h : Header) (r : Record) : List Nat :=
  let f := wgFibres h r
  (List.range (wgSlots h r)).map (fun k => (min h.nfib (f - k * h.nfib)) * h.priv + h.shared)

/-- A scheduler's room: free registers and free slot indices, ascending. -/
abbrev SchedRoom := List (Nat × List Nat)

/-- The scheduler that takes a slot: of those with room, the one with the fewest occupied slots (R377). -/
def pickSched (room : SchedRoom) (g : Nat) : Option Nat :=
  (List.range 4).foldl (fun (a : Option Nat) k =>
    let (regs, free) := room.getD k (0, [])
    if regs < g || free.isEmpty then a
    else
      match a with
      | some j => if (room.getD j (0, [])).2.length < free.length then some k else a
      | none => some k) none

/-- The scheduler and slot index of each slot of a workgroup, if all find room. -/
def placeSlots : List Nat → SchedRoom → Option (List (Nat × Nat))
  | [], _ => some []
  | g :: gs, room =>
    match pickSched room g with
    | none => none
    | some k =>
      let (regs, free) := room.getD k (0, [])
      match placeSlots gs (room.set k (regs - g, free.drop 1)) with
      | none => none
      | some r => some ((k, free.headD 0) :: r)

/-- An empty core's room. -/
def emptyRoom : SchedRoom := List.replicate 4 (1024, List.range 16)

/-- One workgroup fits an empty core (R377); the scratchpad and the ranges are those of the header and the record. -/
def fitsEmpty (h : Header) (r : Record) : Bool :=
  decide (wgSlots h r ≤ 64) && (placeSlots (slotGrants h r) emptyRoom).isSome && decide (h.scratch ≤ 2 ^ 19) &&
  decide (r.tiles ≤ 16) && decide (r.banks ≤ 2) && decide (r.cbars ≤ 32)

/-! ### The launch check (R376) -/

/-- The record's reserved fields are zero, every field is in range, and ICNTA is 0 unless IND is set (0x07). -/
def recordFormed (n : Nat) (h : Header) (r : Record) (ind : Bool) : Bool :=
  bitsOf n 783 768 == 0 && bitsOf n 719 704 == 0 && bitsOf n 655 608 == 0 && bitsOf n 594 592 == 0 &&
  bitsOf n 586 576 == 0 && bitsOf n 127 96 == 0 &&
  (r.pool || r.ccnt == 0) && (r.rdn || r.pool || r.auxa == 0#64) &&
  r.x.zipIdx.all (fun (x, i) => decide (i < h.nlev) || x == 0) &&
  decide (64 ≤ r.fairlim) && decide (1024 ≤ r.wdt) && decide (r.cbars ≤ 32) && decide (r.banks ≤ 2) &&
  decide (r.tiles ≤ 16) && r.stksz % 8 == 0 && r.pmapa.toNat % 4 == 0 && r.cpla.toNat % 16 == 0 &&
  r.wda.toNat % 64 == 0 && r.stkbase.toNat % 8 == 0 && (recKhdr n).toNat % 64 == 0 && (ind || recIcnta n == 0)

/-- The map is legal for a core table (R377). -/
def mapLegal (h : Header) (r : Record) (map remap : List Nat) : Bool :=
  map.all (fun e => decide (e < remap.length)) &&
  (boundLevels h).all (fun (n, d) =>
    map.zipIdx.all (fun (e, w) =>
      remap.getD e 0 / d == remap.getD (map.getD (w / extents r (wgLevel h + 1) n * extents r (wgLevel h + 1) n) 0) 0 / d))

/-- Size of a continuation record (R380). -/
def poolRecord (h : Header) : Nat := 128 + 4 * h.priv

/-- A continuation record passes (R380). -/
def poolRecordOk (n : Nat) : Bool :=
  bitsOf n 1023 704 == 0 && bitsOf n 138 136 == 0 && bitsOf n 0 0 == 0 && bitsOf n 159 144 ≤ 8 && bitsOf n 135 128 ≤ 31

/-- The first failing row of R376 between 0x01 and 0x0A. -/
def checkCode (n : Nat) (hn : Nat) (h : Header) (r : Record) (ind : Bool) (map : List Nat) (remap : List Nat) : Nat :=
  let lvls := (List.range 6).map (fun i => bitsOf n (727 + 8 * i) (720 + 8 * i))
  if !headerOk hn || h.kind != 0 then 2
  else if lvls != (List.range 6).map (fun i => bitsOf hn (255 + 8 * i) (248 + 8 * i)) then 3
  else if !hierarchyOk h r then 4
  else if (r.rdn && !h.rdnc) || (r.det && (!h.detc || recSeedsrc n)) then 5
  else if (r.pool && (r.rdn || r.det)) || (r.det && r.pmapa == 0#64) || (r.auxa == 0#64 && (r.rdn || r.pool)) then 6
  else if !recordFormed n h r ind then 7
  else if !fitsEmpty h r then 8
  else if r.pmapa != 0#64 && !mapLegal h r map remap then 9
  else 0

/-- The placement map's ranges: one word for each workgroup, when there is a map and the workgroups can be counted. -/
def mapRanges (hn : Nat) (h : Header) (r : Record) : List (Nat × Nat) :=
  if r.pmapa != 0#64 && headerOk hn && hierarchyOk h r then
    (List.range (wgCount h r)).map (fun w => ((r.pmapa.toNat + 4 * w) % 2 ^ 64, 4))
  else []

/-- The heads of the continuation records of a pool launch that can be read. -/
def poolRanges (hn : Nat) (h : Header) (r : Record) : List (Nat × Nat) :=
  if r.pool && headerOk hn && r.auxa != 0#64 then
    (List.range r.ccnt).map (fun i => ((r.auxa.toNat + i * poolRecord h) % 2 ^ 64, 128))
  else []

/-- What the packet core reads for a launch: the record, the latched group count, the header, the map. -/
structure LaunchRead where
  recN : Nat
  g : Nat
  hdrN : Nat
  map : List Nat
  deriving DecidableEq, Repr

/-- The record and the group count: the word at ICNTA, latched at the first read, or the record's own (R373). -/
def readCount (s : State) (q : QueueRef) (r : RunCtx) (a : Addr) (ind : Bool) : Except RStop (Nat × Nat) := do
  let one := fun (xs : List (List Byte)) => leValue xs.flatten
  let n := one (← runRead s r 0 [(a.toNat, 128)])
  if ind then
    match (queueOf s q).latch with
    | some g => pure (n, g)
    | none => do
      let b ← runRead s r 0 [(recIcnta n, 4)]
      pure (n, one b)
  else pure (n, bitsOf n 927 896)

/-- The latched count is written into the record's G field, before any check; where that write faults nothing is written. -/
def State.latchCount (s : State) (q : QueueRef) (c : CtxKey) (xl : List (BitVec 32)) (a : Addr) (g : Nat) : State :=
  if (queueOf s q).latch.isSome then s
  else
    let s := match writeVirtual s c xl false (a.toNat + 112) (leBytes g 4) with
      | .ok s => s
      | .error _ => s
    s.setQueue q { queueOf s q with latch := some g }

/-- The header and the map. -/
def readLaunch (s : State) (r : RunCtx) (a : Addr) (n g : Nat) : Except RStop LaunchRead := do
  let khdr := recKhdr n
  let hn := leValue (← runRead s r 0 [(khdr.toNat, 64)]).flatten
  let map ← runRead s r 0 (mapRanges hn (headerOf (khdr + 64#64) hn) (recordOf a n g))
  pure { recN := n, g := g, hdrN := hn, map := map.map leValue }

/-! ### Acceptance (R378, R379) -/

/-- The core table of a function's partition. -/
def coreTable (s : State) (fn : Nat) : List Nat := (partRec s fn).remap

/-- The initial rounding state of a thread (R46). -/
def seedState (seed : BitVec 64) (tid : Nat) : BitVec 64 := seed ^^^ (BitVec.ofNat 64 tid * 0x9E3779B97F4A7C15#64)

/-- The device writes RSTATE into each initial continuation record (R380). -/
def State.seedRecords (s : State) (c : CtxKey) (xl : List (BitVec 32)) (h : Header) (r : Record) (recs : List Nat) : State :=
  recs.zipIdx.foldl (fun (s : State) (n, i) =>
    match writeVirtual s c xl false (r.auxa.toNat + i * poolRecord h + 8)
        (leBytes (seedState r.seed (bitsOf n 191 160)).toNat 8) with
    | .ok s => s
    | .error _ => s) s

/-- The initial records enter the bins in ascending number (R381). -/
def Launch.fillBins (l : Launch) (recs : List Nat) (tick : Nat) : Launch :=
  recs.zipIdx.foldl (fun (l : Launch) (n, i) => l.park i (BitVec.ofNat 64 (bitsOf n 63 0)) tick) l

/-- The measurement of the context's enclave is extended (R436). -/
def State.extendMeasure (s : State) (c : CtxKey) (code record : List Byte) : State :=
  let slot := ((ctxOf s c).encl.extractLsb' 0 8).toNat
  { s with enclaves := s.enclaves.map (fun (e : Enclave) =>
      if e.slot == slot && slot != 0 then
        { e with measure := leBytes (Config.sha384 (e.measure ++ leBytes (Config.sha384 code).toNat 48 ++
                                      leBytes (Config.sha384 record).toNat 48)).toNat 48 }
      else e) }

/-- The bytes that the measurement takes of a kernel; none for a context outside every enclave. -/
def measuredRanges (s : State) (c : CtxKey) (x : LaunchRead) : List (Nat × Nat) :=
  if (ctxOf s c).encl.extractLsb' 0 8 == 0#8 then []
  else [((recKhdr x.recN).toNat, bitsOf x.hdrN 127 96 + 64)]

/-- A launch whose check has passed. -/
def State.acceptLaunch (s : State) (q : QueueRef) (pkt : Nat) (c : CtxKey) (xl : List (BitVec 32)) (a : Addr)
    (x : LaunchRead) (recs : List Nat) (code : List Byte) : State :=
  let h := headerOf (recKhdr x.recN + 64#64) x.hdrN
  let r := recordOf a x.recN x.g
  let (k, s) := s.draw
  let r := if recSeedsrc x.recN then { r with seed := Config.random k } else r
  let record := leBytes (x.recN - bitsOf x.recN 927 896 * 2 ^ 896 + x.g * 2 ^ 896) 128
  let s := if code.isEmpty then s else s.extendMeasure c code record
  let s := s.modCtx c (fun y => { y with force := xl })
  let s := s.seedRecords c xl h r recs
  let (lid, s) := s.newId
  let l : Launch :=
    { ctx := c, qr := q, pkt := pkt, part := partOf s c.fn, lr := r, hdr := h, lseq := s.lseq, total := wgCount h r,
      next := 0, ahead := [], ended := 0, units := [], map := if r.pmapa == 0#64 then [] else x.map,
      remap := coreTable s c.fn, parked := [], live := if r.pool then r.ccnt else 0, xl := xl, code := codeNow s,
      codeSys := [], sysHidden := (s.launches.map (fun ((_, k) : Nat × Launch) => if k.ctx.fn == c.fn then k.sysWrote else [])).flatten }
  let l := if r.pool then l.fillBins recs s.tick else l
  let s := { s with launches := tset s.launches lid l, lseq := s.lseq + 1 }
  if wgCount h r == 0 then s.completeLaunch lid 0 0 0 else s

/-- A launch that fails its check (R376, R378). -/
def State.rejectLaunch (s : State) (q : QueueRef) (pkt : Nat) (c : CtxKey) (xl : List (BitVec 32)) (a cpla : Addr)
    (code : Nat) : State :=
  (s.writeCompletion c xl a cpla 0 code 1 0).completePkt q pkt

/-- How reading what a launch names ends: a state in which the packet waits or is done, or what has been read. -/
inductive LaunchStep (α : Type) where
  | wait (s : State)
  | got (s : State) (x : α)

/-- A read of the packet core goes on, waits for lines, or fails: the fault is posted and the packet completes with status 1 and
a code of R376. -/
def launchStep {α : Type} (s : State) (q : QueueRef) (p : Packet) (depth : Nat) (parent : Option Nat) (r : RunCtx) (cpla : Addr)
    (code : Nat) (x : Except RStop α) : LaunchStep α :=
  match x with
  | .ok v => .got s v
  | .error (.need ls) => .wait (s.gather r ls)
  | .error (.cause _) => .wait s
  | .error (.fault y) =>
    let (id, s) := (s.queueFault q y).newId
    .wait ((s.beginPkt q parent (newPkt id (.launch id) p depth parent)).rejectLaunch q id r.ctx r.xl p.ptr cpla code)

/-- A launch whose record, header and map have been read: the rows of R376 in order, then the records of a pool and the code of a
measured kernel. A code that cannot be read gives 0x01 (DESIGN CHOICE, log entry 51). -/
def State.checkLaunch (s : State) (q : QueueRef) (p : Packet) (depth : Nat) (parent : Option Nat) (r : RunCtx)
    (x : LaunchRead) : State :=
  let h := headerOf (recKhdr x.recN + 64#64) x.hdrN
  let rc := recordOf p.ptr x.recN x.g
  let end_ := fun (s : State) (k : State → Nat → State) =>
    let (id, s) := s.newId
    k (s.beginPkt q parent (newPkt id (.launch id) p depth parent)) id
  match checkCode x.recN x.hdrN h rc p.ind x.map (coreTable s r.ctx.fn) with
  | 0 =>
    match launchStep s q p depth parent r rc.cpla 10 (runRead s r 0 (poolRanges x.hdrN h rc)) with
    | .wait s => s
    | .got s bs =>
      let recs := bs.map leValue
      if recs.any (fun n => !poolRecordOk n) then end_ s (fun s id => s.rejectLaunch q id r.ctx r.xl p.ptr rc.cpla 10)
      else
        match launchStep s q p depth parent r rc.cpla 1 (runRead s r 0 (measuredRanges s r.ctx x)) with
        | .wait s => s
        | .got s code => end_ s (fun s id => s.acceptLaunch q id r.ctx r.xl p.ptr x recs code.flatten)
  | k => end_ s (fun s id => s.rejectLaunch q id r.ctx r.xl p.ptr rc.cpla k)

/-- LAUNCH: the group count is latched, the check runs, and the launch is accepted or its packet completes with
status 1 (R373 to R378). -/
def execLaunch (q : QueueRef) (p : Packet) (s : State) : Out :=
  match readPacket s q p (fun t => t == 1) with
  | .wait s => .next s
  | .ready s depth parent =>
    let c := queueCtx s q
    let r := queueRun s q (writtenXl (ctxOf s c))
    let cpla := match runRead s r 0 [(p.ptr.toNat, 128)] with
      | .ok bs => (recordOf p.ptr (leValue bs.flatten) 0).cpla
      | .error _ => 0#64
    .next (match launchStep s q p depth parent r cpla 1 (readCount s q r p.ptr p.ind) with
      | .wait s => s
      | .got s (n, g) =>
        let s := if p.ind then s.latchCount q c r.xl p.ptr g else s
        match launchStep s q p depth parent r (recordOf p.ptr n 0).cpla 1 (readLaunch s r p.ptr n g) with
        | .wait s => s
        | .got s x => s.checkLaunch q p depth parent r x)

end Sys2Proof.Machine
end

