-- ==== Sys2Proof/Machine/Start.lean ====
section
/-!
DEFINITION. Workgroups: their start on a core (R207, R300, R336, R377, R385), their end (R157, R295, R378), the end of a
launch (R378), and the groups of a continuation pool (R224, R381).
-/
namespace Sys2Proof.Machine

/-! ### Which workgroup starts next -/

/-- A workgroup of a launch has been started. -/
def started (l : Launch) (w : Nat) : Bool := decide (w < l.next) || l.ahead.contains w

/-- A workgroup is started: `next` passes over those started ahead of it, on fuel. -/
def Launch.noteStart (l : Launch) (w : Nat) : Launch :=
  let l := if w == l.next then { l with next := l.next + 1 } else { l with ahead := l.ahead ++ [w] }
  let run := (List.range l.ahead.length).foldl (fun n _ => if l.ahead.contains n then n + 1 else n) l.next
  { l with next := run, ahead := l.ahead.filter (fun x => decide (run ≤ x)) }

/-- The unit of a bound level as a key of Launch.units. -/
def unitKey (n u : Nat) : Nat := n * 2 ^ 40 + u

/-- The domain rules of R377 let workgroup w start on a core. -/
def unitsAllow (l : Launch) (w core : Nat) : Bool :=
  (boundLevels l.hdr).all (fun (n, d) =>
    match tget l.units (unitKey n (unitOf l.hdr l.lr w n)) with
    | some v => v == core / d
    | none => true)

/-- The units of a started workgroup are bound. -/
def Launch.bindUnits (l : Launch) (w core : Nat) : Launch :=
  (boundLevels l.hdr).foldl (fun (l : Launch) (n, d) =>
    { l with units := tset l.units (unitKey n (unitOf l.hdr l.lr w n)) (core / d) }) l

/-- The workgroup that a launch would start on a core (R377). -/
def nextWg (l : Launch) (core : Nat) : Option Nat :=
  if l.map.isEmpty then (if l.next < l.total && l.remap.contains core && unitsAllow l l.next core then some l.next else none)
  else (List.range l.total).find? (fun w => !started l w && l.remap.getD (l.map.getD w 0) 4096 == core)

/-! ### Room (R377) -/

/-- The workgroups resident on a core. -/
def coreWgs (s : State) (core : Nat) : List (Nat × Workgroup) := s.wgs.filter (fun (_, w) => w.core == core)

/-- The room that a core has for slots. -/
def coreRoom (s : State) (core : Nat) : SchedRoom :=
  (List.range 4).map (fun k => ((coreOf s core).regFree.getD k 0,
    (List.range 16).filter (fun i => (tget s.slots (slotId core k i)).isNone)))

/-- The bytes of scratchpad from an offset on are free on a core (R184). -/
def spadFree (s : State) (core off n : Nat) : Bool :=
  decide (off + n ≤ 2 ^ 19) && (coreWgs s core).all (fun (_, w) =>
    w.scratch == 0 || n == 0 || decide (off + n ≤ w.held.spad) || decide (w.held.spad + w.scratch ≤ off))

/-- The lowest offset, a multiple of 256, at which an allocation lies contiguously in free scratchpad: 0 or behind another. -/
def spadPlace (s : State) (core n : Nat) : Option Nat :=
  let ends := 0 :: (coreWgs s core).map (fun (_, w) => (w.held.spad + w.scratch + 255) / 256 * 256)
  (ends.filter (fun o => spadFree s core o n)).foldl (fun (a : Option Nat) o => some (match a with
    | some b => min b o
    | none => o)) none

/-- The lowest `n` numbers below `top` that no workgroup of a core holds. -/
def lowestFree (s : State) (core top n : Nat) (f : CoreGrant → List Nat) : Option (List Nat) :=
  let free := (List.range top).filter (fun k => !((coreWgs s core).any (fun (_, w) => (f w.held).contains k)))
  if n ≤ free.length then some (free.take n) else none

/-- The scratchpad, tiles, banks and counted barriers that a workgroup takes on a core, if they are free (R184, R377); which of the
free ones the spec leaves open (log entry 39). -/
def grantOn (s : State) (core scratch tiles banks cbars : Nat) : Option CoreGrant := do
  let o ← spadPlace s core scratch
  let t ← lowestFree s core 16 tiles (·.tiles)
  let b ← lowestFree s core 2 banks (·.banks)
  let c ← lowestFree s core 32 cbars (·.cbars)
  pure { spad := o, tiles := t, banks := b, cbars := c }

/-- The same numbers are free on another core, for the twin (R300). -/
def grantFree (s : State) (core scratch : Nat) (g : CoreGrant) : Bool :=
  spadFree s core g.spad scratch && (coreWgs s core).all (fun (_, w) =>
    g.tiles.all (fun k => !w.held.tiles.contains k) && g.banks.all (fun k => !w.held.banks.contains k) &&
    g.cbars.all (fun k => !w.held.cbars.contains k))

/-- What a workgroup of a launch takes of a core beside its slots. -/
def launchGrant (s : State) (l : Launch) (core : Nat) : Option CoreGrant :=
  grantOn s core l.hdr.scratch l.lr.tiles l.lr.banks l.lr.cbars

/-- The places of a workgroup's slots on a core, if it has room. -/
def placesOn (s : State) (l : Launch) (core : Nat) : Option (List (Nat × Nat)) :=
  if (launchGrant s l core).isSome then placeSlots (slotGrants l.hdr l.lr) (coreRoom s core) else none

/-- A core can take the twin at the primary's scheduler and slot indices and with its grant (R300). -/
def twinRoom (s : State) (l : Launch) (core : Nat) (ps : List (Nat × Nat)) (g : CoreGrant) : Bool :=
  grantFree s core l.hdr.scratch g &&
  ps.all (fun (k, i) => (tget s.slots (slotId core k i)).isNone) &&
  (List.range 4).all (fun k =>
    let need := ((ps.zip (slotGrants l.hdr l.lr)).map (fun (x, g) => if x.1 == k then g else 0)).sum
    decide (need ≤ (coreOf s core).regFree.getD k 0))

/-- The cores on which the firmware may place a twin: those of another cluster with room. -/
def twinCores (s : State) (l : Launch) (core : Nat) (ps : List (Nat × Nat)) : List Nat :=
  match launchGrant s l core with
  | some g => l.remap.filter (fun k => k / 16 != core / 16 && twinRoom s l k ps g)
  | none => []

/-! ### A workgroup's state at its start -/

/-- A thread at launch (R46, R336, R338). -/
def newThread (st : BitVec 4) (pc : Addr) (seed : BitVec 64) (tid lane tick : Nat) : Thread :=
  { st := st, pc := pc, depth := 0, stack := [], token := none, rstate := seedState seed tid, tid := tid, crd0 := lane,
    wait := .none, wlen := 0, since := tick, record := none }

/-- A register that reads zero (R207). -/
def Reg.zero : Reg := Reg.plain (LaneVec.splat 0#32)

/-- Fibre j of workgroup w of a launch, in a slot's place; in a pool its threads are not yet launched (R381). -/
def newFibre (l : Launch) (wid w j slot idx tick : Nat) : Fibre :=
  let h := l.hdr
  let u := fibreIndex h l.lr w j
  let pc := h.entry + BitVec.ofNat 64 (2 * h.roles.getD idx 0)
  let st : BitVec 4 := if l.lr.pool then 6#4 else 0#4
  { slot := slot, idx := idx, wg := wid, regs := List.replicate h.priv Reg.zero,
    l0 := { reg := Reg.zero, valid := true }, l1 := { reg := Reg.zero, valid := true }, fpst := 0#32, energy := 0#64,
    threads := (List.range 32).map (fun i => newThread st pc l.lr.seed (i + 32 * u) i tick),
    crd := crdList h l.lr w j, lastSet := 0#32, ft := 0, rv := 0#64, burst := none, splits := [], shadow := 0,
    hold := .none, heldSince := tick, frozen := [], fences := [], relMark := none, seenRel := [], handler := none,
    trap := none, halted := none, skipBp := false, yield := false, haltReq := false, stepping := none, stores := 0#32,
    phases := 0, kept := [], got := [] }

/-- The workgroup at its start: everything granted reads zero (R184, R264, R352, R164). -/
def newWg (l : Launch) (lid w core lcore : Nat) (slots : List Nat) (red : Option Redundant) : Workgroup :=
  { lid := lid, ctx := l.ctx, w := w, core := core, lcore := lcore, slots := slots, scratch := l.hdr.scratch, spad := [],
    spadPoison := [], spadRel := [], bars := List.replicate 16 { gen := 0#16, arr := 0, req := 0 },
    cbars := List.replicate l.lr.cbars { gen := 0#16, count := 0#16, target := 0#16 },
    handles := List.replicate 64 { st := .free, cause := 0#8, cmd := none, owner := none },
    tiles := List.replicate l.lr.tiles Tile.zero, banks := List.replicate l.lr.banks Bank.zero, swap := false,
    colls := [], ending := false, red := red }

/-- Place workgroup w as number `wid` on a core, its slots in the given places, with a grant of the core. -/
def State.putStart (s : State) (l : Launch) (lid wid w core : Nat) (ps : List (Nat × Nat)) (g : CoreGrant)
    (red : Option Redundant) : State :=
  let ids := ps.map (fun (k, i) => slotId core k i)
  let lcore := l.remap.idxOf core
  let fibs := wgFibres l.hdr l.lr
  let s := s.setWg wid { newWg l lid w core lcore ids red with held := g }
  let s := (ps.zip (slotGrants l.hdr l.lr)).foldl (fun (s : State) (x, g) =>
    s.modCore core (fun c => { c with regFree := c.regFree.set x.1 (c.regFree.getD x.1 0 - g) })) (s.setCore core (coreOf s core))
  let s := ids.zipIdx.foldl (fun (s : State) (sl, k) =>
    let n := min l.hdr.nfib (fibs - k * l.hdr.nfib)
    let s := s.setSlot sl
      { wg := wid, ord := k, cur := 0, nfib := n, shared := List.replicate l.hdr.shared Reg.zero, consec := 0, copies := 0,
        lastIssue := 0 }
    (List.range n).foldl (fun (s : State) f =>
      s.setFib (fibId sl f) (newFibre l wid w (k * l.hdr.nfib + f) sl f s.tick)) s) s
  s.refresh core

/-! ### Saved workgroups (R304, R399) -/

/-- Everything of one workgroup as it stands. -/
def captureWg (s : State) (wid : Nat) : Option SavedWg :=
  match tget s.wgs wid with
  | none => none
  | some w =>
    some { id := wid, wg := w, slots := s.slots.filter (fun (_, x) => x.wg == wid), fibs := wgFibs s wid,
           flights := s.flights.filter (fun (_, fl) =>
             match fl.cmd with
             | some c => match tget s.cmds c with | some x => x.wg == wid | none => false
             | none => match tget s.fibs fl.fib with | some f => f.wg == wid | none => false),
           runners := s.runners.filter (fun (_, r) => r.wg == wid), cmds := s.cmds.filter (fun (_, c) => c.wg == wid),
           mq := (coreOf s w.core).mq.filter (fun (_, m) => m.wg == wid) }

/-- The checkpoint state of a redundant workgroup is kept (R304, R305). -/
def State.keepCheckpoint (s : State) (wid : Nat) : State :=
  match captureWg s wid with
  | some x => { s with checkpoints := tset s.checkpoints wid x }
  | none => s

/-! ### The context page (R385) -/

/-- The context page as the device reads it when a context is placed or restored. A handler's header in host memory or at a peer
is read when a trap is taken. -/
def readPage (s : State) (c : CtxKey) : Option CtxPage :=
  let x := ctxOf s c
  let pfn := (x.force.getD 2 0#32).toNat % 2 ^ 28
  if pfn == 0 then none
  else
    let a := (fnWindow s c.fn).1 + (pfn - 1) * 4096
    let n := if poisoned s a then 0 else readNat s.mem a 64
    let hdlr : Addr := BitVec.ofNat 64 (bitsOf n 127 64)
    let remote := match translateBy s .device c x.force true .read hdlr with
      | .ok p => p.remote
      | .error _ => false
    let magic := bitsOf n 31 0 == 0x58435450
    let head := match readVirtual s c x.force true .read hdlr.toNat 64 with
      | .ok bs => leValue bs
      | .error _ => 0
    some { hdlr := hdlr, tfa := BitVec.ofNat 64 (bitsOf n 191 128), savea := BitVec.ofNat 64 (bitsOf n 255 192),
           savesz := bitsOf n 319 256, magic := magic, remote := remote,
           usable := magic && hdlr != 0#64 && (remote || handlerHeaderOk head) }

/-- A context that is idle becomes resident. -/
def State.makeResident (s : State) (c : CtxKey) : State :=
  if (ctxOf s c).res == .idle then
    s.modCtx c (fun x => { x with res := .resident s.tick, page := readPage s c })
  else s

/-- Nothing keeps a context from having workgroups placed. -/
def ctxPlaceable (s : State) (c : CtxKey) : Bool :=
  match (ctxOf s c).res with
  | .idle => true
  | .resident _ => true
  | _ => false

/-! ### WORKGROUP_START -/

/-- The priority of a launch: that of its queue (R367, R382). -/
def launchPrio (s : State) (l : Launch) : Nat := descField s l.qr 359 357

/-- The launch has a workgroup that could start on the core now. -/
def startable (s : State) (l : Launch) (core : Nat) : Bool :=
  ctxPlaceable s l.ctx && !(l.lr.pool && l.live == 0) &&
  (match nextWg l core with
   | none => false
   | some _ =>
     match placesOn s l core with
     | none => false
     | some ps => !l.lr.rdn || !(twinCores s l core ps).isEmpty)

/-- A queue as a number, in ascending function and queue. -/
def queueKey (q : QueueRef) : Nat := q.fn * 64 + q.q

/-- How far a queue stands behind the one that its partition served last, in cyclic order (R382). -/
def turnOf (s : State) (l : Launch) : Nat :=
  let last := match tget s.parts l.part with
    | some p => p.served
    | none => 0
  (queueKey l.qr + 2 ^ 16 - last - 1) % 2 ^ 16

/-- A launch goes in front of another of its partition: that of the higher priority, and round-robin among the queues within one
(R382); each start of a workgroup is a turn (log entry 39). -/
def goesBefore (s : State) (k l : Launch) : Bool :=
  k.part == l.part &&
  (decide (launchPrio s l < launchPrio s k) || (launchPrio s l == launchPrio s k && decide (turnOf s k < turnOf s l)))

/-- Start the next workgroup of a launch on a physical core, if no other goes first there (R382). -/
def State.startWg (s : State) (lid core : Nat) : State :=
  match tget s.launches lid with
  | none => s
  | some l =>
    if !startable s l core || s.launches.any (fun (_, k) => goesBefore s k l && startable s k core) then s
    else
      match nextWg l core, placesOn s l core, launchGrant s l core with
      | some w, some ps, some g =>
        let s := s.makeResident l.ctx
        let s := s.modLaunch lid (fun l => (l.noteStart w).bindUnits w core)
        let s := { s with parts := tmod s.parts l.part (fun p => { p with served := queueKey l.qr }) }
        let (wid, s) := s.newId
        if !l.lr.rdn then s.putStart l lid wid w core ps g none
        else
          let (tid, s) := s.newId
          let (k, s) := s.draw
          let cs := twinCores s l core ps
          let tc := cs.getD (Config.place k % cs.length) core
          let red := fun (primary : Bool) (twin : Nat) => some
            { primary := primary, twin := twin, sg := 0#64, ck := 0, mismatch := 0, rerun := 0, log := [], reads := [] }
          let s := s.putStart l lid wid w core ps g (red true tid)
          let s := s.putStart l lid tid w tc ps g (red false wid)
          (s.keepCheckpoint wid).keepCheckpoint tid
      | _, _, _ => s

def execWorkgroupStart (lid core : Nat) (s : State) : Out := .next (s.startWg lid core)

/-! ### WORKGROUP_END and LAUNCH_COMPLETE (R157, R378) -/

/-- A workgroup whose fibres have exited may end: no handle drains, and nothing that it has begun is in flight. The
workgroups of a redundant pair end after their last checkpoint (R304). -/
def wgMayEnd (s : State) (wid : Nat) : Bool :=
  match tget s.wgs wid with
  | none => false
  | some w =>
    w.ending && w.red.isNone && w.handles.all (fun h => h.st != .draining && h.st != .filling) &&
    s.flights.all (fun (_, fl) => fl.cmd.isSome || (match tget s.fibs fl.fib with
      | some f => f.wg != wid
      | none => true)) &&
    !(s.cmds.any (fun (_, c) => c.wg == wid)) && (coreOf s w.core).mq.all (fun (_, m) => m.wg != wid)

/-- A boost ends when its context's last workgroup has left the core (R414). -/
def State.leaveBoost (s : State) (core : Nat) : State :=
  match (coreOf s core).boost with
  | none => s
  | some b => if s.wgs.any (fun (_, w) => w.core == core && w.ctx == b.ctx) then s else s.endBoost core

/-- The workgroup ends: its stores merge at a boundary of its core, and what it held is free. -/
def State.endWg (s : State) (wid : Nat) : State :=
  match tget s.wgs wid with
  | none => s
  | some w =>
    if !wgMayEnd s wid then s
    else
      let (id, s) := s.newId
      let s := s.askBoundary w.core
        { id := id, fib := none, len := 0, mask := 0#32, flt := none, scope := 0, ctx := none, lid := some w.lid, started := false }
      let s := (s.removeWg wid).modLaunch w.lid (fun l => { l with ended := l.ended + 1 })
      (List.range 4).foldl (fun (s : State) k => s.examineAllocs w.core k) (s.leaveBoost w.core)

def execWorkgroupEnd (wg : Nat) (s : State) : Out := .next (s.endWg wg)

/-- A launch has nothing left: every workgroup has ended, and its stores have merged. -/
def launchOver (s : State) (lid : Nat) (l : Launch) : Bool :=
  !(s.wgs.any (fun (_, w) => w.lid == lid)) &&
  (if l.lr.pool then l.live == 0 else l.ended == l.total) &&
  s.cores.all (fun (_, c) => c.bounds.all (fun b => b.lid != some lid)) &&
  (ctxOf s l.ctx).saved.all (fun x => x.wg.lid != lid)

/-- A context whose last launch has completed is placed anew by its next one, which reads its page again (R385). -/
def State.leaveContext (s : State) (c : CtxKey) : State :=
  if ctxRuns s c then s
  else s.modCtx c (fun x => { x with res := (match x.res with | .resident _ => .idle | r => r) })

def execLaunchComplete (lid : Nat) (s : State) : Out :=
  match tget s.launches lid with
  | none => .next s
  | some l => .next (if launchOver s lid l then (s.completeLaunch lid 0 0 0).leaveContext l.ctx else s)

/-! ### GROUP_TAKE (R224, R381) -/

/-- The waiting records of the oldest PC of each bin in use: the PC with its records in order of arrival. -/
def binGroups (l : Launch) : List (Addr × List Parked) :=
  (List.range 64).filterMap (fun b =>
    let ps := l.parked.filter (fun p => p.bin == b)
    match ps with
    | [] => none
    | p :: _ => some (p.pc, ps.filter (fun q => q.pc == p.pc)))

/-- The group that a free place takes. `idle` says that no fibre of the launch holds a live thread. -/
def pickGroup (l : Launch) (tick : Nat) (idle : Bool) : Option (List Parked) :=
  let gs := binGroups l
  let full := gs.filter (fun g => decide (32 ≤ g.2.length))
  match full.foldl (fun (a : Option (Addr × List Parked)) g =>
      match a with
      | some x => if g.1.toNat < x.1.toNat then some g else some x
      | none => some g) none with
  | some g => some (g.2.take 32)
  | none =>
    match l.parked with
    | [] => none
    | p :: _ =>
      if p.since + 4096 ≤ tick || idle then
        (gs.find? (fun g => g.2.head? == some p)).map (fun g => g.2.take 32)
      else none

/-- The thread that a continuation record gives to lane k, at the record's place (R380). -/
def recordThread (n idx tick : Nat) : Thread :=
  let d := bitsOf n 159 144
  { st := 0#4, pc := BitVec.ofNat 64 (bitsOf n 63 0), depth := d,
    stack := ((List.range (min d 8)).map (fun i => BitVec.ofNat 64 (bitsOf n (255 + 64 * i) (192 + 64 * i)))).reverse,
    token := none, rstate := BitVec.ofNat 64 (bitsOf n 127 64), tid := bitsOf n 191 160, crd0 := bitsOf n 135 128,
    wait := .none, wlen := 0, since := tick, record := some idx }

/-- The fibre place with a group's threads and the header's P registers (R224); lanes beyond it are in state 6, and their
registers stay. -/
def groupFibre (f : Fibre) (p : Nat) (ns : List (Nat × Nat)) (tick : Nat) : Fibre :=
  { f with
    threads := (List.range 32).map (fun k =>
      match ns[k]? with
      | some (n, i) => recordThread n i tick
      | none => newThread 6#4 0#64 0#64 0 k tick)
    regs := (List.range p).map (fun j => Reg.plain (LaneVec.of (fun k =>
      match ns[k]? with
      | some (n, _) => BitVec.ofNat 32 (bitsOf n (1024 + 32 * j + 31) (1024 + 32 * j))
      | none => (f.regs.getD j Reg.zero).val.lane k)))
    kept := [], got := []
    fpst := ns.foldl (fun a (n, _) => a ||| BitVec.ofNat 32 (bitsOf n 143 139)) 0#32
    l0 := { f.l0 with valid := false }, l1 := { f.l1 with valid := false }
    lastSet := 0#32, ft := 0, rv := 0#64, burst := none, shadow := 0, seenRel := [], relMark := none, fences := [] }

/-- The registers that a place has freed and takes again for a group, since its threads keep the header's P (R224; log entry
39). -/
def regsShort (l : Launch) (f : Fibre) : Nat := l.hdr.priv - f.regs.length

/-- The lines of the records of a group that lie in host memory or at a peer. -/
def groupLines (s : State) (f : Fibre) (w : Workgroup) (l : Launch) (ps : List Parked) : List (Addr × Place) :=
  (ps.map (fun p => remoteLines s f.got true w.ctx l.xl false .read (l.lr.auxa.toNat + p.idx * recordSize l) (recordSize l))).flatten

/-- A free place of a pool launch takes its next group, once the registers are free and the records are at hand. -/
def State.takeGroup (s : State) (fid : Nat) : State :=
  match tget s.fibs fid with
  | none => s
  | some f =>
    match wgOf s f with
    | none => s
    | some w =>
      match launchOf s w with
      | none => s
      | some l =>
        if !l.lr.pool || !f.exited || w.ending || f.hold != .none || !ctxPlaceable s w.ctx || !(fibFlights s fid).isEmpty then s
        else
          let idle := (s.fibs.filter (fun (_, g) => match wgOf s g with
            | some x => x.lid == w.lid
            | none => false)).all (fun (_, g) => g.exited)
          match pickGroup l s.tick idle with
          | none => s
          | some ps =>
            let sched := fibSched fid
            let need := groupLines s f w l ps
            if (coreOf s w.core).regFree.getD sched 0 < regsShort l f then s
            else if !need.isEmpty then (s.readLines fid w.ctx 0#64 0#32 [] need).2
            else
            let rd : Except Nat (List (Nat × Nat)) := ps.foldlM (fun (a : List (Nat × Nat)) p =>
              match readGot s f.got w.ctx l.xl false .read (l.lr.auxa.toNat + p.idx * recordSize l) (recordSize l) with
              | .ok bs => .ok (a ++ [(leValue bs, p.idx)])
              | .error k => .error k) []
            match rd with
            | .error _ => s
            | .ok ns =>
              let s := s.modLaunch w.lid (fun l => { l with
                parked := l.parked.filter (fun p => !(ps.any (fun q => q.idx == p.idx))) })
              let s := s.modCore w.core (fun c => { c with regFree := c.regFree.set sched (c.regFree.getD sched 0 - regsShort l f) })
              s.setFib fid (groupFibre f l.hdr.priv ns s.tick)

def execGroupTake (fib : Nat) (s : State) : Out := .next (s.takeGroup fib)

end Sys2Proof.Machine
end

