-- ==== Sys2Proof/Machine/Save.lean ====
section
/-!
DEFINITION. What a workgroup is when it is saved: how its work in flight settles (R152, R182, R221, R291, R322, R397), and
how a saved workgroup is put back (R304, R400).
-/
namespace Sys2Proof.Machine

/-! ### Settling (R397) -/

/-- The kinds of flight that are kept with a saved workgroup: ticketed adds, whose performed lanes stay done (R152). -/
def keepsFlight (k : FKind) : Bool :=
  match k with
  | .tadd _ _ => true
  | .tadds _ _ => true
  | _ => false

/-- A flight is kept with its saved workgroup: a ticketed add of which some lane has been performed (R152). -/
def keptFlight (fl : Flight) : Bool := fl.cmd.isNone && keepsFlight fl.kind && fl.lanes.any (fun x => x.ret.isSome)

/-- A fibre as it is saved: held work is at the start of its instruction, a late set whose flight `gone` names is
ready at its load with the split open, and a frozen fibre is at its instruction. -/
def settleFibre (gone kept : Nat → Bool) (f : Fibre) : Fibre :=
  let f := { f with
    frozen := [], kept := [], got := []
    threads := f.threads.map (fun (t : Thread) =>
      if t.st == 5#4 then { t with st := 0#4 }
      else
        match t.wait with
        | .late id => if gone id then { t with st := 0#4, wait := .none, wlen := 0 } else t
        | _ => t)
    splits := f.splits.map (fun (sp : Split) => if gone sp.flt then { sp with flt := withdrawnFlt } else sp) }
  match f.hold with
  | .none => f
  | .matrix _ => f
  | .flight id => if kept id then f else leaveHold f
  | _ => leaveHold f

/-- A command as it is saved (R182): a copy runs again from its first byte unless its follow-on command has been
accepted, a COLL goes on from its progress, a program resumes. Writes held for the comparator since the command
began are dropped with a copy. -/
def settleCmd (c : Cmd) : Cmd :=
  match c.kind, c.stage with
  | .copy _ _ _ _ _ _ _, .accepted => c
  | .copy _ _ _ _ _ _ _, _ => if c.cancelled then c else { c with stage := .queued, held := [], sgc := none }
  | .coll _ _ _ _ _ _ _ _, .landed => c
  | .coll _ _ _ _ _ _ _ _, _ => { c with stage := .queued }
  | .program _ _ _, .landed => c
  | .program _ _ _, _ => { c with stage := .queued }

/-- A runner as it is saved: at the start of its instruction; a wait in XWT begins again (R182). -/
def settleRunner (r : Runner) : Runner := { r with xwt := none, frozen := [] }

/-- Commands of the queue that are saved (R291): an MHAD or MST of a fibre that has begun is given up, and its fibre is at
the start of the instruction. -/
def settleQueue (mq : Tbl MxCmd) : Tbl MxCmd :=
  mq.filter (fun (_, c) => !(c.departed && c.fib.isSome && (c.op == Mx.mhad || c.op == Mx.mst)))

/-- The rows of an MXM that have entered its tile when it is stopped (R291): how far it has come the spec leaves to time (log
entry 43). -/
def mxProgress (id : Nat) (c : MxCmd) : Nat :=
  if c.departed && c.op == Mx.mxm then c.rows + Config.mxRows id % (c.m - c.rows + 1) else c.rows

/-- The MXMs of a queue stop between rows: the rows that have been broadcast are in their tiles. -/
def enterRows (w : Workgroup) (mq : Tbl MxCmd) : Workgroup :=
  mq.foldl (fun (w : Workgroup) (i, c) => if mxProgress i c != c.rows then c.mxmRows (mxProgress i c) w else w) w

/-- The queue with the progress of its MXMs. -/
def progressQueue (mq : Tbl MxCmd) : Tbl MxCmd := mq.map (fun ((i, c) : Nat × MxCmd) => (i, { c with rows := mxProgress i c }))

/-- An MLD that has begun leaves its bank without VALID (R291). -/
def spoilBanks (w : Workgroup) (mq : Tbl MxCmd) : Workgroup :=
  mq.foldl (fun (w : Workgroup) (_, c) =>
    if c.departed && c.op == Mx.mld then
      { w with banks := w.banks.modify (c.bank w) (fun b => { b with word := putBits b.word 8 1 0 }) }
    else w) w

/-- A workgroup as it is saved. -/
def SavedWg.settle (x : SavedWg) : SavedWg :=
  let keep := x.flights.filter (fun (_, fl) => keptFlight fl)
  let kept := fun (id : Nat) => keep.any (fun (i, _) => i == id)
  let gone := fun (id : Nat) => x.flights.any (fun (i, _) => i == id) && !kept id
  let mq := settleQueue x.mq
  let freed := fun (f : Fibre) => match f.hold with
    | .matrix id => if (tget mq id).isNone then leaveHold f else f
    | _ => f
  { x with
    wg := enterRows (spoilBanks x.wg x.mq) x.mq
    fibs := x.fibs.map (fun ((i, f) : Nat × Fibre) => (i, freed (settleFibre gone kept f)))
    flights := keep.map (fun ((i, fl) : Nat × Flight) => (i, { fl with stage := .request }))
    runners := x.runners.map (fun ((i, r) : Nat × Runner) => (i, settleRunner r))
    cmds := x.cmds.map (fun ((i, c) : Nat × Cmd) => (i, settleCmd c))
    mq := progressQueue mq }

/-! ### The bytes of a save (R399) -/

/-- A size rounded up to whole lines. -/
def alignLine (n : Nat) : Nat := (n + 63) / 64 * 64

/-- The bytes of a workgroup record: its sections in order, each 64-byte aligned. -/
def SavedWg.size (x : SavedWg) : Nat :=
  64 + alignLine x.wg.scratch + 896 + 4096 + 512 * x.cmds.length +
  alignLine (x.wg.tiles.length * 16388 + x.wg.banks.length * 69636 + 4 + 16 * 32) +
  (x.slots.map (fun ((_, v) : Nat × Slot) => 64 + 128 * v.shared.length)).sum +
  alignLine ((x.fibs.map (fun ((_, f) : Nat × Fibre) => 64 + 256 + 260 + 2048 + 128 * f.regs.length)).sum)

/-! ### Other numbers for the places of a restored workgroup -/

/-- A fibre number under a new numbering of slots. -/
def moveFib (num : Nat → Nat) (fid : Nat) : Nat := fibId (num (fid / 4)) (fid % 4)

/-- The workgroup on a core with its slots under new numbers (R400). A frame keeps its index (R397). -/
def SavedWg.moved (x : SavedWg) (core : Nat) (num : Nat → Nat) : SavedWg :=
  let low := fun (i : Nat) => moveFib num (x.wg.core * 256 + i) % 256
  { x with
    wg := { x.wg with core := core, slots := x.wg.slots.map num, red := x.wg.red.map (fun (r : Redundant) => { r with
      log := r.log.map (fun (e : ReplayEntry) => if e.fib < 256 then { e with fib := low e.fib } else e)
      reads := r.reads.map (fun (i, v) => (if i < 256 then low i else i, v)) }) }
    slots := x.slots.map (fun ((i, v) : Nat × Slot) => (num i, v))
    fibs := x.fibs.map (fun ((i, f) : Nat × Fibre) => (moveFib num i, { f with slot := num f.slot }))
    flights := x.flights.map (fun ((i, fl) : Nat × Flight) => (i, { fl with fib := moveFib num fl.fib, core := core }))
    mq := x.mq.map (fun ((i, c) : Nat × MxCmd) => (i, { c with fib := c.fib.map (moveFib num) })) }

/-! ### Putting back -/

/-- Registers that a saved workgroup holds on a scheduler of its core; in a pool every place keeps its registers. -/
def SavedWg.regsOn (x : SavedWg) (pool : Bool) (sched : Nat) : Nat :=
  (x.slots.map (fun ((i, v) : Nat × Slot) =>
    if i / 16 % 4 != sched then 0
    else
      let fs := x.fibs.filter (fun (_, f) => f.slot == i)
      let own := (fs.map (fun (_, f) => if f.exited && !pool then 0 else f.regs.length)).sum
      own + (if pool || fs.any (fun (_, f) => !f.exited) then v.shared.length else 0))).sum

/-- A saved workgroup is resident again on its core. -/
def State.putWg (s : State) (x : SavedWg) : State :=
  let core := x.wg.core
  let pool := match tget s.launches x.wg.lid with
    | some l => l.lr.pool
    | none => false
  let c := coreOf s core
  let s := s.setCore core { c with
    regFree := (List.range 4).map (fun k => c.regFree.getD k 0 - x.regsOn pool k), mq := c.mq ++ x.mq }
  { s with
    wgs := tset s.wgs x.id x.wg, slots := s.slots ++ x.slots, fibs := s.fibs ++ x.fibs, flights := s.flights ++ x.flights,
    runners := s.runners ++ x.runners, cmds := s.cmds ++ x.cmds }

/-- The lanes of a ticketed add in memory that remain are translated anew (R120, R152); one that no longer can be fails. -/
def State.retranslate (s : State) (id : Nat) : State :=
  match tget s.flights id with
  | none => s
  | some fl =>
    match fl.kind with
    | .tadd _ _ =>
      let priv := (tget s.fibs fl.fib).any (fun f => f.handler.isSome)
      let place := fun (a : Addr) => translateBy s (.core fl.core) fl.ctx (flightXl s fl) priv .atomic a
      let bad := fl.lines.zipIdx.findSome? (fun (ln, n) => match place ln.va with
        | .error k => some (k, n)
        | .ok _ => none)
      match bad with
      | some (k, n) => s.failFlight id k n
      | none =>
        let at_ := fun (a : Addr) (old : Place) => match place a with
          | .ok p => p
          | .error _ => old
        (s.setFlight id { fl with
          lines := fl.lines.map (fun ln => { ln with place := (at_ ln.va ln.place).line })
          lanes := fl.lanes.map (fun x => if x.ret.isSome then x else { x with place := at_ x.va x.place }) }).armFlight id
    | _ => s.armFlight id

/-- The flights that a workgroup was saved with go on. -/
def State.rearm (s : State) (x : SavedWg) : State := x.flights.foldl (fun (s : State) (i, _) => s.retranslate i) s

/-- The 64 bytes of a save's header, RSTAT 0 (R399). -/
def saveHeader (s : State) (c : CtxKey) (tick : Nat) (xs : List SavedWg) : Nat :=
  let x := ctxOf s c
  let fs := (xs.map (fun y => y.fibs.map (·.2))).flatten
  let maxd := (fs.map (fun (f : Fibre) => (f.threads.map (·.depth)).foldl max 0)).foldl max 0
  let maxs := (fs.map (fun (f : Fibre) => f.splits.length)).foldl max 0
  let maxc := (xs.map (fun y => y.wg.cbars.length)).foldl max 0
  let size := 64 + (xs.map SavedWg.size).sum
  0x53564158 + (if xs.any (fun y => y.wg.red.isSome) then 2 ^ 262 else 0) + maxc % 2 ^ 6 * 2 ^ 263 + maxs % 2 ^ 3 * 2 ^ 269 +
  maxd % 2 ^ 16 * 2 ^ 272 + x.scopemiss.toNat * 2 ^ 288 + x.wbst.toNat * 2 ^ 320 + xs.length % 2 ^ 16 * 2 ^ 352 +
  c.id % 2 ^ 16 * 2 ^ 368 + size % 2 ^ 64 * 2 ^ 384 + tick % 2 ^ 64 * 2 ^ 448

end Sys2Proof.Machine
end

