-- ==== Sys2Proof/Machine/Redundant.lean ====
section
/-!
DEFINITION. Redundant mode (R300 to R307): the comparator's events CHECKPOINT, REDUNDANT_COMPARE, RUNNER_SGC_COMPARE and
MISMATCH_TIMEOUT, the mismatch (R305), and TRAP_ENTRY (R386), which in redundant mode waits for the twin.
-/
namespace Sys2Proof.Machine

/-! ### Pairs -/

/-- A redundant pair: the numbers of its primary and its twin, with their workgroups and the primary's mode state. -/
structure Pair where
  p : Nat
  t : Nat
  pw : Workgroup
  tw : Workgroup
  r : Redundant
  deriving DecidableEq, Repr

/-- The pair of a workgroup. -/
def pairOf (s : State) (wid : Nat) : Option Pair :=
  match tget s.wgs wid with
  | none => none
  | some w =>
    match w.red with
    | none => none
    | some r =>
      let p := if r.primary then wid else r.twin
      let t := if r.primary then r.twin else wid
      match tget s.wgs p, tget s.wgs t with
      | some pw, some tw =>
        match pw.red with
        | some q => some { p := p, t := t, pw := pw, tw := tw, r := q }
        | none => none
      | _, _ => none

/-- The signature of the twin. -/
def Pair.twinSg (x : Pair) : BitVec 64 :=
  match x.tw.red with
  | some r => r.sg
  | none => 0#64

/-- Change the mode state of both workgroups of a pair. -/
def State.modPair (s : State) (x : Pair) (f : Redundant → Redundant) : State :=
  let g := fun (w : Workgroup) => { w with red := w.red.map f }
  (s.modWg x.p g).modWg x.t g

/-- A boundary of the pair's fibres is not yet complete: its checkpoint's merges are under way. -/
def pairMerging (s : State) (x : Pair) : Bool :=
  (coreOf s x.pw.core).bounds.any (fun b => match b.fib with
    | some i => match tget s.fibs i with
      | some f => f.wg == x.p || f.wg == x.t
      | none => false
    | none => false)

/-! ### The mismatch (R305) -/

/-- Discard the held entries of a workgroup. -/
def State.dropHeld (s : State) (wid : Nat) (core : Nat) : State :=
  s.modCore core (fun c => { c with path := c.path.filter (fun (_, e) => e.wg != some wid) })

/-- A workgroup is back at its last checkpoint with the pair's replay log. -/
def State.rerunWg (s : State) (wid : Nat) (log : List ReplayEntry) : State :=
  match tget s.checkpoints wid with
  | none => s
  | some x =>
    let s := s.removeWg wid
    let red := x.wg.red.map (fun (r : Redundant) =>
      { r with sg := 0#64, mismatch := 1, rerun := 0, log := log, reads := [] })
    let s := s.putWg { x with wg := { x.wg with red := red } }
    { s with checkpoints := tset s.checkpoints wid x }

/-- A mismatch of a pair: the first since a checkpoint runs both twins again, the second ends the context. -/
def State.mismatch (s : State) (x : Pair) : State :=
  let d0 := x.pw.w % 2 ^ 32 + (x.r.ck + 1) % 2 ^ 32 * 2 ^ 32
  let rec_ := fun (s : State) (src cls : Nat) =>
    s.errorRecord (coreDie x.pw.core) src cls d0 x.r.sg.toNat x.twinSg.toNat 0#32 (some x.pw.ctx) 0#8
  if x.r.mismatch ≥ 1 then (rec_ s 0x25 1).endContext x.pw.ctx 3 (some (x.pw.lid, x.pw.w))
  else
    let s := rec_ s 0x06 0
    let s := (s.dropHeld x.p x.pw.core).dropHeld x.t x.tw.core
    (s.rerunWg x.p x.r.log).rerunWg x.t []

/-! ### CHECKPOINT (R304) -/

/-- Every fibre of a workgroup that has not exited has issued its k-th PHASE. -/
def atCheckpoint (s : State) (wid k : Nat) : Bool :=
  (wgFibs s wid).all (fun (_, f) => f.exited || (match f.hold with
    | .checkpoint j _ _ _ _ => j == k
    | _ => false))

/-- No memory operation of a workgroup's fibres is in flight but the unbuffered writes that wait for the checkpoint. -/
def pairQuiet (s : State) (x : Pair) : Bool :=
  s.flights.all (fun (_, fl) => fl.cmd.isSome || fl.kind == .relStore || (match tget s.fibs fl.fib with
    | some f => f.wg != x.p && f.wg != x.t
    | none => true))

/-- The boundaries that complete the PHASEs of a pair's fibres. -/
def phaseBounds (s : State) (wid : Nat) : List Boundary :=
  (wgFibs s wid).filterMap (fun (i, f) =>
    match f.hold with
    | .checkpoint _ len m scope flt =>
      some { id := i, fib := some i, len := len, mask := m, flt := flt, scope := scope, ctx := none, lid := none, started := true }
    | _ => none)

/-- A fibre as the checkpoint keeps it: its PHASE has completed. -/
def pastPhase (f : Fibre) : Fibre :=
  match f.hold with
  | .checkpoint _ len m _ _ => advance (leaveHold f) m len
  | _ => f

/-- Where a workgroup's checkpoint area lies (R374). -/
def checkpointArea (l : Launch) (w : Nat) (primary : Bool) : Nat :=
  l.lr.auxa.toNat + w * 2 ^ 26 + (if primary then 2 ^ 24 else 2 ^ 25 + 2 ^ 24)

/-- A workgroup's checkpoint is written into its area in the layout of a save (R304, R399); a write that fails ends the context as
a failed save does. -/
def State.writeCheckpoint (s : State) (x : SavedWg) : State :=
  match tget s.launches x.wg.lid, x.wg.red with
  | some l, some r =>
    let a := checkpointArea l x.wg.w r.primary
    match writeVirtual s x.wg.ctx l.xl true a (leBytes (saveHeader s x.wg.ctx s.tick [x]) 64) with
    | .error _ => s.failContext x.id 0#8 0 a
    | .ok s1 =>
      match s1.writeFree x.wg.ctx l.xl (a + 64) x.size with
      | .ok s => s
      | .error _ => s.failContext x.id 0#8 0 a
  | _, _ => s

/-- Keep the checkpoint state of a workgroup. -/
def State.takeCheckpoint (s : State) (wid : Nat) : State :=
  match captureWg s wid with
  | none => s
  | some x =>
    let x := { x with
      flights := x.flights.filter (fun (_, fl) => fl.kind != FKind.relStore)
      fibs := x.fibs.map (fun ((i, f) : Nat × Fibre) => (i, pastPhase f)) }
    { s with checkpoints := tset s.checkpoints wid x.settle }.writeCheckpoint x.settle

/-- Both twins have agreed at a checkpoint: the primary's entries go out as merges, the twin's are discarded, and the
replay log is cleared. -/
def State.passCheckpoint (s : State) (x : Pair) : State :=
  let bs := phaseBounds s x.p ++ phaseBounds s x.t
  let s := s.dropHeld x.t x.tw.core
  let s := s.modCore x.pw.core (fun c => { c with
    path := c.path.map (fun ((i, e) : Nat × PathEntry) => (i, if e.wg == some x.p then { e with marked := true } else e))
    bounds := c.bounds ++ bs })
  let s := s.modPair x (fun r => { r with sg := 0#64, ck := r.ck + 1, mismatch := 0, rerun := 0, log := [] })
  ((s.takeCheckpoint x.p).takeCheckpoint x.t).finishBoundary x.pw.core

/-- The pair stands at its end: every fibre has exited and nothing that it began is under way. -/
def pairEnding (s : State) (x : Pair) : Bool :=
  x.pw.ending && x.tw.ending &&
  [x.pw, x.tw].all (fun w => w.handles.all (fun h => h.st != .draining && h.st != .filling)) &&
  !(s.cmds.any (fun (_, c) => c.wg == x.p || c.wg == x.t)) &&
  (coreOf s x.pw.core).mq.all (fun (_, m) => m.wg != x.p) && (coreOf s x.tw.core).mq.all (fun (_, m) => m.wg != x.t)

/-- The checkpoint at workgroup end: both states are captured, the primary's entries will merge at its core's boundary, and the
twin is gone, its core refreshed (R191, R304). -/
def State.lastCheckpoint (s : State) (x : Pair) : State :=
  let s := (s.takeCheckpoint x.p).takeCheckpoint x.t
  let s := ((s.removeWg x.t).refresh x.tw.core).leaveBoost x.tw.core
  let s := s.modCore x.pw.core (fun c => { c with
    path := c.path.map (fun ((i, e) : Nat × PathEntry) => (i, if e.wg == some x.p then { e with wg := none } else e)) })
  { s.modWg x.p (fun w => { w with red := none }) with checkpoints := tdel s.checkpoints x.p }

/-- CHECKPOINT: the comparator compares the signatures when both twins have reached it. -/
def State.checkpoint (s : State) (wid : Nat) : State :=
  match pairOf s wid with
  | none => s
  | some x =>
    if !pairQuiet s x || pairMerging s x then s
    else if wgExited s x.p && wgExited s x.t then
      if !pairEnding s x then s
      else if x.r.sg == x.twinSg then s.lastCheckpoint x
      else s.mismatch x
    else if !(atCheckpoint s x.p (x.r.ck + 1)) || !(atCheckpoint s x.t (x.r.ck + 1)) then s
    else if x.r.sg == x.twinSg then s.passCheckpoint x
    else s.mismatch x

def execCheckpoint (wg : Nat) (s : State) : Out := .next (if wgTakes s wg then s.checkpoint wg else s)

/-! ### REDUNDANT_COMPARE (R303) -/

/-- An operation of the primary that both twins have issued, with the twin's. -/
def comparable (s : State) (x : Pair) : Option (Nat × Flight × Nat × Flight) :=
  let mine := s.flights.filter (fun (_, fl) => fl.cmd.isNone && fl.stage == .compare && (match tget s.fibs fl.fib with
    | some f => f.wg == x.p
    | none => false))
  mine.findSome? (fun (i, fl) =>
    match twinFib s fl.fib with
    | none => none
    | some t =>
      match s.flights.find? (fun (_, y) => y.cmd.isNone && y.fib == t && y.stage == .compare) with
      | some (j, y) => some (i, fl, j, y)
      | none => none)

/-- The fibre of a flight now waits for it. -/
def State.holdFlight (s : State) (id : Nat) (fl : Flight) : State :=
  s.modFib fl.fib (fun f => { f with hold := .flight id })

/-- The logged reply is given to both twins, and the operation is not performed again (R305). -/
def State.replay (s : State) (x : Pair) (i j : Nat) (fl : Flight) (e : ReplayEntry) : State :=
  let outs := (List.range fl.dst.length).map (replyOut e.reply)
  let flags := (e.reply.headD 0#32).setWidth 5
  let refresh := (fl.ord == 1 || fl.ord == 3) && decide (5 ≤ fl.scope)
  let s := (s.giveReply i outs flags refresh).giveReply j outs flags refresh
  s.modWg x.p (fun w => { w with red := w.red.map (fun (r : Redundant) => { r with rerun := r.rerun + 1 }) })

/-- The comparator has both twins' issue of an operation: equal, the primary performs it; on a re-run the log answers. -/
def State.compareOnce (s : State) (wid : Nat) : State :=
  match pairOf s wid with
  | none => s
  | some x =>
    if pairMerging s x then s
    else
      match comparable s x with
      | none => s
      | some (i, fl, j, y) =>
        if flightOps fl != flightOps y || fl.fib % 256 != y.fib % 256 then s.mismatch x
        else
          let s := (s.holdFlight i fl).holdFlight j y
          match x.r.log[x.r.rerun]? with
          | some e =>
            if e.fib == fl.fib % 256 && e.ops == flightOps fl then s.replay x i j fl e else s.mismatch x
          | none =>
            let s := (s.setFlight i { fl with stage := .request }).setFlight j { y with stage := .mirror }
            s.armFlight i

def execRedundantCompare (wg : Nat) (s : State) : Out := .next (if wgHalted s wg then s else s.compareOnce wg)

/-! ### RUNNER_SGC_COMPARE (R303) -/

/-- The commands of a workgroup under a handle. -/
def handleCmds (s : State) (wid h : Nat) : List (Nat × Cmd) := s.cmds.filter (fun (_, c) => c.wg == wid && c.handle == h)

/-- Every command of a handle has ended, and of a collective every slot has supplied its slice. -/
def handleEnded (s : State) (wid h : Nat) : Bool :=
  let cs := handleCmds s wid h
  !cs.isEmpty && cs.all (fun (_, c) => c.stage == .landed && !c.cancelled) &&
  (match tget s.wgs wid with
   | none => false
   | some w => w.colls.all (fun x => x.handle != some h || w.slots.all (fun i => x.joined.contains i || slotExited s i)))

/-- SGC over the commands of a handle (R303). -/
def handleSgc (s : State) (wid h : Nat) : BitVec 64 :=
  (handleCmds s wid h).foldl (fun a (_, c) => a + c.sgc.getD 0#64) 0#64

/-- A handle whose commands wait for the comparator in both twins. -/
def sgcHandle (s : State) (x : Pair) : Option Nat :=
  (List.range 64).find? (fun h =>
    handleEnded s x.p h && handleEnded s x.t h &&
    ((handleCmds s x.p h) ++ (handleCmds s x.t h)).any (fun (_, c) => c.sgc.isSome))

/-- The held writes of a command of the primary are performed; a COLL then adds its arrivals (R178). -/
def State.performHeld (s : State) (cid : Nat) : State :=
  match tget s.cmds cid, runCtx s cid with
  | some c, some r =>
    let r := { r with held := [] }
    match runLines s r 0 (c.held.map (fun (a, b) => (a.toNat, [b]))) with
    | .error e => s.runStop cid e
    | .ok ls =>
      let s := s.holdRun r .write (ls.map (fun ln => (ln.va.toNat, 1)))
      match c.kind with
      | .coll op t n rank _ _ grp _ =>
        let s := s.performNow r ls
        if c.sent != 0 then s
        else
          match runRead1 s r 0 grp.toNat (16 * n) with
          | .error e => s.runStop cid e
          | .ok bs =>
            let es := groupEntries n bs
            if !groupRecordOk s r t rank es then s
            else
              (List.range (collSends op n rank)).foldl (fun (s : State) j =>
                match s.bumpCell r (es.getD j (0, 0)).2 with
                | .ok s => s
                | .error e => s.runStop cid e) s
      | _ => s.performLines r ls
  | _, _ => s

/-- A command of a pair goes on after the comparator: a COLL whose sends are done waits for its arrivals. -/
def afterSgc (c : Cmd) : Cmd :=
  let c := { c with held := [], sgc := none }
  match c.kind with
  | .coll op _ n rank _ _ _ _ =>
    if c.sent == 0 && collSends op n rank != 0 then { c with sent := n, stage := .waiting } else c
  | _ => c

/-- What the log keeps of a compared command. -/
def sgcEntry (h : Nat) (sgc : BitVec 64) : ReplayEntry := { fib := 256 + h, ops := [h, sgc.toNat], reply := [] }

/-- The comparator has both twins' commands of a handle. -/
def State.compareSgc (s : State) (wid : Nat) : State :=
  match pairOf s wid with
  | none => s
  | some x =>
    if pairMerging s x then s
    else
      match sgcHandle s x with
      | none => s
      | some h =>
        let a := handleSgc s x.p h
        if a != handleSgc s x.t h then s.mismatch x
        else
          let goOn := fun (s : State) => { s with cmds := s.cmds.map (fun ((i, c) : Nat × Cmd) =>
            (i, if (c.wg == x.p || c.wg == x.t) && c.handle == h && c.sgc.isSome then afterSgc c else c)) }
          let count := fun (s : State) (log : List ReplayEntry) =>
            s.modWg x.p (fun w => { w with red := w.red.map (fun (r : Redundant) =>
              { r with log := r.log ++ log, rerun := r.rerun + 1 }) })
          match x.r.log[x.r.rerun]? with
          | some e => if e == sgcEntry h a then count (goOn s) [] else s.mismatch x
          | none =>
            let s := ((handleCmds s x.p h).filter (fun (_, c) => c.sgc.isSome)).foldl
              (fun (s : State) (i, _) => s.performHeld i) s
            count (goOn s) [sgcEntry h a]

def execRunnerSgcCompare (wg : Nat) (s : State) : Out := .next (if wgHalted s wg then s else s.compareSgc wg)

/-! ### MISMATCH_TIMEOUT (R305) -/

/-- A point at which a twin waits for the other, with the tick since when: a performed-once operation or a trap of a
fibre, the writes of a handle's commands, a checkpoint of the workgroup, or its end. -/
def waitsAlone (s : State) (x : Pair) (wid : Nat) : Option Nat :=
  let other := fun (i : Nat) => (twinFib s i).bind (fun t => tget s.fibs t)
  let fibre := (wgFibs s wid).findSome? (fun (i, f) =>
    match f.hold, f.trap with
    | .compare _, _ =>
      (match other i with
       | some g => (match g.hold with
         | .compare _ => none
         | _ => some f.heldSince)
       | none => none)
    | _, some _ =>
      (match other i with
       | some g => if g.trap.isSome then none else some f.heldSince
       | none => none)
    | _, none => none)
  let twin := if wid == x.p then x.t else x.p
  let w := if wid == x.p then x.pw else x.tw
  let runner := (s.cmds.filterMap (fun ((_, c) : Nat × Cmd) =>
    if c.wg == wid && c.sgc.isSome && handleEnded s wid c.handle && !handleEnded s twin c.handle then some c.landedAt else none)).max?
  match fibre, runner with
  | some k, _ => some k
  | none, some k => some k
  | none, none =>
    let k := x.r.ck + 1
    if wgExited s wid && !wgExited s twin then w.red.map (·.endedAt)
    else if !(wgExited s wid) && atCheckpoint s wid k && !(atCheckpoint s twin k && !(wgExited s twin)) then
      some ((wgFibs s wid).foldl (fun a (_, f) => if f.exited then a else max a f.heldSince) 0)
    else none

/-- WDT of a workgroup's launch. -/
def wdtOf (s : State) (w : Workgroup) : Nat :=
  match launchOf s w with
  | some l => l.lr.wdt
  | none => 0

/-- MISMATCH_TIMEOUT: one twin has waited for the other as long as the barrier watchdog allows. -/
def execMismatchTimeout (wg : Nat) (s : State) : Out :=
  match pairOf s wg with
  | none => .next s
  | some x =>
    let late := [x.p, x.t].any (fun i => match waitsAlone s x i with
      | some k => decide (k + wdtOf s x.pw ≤ s.tick)
      | none => false)
    .next (if late && !pairMerging s x && ctxTakes s x.pw.ctx then s.mismatch x else s)

/-! ### TRAP_ENTRY (R386, R305) -/

/-- A trap of a fibre may be entered: everything earlier has completed. -/
def trapReady (s : State) (fid : Nat) : Option Trap :=
  match tget s.fibs fid with
  | some f => if (fibFlights s fid).isEmpty then f.trap else none
  | none => none

/-- The pieces of some bytes that lie at peers and have not been written there. -/
def peerPieces (s : State) (got : Got) (c : CtxKey) (xl : List (BitVec 32)) (a : Nat) (bs : List Byte) :
    List (Addr × Place × BitVec 64 × BitVec 512) :=
  (linePieces (bs.length + 1) a bs.length).filterMap (fun (v, k) =>
    match translate s c xl true .write (BitVec.ofNat 64 v) with
    | .ok (.peer p o) =>
      if (kget got (Place.peer p o).line).isSome then none
      else some (BitVec.ofNat 64 v, (Place.peer p o).line, byteMask (v % 64) k, bytesLine (v % 64) ((bs.drop (v - a)).take k))
    | _ => none)

/-- What a trap's entry reads elsewhere is asked for, and then what of its frame lies at a peer is written there (R386). -/
def State.fetchTrap (s : State) (fid : Nat) (t : Trap) : State :=
  match tget s.fibs fid with
  | none => s
  | some f =>
    match tget s.wgs f.wg with
    | none => s
    | some w =>
      match (ctxOf s w.ctx).page with
      | none => s
      | some pg =>
        let (rd, wr) := trapLines s fid
        if !rd.isEmpty then (s.readLines fid w.ctx 0#64 0#32 [] rd).2
        else if wr.isEmpty then s
        else
          let sh := match tget s.slots f.slot with | some x => x.shared | none => []
          (s.writePeerLines fid w.ctx 0#64 0#32 [] (peerPieces s f.got w.ctx (xlOf s w) (pg.tfa.toNat + 2048 * frameIndex w fid)
            (frameBytes f sh t w.w (kentOf s w) f.heldSince))).2

/-- TRAP_ENTRY: in redundant mode both twins enter, or their difference is a mismatch. Lines that are not at hand come first. -/
def State.enterTrap (s : State) (fid : Nat) : State :=
  match trapReady s fid with
  | none => s
  | some t =>
    match twinFib s fid with
    | none => if trapAtHand s fid then s.takeTrap fid t else s.fetchTrap fid t
    | some g =>
      match trapReady s g with
      | none => s
      | some u =>
        if t == u then
          if trapAtHand s fid && trapAtHand s g then (s.takeTrap fid t).takeTrap g t
          else (if trapAtHand s fid then s else s.fetchTrap fid t).fetchTrap g t
        else
          match tget s.fibs fid with
          | some f => (match pairOf s f.wg with
            | some x => s.mismatch x
            | none => s)
          | none => s

def execTrapEntry (fib : Nat) (s : State) : Out := .next (s.enterTrap fib)

end Sys2Proof.Machine
end

