-- ==== Sys2Proof/Machine/Watch.lean ====
section
/-!
DEFINITION. FAIRNESS_BURST (R341), ISSUE_LIMIT_SWITCH (R342), the barrier watchdog with its record (R357 to R359), and
XWT_WATCHDOG_TIMEOUT (R181).
-/
namespace Sys2Proof.Machine

/-! ### Issue -/

/-- FAIRNESS_BURST. -/
def execFairnessBurst (fib : Nat) (s : State) : Out := .next (s.beginBurst fib)

/-- The current fibre of a slot has issued 2,048 consecutive instructions beside a ready fibre, and its next one reads no
latch (R214, R342). -/
def switchDue (s : State) (slot : Nat) : Bool :=
  match tget s.slots slot with
  | none => false
  | some x =>
    decide (2048 ≤ x.consec) && (nextReady s slot x.cur).isSome &&
    (match tget s.fibs (fibId slot x.cur) with
     | some f => (heldRun s f).isNone
     | none => true)

/-- ISSUE_LIMIT_SWITCH: a group switch of the fibre that gives up the slot. -/
def execIssueLimitSwitch (slot : Nat) (s : State) : Out :=
  if !switchDue s slot then .next s
  else
    match tget s.slots slot with
    | none => .next s
    | some x => .next ((s.modFib (fibId slot x.cur) groupSwitch).passSlot slot)

/-! ### What is watched (R357) -/

/-- The earliest of a list of ticks. -/
def earliest : List Nat → Option Nat
  | [] => none
  | k :: ks => some (ks.foldl min k)

/-- The threads of a fibre that wait on an object: 0 a workgroup barrier, 1 a counted barrier, 2 FBAR. -/
def waitsOn (kind obj : Nat) (t : Thread) : Bool :=
  t.st == 1#4 && (match t.wait with
    | .bar x => kind == 0 && x == obj
    | .cbar x _ => kind == 1 && x == obj
    | .fbar _ => kind == 2
    | _ => false)

/-- The fibres whose waits on an object count: of FBAR those of the slot `obj` of the workgroup. -/
def watchedFibs (s : State) (wid kind obj : Nat) (w : Workgroup) : List (Nat × Fibre) :=
  (wgFibs s wid).filter (fun (_, f) => kind != 2 || f.slot == w.slots.getD obj (2 ^ 40))

/-- Since when a flight waits on a pod or a ticketed cell (R149). A ticketed add at a peer counts from its request: what it meets
there no reply tells before the lane is done (log entry 42). -/
def blockedSince (fl : Flight) : Option Nat :=
  match fl.kind, fl.stage with
  | _, .reserved _ => none
  | .tadd _ _, .request =>
    if fl.lanes.any (fun x => x.ret.isNone && x.place.remote) then some fl.since else fl.blocked
  | _, _ => fl.blocked

/-- The fibre that waits in the flight `obj` on a pod or a ticketed cell, with the flight and the start of the wait (R149). -/
def watchedFlight (s : State) (wid obj : Nat) : Option (Nat × Fibre × Flight × Nat) :=
  match tget s.flights obj with
  | none => none
  | some fl =>
    match tget s.fibs fl.fib, blockedSince fl with
    | some f, some k => if f.wg == wid && f.hold == .flight obj then some (fl.fib, f, fl, k) else none
    | _, _ => none

/-- The start of the earliest wait on a watched object. -/
def watchStart (s : State) (wid kind obj : Nat) (w : Workgroup) : Option Nat :=
  if kind == 3 then (watchedFlight s wid obj).map (fun x => x.2.2.2)
  else
    earliest (((watchedFibs s wid kind obj w).map (fun ((_, f) : Nat × Fibre) =>
      (f.threads.filter (waitsOn kind obj)).map (·.since))).flatten)

/-! ### The record (R359) -/

/-- A thread holds a token for a barrier at its current GEN. -/
def holdsToken (obj : Nat) (gen : BitVec 16) (t : Thread) : Bool := t.token == some (obj, gen)

/-- A thread has exited or was never launched. -/
def Thread.gone (t : Thread) : Bool := t.st == 3#4 || t.st == 6#4

/-- A fibre has arrived at the object. -/
def hasArrived (s : State) (kind obj : Nat) (gen : BitVec 16) (i : Nat) (f : Fibre) : Bool :=
  match kind with
  | 0 => f.threads.all (fun t => t.gone || holdsToken obj gen t)
  | 2 => fbarArrived s i f
  | _ => false

/-- The fibre's index 4s + i within the workgroup. -/
def fibIndex (w : Workgroup) (f : Fibre) : Nat := 4 * w.slots.idxOf f.slot + f.idx

/-- The mask that the earliest waiter of a slot's FBAR waits with. -/
def earliestMask (fs : List (Nat × Fibre)) : Nat :=
  let ws := (fs.map (fun ((_, f) : Nat × Fibre) => f.threads.filterMap (fun (t : Thread) =>
    match t.wait with
    | .fbar m => if t.st == 1#4 then some (t.since, m) else none
    | _ => none))).flatten
  match earliest (ws.map (·.1)) with
  | none => 0
  | some k => match ws.find? (fun x => x.1 == k) with
    | some x => x.2
    | none => 0

/-- A mask of threads by a test. -/
def threadMask (f : Fibre) (p : Thread → Bool) : Nat :=
  f.threads.zipIdx.foldl (fun a (t, i) => if p t then a + 2 ^ i else a) 0

/-- One fibre entry: its head and its PC table. -/
def watchEntry (w : Workgroup) (kind obj : Nat) (gen : BitVec 16) (blocked : Option LaneMask) (f : Fibre) : List Byte :=
  let waitm := match blocked with
    | some m => m.toNat
    | none => threadMask f (waitsOn kind obj)
  let arrm := if kind == 0 then threadMask f (holdsToken obj gen) else 0
  leBytes (arrm + waitm * 2 ^ 32 + fibIndex w f % 2 ^ 8 * 2 ^ 64) 16 ++
  (f.threads.map (fun t => leBytes (pcEntry t) 8)).flatten

/-- The fibres that receive entries. -/
def entryFibs (s : State) (wid kind obj : Nat) (w : Workgroup) (gen : BitVec 16) : List (Nat × Fibre) :=
  match kind with
  | 0 => (wgFibs s wid).filter (fun (_, f) => f.threads.any (fun t => !t.gone && !holdsToken obj gen t))
  | 1 => (wgFibs s wid).filter (fun (_, f) => !f.exited)
  | 2 =>
    let fs := watchedFibs s wid 2 obj w
    fs.filter (fun (i, f) => earliestMask fs / 2 ^ f.idx % 2 == 1 && !f.exited && !fbarArrived s i f)
  | _ => match watchedFlight s wid obj with
    | some (i, f, _, _) => [(i, f)]
    | none => []

/-- The address at which a flight waits: that of its first lane which is not done. -/
def blockedAt (fl : Flight) : Nat :=
  match fl.lanes.find? (fun x => x.ret.isNone) with
  | some x => x.va.toNat
  | none => 0

/-- The fibre places of a workgroup's slots that hold no fibre, as bits of the record's mask: they count as exited from the start
(R335). -/
def emptyPlaces (s : State) (w : Workgroup) : Nat :=
  match launchOf s w with
  | none => 0
  | some l =>
    w.slots.zipIdx.foldl (fun a (sl, k) =>
      (List.range l.hdr.nfib).foldl (fun a i => if (tget s.fibs (fibId sl i)).isNone then a + 2 ^ (4 * k + i) else a) a) 0

/-- The fibre mask of the record: the fibres that have arrived or exited. -/
def watchMask (s : State) (wid kind obj : Nat) (w : Workgroup) (gen : BitVec 16) : Nat :=
  if kind == 0 || kind == 2 then
    (wgFibs s wid).foldl (fun a (i, f) =>
      if f.exited || hasArrived s kind obj gen i f then a + 2 ^ (fibIndex w f) else a) (emptyPlaces s w)
  else 0

/-- The watchdog record. -/
def watchRecord (s : State) (wid kind obj : Nat) (w : Workgroup) : List Byte :=
  let gen := match kind with
    | 0 => (barOf w obj).gen
    | 1 => (cbarOf w obj).gen
    | _ => 0#16
  let objField := match kind with
    | 3 => (match watchedFlight s wid obj with
      | some (_, _, fl, _) => blockedAt fl
      | none => 0)
    | _ => obj
  let v1 := match kind with
    | 0 => (barOf w obj).arr
    | 1 => (cbarOf w obj).count.toNat
    | _ => 0
  let v2 := match kind with
    | 0 => barNeed s wid (barOf w obj)
    | 1 => (cbarOf w obj).target.toNat
    | 2 => earliestMask (watchedFibs s wid 2 obj w)
    | _ => 0
  let es := entryFibs s wid kind obj w gen
  let blocked := if kind == 3 then (watchedFlight s wid obj).map (fun x => x.2.2.1.mask) else none
  leBytes (kind * 2 ^ 259 + es.length * 2 ^ 263 + v2 % 2 ^ 16 * 2 ^ 272 + v1 % 2 ^ 16 * 2 ^ 288 + gen.toNat * 2 ^ 304 +
    w.w % 2 ^ 32 * 2 ^ 320 + w.core % 2 ^ 10 * 2 ^ 358 + w.ctx.id % 2 ^ 16 * 2 ^ 368 + objField % 2 ^ 64 * 2 ^ 384 +
    s.tick % 2 ^ 64 * 2 ^ 448) 64 ++
  leBytes (watchMask s wid kind obj w gen) 32 ++ (es.map (fun ((_, f) : Nat × Fibre) => watchEntry w kind obj gen blocked f)).flatten

/-- The watch time of an object has reached WDT. The clock stands while the context is not resident. -/
def watchDue (s : State) (wid kind obj : Nat) (w : Workgroup) : Bool :=
  match watchStart s wid kind obj w, launchOf s w with
  | some k, some l => decide (kind ≤ 3) && decide (k + l.lr.wdt ≤ s.tick) && ctxPlaceable s w.ctx
  | _, _ => false

/-- The objects that may be watched in a workgroup: kind and number. -/
def watchObjects (s : State) (wid : Nat) (w : Workgroup) : List (Nat × Nat) :=
  (List.range 16).map (fun x => (0, x)) ++ (List.range w.cbars.length).map (fun x => (1, x)) ++
  (List.range w.slots.length).map (fun x => (2, x)) ++
  s.flights.filterMap (fun (i, _) => if (watchedFlight s wid i).isSome then some (3, i) else none)

/-- What orders the expiries of one launch: the tick, then the workgroup's linear index, KIND and OBJ (R451). -/
def watchKey (s : State) (wid kind obj : Nat) (w : Workgroup) : List Nat :=
  [(watchStart s wid kind obj w).getD 0, w.w, kind,
    if kind == 3 then ((watchedFlight s wid obj).map (fun x => blockedAt x.2.2.1)).getD 0 else obj]

/-- No other object of the launch that has reached WDT goes before this one (R451). -/
def watchFirst (s : State) (wid kind obj : Nat) (w : Workgroup) : Bool :=
  s.wgs.all (fun (i, v) => v.lid != w.lid || (watchObjects s i v).all (fun (k, x) =>
    !(watchDue s i k x v && decide (watchKey s i k x v < watchKey s wid kind obj w))))

/-- One line of the watchdog record: a line that cannot be written is skipped with a fault record, whose requester is none of R116's
(R449, log entry 51); one of a peer goes there. -/
def State.writeWatchPiece (s : State) (c : CtxKey) (xl : List (BitVec 32)) (va : Nat) (bs : List Byte) (x : Nat × Nat) : State :=
  match writePiece [] c xl false va bs s x with
  | .ok s' => s'
  | .error e =>
    match translate s c xl false .write (BitVec.ofNat 64 x.1) with
    | .ok (.peer p o) =>
      s.sendPeer 2046 p (o / 64 * 64) c (.write (byteMask (o % 64) x.2) (bytesLine (o % 64) ((bs.drop (x.1 - va)).take x.2)) none)
    | _ => s.postFault c { tick := s.tick, va := BitVec.ofNat 64 x.1, obj := 0, asid := xlAsid xl, kind := e, acc := 1,
                           run := false, req := 0, lanes := 0#32, rpl := false }

/-- The watchdog record is written, each of its lines by itself (R449). -/
def State.writeWatch (s : State) (c : CtxKey) (xl : List (BitVec 32)) (va : Nat) (bs : List Byte) : State :=
  (linePieces (bs.length + 1) va bs.length).foldl (fun (s : State) x => s.writeWatchPiece c xl va bs x) s

/-- A watchdog expiry of a context is due: it is taken in front of a pre-emption (R357). -/
def ctxOverdue (s : State) (c : CtxKey) : Bool :=
  s.wgs.any (fun (i, w) => w.ctx == c && (watchObjects s i w).any (fun (k, x) => watchDue s i k x w))

/-- WATCHDOG_EXPIRY (R358, R451): the record is written and the context ends. -/
def execWatchdogExpiry (wg kind obj : Nat) (s : State) : Out :=
  match tget s.wgs wg with
  | none => .next s
  | some w =>
    match launchOf s w with
    | some l =>
      if watchDue s wg kind obj w && watchFirst s wg kind obj w then
        .next ((s.writeWatch w.ctx l.xl l.lr.wda.toNat (watchRecord s wg kind obj w)).endContext w.ctx 2 (some (w.lid, w.w)))
      else .next s
    | none => .next s

/-- XWT_WATCHDOG_TIMEOUT: a runner has waited in XWT as long as its launch's watchdog allows. -/
def execXwtWatchdogTimeout (rnr : Nat) (s : State) : Out :=
  match tget s.runners rnr with
  | none => .next s
  | some r =>
    match r.xwt, tget s.wgs r.wg with
    | some _, some w =>
      .next (if r.since + wdtOf s w ≤ s.tick && ctxPlaceable s w.ctx then s.runnerFault rnr 0x0D#8 else s)
    | _, _ => .next s

end Sys2Proof.Machine
end

