-- ==== Sys2Proof/Machine/Preempt.lean ====
section
/-!
DEFINITION. Pre-emption and context switch: PREEMPT and QUANTUM_EXPIRY (R382, R395), PREEMPT_PEER_TIMEOUT (R396, R397),
CONTEXT_HALTED (R395), CONTEXT_SAVE (R399, R306), RESTORE (R400), and HOST_END_CONTEXT (R395, R465).
-/
namespace Sys2Proof.Machine

/-! ### Requests (R382) -/

/-- The priority of a context: the highest among the queues of its launches. -/
def ctxPrio (s : State) (c : CtxKey) : Nat :=
  (s.launches.filter (fun (_, l) => l.ctx == c)).foldl (fun a (_, l) => max a (launchPrio s l)) 0

/-- The largest quantum among the queues of a context's launches, in µs. -/
def ctxQuant (s : State) (c : CtxKey) : Nat :=
  (s.launches.filter (fun (_, l) => l.ctx == c)).foldl (fun a (_, l) => max a (descField s l.qr 349 334)) 0

/-- The packet at the head of a queue waits on BAR. -/
def headBars (s : State) (q : QueueRef) : Bool :=
  match nextAddr s q with
  | none => false
  | some (va, _, parent) =>
    let c := queueCtx s q
    match readVirtual s c (ctxOf s c).force false .read (va % 2 ^ 64) 16 with
    | .ok bs =>
      let up := chainsOf 6 (queueOf s q) parent
      (packetOf (leValue bs)).bar && (queueOf s q).pkts.any (fun y => !(up.contains y.id))
    | .error _ => false

/-- A queue asks for no cores: it is halted, or its head packet waits on BAR or, the last that has begun, in WAITV (R382; log entry
40). -/
def asksNothing (s : State) (q : QueueRef) : Bool :=
  descField s q 355 355 == 1 || headBars s q ||
  (match (queueOf s q).pkts.getLast? with
   | some p => (match p.kind with
     | .waitv _ _ => true
     | _ => false)
   | none => false)

/-- A launch has a workgroup to place, cannot place it, and context `c` holds cores that it could use. -/
def launchWants (s : State) (c : CtxKey) (l : Launch) : Bool :=
  l.ctx != c && ctxPlaceable s l.ctx && !asksNothing s l.qr &&
  l.remap.any (fun k => (nextWg l k).isSome && s.wgs.any (fun (_, w) => w.core == k && w.ctx == c)) &&
  !(l.remap.any (fun k => startable s l k))

/-- The physical core of a saved workgroup: the one that its logical core names now (R18, R400). -/
def savedCore (s : State) (x : SavedWg) : Nat :=
  match tget s.launches x.wg.lid with
  | some l => if (x.wg.red.any (fun r => !r.primary)) then x.wg.core else l.remap.getD x.wg.lcore x.wg.core
  | none => x.wg.core

/-- A saved context waits for cores that context `c` holds. -/
def savedWants (s : State) (c : CtxKey) (k : CtxKey) (x : Ctx) : Bool :=
  k != c && (match x.res with
    | .saved _ _ => true
    | _ => false) &&
  s.launches.any (fun (_, l) => l.ctx == k && !asksNothing s l.qr) &&
  x.saved.any (fun y => s.wgs.any (fun (_, w) => w.core == savedCore s y && w.ctx == c))

/-- What asks for the cores of a context, with its priority. -/
def wantedBy (s : State) (c : CtxKey) : List Nat :=
  s.launches.filterMap (fun (_, l) => if launchWants s c l then some (launchPrio s l) else none) ++
  s.ctxs.filterMap (fun (k, x) => if savedWants s c k x then some (ctxPrio s k) else none)

/-- The cores on which a context has work or buffered stores. -/
def ctxCores (s : State) (c : CtxKey) : List Nat :=
  (s.cores.filter (fun (i, k) => k.path.any (fun (_, e) => e.ctx == c) || s.wgs.any (fun (_, w) => w.core == i && w.ctx == c))).map (·.1)

/-- A core is asked for the boundary of a pre-emption (R295, R395 step 3). -/
def State.askPreempt (s : State) (c : CtxKey) (core : Nat) : State :=
  let (id, s) := s.newId
  s.askBoundary core
    { id := id, fib := none, len := 0, mask := 0#32, flt := none, scope := 0, ctx := some c, lid := none, started := false }

/-- The request to stop a context (R395 step 1): it issues nothing more, its redundant entries are discarded, and its
cores are asked for their boundary. -/
def State.stopContext (s : State) (c : CtxKey) : State :=
  let s := s.modCtx c (fun x => { x with res := .stopping s.tick })
  (ctxCores s c).foldl (fun (s : State) k =>
    (s.modCore k (fun x => { x with path := x.path.filter (fun (_, e) => !(e.ctx == c && e.wg.isSome && !e.marked)) })).askPreempt c k) s

/-- The context is resident since a tick. -/
def residentSince (s : State) (c : CtxKey) : Option Nat :=
  match (ctxOf s c).res with
  | .resident k => some k
  | _ => none

/-- PREEMPT: something of higher priority needs the context's cores. A watchdog expiry that is due comes first (R357). -/
def execPreempt (c : CtxKey) (s : State) : Out :=
  match residentSince s c with
  | none => .next s
  | some _ => .next (if !ctxOverdue s c && (wantedBy s c).any (fun k => decide (ctxPrio s c < k)) then s.stopContext c else s)

/-- QUANTUM_EXPIRY: something of equal priority needs the cores, and the holder's quantum is over; 1,900 ticks are 1 µs. -/
def execQuantumExpiry (c : CtxKey) (s : State) : Out :=
  match residentSince s c with
  | none => .next s
  | some k =>
    let q := ctxQuant s c
    .next (if q != 0 && !ctxOverdue s c && decide (k + 1900 * q ≤ s.tick) && (wantedBy s c).contains (ctxPrio s c) then s.stopContext c else s)

/-! ### Settling (R395 step 2, R396, R397) -/

/-- A context is being stopped. -/
def ctxStopping (s : State) (c : CtxKey) : Option Nat :=
  match (ctxOf s c).res with
  | .stopping k => some k
  | _ => none

/-- A flight has a line or lane off the device. -/
def flightRemote (fl : Flight) : Bool := fl.lines.any (fun ln => ln.place.remote) || fl.lanes.any (fun x => x.place.remote)

/-- A flight that must end before its context is halted (R396, R397). One that still waits for the comparator has done
nothing: its workgroup is saved as its last checkpoint (R306). -/
def mustFinish (fl : Flight) : Bool :=
  if fl.stage == .compare then false
  else
  match fl.kind with
  | .load _ _ _ _ => true
  | .atom _ _ _ => true
  | .relStore => fl.stage == .waiting
  | .putLines => true
  | .fetch => false
  | .gather => false
  | _ =>
    match fl.stage with
    | .reserved _ => true
    | .waiting => false
    | _ => flightRemote fl

/-- The replies to late lanes of a split load that have arrived are written (R396, R397). -/
def State.writeArrived (s : State) (id : Nat) (fl : Flight) : State :=
  match fl.kind with
  | .load w ty _ _ =>
    if !fl.split then s
    else
      let m := arrivedLanes fl (w * elemSize ty) &&& fl.mask &&& ~~~ fl.done &&& (match tget s.fibs fl.fib with
        | some f => liveMask f
        | none => 0#32)
      ((s.writeLoaded fl w ty m).setFlight id { fl with done := fl.done ||| m }).modFib fl.fib (resumeLate id m)
  | _ => s

/-- A pod operation that may hold a reservation at its peer: it settles by the peer's answer, within the peer's bound (R152). -/
def mayReserve (fl : Flight) : Bool :=
  fl.stage != .waiting && (match fl.kind with
    | .enq _ _ _ _ => true
    | .deq _ _ _ => true
    | _ => false)

/-- A flight is withdrawn: its instruction stands at its start with no lane written, and the lanes that have not been performed have
taken no draw. -/
def State.withdrawFlight (s : State) (flt : Nat) : State :=
  match tget s.flights flt with
  | none => s
  | some fl =>
    (s.dropFlight flt).modFib fl.fib (fun f =>
      let f := undraw fl (backTo fl (if f.hold == .flight flt then leaveHold f else f))
      { f with splits := f.splits.map (fun (sp : Split) => if sp.flt == flt then { sp with flt := withdrawnFlt } else sp) })

/-- PREEMPT_PEER_TIMEOUT: a peer has not answered within 10 µs of the request. The instruction is saved at its start with
no lane written; late lanes of a split are ready at their load; a ticketed add keeps the lanes that are performed. -/
def execPreemptPeerTimeout (flt : Nat) (s : State) : Out :=
  match tget s.flights flt with
  | none => .next s
  | some fl =>
    match ctxStopping s fl.ctx with
    | none => .next s
    | some k =>
      let peer := fl.lines.any (fun ln => match ln.place with | .peer _ _ => true | _ => false) ||
        fl.lanes.any (fun x => match x.place with | .peer _ _ => true | _ => false)
      if k + 19000 > s.tick || !peer || fl.kind == .relStore || fl.kind == .putLines || mayReserve fl then .next s
      else
        let s := fl.lines.foldl (fun (s : State) ln => match ln.place with
          | .peer p o => s.ackPeer fl.core p o
          | _ => s) s
        if keptFlight fl then .next (s.setFlight flt { fl with stage := .waiting, waiters := 0, retry := 0 })
        else .next ((s.writeArrived flt fl).withdrawFlight flt)

/-- A draining handle keeps its context from halting (R182): while writes of its commands are under way, and until it settles. One
whose collective copy waits for slots that have yet to join is saved as it stands, since they join after the restore. -/
def drainHolds (s : State) (wid h : Nat) (w : Workgroup) : Bool :=
  (handleOf w h).st == .draining &&
  (s.cmds.any (fun (i, c) => c.wg == wid && c.handle == h && putsPending s i) ||
   w.colls.all (fun x => x.handle != some h || w.slots.all (fun i => x.joined.contains i || slotExited s i)))

/-- A read of the array that has begun completes in front of the halt (R291). -/
def readsArray (s : State) (c : CtxKey) : Bool :=
  s.cores.any (fun (_, k) => k.mq.any (fun (_, m) => m.departed && (m.op == Mx.mrd || m.op == Mx.mqry) &&
    (match tget s.wgs m.wg with
     | some w => w.ctx == c
     | none => false)))

/-- Everything of a stopping context has settled but its merges. -/
def ctxSettled (s : State) (c : CtxKey) : Bool :=
  s.flights.all (fun (_, fl) => fl.ctx != c || !mustFinish fl) &&
  s.fibs.all (fun (i, f) => fibCtx s f != c || ((f.trap.isNone || (twinFib s i).isSome) && !f.haltReq)) &&
  s.wgs.all (fun (i, w) => w.ctx != c || (List.range 64).all (fun h => !drainHolds s i h w)) && !readsArray s c

/-- Buffered stores of a context that are not redundant stand in some core. -/
def ctxBuffered (s : State) (c : CtxKey) : List Nat :=
  (s.cores.filter (fun (_, k) => k.path.any (fun (_, e) => e.ctx == c && (e.wg.isNone || e.marked)))).map (·.1)

/-- The flights of a context leave the wait tables, here and at peers, where the waiters behind them look again; the lanes of a
ticketed add that is not kept take their draws again (R133, R152). -/
def State.leaveTables (s : State) (c : CtxKey) : State :=
  let mine := s.flights.filter (fun (_, fl) => fl.ctx == c)
  let s := mine.foldl (fun (s : State) (i, fl) =>
    let s := s.leavePeer fl
    let s := if keepsFlight fl.kind && !keptFlight fl then s.modFib fl.fib (undraw fl) else s
    if fl.stage == .waiting then s.setFlight i { fl with stage := .request } else s) (s.leaveWaits (mine.map (·.1)))
  s

/-- The context is taken from the wait tables, and boundaries that its fibres asked for are withdrawn with them. -/
def State.withdraw (s : State) (c : CtxKey) : State :=
  let s := s.leaveTables c
  { s with
    cores := s.cores.map (fun ((i, k) : Nat × Core) => (i, { k with
      bounds := k.bounds.filter (fun b => b.ctx != some c && (match b.fib with
        | some f => match tget s.fibs f with
          | some g => fibCtx s g != c
          | none => true
        | none => true))
      allocs := k.allocs.map (fun q => q.filter (fun r => match tget s.fibs r.fib with
        | some g => fibCtx s g != c
        | none => false)) })) }

/-- CONTEXT_HALTED (R395 step 4). Stores that remain are first given another boundary. The snapshots of the context's cores are
discarded (R203), and what waits for registers behind its fibres is looked at again (R218). -/
def execContextHalted (c : CtxKey) (s : State) : Out :=
  match ctxStopping s c with
  | none => .next s
  | some _ =>
    if !ctxSettled s c then .next s
    else
      match ctxBuffered s c with
      | [] =>
        let cores := ctxCores s c
        let s := (ctxBoosts s c).foldl (fun (s : State) k => s.endBoost k) (s.withdraw c)
        let s := cores.foldl (fun (s : State) k => s.refresh k) s
        let s := cores.foldl (fun (s : State) k => (List.range 4).foldl (fun (s : State) i => s.examineAllocs k i) s) s
        .next (s.modCtx c (fun x => { x with res := .halted s.tick }))
      | ks =>
        .next (ks.foldl (fun (s : State) k =>
          if (coreOf s k).bounds.any (fun b => b.ctx == some c) then s else s.askPreempt c k) s)

/-! ### CONTEXT_SAVE (R399, R306) -/

/-- A resident workgroup as it is saved: a redundant one as its last checkpoint with the replay log and the mismatch count. -/
def savedForm (s : State) (wid : Nat) : Option SavedWg :=
  match captureWg s wid with
  | none => none
  | some x =>
    match x.wg.red with
    | none => some x.settle
    | some r =>
      match tget s.checkpoints wid with
      | none => some x.settle
      | some y =>
        let red := y.wg.red.map (fun (q : Redundant) =>
          { q with sg := 0#64, ck := r.ck, mismatch := r.mismatch, rerun := 0, log := r.log, reads := [] })
        some { y with wg := { y.wg with red := red } }

/-- The saved workgroups of a context, in ascending logical core and then in order of placement. -/
def savedWgs (s : State) (c : CtxKey) : List SavedWg :=
  let xs := (ctxWgs s c).filterMap (savedForm s)
  let cores := (xs.map (fun x => x.wg.lcore)).mergeSort (· ≤ ·)
  (cores.eraseDups.map (fun k => xs.filter (fun x => x.wg.lcore == k))).flatten

/-- The save area lies in memory of the context's enclave (R434). -/
def saveOwned (s : State) (c : CtxKey) (va n : Nat) : Bool :=
  let slot := ((ctxOf s c).encl.extractLsb' 0 8).toNat
  slot == 0 || (List.range ((n + 4095) / 4096)).all (fun i =>
    match translate s c (ctxOf s c).force true .write (BitVec.ofNat 64 (va + 4096 * i)) with
    | .ok (.dev d _) => ownerOf s d == slot
    | _ => false)

/-- A save fails: the context ends with status 3, for its first workgroup (R399). -/
def State.failSave (s : State) (c : CtxKey) (area : Nat) : State :=
  match ctxWgs s c with
  | wid :: _ => s.failContext wid 0#8 0 area
  | [] => s.endContext c 3 none

/-- Take a context's workgroups off the device without a trace of them but their saved form. -/
def State.unload (s : State) (c : CtxKey) (xs : List SavedWg) (tick : Nat) : State :=
  let cores := ctxCores s c
  let s := (ctxWgs s c).foldl (fun (s : State) w => s.removeWg w) s
  let s := cores.foldl (fun (s : State) k => (List.range 4).foldl (fun (s : State) i => s.examineAllocs k i) s) s
  s.modCtx c (fun x => { x with res := .saved tick false, saved := xs })

/-- CONTEXT_SAVE. A context without a save area keeps nothing in memory and fails as an area too small does. -/
def execContextSave (c : CtxKey) (s : State) : Out :=
  let x := ctxOf s c
  match x.res with
  | .halted tick =>
    let xs := savedWgs s c
    if xs.isEmpty then .next (s.unload c xs tick)
    else
      match x.page with
      | none => .next (s.failSave c 0)
      | some pg =>
        let size := 64 + (xs.map SavedWg.size).sum
        if !pg.magic || pg.savesz < size || !saveOwned s c pg.savea.toNat size then .next (s.failSave c pg.savea.toNat)
        else
          match writeVirtual s c x.force true pg.savea.toNat (leBytes (saveHeader s c tick xs) 64) with
          | .error _ => .next (s.failSave c pg.savea.toNat)
          | .ok s' =>
            match s'.writeFree c x.force (pg.savea.toNat + 64) (size - 64) with
            | .error _ => .next (s.failSave c pg.savea.toNat)
            | .ok s' => .next (s'.unload c xs tick)
  | _ => .next s

/-! ### RESTORE (R400) -/

/-- The grants of a saved workgroup's slots, with each fibre at its saved P. -/
def savedGrants (s : State) (x : SavedWg) : List Nat :=
  let pool := match tget s.launches x.wg.lid with
    | some l => l.lr.pool
    | none => false
  x.wg.slots.map (fun i =>
    let fs := x.fibs.filter (fun (_, f) => f.slot == i)
    let own := (fs.map (fun ((_, f) : Nat × Fibre) => if f.exited && !pool then 0 else f.regs.length)).sum
    own + (match tget x.slots i with
      | some v => if pool || fs.any (fun (_, f) => !f.exited) then v.shared.length else 0
      | none => 0))

/-- A saved workgroup fits an empty core. -/
def fitsEmptySaved (s : State) (x : SavedWg) : Bool := (placeSlots (savedGrants s x) emptyRoom).isSome

/-- What a saved workgroup takes on its core beside its slots. A twin takes the numbers of its primary, which has been put back
before it (R300). -/
def savedGrant (s : State) (x : SavedWg) : Option CoreGrant :=
  match x.wg.red.bind (fun r => tget s.wgs r.twin) with
  | none => grantOn s (savedCore s x) x.wg.scratch x.wg.tiles.length x.wg.banks.length x.wg.cbars.length
  | some t => if grantFree s (savedCore s x) x.wg.scratch t.held then some t.held else none

/-- Places for a saved workgroup's slots on its core; a twin takes its primary's. -/
def savedPlaces (s : State) (x : SavedWg) : Option (List (Nat × Nat)) :=
  let core := savedCore s x
  match x.wg.red.bind (fun r => tget s.wgs r.twin) with
  | none => placeSlots (savedGrants s x) (coreRoom s core)
  | some t =>
    let ps := t.slots.map (fun i => (i / 16 % 4, i % 16))
    let regs := (List.range 4).all (fun k =>
      decide (((ps.zip (savedGrants s x)).map (fun (p, g) => if p.1 == k then g else 0)).sum ≤ (coreOf s core).regFree.getD k 0))
    if regs && ps.all (fun (k, i) => (tget s.slots (slotId core k i)).isNone) then some ps else none

/-- The new number of a slot: the place at its position on a core. -/
def renumber (x : SavedWg) (core : Nat) (ps : List (Nat × Nat)) (i : Nat) : Nat :=
  match ps[x.wg.slots.idxOf i]? with
  | some (k, j) => slotId core k j
  | none => i

/-- Waits that are timed go on with the time that they had left (R357). -/
def laterBy (d : Nat) (x : SavedWg) : SavedWg :=
  { x with
    fibs := x.fibs.map (fun ((i, f) : Nat × Fibre) => (i, { f with
      heldSince := f.heldSince + d, threads := f.threads.map (fun (t : Thread) => { t with since := t.since + d }) }))
    flights := x.flights.map (fun ((i, fl) : Nat × Flight) => (i, { fl with since := fl.since + d, blocked := fl.blocked.map (· + d) }))
    runners := x.runners.map (fun ((i, r) : Nat × Runner) => (i, { r with since := r.since + d })) }

/-- Put every saved workgroup back, or answer none when one finds no room. -/
def State.putAll (s : State) (d : Nat) : List SavedWg → Option State
  | [] => some s
  | x :: xs =>
    match savedPlaces s x, savedGrant s x with
    | some ps, some g =>
      let core := savedCore s x
      let y := laterBy d (x.moved core (renumber x core ps))
      let y := { y with
        wg := { y.wg with held := g }
        cmds := y.cmds.map (fun ((i, c) : Nat × Cmd) => (i, { c with grp := groupOf s core })) }
      (match (s.putWg y).putAll d xs with
       | none => none
       | some s =>
         let s := if x.wg.red.isSome then { s with checkpoints := tset s.checkpoints x.id y } else s
         some (s.rearm y))
    | _, _ => none

/-- RSTAT of a save's header (R399). -/
def State.writeRstat (s : State) (c : CtxKey) (v : Nat) : State :=
  let x := ctxOf s c
  match x.page with
  | none => s
  | some pg =>
    match readVirtual s c x.force true .read (pg.savea.toNat + 32) 1 with
    | .ok (b :: _) =>
      (match writeVirtual s c x.force true (pg.savea.toNat + 32) [BitVec.ofNat 8 (b.toNat - bitsOf b.toNat 5 4 * 16 + v * 16)] with
       | .ok s => s
       | .error _ => s)
    | _ => s

/-- The checks on the save's own header (R400): MAGIC, MAXD against the largest DMAX of the launches saved, MAXSPL. -/
def headerAdmits (s : State) (c : CtxKey) (xs : List SavedWg) : Bool :=
  let x := ctxOf s c
  match x.page with
  | none => false
  | some pg =>
    match readVirtual s c x.force true .read pg.savea.toNat 64 with
    | .error _ => false
    | .ok bs =>
      let n := leValue bs
      bitsOf n 31 0 == 0x53564158 && bitsOf n 271 269 ≤ 4 &&
      xs.any (fun y => match tget s.launches y.wg.lid with
        | some l => decide (bitsOf n 287 272 ≤ 8 + l.lr.stksz / 8) || l.lr.stksz / 8 + 8 ≥ 2 ^ 16
        | none => true)

/-- The restored fibres re-examine their waits, and a handler whose frame area is unmapped ends the context (R388). -/
def State.wakeRestored (s : State) (c : CtxKey) : State :=
  let fs := (s.fibs.filter (fun (_, f) => fibCtx s f == c)).map (·.1)
  let bad := fs.findSome? (fun i => match tget s.fibs i with
    | none => none
    | some f =>
      match f.handler, tget s.wgs f.wg, (ctxOf s c).page with
      | some h, some w, some pg =>
        (match translate s c (xlOf s w) true .write (BitVec.ofNat 64 (pg.tfa.toNat + 2048 * h.frame)) with
         | .ok _ => none
         | .error k => some (f.wg, k, pg.tfa.toNat + 2048 * h.frame))
      | some _, some _, none => some (f.wg, 0, 0)
      | _, _, _ => none)
  match bad with
  | some (wid, k, a) => s.failContext wid (BitVec.ofNat 8 (0x10 + k)) 0 a
  | none => fs.foldl (fun (s : State) i => s.reexamine i) s

/-- RESTORE. -/
def execRestore (c : CtxKey) (s : State) : Out :=
  let x := ctxOf s c
  match x.res with
  | .saved tick refused =>
    let s1 := s.modCtx c (fun y => { y with page := readPage s c })
    let cores := (coreTable s c.fn).length
    let hopeless := x.saved.any (fun y => decide (cores ≤ y.wg.lcore) || !fitsEmptySaved s y)
    if hopeless then
      let s := (s1.writeRstat c 1).modCtx c (fun y => { y with page := x.page })
      let ls := (s.launches.filter (fun (_, l) => l.ctx == c)).map (·.1)
      let s := ls.foldl (fun (s : State) i => s.completeLaunch i 6 0 0) s
      .next (s.modCtx c (fun y => { y with res := .idle, saved := [] }))
    else
      match (if x.saved.isEmpty || headerAdmits s1 c x.saved then s1.putAll (s.tick - tick) x.saved else none) with
      | none =>
        if refused then .next s
        else .next ((s1.writeRstat c 1).modCtx c (fun y => { y with res := .saved tick true, page := x.page }))
      | some s2 =>
        let s2 := if x.saved.isEmpty then s2 else s2.writeRstat c 2
        let s2 := s2.modCtx c (fun y => { y with res := .resident s.tick, saved := [] })
        let s2 := (ctxCores s2 c).foldl (fun (s : State) k => s.refresh k) s2
        .next (s2.wakeRestored c)
  | _ => .next s

/-! ### HOST_END_CONTEXT -/

/-- The host's request ends a context: every accepted launch of it completes with status 5 (R465). -/
def execHostEndContext (c : CtxKey) (s : State) : Out := .next (s.endContext c 5 none)

end Sys2Proof.Machine
end

