-- ==== Sys2Proof/Machine/Life.lean ====
section
/-!
DEFINITION. Wear, rest, spares and the life budget (R401 to R408, R463, R464, R466), the loss of units (R28, R365),
clocks and power (R411, R414), and the log of the non-volatile memory (R415 to R417).
-/
namespace Sys2Proof.Machine

/-! ### Answers of the policy core -/

/-- A request to the policy core or the security block is answered. -/
def State.reply (s : State) (fn : Nat) (a : Answer) : State := s.send (.answer fn a [])

/-! ### Units and their groups (R402, R403) -/

/-- A unit identifier: kind, die and index. -/
def unitId (kind die index : Nat) : Word := BitVec.ofNat 32 (kind * 2 ^ 28 + die * 2 ^ 26 + index)

def unitKind (u : Word) : Nat := u.toNat / 2 ^ 28
def unitDie (u : Word) : Nat := u.toNat / 2 ^ 26 % 4
def unitIndex (u : Word) : Nat := u.toNat % 2 ^ 16

/-- The place of a unit within its group: site, macro, runner, slice, engine or lane. -/
def unitPlace (u : Word) : Nat :=
  match unitKind u with
  | 1 => unitIndex u % 32
  | 4 => unitIndex u
  | _ => unitIndex u % 16

/-- The members of a group by place: the active ones of a fresh device, and after them its cold spares (R26). -/
def groupSize (kind : Nat) : Nat × Nat :=
  match kind with
  | 0 => (8, 1)
  | 1 => (16, 1)
  | 2 => (8, 1)
  | 3 => (12, 1)
  | 4 => (96, 4)
  | _ => (8, 1)

/-- An identifier names a unit of the device (R17, R22, R402). -/
def unitExists (u : Word) : Bool :=
  let k := unitKind u
  let n := unitIndex u
  let (a, b) := groupSize k
  k ≤ 5 && u.toNat / 2 ^ 16 % 2 ^ 10 == 0 && decide (unitPlace u < a + b) &&
  (match k with
   | 0 => n / 256 == unitDie u && decide (n / 16 % 16 < 12)
   | 1 => n / 32 / 256 == unitDie u && decide (n / 32 / 16 % 16 < 12) && decide (n / 32 % 16 < 9)
   | 2 => decide (n / 16 < 4)
   | 3 => decide (n / 16 < 2)
   | 5 => decide (n / 16 < 15) && n / 16 / 4 == unitDie u
   | _ => true)

/-- The wear record of a unit that no record lists: no stress, gated when it is a spare. -/
def Wear.fresh (u : Word) : Wear :=
  { unit := u, bti := 0, hci := 0, em := 0, btir := 0, st := if unitPlace u < (groupSize (unitKind u)).1 then 0 else 1,
    gatedAt := 0, last := (0, 0, 0), boostEx := (0, 0, 0), env := (0, 0) }

/-- The wear record of a unit. -/
def wearOf (s : State) (u : Word) : Wear :=
  match s.wear.find? (fun w => w.unit == u) with
  | some w => w
  | none => Wear.fresh u

def State.setWear (s : State) (w : Wear) : State :=
  { s with wear := if s.wear.any (fun x => x.unit == w.unit) then s.wear.map (fun x => if x.unit == w.unit then w else x)
                   else s.wear ++ [w] }

/-- The units of the group of a unit. -/
def unitGroup (u : Word) : List Word :=
  let (a, b) := groupSize (unitKind u)
  (List.range (a + b)).map (fun k => u - BitVec.ofNat 32 (unitPlace u) + BitVec.ofNat 32 k)

/-- The gated member of a group: its cold spare or its resting unit. -/
def gatedOf (s : State) (u : Word) : Option Word := (unitGroup u).find? (fun x => (wearOf s x).st == 1)

/-- Every unit of the device, in ascending order of identifier. -/
def allUnits : List Word :=
  ((List.range 6).map (fun kind => ((List.range 4).map (fun die =>
    let heads := match kind with
      | 0 => (List.range 12).map (fun c => die * 256 + c * 16)
      | 1 => ((List.range 12).map (fun c => (List.range 9).map (fun t => (die * 256 + c * 16 + t) * 32))).flatten
      | 2 => (List.range 4).map (· * 16)
      | 3 => (List.range 2).map (· * 16)
      | 4 => [0]
      | _ => ((List.range 15).filter (fun p => p / 4 == die)).map (· * 16)
    (heads.map (fun h => unitGroup (unitId kind die h))).flatten)).flatten)).flatten

/-- LIMIT_m of a unit's kind: 0 BTI, 1 HCI, 2 EM. -/
def limitOf (s : State) (u : Word) (m : Nat) : Nat := s.life.limits.getD (3 * unitKind u + m) 1

/-- The wear score of a record (R404). -/
def scoreOf (s : State) (w : Wear) : Rat :=
  let f := fun (x m : Nat) => ((x : Nat) : Rat) / (limitOf s w.unit m : Nat)
  max (f w.bti 0) (max (f w.hci 1) (f w.em 2))

/-- The wear score of a unit. -/
def wearScore (s : State) (u : Word) : Rat := scoreOf s (wearOf s u)

/-! ### The log of the non-volatile memory (R415 to R417) -/

/-- The bytes of a log record (R415). -/
def nvBytes (r : NvRec) : List Byte :=
  leBytes (0x4E564B52 + r.ty % 2 ^ 16 * 2 ^ 80 + (80 + r.payload.length) % 2 ^ 32 * 2 ^ 96 + r.seq % 2 ^ 64 * 2 ^ 128 +
    r.tick % 2 ^ 64 * 2 ^ 192) 32 ++ r.payload ++ r.digest

/-- The digest that the next log record carries. -/
def nextDigest (log : List NvRec) : List Byte :=
  match log.getLast? with
  | some r => leBytes (Config.sha384 (nvBytes r)).toNat 48
  | none => List.replicate 48 0#8

/-- The bytes that records take in the log area. -/
def nvSize (log : List NvRec) : Nat := (log.map (fun r => 80 + r.payload.length)).sum

/-- The oldest records give way until `n` bytes are free. -/
def nvRoom (area n : Nat) : List NvRec → List NvRec
  | [] => []
  | r :: rs => if nvSize (r :: rs) + n ≤ area then r :: rs else nvRoom area n rs

/-- Write one log record. -/
def State.nvPut (s : State) (ty : Nat) (payload : List Byte) : State :=
  let r : NvRec := { tick := s.tick, seq := s.nvSeq, ty := ty, payload := payload, digest := nextDigest s.nvLog }
  { s with nvLog := nvRoom s.life.area (80 + payload.length) s.nvLog ++ [r], nvSeq := s.nvSeq + 1 }

/-- Elapsed service in seconds (R406). -/
def elapsedNow (s : State) : Nat := s.elapsed + s.tick / 1900000000

/-- A wear record as R402 lays it out, truncated to whole µrh. -/
def wearBytes (w : Wear) : List Byte :=
  let t := fun (x : Nat) => x / 2 ^ 24 % 2 ^ 48
  leBytes (w.unit.toNat + w.st % 16 * 2 ^ 76 + min (w.btir / 2 ^ 24) 0xFFFFFFFF * 2 ^ 80 + t w.em * 2 ^ 112 +
    t w.hci * 2 ^ 160 + t w.bti * 2 ^ 208) 32

/-- Write a full WEARCK of every unit. A full record ends the break that LOGBRK reports (R422). -/
def State.putWearck (s : State) : State :=
  let us := allUnits
  { s.nvPut 0x10 (leBytes (elapsedNow s) 8 ++ leBytes us.length 4 ++ leBytes 0 4 ++
      (us.map (fun u => wearBytes (wearOf s u))).flatten) with logbrk := false }

/-- How many of the waiting records are written with no other among them: those of one call-up (R464). -/
def nvGroup : List (Nat × List Byte) → Nat
  | (0x15, _) :: r => 1 + nvGroup r
  | (0x13, p) :: (0x14, q) :: _ => if (p.drop 4).take 4 == q.take 4 then 2 else 1
  | _ => 1

/-- The payload bytes for which the log needs room before the next record is written: with its own, those of the records that
follow it with no other between. -/
def nvNeed (l : List (Nat × List Byte)) : Nat := ((l.take (nvGroup l)).map (fun x => 80 + x.2.length)).sum - 80

/-- Writing a record of `n` payload bytes would lose a WEARCK. -/
def nvWraps (s : State) (n : Nat) : Bool :=
  let kept := nvRoom s.life.area (80 + n) s.nvLog
  (s.nvLog.take (s.nvLog.length - kept.length)).any (fun r => r.ty == 0x10)

/-- LOG_RECORD_WRITE: the record that has waited longest is written. -/
def State.writeLog (s : State) : State :=
  match s.nvPending with
  | [] => s
  | (ty, p) :: r =>
    let s := if nvWraps s (nvNeed s.nvPending) then s.putWearck else s
    { s with nvPending := r }.nvPut ty p

def execLogRecordWrite (s : State) : Out := .next s.writeLog

/-- Every record that waits is written. -/
def State.drainLog (s : State) : State := (List.range s.nvPending.length).foldl (fun s _ => s.writeLog) s

/-- WEARCK: every 2^40 ticks, behind the records of earlier events, or before the log wraps past its oldest WEARCK. -/
def execWearck (s : State) : Out :=
  .next (if s.wearckAt ≤ s.tick then { s.drainLog.putWearck with wearckAt := s.wearckAt + 2 ^ 40 }
    else if !s.nvPending.isEmpty && nvWraps s (nvNeed s.nvPending) then s.putWearck
    else s)

/-! ### Stress (R401, R408) -/

/-- The core of a unit that has one. -/
def unitCore (u : Word) : Option Nat :=
  match unitKind u with
  | 0 => some (unitIndex u)
  | 1 => some (unitIndex u / 32)
  | _ => none

def addStress (a b : Nat × Nat × Nat) : Nat × Nat × Nat := (a.1 + b.1, a.2.1 + b.2.1, a.2.2 + b.2.2)

def subStress (a b : Nat × Nat × Nat) : Nat × Nat × Nat := (a.1 - b.1, a.2.1 - b.2.1, a.2.2 - b.2.2)

/-- A unit belongs to a core that runs boosted. -/
def unitBoosted (s : State) (u : Word) : Bool :=
  match unitCore u with
  | none => false
  | some c =>
    match (coreOf s c).boost with
    | some b => b.susp.isNone
    | none => false

/-- A finite binary64 number (R416); a pattern that is none counts as 0. -/
def binary64 (x : BitVec 64) : Rat :=
  let e := (x.extractLsb' 52 11).toNat
  let m := (x.extractLsb' 0 52).toNat
  let v : Rat := if e == 0 then (m : Nat) / (2 ^ 1074 : Nat) else ((2 ^ 52 + m : Nat) : Rat) * (2 ^ e : Nat) / (2 ^ 1075 : Nat)
  if e == 2047 then 0 else if x.getLsbD 63 then -v else v

/-- The exponential as the device computes it; 1 at 0 (log entry 8). -/
def expOf (x : Rat) : Rat := if x == 0 then 1 else Config.exp x

/-- Boltzmann's constant in eV/K, as the international system of units fixes it (PRESUMED: log entry 8). -/
def boltzmann : Rat := (1380649 : Nat) / (16021766340 : Nat)

/-- The acceleration factors of BTI, HCI and EM (R401), from the constants γB, EB, γH and EM, the voltage in millivolts, the
temperature in millikelvin, and the activity in thousandths. -/
def accel (c : List (BitVec 64)) (mv milliK act : Nat) : Rat × Rat × Rat :=
  let k := fun (i : Nat) => binary64 (c.getD i 0#64)
  let dv : Rat := (mv : Nat) / (1000 : Nat) - (3 : Nat) / (4 : Nat)
  let dt : Rat := (100 : Nat) / (35815 : Nat) - (1000 : Nat) / (milliK : Nat)
  let a : Rat := (act : Nat) / (500 : Nat)
  (expOf (k 0 * dv) * expOf (k 1 / boltzmann * dt), expOf (k 2 * dv) * a, a * a * expOf (k 3 / boltzmann * dt))

/-- The µrh that a time in ticks adds at an acceleration factor of 1 (R401, R408). -/
def microHours (ticks : Nat) : Rat := (ticks * 10 ^ 6 : Nat) / (1900000000 * 3600 : Nat)

/-- The stress that one sample adds to BTI, HCI and EM, in units of 2^-24 µrh (R401); what is below a unit is dropped (DESIGN
CHOICE: log entry 8). -/
def stressOf (c : List (BitVec 64)) (mv milliK act : Nat) : Nat × Nat × Nat :=
  let f := accel c mv milliK act
  let u := fun (x : Rat) => (x * microHours (2 ^ 16) * (2 ^ 24 : Nat)).floor.toNat
  (u f.1, u f.2.1, u f.2.2)

/-- The supply of a core at a boost level, in millivolts (R410). -/
def levelMv (level : Nat) : Nat := [750, 790, 820, 860].getD level 750

/-- The price of a level by one unit's temperature and activity in the last interval (R408): none of the mechanisms may cost
more. -/
def unitPrice (c : List (BitVec 64)) (level milliK act : Nat) : Nat :=
  let f := accel c (levelMv level) milliK act
  let g := accel c (levelMv 0) milliK act
  (max (f.1 - g.1) (max (f.2.1 - g.2.1) (f.2.2 - g.2.2)) * microHours (2 ^ 24)).ceil.toNat

/-- One sample of one powered unit. The stress at base voltage stands beside it for the boost excess. -/
def State.sample (s : State) (x : StressInput) : State :=
  let w := wearOf s x.unit
  if x.gated || w.st != 0 || !unitExists x.unit then s
  else
    let d := stressOf s.life.consts x.mv x.milliK x.act
    let ex := if unitBoosted s x.unit then subStress d (stressOf s.life.consts (levelMv 0) x.milliK x.act) else (0, 0, 0)
    s.setWear { w with
      bti := w.bti + d.1, hci := w.hci + d.2.1, em := w.em + d.2.2, btir := min (w.btir + d.1) (0x100000000 * 2 ^ 24 - 1)
      last := addStress w.last d, boostEx := addStress w.boostEx ex, env := (x.milliK, x.act) }

def execStressSample (samples : List StressInput) (s : State) : Out := .next (samples.foldl (fun s x => s.sample x) s)

/-! ### The accrual (R404, R407, R408, R463) -/

/-- Ticks of an accrual interval in hours. -/
def accrualHours : Rat := (2 ^ 32 : Nat) / (1900000000 * 3600 : Nat)

/-- The headroom of a unit in µrh per hour. -/
def headroom (s : State) (u : Word) : Rat :=
  let w := wearOf s u
  let left : Rat := (s.target : Nat) - (elapsedNow s : Nat) / (3600 : Nat)
  let of := fun (m sum last : Nat) =>
    let a : Rat := if left ≤ 0 then 0 else (((limitOf s u m : Nat) : Rat) - (sum : Nat)) / (2 ^ 24 : Nat) / left
    a - (last : Nat) / (2 ^ 24 : Nat) / accrualHours
  let l := subStress w.last w.boostEx
  max 0 (min (of 0 w.bti l.1) (min (of 1 w.hci l.2.1) (of 2 w.em l.2.2)))

/-- The units that back a core: itself and its active macros. -/
def coreUnits (s : State) (core : Nat) : List Word :=
  unitId 0 (coreDie core) core ::
  ((List.range 17).map (fun m => unitId 1 (coreDie core) (core * 32 + m))).filter (fun u => (wearOf s u).st == 0)

/-- The headroom of a core. -/
def coreHeadroom (s : State) (core : Nat) : Rat :=
  match coreUnits s core with
  | [] => 0
  | u :: us => us.foldl (fun a x => min a (headroom s x)) (headroom s u)

/-- The credit of a partition at an accrual (R407). -/
def partCredit (s : State) (p : Part) : Nat :=
  let h := p.remap.foldl (fun a c => a + coreHeadroom s c) (0 : Rat)
  (((p.share : Nat) : Rat) / (256 : Nat) * h * accrualHours).floor.toNat

/-- A partition with its credit. -/
def creditPart (s : State) (p : Part) : Part :=
  { p with lifebud := BitVec.ofNat 32 (min (p.lifebud.toNat + partCredit s p) p.lbcap.toNat) }

/-- The published price of a level on a core (R408, R409). -/
def priceOf (s : State) (core level : Nat) : Nat :=
  let x := (coreUnits s core).foldl (fun a u =>
    let w := wearOf s u
    max a (unitPrice s.life.consts level w.env.1 w.env.2)) 0
  if 1023 < x then 0 else x

/-- The price register of a core. -/
def bpriceOf (s : State) (core : Nat) : BitVec 32 :=
  BitVec.ofNat 32 (priceOf s core 1 + priceOf s core 2 * 2 ^ 10 + priceOf s core 3 * 2 ^ 20)

/-- Publish the prices of a core. -/
def State.publish (s : State) (core : Nat) : State := s.setCore core { coreOf s core with bprice := bpriceOf s core }

/-- A swap of a group has been decided already. -/
def swapPending (s : State) (u : Word) : Bool :=
  s.swaps.any (fun x => (unitGroup u).contains x.up || (unitGroup u).contains x.down)

/-- The active member of a group with the highest score, the lowest identifier first. -/
def mostWorn (s : State) (u : Word) : Option Word :=
  ((unitGroup u).filter (fun x => (wearOf s x).st == 0)).foldl (fun (a : Option Word) x =>
    match a with
    | none => some x
    | some y => if wearScore s y < wearScore s x then some x else a) none

/-- ROTGAP. -/
def rotGap (s : State) : Rat := ((s.life.rotgap.1 : Nat) : Rat) / (s.life.rotgap.2 : Nat)

/-! ### Loss of units (R28, R155, R365) -/

/-- A retirement is recorded: in the log, and as an error record (R27, R28, R404, R429). -/
def State.retireUnit (s : State) (u : Word) (reason : Nat) (by_ : Nat) : State :=
  let s := s.setWear { wearOf s u with st := 2 }
  let s := s.nvRecord 0x14 (leBytes u.toNat 4 ++ leBytes reason 4)
  s.errorRecord (unitDie u) 3 0 by_ 0 0 u none 0#8

/-- A core leaves the tables of its partitions; the logical numbers above it move down (R28, R365). -/
def State.loseCore (s : State) (core : Nat) : State :=
  { s with parts := s.parts.map (fun ((i, p) : Nat × Part) => (i, { p with remap := p.remap.filter (· != core) })) }

/-- The group that a runner's unit serves in, and its number there: a merged group numbers what another brought to it (R155). -/
def runnerSeat (s : State) (u : Word) : Nat × Nat :=
  let g := unitDie u * 4 + unitIndex u / 16
  let t := (groupRec s g).servedBy
  if t == g then (g, unitPlace u) else (t, homeRunner g (unitPlace u))

/-- A runner leaves its group (R155). -/
def State.loseRunner (s : State) (u : Word) : State :=
  let (g, n) := runnerSeat s u
  let x := groupRec s g
  { s with groups := tset s.groups g { x with active := x.active.filter (· != n) } }

/-- A peer port has lost its link (R22, R28). -/
def State.portState (s : State) (port st : Nat) : State :=
  { s with fabric := s.fabric.map (fun (r : FabRow) => if r.pop && !r.self && r.port.toNat == port then { r with link := st } else r) }

/-- A core or runner is lost: no spare stands in for it (R28). -/
def State.loseSimple (s : State) (u : Word) (reason : Nat) : State :=
  let s := s.retireUnit u reason 0
  if unitKind u == 0 then s.loseCore (unitIndex u) else if unitKind u == 2 then s.loseRunner u else s

/-- A unit has failed or worn out: the spare of its group is decided on for it, also where a swap that earns a rest had it; where the
spare replaces a unit that has failed before, or there is none, `lost` says what happens (R27, R28, R404). -/
def State.dropWith (lost : State → Word → Nat → State) (s : State) (u : Word) (reason : Nat) : State :=
  if (wearOf s u).st != 0 then s
  else
    match s.swaps.find? (fun x => (unitGroup u).contains x.up) with
    | some x =>
      if x.down == u || x.reason == 0 then
        let why := if x.down == u && x.reason != 0 then x.reason else reason
        { s with swaps := s.swaps.map (fun y => if y == x then { x with down := u, reason := why } else y) }
      else lost s u reason
    | none =>
      match gatedOf s u with
      | some g => { s with swaps := s.swaps ++ [{ up := g, down := u, reason := reason }] }
      | none => lost s u reason

/-- A unit is lost; with a macro its whole core is retired, and takes a spare core if its cluster has one (R28). -/
def State.loseUnit (s : State) (u : Word) (reason : Nat) : State :=
  if unitKind u == 1 then
    (s.retireUnit u reason 0).dropWith State.loseSimple (unitId 0 (unitDie u) (unitIndex u / 32)) reason
  else s.loseSimple u reason

/-- A unit of a kind that takes its spare between launches has failed or worn out. -/
def State.dropUnit (s : State) (u : Word) (reason : Nat) : State := s.dropWith State.loseUnit u reason

/-- A spare fails: it is retired, and never called up. A unit that it was to replace because it had failed is lost (R27, R28). -/
def State.spareFails (s : State) (u : Word) : State :=
  let gone := s.swaps.filter (fun x => x.up == u)
  let s := { s.retireUnit u 2 0 with swaps := s.swaps.filter (fun x => x.up != u) }
  gone.foldl (fun (s : State) x => if x.reason == 0 then s else s.loseUnit x.down x.reason) s

/-- The decision on one group whose members rest (R404). -/
def State.decideGroup (s : State) (u : Word) : State :=
  match mostWorn s u with
  | none => s
  | some a =>
    if 1 ≤ wearScore s a then
      ((unitGroup u).filter (fun x => x != a && (wearOf s x).st == 0 && decide (1 ≤ wearScore s x))).foldl
        (fun (s : State) x => s.dropUnit x 1) (s.dropUnit a 1)
    else if swapPending s u then s
    else
      match gatedOf s u with
      | none => s
      | some g =>
        if wearScore s g + rotGap s ≤ wearScore s a then { s with swaps := s.swaps ++ [{ up := g, down := a, reason := 0 }] }
        else s

/-- The first unit of every group that the records list. -/
def wornGroups (s : State) : List Word :=
  ((s.wear.filter (fun w => unitKind w.unit ≤ 2)).map (fun w => (unitGroup w.unit).headD w.unit)).eraseDups

/-! ### Call-up (R26, R379, R403 to R405, R464) -/

/-- A launch has a workgroup that it may still place on a physical core: one that its map puts there, or, without a map or in
redundant mode, any that has not started (R379). -/
def stillToPlace (x : Launch) (phys : Nat) : Bool :=
  (nextWg x phys).isSome || ((x.map.isEmpty || x.lr.rdn) && x.remap.contains phys && decide (x.next < x.total))

/-- The binding of a logical core may change: no accepted launch of the partition has work on it or for it, saved workgroups that will
be placed back among it (R18, R379, R400). -/
def remapFree (s : State) (p l : Nat) : Bool :=
  !(s.launches.any (fun (i, x) => x.part == p &&
    (let phys := x.remap.getD l 4096
     s.wgs.any (fun (_, w) => w.lid == i && w.core == phys) || stillToPlace x phys ||
     (ctxOf s x.ctx).saved.any (fun y => y.wg.lid == i && savedCore s y == phys))))

/-- The partitions and logical numbers under which a core is bound. -/
def boundAs (s : State) (core : Nat) : List (Nat × Nat) :=
  s.parts.filterMap (fun (i, p) => if p.remap.contains core then some (i, p.remap.idxOf core) else none)

/-- R26 and R405 permit the call-up that replaces a unit. -/
def callupOk (s : State) (u : Word) : Bool :=
  match unitKind u with
  | 0 => !(s.wgs.any (fun (_, w) => w.core == unitIndex u)) && (boundAs s (unitIndex u)).all (fun (p, l) => remapFree s p l)
  | 1 =>
    let c := unitIndex u / 32
    (coreOf s c).mq.isEmpty && s.wgs.all (fun (_, w) => w.core != c || w.tiles.isEmpty)
  | 2 =>
    let (g, n) := runnerSeat s u
    s.cmds.all (fun (_, c) => c.grp != g || !holdsRunner c || (match c.stage with
      | .running k => k != n
      | _ => false))
  | _ => false

/-- The recovery that a rest earns (R403). -/
def restRecovery (s : State) (w : Wear) : Option Nat :=
  let t := s.tick - w.gatedAt
  if t < s.life.trmin then none else some (w.btir * s.life.rfrac * min t s.life.trfull / (256 * s.life.trfull))

/-- The called-up unit becomes active, with the recovery of its rest. -/
def State.wakeUnit (s : State) (u : Word) : State :=
  let w := wearOf s u
  match restRecovery s w with
  | none => s.setWear { w with st := 0 }
  | some rec_ =>
    (s.setWear { w with st := 0, bti := w.bti - rec_, btir := 0 }).nvRecord 0x15
      (leBytes u.toNat 4 ++ leBytes (s.tick - w.gatedAt) 8 ++ leBytes (rec_ / 2 ^ 24) 4)

/-- The role of one unit passes to another. -/
def State.rebind (s : State) (up down : Word) : State :=
  match unitKind up with
  | 0 =>
    { s with parts := s.parts.map (fun ((i, p) : Nat × Part) =>
        (i, { p with
          cores := (p.cores.map (fun c => if c == unitIndex down then unitIndex up else c)).mergeSort (· ≤ ·)
          remap := p.remap.map (fun c => if c == unitIndex down then unitIndex up else c) })) }
  | 2 =>
    let (g, n) := runnerSeat s down
    let x := groupRec s g
    { s with groups := tset s.groups g { x with active := x.active.map (fun k => if k == n then (runnerSeat s up).2 else k) } }
  | _ => s

/-- A decided swap takes effect. A member that has reached score 1 meanwhile is retired. -/
def State.callup (s : State) (x : Swap) : State :=
  let reason := if x.reason == 0 && 1 ≤ wearScore s x.down then 1 else x.reason
  let s := { s with swaps := s.swaps.filter (· != x) }
  let s := (s.wakeUnit x.up).nvRecord 0x13 (leBytes x.up.toNat 4 ++ leBytes x.down.toNat 4 ++ leBytes reason 4)
  let s := s.rebind x.up x.down
  if reason == 0 then
    (s.setWear { wearOf s x.down with st := 1, gatedAt := s.tick }).errorRecord (unitDie x.down) 3 0 x.up.toNat 0 0 x.down
      none 0#8
  else s.retireUnit x.down reason x.up.toNat

/-- SPARE_CALLUP of a decided swap, named by the unit called up. -/
def execSpareCallup (unit : Word) (s : State) : Out :=
  .next (match s.swaps.find? (fun x => x.up == unit) with
    | some x => if (wearOf s x.up).st == 1 && callupOk s x.down then s.callup x else s
    | none => s)

/-- REMAP_CHANGE: within its physical cluster, logical core `l` takes another core of the partition, whose own
logical number then takes the one that `l` had (R365, R379). -/
def execRemapChange (p l : Nat) (phys : BitVec 10) (s : State) : Out :=
  .next (match tget s.parts p with
    | none => s
    | some x =>
      match x.remap[l]? with
      | none => s
      | some old =>
        let new := phys.toNat
        let k := x.remap.idxOf new
        if new / 16 != old / 16 || !(x.remap.contains new) || !(remapFree s p l) || !(remapFree s p k) then s
        else { s with parts := tset s.parts p { x with remap := (x.remap.set l new).set k old } })

/-! ### Requests of the PF (R406, R407, R411, R412, R466) -/

/-- SET_TARGET. -/
def execSetTarget (fn hours : Nat) (s : State) : Out :=
  .next (if fn != 0 then s.reply fn .refused
    else if hours < 8760 || 131400 < hours then s.reply fn .rangeError
    else
      let s := s.nvRecord 0x16 (leBytes s.target 4 ++ leBytes hours 4 ++ leBytes fn 4)
      { s with target := hours }.reply fn .done)

/-- A request that sets a field of a partition. -/
def State.setPart (s : State) (p : Nat) (ok : Bool) (f : Part → Part) : State :=
  if !ok then s.reply 0 .rangeError
  else if (tget s.parts p).isNone then s.reply 0 .refused
  else { s with parts := tmod s.parts p f }.reply 0 .done

def execSetShare (p v : Nat) (s : State) : Out := .next (s.setPart p (v ≤ 256) (fun (x : Part) => { x with share := v }))
def execSetLbcap (p : Nat) (v : Word) (s : State) : Out := .next (s.setPart p true (fun (x : Part) => { x with lbcap := v }))
def execSetMaxlvl (p v : Nat) (s : State) : Out := .next (s.setPart p (v ≤ 3) (fun (x : Part) => { x with maxlvl := v }))

def execSetPlim (watts : Nat) (s : State) : Out :=
  .next (if watts < 1200 || 2400 < watts then s.reply 0 .rangeError else { s with plim := watts }.reply 0 .done)

/-! ### Power and temperature (R411, R414) -/

/-- A boost is suspended now. -/
def Boost.suspend (b : Boost) (tick : Nat) : Boost := if b.susp.isSome then b else { b with susp := some tick }

/-- A boost runs on, and the ticks of its suspension are counted. -/
def Boost.resume (b : Boost) (tick : Nat) : Boost :=
  match b.susp with
  | some t => { b with susp := none, suspended := b.suspended + (min tick b.stop - t) }
  | none => b

/-- Change the boosts of the cores that a test admits. -/
def State.modBoosts (s : State) (which : Nat → Boost → Bool) (f : Boost → Boost) : State :=
  { s with cores := s.cores.map (fun ((i, c) : Nat × Core) =>
      (i, match c.boost with
        | some b => if which i b then { c with boost := some (f b) } else c
        | none => c)) }

/-- The core whose boost was granted last of those that the power limit has not suspended. -/
def lastBoost (s : State) : Option Nat :=
  (s.cores.foldl (fun (a : Option (Nat × Nat)) (i, c) =>
    match c.boost with
    | some b => if b.byPower then a else (match a with
      | some (_, o) => if o < b.order then some (i, b.order) else a
      | none => some (i, b.order))
    | none => a) none).map (·.1)

/-- POWER_WINDOW: the average package power of one window of 1 ms. Above PLIM the boost granted last is suspended, and
with none left the clocks fall below base. -/
def execPowerWindow (watts : Nat) (s : State) : Out :=
  .next (
    let s := { s with power := watts, powerOk := if watts * 100 < 95 * s.plim then s.powerOk + 1 else 0 }
    if watts ≤ s.plim then { s with throttled := s.throttled && !s.hot.isEmpty }
    else
      match lastBoost s with
      | some c => s.modBoosts (fun i _ => i == c) (fun (b : Boost) => { b.suspend s.tick with byPower := true })
      | none => { s with throttled := true })

/-- BOOST_RESUME: after 10 ms below 0.95 PLIM the boosts that the power limit suspended resume, but those of a hot die. -/
def execBoostResume (s : State) : Out :=
  .next (if s.powerOk < 10 then s
    else
      (s.modBoosts (fun _ b => b.byPower) (fun (b : Boost) => { b with byPower := false })).modBoosts (fun i b => !b.byPower && !(s.hot.contains (coreDie i))) (fun b => b.resume s.tick))

/-- A temperature in °C as a reading in millikelvin. -/
def celsius (t : Nat) : Nat := t * 1000 + 273150

/-- THERMAL_LIMIT: a die above TJMAX suspends every boost on it; 10 °C above it, its clocks fall below base. -/
def execThermalLimit (die milliK : Nat) (s : State) : Out :=
  .next (if milliK ≤ celsius s.life.tjmax then s
    else
      let s := s.modBoosts (fun i _ => coreDie i == die) (fun b => b.suspend s.tick)
      { s with hot := if s.hot.contains die then s.hot else s.hot ++ [die]
               throttled := s.throttled || decide (celsius (s.life.tjmax + 10) < milliK) })

/-- JUNCTION_BELOW_TJMAX: 5 °C below TJMAX the boosts that the thermal limit suspended resume. -/
def execJunctionBelowTjmax (die milliK : Nat) (s : State) : Out :=
  .next (if !(s.hot.contains die) || celsius (s.life.tjmax - 5) < milliK then s
    else
      let s := s.modBoosts (fun i b => coreDie i == die && !b.byPower) (fun b => b.resume s.tick)
      let hot := s.hot.filter (· != die)
      { s with hot := hot, throttled := s.throttled && (!hot.isEmpty || decide (s.plim < s.power)) })

/-- BOOST_END: a boost whose duration has run out ends (R414, R462). -/
def execBoostEnd (core : Nat) (s : State) : Out :=
  .next (match (coreOf s core).boost with
    | some b => if b.stop ≤ s.tick then s.endBoost core else s
    | none => s)

end Sys2Proof.Machine
end

