-- ==== Sys2Proof/Machine/Pods.lean ====
section
/-!
DEFINITION. Pods (R141 to R152): ENQ, DEQ, PODI and PODQ, their events at the control slice, the advance of the
counters, waiters, and retries.
-/
namespace Sys2Proof.Machine

/-! ### Waiters and wakes (R149, R151) -/

/-- The name under which the wait tables hold a waiter of a peer: its fibre, and the request that waits. -/
def guestWaiter (fl : Flight) : Nat :=
  2 ^ 60 + guestSrc fl * 2 ^ 40 + guestFibre fl * 2 ^ 32 + guestStream fl * 2 ^ 16 + (guestSeq fl).toNat

/-- The name of a flight in the wait tables. -/
def waiterId (id : Nat) (fl : Flight) : Nat := if isGuest fl then guestWaiter fl else id

/-- Two names are of one waiter: a peer's request sent again has another sequence number. -/
def sameWaiter (a b : Nat) : Bool := if 2 ^ 60 ≤ a then a / 2 ^ 16 == b / 2 ^ 16 else a == b

/-- No earlier waiter of the direction stands before this one (R145). -/
def isFirst (s : State) (key w : Nat) : Bool :=
  match s.podWait.find? (fun e => e.1 == key) with
  | none => true
  | some e => sameWaiter e.2 w

/-- Remove a waiter from the tables. -/
def dropWaiter (key w : Nat) : List (Nat × Nat) → List (Nat × Nat)
  | [] => []
  | e :: r => if e.1 == key && sameWaiter e.2 w then r else e :: dropWaiter key w r

/-- Wake the waiters of a pod of the given directions. -/
def State.wakePod (s : State) (d : Nat) (dirs : List Nat) : State :=
  (s.podWait.filter (fun e => dirs.any (fun k => e.1 == waitKey d k))).foldl (fun s e => s.wakeOne e.2) s

/-- The direction of a pod operation. -/
def podDir (k : FKind) : Nat :=
  match k with
  | .enq _ _ _ _ => 0
  | .deq _ _ _ => 1
  | _ => 2

/-- A pod operation leaves the tables; the next of its direction looks again. -/
def State.podLeaves (s : State) (id d : Nat) : State :=
  match tget s.flights id with
  | none => s
  | some fl =>
    let key := waitKey d (podDir fl.kind)
    let w := waiterId id fl
    if s.podWait.any (fun e => e.1 == key && sameWaiter e.2 w) then
      ({ s with podWait := dropWaiter key w s.podWait }).wakePod d [podDir fl.kind]
    else s

/-- A pod operation waits: it is recorded, or begins again after 256 ticks when the table is full. -/
def State.podWaits (s : State) (id d : Nat) : State :=
  match tget s.flights id with
  | none => s
  | some fl =>
    let key := waitKey d (podDir fl.kind)
    let w := waiterId id fl
    let have_ := s.podWait.any (fun e => e.1 == key && sameWaiter e.2 w)
    let full := !have_ && decide (512 ≤ waitTableUsed s d)
    let s := if have_ then
        { s with podWait := s.podWait.map (fun e => if e.1 == key && sameWaiter e.2 w then (key, w) else e) }
      else if full then s else { s with podWait := s.podWait ++ [(key, w)] }
    if isGuest fl then
      s.answerPeer id { emptyReply fl with waits := true, status := if full then 1 else 0 }
    else
      ((s.modFlight id (fun fl =>
        { fl with stage := .waiting, waiters := 0, retry := if full then s.tick + 256 else 0 })).blockFlight id).flightWaits id

/-! ### Faults and completion -/

/-- The pod fault of an operation (R142): its fibre and its twin's trap, or the peer is told. -/
def State.podTrap (s : State) (id : Nat) : State :=
  match tget s.flights id with
  | none => s
  | some fl =>
    if isGuest fl then s.answerPeer id { emptyReply fl with corrupt := true }
    else (id :: mirrorOf s fl).foldl (fun (s : State) i =>
      match tget s.flights i with
      | none => s
      | some x =>
        let va := match x.lanes with | l :: _ => l.va | [] => 0#64
        let s := (s.dropFlight i).modFib x.fib (fun f => backTo x (if f.hold == .flight i then leaveHold f else f))
        s.raise x.fib (trapAddr 0x53 x.mask va)) s

/-- The control slice finds the block corrupt, or treats it so (R142, R145). -/
def State.podBad (s : State) (id d : Nat) : State :=
  (((s.podLeaves id d).podCorrupt d).wakePod d [0, 1, 2]).podTrap id

/-- A pod operation ends with a status in every active lane, and element registers in the lanes of a mask. -/
def State.podDone (s : State) (id status : Nat) (elems : List (LaneMask × LaneVec)) (statuses : LaneVec) : State :=
  match tget s.flights id with
  | none => s
  | some fl =>
    if isGuest fl then
      let words := if (match fl.kind with | .podQuery _ => true | _ => false) then [[statuses.lane 0]]
        else (List.range (popMask fl.mask)).map (fun k =>
        elems.map (fun e => e.2.lane k) ++ (if elems.isEmpty then [] else [statuses.lane k]))
      s.answerPeer id { emptyReply fl with status := status, words := words.flatten, rels := fl.rels }
    else
      let isDeq := match fl.kind with | .deq _ _ _ => true | _ => false
      let none_ := List.replicate (fl.dst.length - 1) (0#32, LaneVec.splat 0#32)
      let outs := if isDeq then (if elems.isEmpty then none_ else elems) ++ [(fl.mask, statuses)] else [(fl.mask, statuses)]
      s.completeOnce id outs 0#5 (isDeq && decide (5 ≤ fl.scope))

/-- A refused operation gives its status and changes nothing else (R144). -/
def State.podRefuse (s : State) (id status : Nat) : State :=
  s.podDone id status [] (LaneVec.splat (BitVec.ofNat 32 status))

/-! ### What the control slice decides (R144, R145) -/

/-- The decision on an ENQ or DEQ. -/
inductive PodAct where
  | refuse (status : Nat)
  | wait
  | serve
  deriving DecidableEq, Repr

/-- The checks of R144 in their order, then the wait or the refusal of .nb. -/
def podDecide (b : List Word) (enq : Bool) (variant logW : Nat) (ticket : Word) (n : Nat) (first : Bool) : PodAct :=
  let seq := variant == 2
  let turn := if enq then podEtkt b else podDtkt b
  let have_ := (podEnqc b - podDeqr b).toNat
  let room := if enq then decide (n ≤ (podFree b).toNat) else decide (n ≤ have_)
  if logW != podEsz b then .refuse 6
  else if seq != podSeq b then .refuse 4
  else if podCap b < n then .refuse 5
  else if seq && decide (ticketAhead ticket turn < 0) then .refuse 3
  else if podClosed b && (enq || decide (have_ < n)) then .refuse 2
  else if room && first && (!seq || ticket == turn) then .serve
  else if variant == 1 then .refuse 1
  else .wait

/-- The block after a reservation of `n` slots (R145). -/
def podReserve (b : List Word) (enq seq : Bool) (n : Nat) : List Word :=
  let m := BitVec.ofNat 32 n
  if enq then
    let b := (b.set 8 (podEnqr b + m)).set 7 (podFree b - m)
    if seq then b.set 12 (podEtkt b + 1#32) else b
  else
    let b := b.set 10 (podDeqr b + m)
    if seq then b.set 13 (podDtkt b + 1#32) else b

/-- The offset of a flight's control block in its page, and the page's size (R141). -/
def podPage (s : State) (fl : Flight) : Nat × Nat :=
  match fl.lanes with
  | x :: _ =>
    let n := pageSize s (if isGuest fl then .device else .core fl.core) fl.ctx (flightXl s fl) x.va
    (x.va.toNat % n, n)
  | [] => (0, 4096)

/-- The element writes of an ENQ with the records that they leave (R145, R146). -/
def State.podWriteElems (s : State) (fl : Flight) (d base : Nat) (es : List (List Word)) : State :=
  let b := podWords s d
  let r := flightAgent s fl (lowestLane fl.mask) fl.scope
  es.zipIdx.foldl (fun (s : State) (e, k) =>
    let lost := poisoned s (podSlot d b (base + k))
    let s := s.podPut d b (base + k) e fl.ctx
    if lost then s else s.setRel (podSlot d b (base + k)) (some r)) s

/-- Lane `k` of a pod operation acquires what a release has written (R326, R328): at the operation's scope, and by an acquire
fence after it at the fence's (R323); a peer is told and judges it itself. -/
def State.podAcquires (s : State) (id : Nat) (fl : Flight) (k : Nat) (r : Option RelRec) : State :=
  match r with
  | none => s
  | some e =>
    if isGuest fl then s.modFlight id (fun g => { g with rels := g.rels ++ [(k, e)] })
    else if (tget s.fibs fl.fib).isNone then s
    else
      let l := (lanesOf fl.mask).getD k 0
      (s.noteAcquire fl.ctx (flightAgent s fl l fl.scope) fl.scope r).seeRel fl.fib l r

/-- Serve an ENQ or DEQ: reserve, and write an ENQ's elements. -/
def State.podServe (s : State) (id d : Nat) (fl : Flight) (b : List Word) (enq seq : Bool) : State :=
  let n := popMask fl.mask
  let base := (if enq then podEnqr b else podDeqr b).toNat
  let s := s.podWrite d (podReserve b enq seq n)
  let s := match fl.kind with
    | .enq _ _ _ es => s.podWriteElems fl d base es
    | _ => s
  (s.podLeaves id d).modFlight id (fun fl => { fl with stage := .reserved base, since := s.tick })

/-- A configuration word of PODI.init is valid for a block at an offset of its page (R147). -/
def podConfigOk (c : Word) (pg : Nat × Nat) : Bool :=
  (c &&& ~~~ podConfigMask) == 0#32 && (c.extractLsb' 8 5).toNat ≤ 24 && podFits c pg.1 pg.2

/-- The block that PODI.init writes (R141). -/
def podFresh (c : Word) : List Word :=
  [c, 0x504F4453#32, 0#32, 0#32, 0#32, 0#32, 0#32, BitVec.ofNat 32 (2 ^ (c.extractLsb' 8 5).toNat), 0#32, 0#32, 0#32,
   0#32, 0#32, 0#32, 0#32, 0#32]

/-- Operations that hold reservations on a block (R147). -/
def podHolders (s : State) (d : Nat) : List Nat :=
  (s.flights.filter (fun (_, fl) => flightBlock fl == some d && (match fl.stage with
    | .reserved _ => true
    | _ => false))).map (·.1)

/-- PODI.init writes the block; reservations that a corrupt block still recorded end with the pod fault. -/
def State.podInitDo (s : State) (id d : Nat) (fl : Flight) (c : Word) : State :=
  let s := (podHolders s d).foldl (fun s i => s.podTrap i) s
  let s := (s.podWrite d (podFresh c)).setRel d (some (flightAgent s fl (lowestLane fl.mask) fl.scope))
  ((s.podLeaves id d).wakePod d [0, 1, 2]).podRefuse id 0

/-- PODI.init at the control slice (R147). -/
def State.podInit (s : State) (id d : Nat) (fl : Flight) (c : Word) : State :=
  let pg := podPage s fl
  let b := podWords s d
  if !podConfigOk c pg then (s.podLeaves id d).podRefuse id 6
  else if podOk b pg.1 pg.2 && (podEnqr b != podEnqc b || podDeqr b != podDeqc b) then s.podWaits id d
  else s.podInitDo id d fl c

/-- What PODQ reads (R148). -/
def podField (b : List Word) (what : Nat) : Word :=
  match what with
  | 0 => podEnqc b - podDeqr b
  | 1 => podFree b
  | 2 => podW b 0
  | 3 => podEtkt b
  | _ => podDtkt b

/-- A pod operation at a local control block (POD_CONTROL_EVENT). -/
def State.podLocal (s : State) (id d : Nat) : State :=
  match tget s.flights id with
  | none => s
  | some fl =>
    let pg := podPage s fl
    let b := podWords s d
    if mustFollow s id fl [(d, 64 + podCap b * (4 * 2 ^ podEsz b))] then s
    else if poisoned s d then (s.podLeaves id d).failOnce id 6 0
    else
      match fl.kind with
      | .podInit c => s.podInit id d fl c
      | k =>
        if !podOk b pg.1 pg.2 then s.podBad id d
        else
          let go := fun (enq : Bool) (v w : Nat) (t : Word) =>
            match podDecide b enq v w t (popMask fl.mask) (isFirst s (waitKey d (podDir k)) (waiterId id fl)) with
            | .refuse st => ((s.podAcquires id fl 0 (tget s.lineRel (lineBase d))).podLeaves id d).podRefuse id st
            | .wait => s.podWaits id d
            | .serve =>
              let s := s.podAcquires id fl 0 (tget s.lineRel (lineBase d))
              s.podServe id d ((tget s.flights id).getD fl) b enq (v == 2)
          match k with
          | .enq v w t _ => go true v w t
          | .deq v w t => go false v w t
          | .podClose =>
            let s := (s.podWrite d (b.set 0 (podW b 0 ||| 0x00400000#32))).setRel d
              (some (flightAgent s fl (lowestLane fl.mask) fl.scope))
            (s.wakePod d [0, 1, 2]).podRefuse id 0
          | .podQuery what =>
            s.podDone id 0 [] (LaneVec.splat (podField b what))
          | _ => s

/-! ### A peer's answer (R151) -/

/-- The number by which a peer will name a waiting request in its wake. -/
def sentKey (s : State) (core peer off : Nat) : Nat :=
  match s.sent.find? (fun x => x.stream == core && x.peer == peer && x.off.toNat == off) with
  | some x => x.stream * 2 ^ 16 + x.seq.toNat
  | none => 0

/-- The elements and statuses of a DEQ as a peer sends them: each lane's W words, then its status. -/
def peerElems (fl : Flight) (W : Nat) (words : List Word) : List (LaneMask × LaneVec) × LaneVec :=
  let lanes := lanesOf fl.mask
  let at_ := fun (l k : Nat) => words.getD (lanes.idxOf l * (W + 1) + k) 0#32
  let ok := maskOf (lanes.filter (fun l => at_ l W == 0#32))
  ((List.range W).map (fun k => (ok, LaneVec.of (fun l => at_ l k))), LaneVec.of (fun l => at_ l W))

/-- The answer of a peer to a pod operation. -/
def State.podPeer (s : State) (id peer off : Nat) (r : PodReply) : State :=
  match tget s.flights id with
  | none => s
  | some fl =>
    let key := sentKey s fl.core peer off
    let s := s.ackPeer fl.core peer off
    match r.fault with
    | some k => s.failOnce id k 0
    | none =>
      if r.corrupt then s.podTrap id
      else if r.waits then
        ((s.modFlight id (fun fl =>
          if r.status == 0 then { fl with stage := .waiting, waiters := 0, retry := key }
          else { fl with stage := .waiting, waiters := 2, retry := s.tick + 256 })).blockFlight id).flightWaits id
      else
        let s := r.rels.foldl (fun (s : State) x => s.podAcquires id fl x.1 (some x.2)) s
        match fl.kind with
        | .deq _ w _ =>
          if r.status == 0 then
            let (es, st) := peerElems fl (2 ^ w) r.words
            s.podDone id 0 es st
          else s.podRefuse id r.status
        | .podQuery _ => s.podDone id 0 [] (LaneVec.splat (r.words.getD 0 0#32))
        | _ => s.podRefuse id r.status

/-- POD_CONTROL_EVENT: the operation is checked and served, refused or recorded, here or at its peer. -/
def State.podControlEvent (s : State) (id : Nat) (rep : Option PodReply) : State :=
  match tget s.flights id with
  | none => s
  | some fl =>
    if fl.stage != .request then s
    else
      match fl.lanes, rep with
      | x :: _, none =>
        match x.place with
        | .dev d _ => s.podLocal id d
        | _ => s
      | x :: _, some r =>
        match x.place with
        | .peer p o => s.podPeer id p o r
        | _ => s
      | [], _ => s

def execPodControlEvent (flt : Nat) (rep : Option PodReply) (s : State) : Out :=
  .next (if flightHalted s flt then s else s.asFlight flt (fun s => s.podControlEvent flt rep))

/-! ### The counters advance (R145) -/

/-- ENQC reaches an ENQ's reservation: its elements are published. -/
def State.enqcAdvance (s : State) (id : Nat) : State :=
  match tget s.flights id with
  | none => s
  | some fl =>
    match fl.kind, fl.stage, flightBlock fl with
    | .enq _ _ _ _, .reserved base, some d =>
      if podEnqc (podWords s d) != BitVec.ofNat 32 base then s
      else ((s.podPublish d base (popMask fl.mask)).wakePod d [1, 2]).podRefuse id 0
    | _, _, _ => s

def execEnqcAdvance (flt : Nat) (s : State) : Out := .next (if flightHalted s flt then s else s.asFlight flt (fun s => s.enqcAdvance flt))

/-- The element reads of a DEQ: for each lane its words, or none when the element is lost (R150). -/
def podElems (s : State) (d base n : Nat) : List (Option (List Word)) :=
  (List.range n).map (fun k => podGet s d (podWords s d) (base + k))

/-- The records of lost elements. -/
def State.podLost (s : State) (c : CtxKey) (d base : Nat) (es : List (Option (List Word))) : State :=
  es.zipIdx.foldl (fun (s : State) (e, k) =>
    if e.isNone then s.errorRecord (dieOf d) 0x04 0 d ((base + k) % podCap (podWords s d)) 0 0#32 (some c) 0#8 else s) s

/-- What a DEQ acquires: the records of its elements' lines (R326). -/
def State.podAcquire (s : State) (id : Nat) (fl : Flight) (d base : Nat) (es : List (Option (List Word))) : State :=
  let b := podWords s d
  es.zipIdx.foldl (fun (s : State) (e, k) =>
    if e.isNone then s else s.podAcquires id fl k (tget s.lineRel (lineBase (podSlot d b (base + k))))) s

/-- A lane's place among the lanes that have elements; a peer's lanes are numbered from 0. -/
def elemPlace (fl : Flight) (l : Nat) : Nat := if isGuest fl then l else (lanesOf fl.mask).idxOf l

/-- DEQC reaches a DEQ's reservation: its elements have been read and their slots are free. -/
def State.deqcAdvance (s : State) (id : Nat) : State :=
  match tget s.flights id with
  | none => s
  | some fl =>
    match fl.kind, fl.stage, flightBlock fl with
    | .deq _ w _, .reserved base, some d =>
      if podDeqc (podWords s d) != BitVec.ofNat 32 base then s
      else
        let es := podElems s d base (popMask fl.mask)
        let s := (s.podLost fl.ctx d base es).podAcquire id fl d base es
        let word := fun (l k : Nat) => match es.getD (elemPlace fl l) none with
          | some ws => ws.getD k 0#32
          | none => 0#32
        let ok := maskOf ((lanesOf fl.mask).filter (fun l => (es.getD (elemPlace fl l) none).isSome))
        let st := LaneVec.of (fun l => if (es.getD (elemPlace fl l) none).isSome then 0#32 else 7#32)
        let s := (s.podRetire d base (popMask fl.mask)).wakePod d [0, 2]
        s.podDone id 0 ((List.range (2 ^ w)).map (fun k => (ok, LaneVec.of (fun l => word l k)))) st
    | _, _, _ => s

def execDeqcAdvance (flt : Nat) (s : State) : Out := .next (if flightHalted s flt then s else s.asFlight flt (fun s => s.deqcAdvance flt))

/-- The bound of R145 in ticks of the 1.9 GHz clock: 4 µs on the device, 10 µs for a peer's operation. -/
def podBound (fl : Flight) : Nat := if isGuest fl then 19000 else 7600

/-- A reservation whose turn has not come within the bound ends (POD_PUBLISH_TIMEOUT). -/
def State.podPublishTimeout (s : State) (id : Nat) : State :=
  match tget s.flights id with
  | none => s
  | some fl =>
    match fl.stage, flightBlock fl with
    | .reserved base, some d =>
      let b := podWords s d
      let here := match fl.kind with | .enq _ _ _ _ => podEnqc b | _ => podDeqc b
      if here == BitVec.ofNat 32 base || s.tick < fl.since + podBound fl then s else s.podBad id d
    | _, _ => s

def execPodPublishTimeout (flt : Nat) (s : State) : Out := .next (if flightHalted s flt then s else s.asFlight flt (fun s => s.podPublishTimeout flt))

/-! ### Wakes and retries (R149) -/

/-- A woken operation begins again. -/
def State.podBegin (s : State) (id : Nat) (fl : Flight) : State :=
  let s := s.setFlight id { fl with stage := .request, waiters := 0, retry := 0 }
  if fl.lines.any (fun ln => ln.place.remote) then s.armFlight id else s

/-- POD_WAKE. -/
def State.podWake (s : State) (id : Nat) : State :=
  match tget s.flights id with
  | none => s
  | some fl => if fl.stage == .waiting && fl.waiters == 1 then s.podBegin id fl else s

def execPodWake (flt : Nat) (s : State) : Out := .next (if flightHalted s flt then s else s.podWake flt)

/-- The instruction of a flight was not recorded and begins again later: at a peer's slice or at one here. -/
def retryDue (s : State) (fl : Flight) : Bool :=
  decide (fl.retry ≤ s.tick) && (match fl.kind with
    | .tadd _ _ => fl.retry != 0 && fl.stage == .request
    | _ => fl.stage == .waiting && (if fl.lines.any (fun ln => ln.place.remote) then fl.waiters == 2 else fl.retry != 0))

/-- WAIT_TABLE_RETRY. -/
def State.waitTableRetry (s : State) (id : Nat) : State :=
  match tget s.flights id with
  | none => s
  | some fl =>
    if !retryDue s fl then s
    else
      match fl.kind with
      | .tadd _ _ =>
        let s := s.setFlight id { fl with retry := 0 }
        ((List.range fl.lines.length).foldl (fun (s : State) n => (s.taddLine id n 32).taddRecord id n) s).finishTadd id
      | _ => s.podBegin id fl

def execWaitTableRetry (flt : Nat) (s : State) : Out := .next (if flightHalted s flt then s else s.waitTableRetry flt)

/-- A wake from a peer reaches the request that waits there (R151). -/
def State.peerWake (s : State) (src key : Nat) : State :=
  { s with flights := s.flights.map (fun ((i, fl) : Nat × Flight) =>
      (i, if fl.stage == .waiting && fl.waiters == 0 && fl.retry == key &&
             fl.lines.any (fun ln => match ln.place with | .peer p _ => p == src | _ => false) then
            { fl with waiters := 1 } else fl)) }

/-! ### The instructions (R143) -/

/-- The lowest lane of the issue, as a mask. -/
def lowMask (s : State) : LaneMask := BitVec.ofNat 32 (2 ^ lowestLane s.cur.mask)

/-- The address pair, read in the lowest active lane only (R131). -/
def podPair (f : LForm) (s : State) : List Src :=
  [srcLanes (.sel f.a) Ty.i32 (lowMask s), srcLanes (.sel (f.a + 1#7)) Ty.i32 (lowMask s)]

/-- The scope of a pod operation: its own, or for a release after a wider release fence the fence's (R323). -/
def podScope (i : FIn) (f : LForm) (rel : Bool) : Nat :=
  match i.f.relMark with
  | some sc => if rel then max (Mem.scope f) sc else Mem.scope f
  | none => Mem.scope f

/-- A pod instruction once its operands are checked: `kind` from what it has read, its destinations, whether it
is a release. -/
def opPod (f : LForm) (more : List Src) (dests : List Nat) (shape rel : Bool) (kind : FIn → FKind) (s : State) : Out :=
  let xs := podPair f s ++ more
  memOp f.y xs dests (addrPairOk (curWindow s) f.a && shape) rel s (fun s i =>
    let l := lowestLane i.m
    let va := laneAddrOf i l
    if va.toNat % 64 != 0 then .next (s.raise i.fid (trapAddr 0x30 (lowMask s) va))
    else
      match wgOf s i.f with
      | none => .next s
      | some w =>
        let xl := xlOf s w
        let (ok, bad) := translateLanes s (.core w.core) w.ctx xl (privOf i.f) .atomic true [(l, va)]
        let bad := bad ++ hostAtomFaults 0xC f.ty ok
        if !bad.isEmpty then .next (s.accessFault i.fid i.m bad)
        else
          match watchHalt s i false 3 64 [(l, va)] with
          | some s => .next s
          | none =>
            let s := s.holdAll .atomic w.ctx xl [va]
            let lanes := ok.map (fun x =>
              { lane := x.1, va := x.2.1, place := x.2.2, x := 0#32, y := 0#32, u := 0, ret := none })
            let lines := (accessLines 64 ok).map (fun x =>
              { va := x.1, place := x.2.1, ownMask := 0#64, own := 0#512, data := none })
            let fl := newFlight s i w (kind i) dests (podScope i f rel) (if rel then 2 else 0) lanes lines
            .next (s.launchOnce i fl 16 true f.y (anyLatch xs)))

/-- The registers of an ENQ's elements. -/
def enqSrcs (f : LForm) : List Src :=
  (List.range (2 ^ Pod.logW f)).map (fun k => src (.sel (f.b + BitVec.ofNat 7 k)) Ty.i32)

/-- The ticket of a .seq form, read in the lowest active lane. -/
def ticketSrcs (f : LForm) (s : State) : List Src :=
  if Pod.variant f == 2 then [srcLanes (.sel f.c) Ty.i32 (lowMask s)] else []

/-- The word of source `k` in the lowest active lane, if the form has a ticket. -/
def ticketOf (f : LForm) (i : FIn) (k : Nat) : Word := if Pod.variant f == 2 then i.low k else 0#32

def opEnq (f : LForm) (s : State) : Out :=
  let W := 2 ^ Pod.logW f
  opPod f (enqSrcs f ++ ticketSrcs f s) [f.d.toNat] (W == 1 || decide (f.b.toNat + W ≤ curWindow s)) true (fun i =>
    .enq (Pod.variant f) (Pod.logW f) (ticketOf f i (2 + W))
      ((lanesOf i.m).map (fun l => (List.range W).map (fun k => (i.s (2 + k)).lane l)))) s

def opDeq (f : LForm) (s : State) : Out :=
  let W := 2 ^ Pod.logW f
  opPod f (ticketSrcs f s) ((List.range (W + 1)).map (fun k => f.d.toNat + k)) true false (fun i =>
    .deq (Pod.variant f) (Pod.logW f) (ticketOf f i 2)) s

def opPodi (f : LForm) (s : State) : Out :=
  if Mem.sub f == 0 then
    opPod f [srcLanes (.sel f.b) Ty.i32 (lowMask s)] [f.d.toNat] true true (fun i => .podInit (i.low 2)) s
  else opPod f [] [f.d.toNat] true true (fun _ => .podClose) s

def opPodq (f : LForm) (s : State) : Out :=
  opPod f [] [f.d.toNat] true false (fun _ => .podQuery (Mem.sub f)) s

def execEnq (f : LForm) (s : State) : Out := opEnq f s
def execDeq (f : LForm) (s : State) : Out := opDeq f s
def execPodi (f : LForm) (s : State) : Out := opPodi f s
def execPodq (f : LForm) (s : State) : Out := opPodq f s

end Sys2Proof.Machine
end

