-- ==== Sys2Proof/Machine/Link.lean ====
section
/-!
DEFINITION. The host link and the peer fabric: host accesses and completions (R137, R332, R431, R432, R434), requests
that peers send here (R106, R309 to R312), retransmission, relays and the state of links (R22, R313, R314).
-/
namespace Sys2Proof.Machine

/-! ### Reads in flight -/

/-- Reads and atomics in flight on lines that a test admits are served before the lines change in a way that a later
read would meet as a fault: they were accepted when the lines were sound. -/
def State.serveReads (s : State) (which : Nat → Bool) : State :=
  s.flights.foldl (fun (s : State) (id, fl) =>
    (List.range fl.lines.length).foldl (fun (s : State) n =>
      match fl.lines[n]? with
      | none => s
      | some ln =>
        match ln.place, ln.data with
        | .dev d _, none =>
          if !(which d) then s
          else
            match fl.kind with
            | .load _ _ _ _ => s.sliceRead id n
            | .atom _ _ _ => s.atomicEvent id n
            | _ => s
        | _, _ => s) s) s

/-! ### AER (R431) -/

/-- The model's numbers of the AER statuses: 0 correctable internal, 1 uncorrectable internal, 2 poisoned TLP received,
3 completion timeout, 4 completer abort, then the receiver and protocol errors. -/
def linkErrorBit (e : LinkErrorKind) : Nat :=
  match e with
  | .receiverError => 5
  | .badTlp => 6
  | .badDllp => 7
  | .replayTimeout => 8
  | .replayRollover => 9

/-- A status is set in a function and reported as correctable. -/
def State.reportAer (s : State) (fn n : Nat) : State := (s.setAer fn n).send (.errorMsg false false)

def execLinkError (e : LinkErrorKind) (s : State) : Out := .next (s.reportAer 0 (linkErrorBit e))

/-! ### Accesses of the host (R332, R362, R432, R434) -/

/-- How a host access of `n` bytes at an address of a function is taken. -/
inductive HostAcc where
  | refuse (abort : Bool)
  | at (dpa : Nat)
  deriving DecidableEq, Repr

/-- A host access after a class-F record or to an owned region is aborted; one that no window holds is unsupported. -/
def hostAccess (s : State) (fn a n : Nat) : HostAcc :=
  if s.contained then .refuse true
  else if s.boot != .up then .refuse false
  else
    match fnAddr s fn a n with
    | none => .refuse false
    | some d => if ownerOf s d != 0 || ownerOf s (d + (n - 1)) != 0 then .refuse true else .at d

/-- The lines that `n` bytes at a device address touch. -/
def touched (d n : Nat) : List Nat := (linePieces (n + 1) d n).map (fun x => lineBase x.1)

/-- HOST_READ. -/
def execHostRead (fn dpa len : Nat) (s : State) : Out :=
  .next (match hostAccess s fn dpa len with
    | .refuse ab => (if ab then s.reportAer fn 4 else s).send (.refuse fn ab)
    | .at d =>
      if (touched d len).any (poisoned s) then s.send (.completion fn [] true)
      else s.send (.completion fn (readBytes s.mem d len) false))

/-- Lines become poisoned (R102). -/
def State.poisonLine (s : State) (d : Nat) : State :=
  let a := lineBase d
  let s := s.serveReads (fun x => lineBase x == a)
  if s.poisonLines.contains a then s else { s with poisonLines := s.poisonLines ++ [a] }

/-- HOST_WRITE: performed line by line at the home slices; a part of a poisoned line is discarded, and a poisoned
request poisons its lines. -/
def execHostWrite (fn dpa : Nat) (data : List Byte) (bad : Bool) (s : State) : Out :=
  .next (match hostAccess s fn dpa data.length with
    | .refuse ab => if ab then s.reportAer fn 4 else s
    | .at d =>
      if bad then ((touched d data.length).foldl (fun s a => s.poisonLine a) s).reportAer fn 2
      else
        (linePieces (data.length + 1) d data.length).foldl (fun (s : State) (a, k) =>
          if writeLands s a (byteMask (a % 64) k) then
            s.sliceWrite a (bytesLine (a % 64) ((data.drop (a - d)).take k)) (byteMask (a % 64) k)
          else s) s)

/-! ### Completions (R137, R193, R431) -/

/-- A flight ends on a fault of kind `k` at its line `n`, in both twins of a redundant pair. -/
def State.failAny (s : State) (id k n : Nat) : State :=
  match tget s.flights id with
  | none => s
  | some fl =>
    match fl.kind with
    | .atom _ _ _ => (s.unwait id).failOnce id k n
    | .tadd _ _ => (s.unwait id).failOnce id k n
    | .enq _ _ _ _ => s.failOnce id k n
    | .deq _ _ _ => s.failOnce id k n
    | .podInit _ => s.failOnce id k n
    | .podClose => s.failOnce id k n
    | .podQuery _ => s.failOnce id k n
    | _ => s.failFlight id k n

/-- The line of a flight on which a lane's access lies. -/
def lineOfLane (fl : Flight) (lane : Nat) : Nat :=
  match laneReq fl lane with
  | some x => (fl.lines.findIdx? (fun ln => ln.place == x.place.line)).getD 0
  | none => 0

/-- The old value of one lane of an atomic on host memory has come. -/
def State.hostAtom (s : State) (id lane : Nat) (old : Word) : State :=
  match tget s.flights id with
  | none => s
  | some fl =>
    match laneReq fl lane with
    | none => s
    | some x =>
      match x.place, x.ret with
      | .sys _, none =>
        let (sub, ty, mode) := match fl.kind with
          | .atom sub ty mode => (sub, ty, mode)
          | _ => (0xA, Ty.i32, 0)
        let fs := (atomNew sub ty mode x.u old x.x x.y).2
        let s := s.modFlight id (fun g => { setRet lane old g with flags := g.flags ||| fs })
        s.finishAtom id
      | _, _ => s

/-- The first line of host memory of a flight that is not at hand. -/
def hostLine (fl : Flight) : Option Nat :=
  fl.lines.findIdx? (fun ln => ln.data.isNone && (match ln.place with | .sys _ => true | _ => false))

/-- The requester's function of a flight. -/
def flightFn (fl : Flight) : Nat := fl.ctx.fn

/-- HOST_COMPLETION: `line` is a line of the flight or, for an ATOM, a lane. -/
def execHostCompletion (flt line : Nat) (data : BitVec 512) (old : List Word) (st : LinkStatus) (s : State) : Out :=
  .next (match tget s.flights flt with
    | none => s
    | some fl =>
      let isAtom := match fl.kind with | .atom _ _ _ => true | _ => false
      let n := if isAtom then lineOfLane fl line else line
      match fl.lines[n]? with
      | none => s
      | some ln =>
        match ln.place, ln.data with
        | .sys _, none =>
          match st with
          | .ok => if isAtom then s.hostAtom flt line (old.headD 0#32) else (s.fillLine flt line data).flightArrived flt
          | .poisoned => (s.reportAer (flightFn fl) 2).failAny flt 8 n
          | _ => s.failAny flt 8 n
        | _, _ => s)

/-- COMPLETION_TIMEOUT of an access to host memory (R112, R431). -/
def execCompletionTimeout (flt : Nat) (s : State) : Out :=
  .next (match tget s.flights flt with
    | none => s
    | some fl =>
      match hostLine fl with
      | none => s
      | some n => (s.reportAer (flightFn fl) 3).failAny flt 8 n)

/-! ### Requests of peers (R309 to R312) -/

/-- The target context of a request: its aperture's, while the partition's tenant is the request's. -/
def apertureOf (s : State) (r : PeerReq) : Option CtxKey :=
  match s.apertures.find? (fun a => a.src == r.src && a.ftid == r.ftid && a.ctxid == r.ctxid) with
  | none => none
  | some a => if r.ftid != 0#16 && (partRec s a.target.fn).ftid == r.ftid then some a.target else none

/-- What a request does at its place. -/
def bodyAcc (b : PeerBody) : Acc :=
  match b with
  | .read => .read
  | .write _ _ _ => .write
  | .red _ _ _ _ => .readWrite
  | .atom sub _ _ _ _ _ => if sub == 0xA#4 then .read else .atomic
  | _ => .atomic

/-- The device address of a request's line or block; any failure is the remote-translation fault. -/
def guestPlace (s : State) (r : PeerReq) (c : CtxKey) : Option (Nat × Nat) :=
  let xl := (ctxOf s c).force
  match translateBy s .device c xl false (bodyAcc r.body) (BitVec.ofNat 64 r.off.toNat) with
  | .ok (.dev d k) => if ownerOf s d == 0 then some (d, k) else none
  | _ => none

/-- A reply that holds only its address. -/
def replyTo (r : PeerReq) : PeerOut :=
  { src := r.src, stream := r.stream, seq := r.seq, fault := none, waits := false, corrupt := false, status := 0,
    words := [], data := 0#512, rels := [] }

def State.answer (s : State) (o : PeerOut) : State := { s with replies := s.replies ++ [o] }

/-- The flight that serves an atomic or pod operation of a peer. -/
def guestFlight (s : State) (r : PeerReq) (c : CtxKey) (d key : Nat) (kind : FKind) (scope ord n : Nat)
    (lanes : List (Nat × Word × Word × BitVec 16)) : Flight :=
  let va := r.off.toNat / 64 * 64
  { kind := kind, fib := guestFib r.src r.fib r.stream r.seq, cmd := none, ctx := c, core := 2045, pc := 0#64, len := 0,
    mask := BitVec.ofNat 32 (2 ^ n - 1), dst := [], scope := scope, ord := ord
    lanes := lanes.zipIdx.map (fun ((o, x, y, u), i) =>
      { lane := i, va := BitVec.ofNat 64 (va + o), place := .dev (lineBase d + o) key, x := x, y := y, u := u.toNat,
        ret := none })
    lines := [{ va := BitVec.ofNat 64 va, place := .dev (lineBase d) key, ownMask := 0#64, own := 0#512, data := none }]
    stage := .request, done := 0#32, flags := 0#5, since := s.tick, retry := 0, split := false, fault := none,
    waiters := 0 }

/-- Words in elements of `w`. -/
def elemsOf (w : Nat) (ws : List Word) : Nat → List (List Word)
  | 0 => []
  | n + 1 => ws.take w :: elemsOf w (ws.drop w) n

/-- The kind, scope, order, count and lanes of the flight that serves a request. -/
def guestWork (r : PeerReq) : Option (FKind × Nat × Nat × Nat × List (Nat × Word × Word × BitVec 16)) :=
  let one := [(r.off.toNat % 64, 0#32, 0#32, 0#16)]
  match r.body with
  | .atom sub ty mode ord scope lanes =>
    let k := if sub == 0xC#4 then FKind.tadd ty mode.toNat else FKind.atom sub.toNat ty mode.toNat
    some (k, scope, ord, lanes.length, lanes)
  | .podOp enq v w t n scope words =>
    some (if enq then .enq v w t (elemsOf (2 ^ w) words n) else .deq v w t, scope, if enq then 2 else 1, n, one)
  | .podInit c scope => some (.podInit c, scope, 2, 1, one)
  | .podClose scope => some (.podClose, scope, 2, 1, one)
  | .podQuery what => some (.podQuery what, 0, 0, 1, one)
  | _ => none

/-- A request of a peer that waits here is withdrawn from the wait tables, where the waiters behind it look again (R152). -/
def State.peerLeave (s : State) (src key : Nat) : State :=
  s.leaveWaits ((s.podWait.map (·.2)).filter (fun w =>
    decide (2 ^ 60 ≤ w) && (w - 2 ^ 60) / 2 ^ 40 == src && w % 2 ^ 32 == key))

/-- A part of a line takes the sums of a peer's XRED at its home slice, as one event (R176). -/
def State.peerRed (s : State) (d start : Nat) (ty : BitVec 4) (mode : Nat) (x : List Byte) : State :=
  let n := min x.length (64 - start)
  let old := readBytes s.mem (lineBase d + start) n
  s.sliceWrite (lineBase d) (bytesLine start (redWords ty mode old (x.take n))) (byteMask start n)

/-- Perform a request at the home slices as the local access of its kind (R311); poison answers kind 6. -/
def State.performPeer (s : State) (r : PeerReq) : State :=
  match r.body with
  | .wake key => s.peerWake r.src key
  | .leave key => s.peerLeave r.src key
  | body =>
    let bad := fun (k : Nat) => s.answer { replyTo r with fault := some k }
    match apertureOf s r with
    | none => bad 7
    | some c =>
      match guestPlace s r c with
      | none => bad 7
      | some (d, key) =>
        match body with
        | .read =>
          if poisoned s d then bad 6
          else s.answer { replyTo r with data := readLine s.mem (lineBase d), rels := (tget s.lineRel (lineBase d)).toList.map (fun x => (0, x)) }
        | .write m data rel =>
          if !writeLands s d m then bad 6
          else
            let s := s.sliceWrite d data m
            let s := s.setRel d (rel.map (fun sc =>
              { scope := sc, fib := 2 ^ 41, lane := 0, wg := 0, core := r.stream, fn := 0, peer := some r.src }))
            s.answer (replyTo r)
        | .red ty mode start x =>
          if poisoned s d then bad 6 else (s.peerRed d (start % 64) ty mode.toNat x).answer (replyTo r)
        | _ =>
          match guestWork r with
          | none => s
          | some (kind, scope, ord, n, lanes) =>
            let (id, s) := s.newId
            let s := s.setFlight id (guestFlight s r c d key kind scope ord n lanes)
            match kind with
            | .atom _ _ _ => (s.atomicEvent id 0).atomComplete id none
            | .tadd _ _ => s.atomicEvent id 0
            | _ => s.podControlEvent id none

/-- The incoming stream of a source. -/
def inStream (s : State) (src stream : Nat) : InStream :=
  match s.incoming.find? (fun x => x.src == src && x.stream == stream) with
  | some x => x
  | none => { src := src, stream := stream, next := 0#16, window := [] }

def State.setStream (s : State) (x : InStream) : State :=
  { s with incoming := s.incoming.filter (fun y => !(y.src == x.src && y.stream == x.stream)) ++ [x] }

/-- The requests of a stream whose turn has come are performed, on fuel. -/
def State.serveStream (s : State) (src stream : Nat) : Nat → State
  | 0 => s
  | fuel + 1 =>
    let x := inStream s src stream
    match x.window.find? (fun r => r.seq == x.next) with
    | none => s
    | some r =>
      let s := s.setStream { x with next := x.next + 1#16, window := x.window.filter (fun y => y.seq != r.seq) }
      (s.performPeer r).serveStream src stream fuel

/-- PEER_REQUEST: a request performed before is discarded, one ahead of its turn waits in the window (R310, R313). -/
def execPeerRequest (r : PeerReq) (s : State) : Out :=
  .next (
    let x := inStream s r.src r.stream
    if 256 ≤ (r.seq - x.next).toNat || x.window.any (fun y => y.seq == r.seq) then s
    else (s.setStream { x with window := x.window ++ [r] }).serveStream r.src r.stream 256)

/-! ### Links and relays (R22, R308, R314) -/

/-- RELAY_FORWARD: as the intermediate, the device passes a request on; it neither translates nor performs it. -/
def execRelayForward (dst : Nat) (r : PeerReq) (s : State) : Out :=
  .next (if linkUp s dst && linkUp s r.src && dst != s.self then { s with relays := s.relays ++ [(dst, r)] } else s)

/-- A flight has work at a peer that is not acknowledged. -/
def peerLineOf (fl : Flight) (p : Nat) : Option Nat :=
  fl.lines.findIdx? (fun ln => ln.data.isNone && (match ln.place with | .peer q _ => q == p | _ => false))

/-- Requests to a peer that no path reaches end with the peer fault (R314). -/
def State.losePeer (s : State) (p : Nat) : State :=
  let s := { s with sent := s.sent.filter (fun x => x.peer != p) }
  let s := s.flights.foldl (fun (s : State) (id, fl) =>
    match peerLineOf fl p with
    | some n => if (tget s.flights id).isSome && fl.kind != .relStore then s.failAny id 4 n else s
    | none => s) s
  s.cores.foldl (fun (s : State) (c, x) =>
    x.path.foldl (fun (s : State) (e, y) =>
      match y.place with
      | .peer q _ => if q == p && y.performed && !y.acked then s.mergeAck c e (some 4) else s
      | _ => s) s) s

/-- What was sent on a link that is down goes by a relay, and requests to a peer that no path reaches end. -/
def State.routeAgain (s : State) : State :=
  let s := { s with sent := s.sent.map (fun (x : PeerSent) => { x with relay := relayTo s x.peer }) }
  ((s.sent.map (·.peer)).eraseDups).foldl (fun (s : State) p => if pathTo s p then s else s.losePeer p) s

/-- FLIT_RETRANSMIT: the flit is sent again from the retry buffer, by the relay where the link to its peer is down, or its requests
end where no path is left (R313, R314). The request keeps its sequence number, and its target performs it once. -/
def execFlitRetransmit (peer seq : Nat) (s : State) : Out :=
  .next (if !(pathTo s peer) then s.losePeer peer
    else { s with sent := s.sent.map (fun (x : PeerSent) =>
      if x.peer == peer && x.seq.toNat == seq then { x with relay := relayTo s peer } else x) })

/-- The lanes of a port in use. -/
def lanesUp (s : State) (port : Nat) : List Nat :=
  match kget s.laneUp port with
  | some x => x
  | none => List.range 8

/-- The unit of a port's lane. -/
def laneUnit (port lane : Nat) : Word := unitId 5 (port / 4) (port * 16 + lane)

/-- A lane in use fails or has worn out: the port retrains with its spare lane, or the link is failed (R22, R28). -/
def State.laneFails (s : State) (port lane reason : Nat) : State :=
  let up := lanesUp s port
  if 15 ≤ port || !(up.contains lane) then s
  else
    let u := laneUnit port lane
    let s := s.errorRecord (port / 4) 5 0 port lane 0 u none 0#8
    let spare := laneUnit port 8
    if (wearOf s spare).st == 1 then
      let s := { s with laneUp := kset s.laneUp port (up.map (fun k => if k == lane then 8 else k)) }
      let s := (s.setWear { wearOf s spare with st := 0 }).setWear { wearOf s u with st := 2 }
      let s := s.nvRecord 0x13 (leBytes spare.toNat 4 ++ leBytes u.toNat 4 ++ leBytes reason 4)
      let s := s.nvRecord 0x14 (leBytes u.toNat 4 ++ leBytes reason 4)
      (s.portState port 1).routeAgain
    else
      let s := { s with laneUp := kset s.laneUp port (up.filter (· != lane)) }
      let s := (s.setWear { wearOf s u with st := 2 }).nvRecord 0x14 (leBytes u.toNat 4 ++ leBytes reason 4)
      (s.portState port 2).routeAgain

def execLaneFailure (port lane : Nat) (s : State) : Out := .next (s.laneFails port lane 2)

/-- RETRAIN_COMPLETE: the port's link is up again, and traffic returns to it. -/
def execRetrainComplete (port : Nat) (s : State) : Out :=
  .next (if s.fabric.any (fun r => r.port.toNat == port && r.pop && !r.self && r.link == 1) then
      ((s.portState port 0).errorRecord (port / 4) 5 0 port 8 0 (laneUnit port 8) none 0#8).routeAgain
    else s)

/-- UNIT_FAILURE (R28): cores, macros and runners take their spare between launches, lanes at a retraining, slices and
channel engines at a reset. -/
def execUnitFailure (unit : Word) (s : State) : Out :=
  .next (if !unitExists unit || (wearOf s unit).st == 2 then s
    else if (wearOf s unit).st == 1 then s.spareFails unit
    else if unitKind unit ≤ 2 then s.dropUnit unit 2
    else if unitKind unit == 5 then s.laneFails (unitIndex unit / 16) (unitPlace unit) 2
    else s.retireUnit unit 2 0)

/-! ### The accrual (R404, R407, R408, R463) -/

/-- A slice, engine or lane that has worn out: a lane's port retrains with its spare, or its link fails; the others are replaced, or
lost, at the reset that R26 names (R28, R404). -/
def State.decideFixed (s : State) (w : Wear) : State :=
  if w.st == 0 && 3 ≤ unitKind w.unit && 1 ≤ wearScore s w.unit then
    if unitKind w.unit == 5 then s.laneFails (unitIndex w.unit / 16) (unitPlace w.unit) 1 else s.retireUnit w.unit 1 0
  else s

/-- ACCRUAL: budgets are credited, prices published, the interval's sums begin again, and swaps are decided. -/
def execAccrual (s : State) : Out :=
  .next (if s.tick < s.accrualAt then s
    else
      let s := { s with accrualAt := s.accrualAt + 2 ^ 32, parts := s.parts.map (fun ((i, p) : Nat × Part) => (i, creditPart s p)) }
      let cores := (s.parts.map (fun (_, p) => p.remap)).flatten
      let s := cores.foldl (fun s c => s.publish c) s
      let s := (wornGroups s).foldl (fun s u => s.decideGroup u) s
      let s := s.wear.foldl (fun s w => s.decideFixed w) s
      let s := { s with accrued := s.wear }
      { s with wear := s.wear.map (fun (w : Wear) => { w with last := (0, 0, 0), boostEx := (0, 0, 0) }) })

/-! ### The fabric map, tenants and apertures (R308, R309) -/

/-- Some context that a test admits is resident. -/
def anyResident (s : State) (which : CtxKey → Bool) : Bool :=
  s.ctxs.any (fun (c, x) => which c && (match x.res with
    | .resident _ => true
    | .stopping _ => true
    | .halted _ => true
    | _ => false)) || s.wgs.any (fun (_, w) => which w.ctx)

/-- A map that FABSET admits: populated entries name ports of their own, and the own entry, where one is marked, is SELF's; every
other populated entry names a port (log entry 46). -/
def fabMapOk (self : Nat) (map : List FabEntry) : Bool :=
  let ports := (map.filter (fun e => e.pop)).map (fun e => e.port.toNat)
  self < 16 && map.length ≤ 16 && map.zipIdx.all (fun (e, p) => (!e.self || p == self) && (!e.pop || p == self || decide (e.port.toNat < 15))) &&
  ports.eraseDups.length == ports.length

/-- FABSET. A populated entry's link is up, unless its port has lost a lane. -/
def execFabset (self : Nat) (map : List FabEntry) (s : State) : Out :=
  .next (if anyResident s (fun _ => true) then s.reply 0 .busy
    else if !(fabMapOk self map) then s.reply 0 .refused
    else
      let row := fun (p : Nat) =>
        match map[p]? with
        | none => { FabRow.empty p with self := p == self }
        | some e =>
          if p == self || !e.pop then ({ link := 3, self := p == self, en := e.en, pop := e.pop, port := 0xF#4 } : FabRow)
          else { link := if (lanesUp s e.port.toNat).length < 8 then 2 else 0, self := false, en := e.en, pop := true, port := e.port }
      { s with self := self, fabric := (List.range 16).map row }.reply 0 .done)

/-- FABPART. -/
def execFabpart (p : Nat) (ftid fmask : BitVec 16) (s : State) : Out :=
  .next (if (tget s.parts p).isNone then s.reply 0 .refused
    else if anyResident s (fun c => partOf s c.fn == p) then s.reply 0 .busy
    else { s with parts := tmod s.parts p (fun (x : Part) => { x with ftid := ftid, fmask := fmask }) }.reply 0 .done)

/-- FABAP: the aperture names a context whose partition carries the same tenant. -/
def execFabap (src : Nat) (ftid ctxid : BitVec 16) (target : CtxKey) (s : State) : Out :=
  .next (if ftid == 0#16 || (partRec s target.fn).ftid != ftid || (fnRec s target.fn).isNone then s.reply 0 .refused
    else
      let a : Aperture := { src := src, ftid := ftid, ctxid := ctxid, target := target }
      { s with apertures := s.apertures.filter (fun (x : Aperture) => !(x.src == src && x.ftid == ftid && x.ctxid == ctxid)) ++ [a] }.reply 0
        .done)

end Sys2Proof.Machine
end

