-- ==== Sys2Proof/Machine/Faults.lean ====
section
/-!
DEFINITION. Failing memory and its retirement (R29, R101 to R103), fault records and the fault ring (R114 to R118), the
error banks (R430) and class-F errors (R432).
-/
namespace Sys2Proof.Machine

/-! ### The retirement pool (R98, R101, R103) -/

/-- The first address of the pool. -/
def poolBase (s : State) : Nat := s.memsz.toNat * 2 ^ 30

/-- The `k`-th frame of the pool from its top. -/
def poolFrame (k : Nat) : Nat := 768 * 2 ^ 30 - 4096 * (k + 1)

/-- Granules of a frame that lie on withdrawn channels. -/
def frameBad (s : State) (a : Nat) : Nat :=
  ((List.range 16).filter (fun i => s.withdrawn.contains (channelOf (a + 256 * i)))).length

/-- The next frame of the pool that a retirement may take, from its top and above the granule remaps. -/
def nextPool (s : State) : Nat → Nat → Option Nat
  | 0, _ => none
  | fuel + 1, k =>
    let a := poolFrame k
    if 768 * 2 ^ 30 < 4096 * (k + 1) || a < poolBase s + 4096 * s.poolRemap then none
    else if frameBad s a == 0 then some k
    else nextPool s fuel (k + 1)

/-- Retire a frame: its lines move to a frame of the pool, or it is poisoned in place (R29, R101, R102). -/
def State.retireFrame (s : State) (frame : Nat) : State :=
  match nextPool s 4096 s.poolUsed with
  | some k =>
    { s with retired := tset s.retired frame (poolFrame k), poolUsed := k + 1,
             correctable := tdel s.correctable frame }.errorRecord (dieOf frame) 2 0 frame (poolFrame k) 0 0#32 none 0#8
  | none =>
    let s := s.serveReads (fun d => d / 4096 * 4096 == frame)
    { s with poisonFrames := s.poisonFrames ++ [frame] }.errorRecord (dieOf frame) 0x21 1 frame 0 0 0#32 none 0#8

/-- FRAME_RETIRE: an access to a device address met a correctable error, which is counted, or an uncorrectable one; the
frame is retired when its count reaches CEFRAME, or at once. -/
def execFrameRetire (frame : Nat) (uncorrectable : Bool) (s : State) : Out :=
  .next (
    let base := frame / 4096 * 4096
    if poolBase s ≤ frame || framePoisoned s frame then s
    else if uncorrectable then
      ((s.poisonLine frame).errorRecord (dieOf frame) 0x20 1 frame 0 0 0#32 none 0#8).retireFrame base
    else
      let n := (tget s.correctable base).getD 0 + 1
      let (k, s) := s.draw
      let s := { s with correctable := tset s.correctable base n }.errorRecord (dieOf frame) 1 0 frame
        (Config.syndrome k).toNat 0 0#32 none 0#8
      if s.ceframe ≤ n then s.retireFrame base else s)

/-! ### Fault records (R116, R117) -/

/-- The 32 bytes of a fault record. -/
def faultBytes (r : FaultRec) : List Byte :=
  leBytes ((if r.rpl then 1 else 0) + r.lanes.toNat * 2 ^ 32 + r.req % 2 ^ 18 * 2 ^ 74 + (if r.run then 2 ^ 92 else 0) +
    r.acc % 8 * 2 ^ 93 + r.kind % 16 * 2 ^ 96 + r.asid.toNat * 2 ^ 100 + r.obj % 2 ^ 16 * 2 ^ 112 + r.va.toNat * 2 ^ 128 +
    r.tick % 2 ^ 64 * 2 ^ 192) 32

/-- The ring of a context is full. -/
def ringFull (x : Ctx) : Bool := (x.fqtail.toNat + 1) % 2 ^ x.fqlogn.toNat == x.fqhead.toNat

/-- The record of a context that has waited longest. -/
def firstFault (s : State) (c : CtxKey) : Option FaultRec :=
  match s.faultQ.find? (fun e => e.1 == c) with
  | some e => some e.2
  | none => none

/-- Remove the first waiting record of a context. -/
def dropFault (c : CtxKey) : List (CtxKey × FaultRec) → List (CtxKey × FaultRec)
  | [] => []
  | e :: r => if e.1 == c then r else e :: dropFault c r

/-- A write of the device's own into a function's memory; beyond its window, or on poison, nothing is written. -/
def State.fnWrite (s : State) (fn a : Nat) (bs : List Byte) : State :=
  match fnAddr s fn a bs.length with
  | none => s
  | some d =>
    (linePieces (bs.length + 1) d bs.length).foldl (fun (s : State) (x, k) =>
      if writeLands s x (byteMask (x % 64) k) then
        s.sliceWrite x (bytesLine (x % 64) ((bs.drop (x - d)).take k)) (byteMask (x % 64) k)
      else s) s

/-- Such a write of bytes of one line as a release at .sys (R455). -/
def State.fnRelease (s : State) (fn a : Nat) (bs : List Byte) : State :=
  match fnAddr s fn a bs.length with
  | none => s
  | some d => if writeLands s d (byteMask (d % 64) bs.length) then (s.fnWrite fn a bs).setRel d (some (serviceRel fn)) else s

/-- A read of the device's own of a function's memory: nothing beyond its window, or on poison. -/
def fnRead (s : State) (fn a n : Nat) : Option (List Byte) :=
  match fnAddr s fn a n with
  | none => none
  | some d => if (touched d n).any (poisoned s) then none else some (readBytes s.mem d n)

/-- FAULT_RECORD_POST: the record is written whole, then TAIL advances. -/
def execFaultRecordPost (ctx : CtxKey) (s : State) : Out :=
  .next (match firstFault s ctx with
    | none => s
    | some r =>
      let x := ctxOf s ctx
      if ringFull x then s
      else
        let t := x.fqtail.toNat % 2 ^ x.fqlogn.toNat
        let a := bitsOf (x.force.getD 4 0#32).toNat 27 0 * 4096 + 32 * t
        let s := s.fnWrite ctx.fn a (faultBytes r)
        { s with faultQ := dropFault ctx s.faultQ }.modCtx ctx (fun (x : Ctx) =>
          { x with fqtail := BitVec.ofNat 12 ((t + 1) % 2 ^ x.fqlogn.toNat) }))

def execFaultReplay (ctx : CtxKey) (s : State) : Out := .next (s.replayFaults ctx)
def execFaultCancel (ctx : CtxKey) (s : State) : Out := .next (s.cancelFaults ctx)

/-! ### Error banks (R430) -/

/-- Change a bank. -/
def State.modBank (s : State) (b : Nat) (f : ErrBank → ErrBank) : State := { s with errs := s.errs.modify b f }

/-- Software frees an entry of a bank: VALID is cleared, and the record's other fields stay (R7, R428). -/
def State.freeEntryOf (s : State) (bank i : Nat) : State :=
  s.modBank bank (fun (b : ErrBank) => { b with entries := tmod b.entries i (fun (r : ErrRec) => { r with valid := false }) })

def execErrorEntryFree (bank i : Nat) (s : State) : Out := .next (s.freeEntryOf bank i)

def execErrorBankClr (bank : Nat) (s : State) : Out := .next (s.modBank bank (fun (b : ErrBank) => { b with drop := 0 }))

/-- The 64 bytes of an entry (R428). -/
def errorBits (r : ErrRec) : Nat :=
  (if r.valid then 1 else 0) + (if r.ovwr then 2 else 0) + r.cls % 4 * 4 + classRank r.cls % 16 * 16 + r.seq % 2 ^ 64 * 2 ^ 64 +
  r.tcode.toNat * 2 ^ 168 + r.src % 2 ^ 16 * 2 ^ 176 + r.fn % 2 ^ 8 * 2 ^ 200 + r.ctxid.toNat * 2 ^ 208 +
  r.unit.toNat * 2 ^ 224 + r.d0 % 2 ^ 64 * 2 ^ 256 + r.d1 % 2 ^ 64 * 2 ^ 320 + r.d2 % 2 ^ 64 * 2 ^ 384 +
  r.tick % 2 ^ 64 * 2 ^ 448

/-! ### Class-F errors (R432) -/

/-- The contexts of the device. -/
def allContexts (s : State) : List CtxKey :=
  let a : List CtxKey := s.ctxs.map (·.1)
  let b : List CtxKey := s.launches.map (fun ((_, l) : Nat × Launch) => l.ctx)
  let c : List CtxKey := s.wgs.map (fun ((_, w) : Nat × Workgroup) => w.ctx)
  (a ++ b ++ c).eraseDups

/-- FATAL_ERROR: the record, the end of every context with status 3, the report, and from then on no request to the host. -/
def execFatalError (src : BitVec 16) (loc : Nat) (s : State) : Out :=
  .next (if s.contained || !(src == 0x30#16 || src == 0x31#16) then s
    else
      let s := s.errorRecord 4 src.toNat 2 loc 0 0 0#32 none 0#8
      let s := (allContexts s).foldl (fun s c => s.endContext c 3 none) s
      let s := (List.range 65).foldl (fun (s : State) i => s.setAer i 1) s
      { s.send (.errorMsg true false) with contained := true })

end Sys2Proof.Machine
end

