-- ==== Sys2Proof/Machine/Debug.lean ====
section
/-!
DEFINITION. The debug mailbox: capabilities and sessions (R439), the rings (R440, R442, R455, R456), the commands (R441,
R443, R457 to R459), and the trace (R445, R446).
-/
namespace Sys2Proof.Machine

/-! ### The mailbox of a function (R455) -/

/-- A function; a number that names none reads as one that is not set up. -/
def fnOf (s : State) (fn : Nat) : Fn := (fnRec s fn).getD Fn.absent

/-- The counters of DBGST: commands taken, halt reports and replies posted. -/
def cmdHead (f : Fn) : Nat := bitsOf f.dbgst.toNat 15 0
def hltTail (f : Fn) : Nat := bitsOf f.dbgst.toNat 31 16
def repTail (f : Fn) : Nat := bitsOf f.dbgst.toNat 47 32

/-- What software has written and consumed: CMDT, HLTH, REPH, and the interrupt vector. -/
def cmdTail (f : Fn) : Nat := bitsOf f.dbgdb.toNat 15 0
def hltHead (f : Fn) : Nat := bitsOf f.dbgack.toNat 15 0
def repHead (f : Fn) : Nat := bitsOf f.dbgack.toNat 31 16
def dbgVec (f : Fn) : Nat := bitsOf f.dbgack.toNat 42 32

/-- DBGST with its three counters. -/
def dbgstOf (cmdh hltt rept : Nat) : BitVec 64 := BitVec.ofNat 64 (cmdh % 2 ^ 16 + hltt % 2 ^ 16 * 2 ^ 16 + rept % 2 ^ 16 * 2 ^ 32)

/-- A ring holds 128 records that software has not consumed. -/
def dbgFull (tail head : Nat) : Bool := (tail + 2 ^ 16 - head) % 2 ^ 16 ≥ 128

/-- The reply of R442. -/
def replyBits (s : State) (kind stat : Nat) (ctxid tag : BitVec 16) (index lanes : Nat) (val : Nat) : BitVec 256 :=
  BitVec.ofNat 256 (kind % 256 + stat % 256 * 2 ^ 8 + ctxid.toNat * 2 ^ 32 + tag.toNat * 2 ^ 48 + index % 16 * 2 ^ 64 +
    lanes % 2 ^ 32 * 2 ^ 96 + val % 2 ^ 64 * 2 ^ 128 + s.tick % 2 ^ 64 * 2 ^ 192)

/-- A reply waits for the reply ring. -/
def State.dbgReply (s : State) (fn kind stat : Nat) (ctxid tag : BitVec 16) (index val : Nat) : State :=
  { s with dbgOut := s.dbgOut ++ [{ fn := fn, halt := false, bits := replyBits s kind stat ctxid tag index 0 val }] }

/-- Remove the first record of a function. -/
def dropOut (fn : Nat) : List DbgOut → List DbgOut
  | [] => []
  | e :: r => if e.fn == fn then r else e :: dropOut fn r

/-- Post the record of a function that has waited longest, if its ring has room; the function's vector is raised. -/
def State.dbgPost (s : State) (fn : Nat) : State :=
  match s.dbgOut.find? (fun x => x.fn == fn) with
  | none => s
  | some x =>
    let f := fnOf s fn
    let (tail, head, base) := if x.halt then (hltTail f, hltHead f, f.dbghlt) else (repTail f, repHead f, f.dbgrep)
    if dbgFull tail head then s
    else
      let s := s.fnRelease fn (bitsOf base.toNat 39 12 * 4096 + 32 * (tail % 128)) (leBytes x.bits.toNat 32)
      let st := if x.halt then dbgstOf (cmdHead f) (tail + 1) (repTail f) else dbgstOf (cmdHead f) (hltTail f) (tail + 1)
      ({ s with dbgOut := dropOut fn s.dbgOut }.modFn fn (fun (g : Fn) => { g with dbgst := st })).send (.msix fn (dbgVec f))

/-- A fibre of a HALT or STEP has not yet halted. -/
def haltWaits (s : State) (fid : Nat) : Bool :=
  match tget s.fibs fid with
  | some f => (f.haltReq || f.stepping.isSome) && !f.exited
  | none => false

/-- The HALT or STEP commands of a function whose fibres have halted are answered. -/
def State.dbgSettle (s : State) (fn : Nat) : State :=
  let done := s.dbgPend.filter (fun p => p.ctx.fn == fn && !(p.fibs.any (haltWaits s)))
  let s := done.foldl (fun (s : State) p => s.dbgReply fn 0 0 (BitVec.ofNat 16 p.ctx.id) p.tag 0 0) s
  { s with dbgPend := s.dbgPend.filter (fun p => !(done.contains p)) }

/-- Post what has room. -/
def State.dbgFlush (s : State) (fn : Nat) : State :=
  let s := s.dbgSettle fn
  (List.range s.dbgOut.length).foldl (fun s _ => s.dbgPost fn) s

/-- HALT_REPORT_POST. -/
def execHaltReportPost (fn : Nat) (s : State) : Out := .next ((s.dbgSettle fn).dbgPost fn)

/-! ### Commands (R440, R456, R457) -/

/-- A command from its 32 bytes. -/
def dbgCmdOf (n : Nat) : DbgCmd :=
  { op := BitVec.ofNat 8 n, sub := BitVec.ofNat 4 (bitsOf n 11 8), ctxid := BitVec.ofNat 16 (bitsOf n 47 32),
    tag := BitVec.ofNat 16 (bitsOf n 63 48), scope := BitVec.ofNat 2 (bitsOf n 65 64), fib := BitVec.ofNat 2 (bitsOf n 79 78),
    slot := BitVec.ofNat 4 (bitsOf n 83 80), sched := BitVec.ofNat 2 (bitsOf n 85 84),
    core := BitVec.ofNat 10 (bitsOf n 95 86), lanes := BitVec.ofNat 32 (bitsOf n 127 96),
    arg0 := BitVec.ofNat 64 (bitsOf n 191 128), arg1 := BitVec.ofNat 64 (bitsOf n 255 192) }

/-- The next command of a function, when one may be taken: in ring order, and not while the reply ring is full. -/
def dbgHead (s : State) (fn : Nat) : Option DbgCmd :=
  let f := fnOf s fn
  let waiting := (s.dbgOut.filter (fun x => x.fn == fn && !x.halt)).length
  if s.boot != .up || s.contained || (fnRec s fn).isNone || cmdHead f == cmdTail f || s.dbgPend.any (fun p => p.ctx.fn == fn) ||
      dbgFull (repTail f + waiting) (repHead f) then none
  else
    match fnRead s fn (bitsOf f.dbgcmd.toNat 39 12 * 4096 + 32 * (cmdHead f % 128)) 32 with
    | some bs => some (dbgCmdOf (leValue bs))
    | none => some (dbgCmdOf 0)

/-- Take the command at the head of a function's ring, if it is this one, and act on it. -/
def State.dbgTake (s : State) (fn : Nat) (c : DbgCmd) (ops : Nat → Bool) (act : State → State) : State :=
  if dbgHead s fn == some c && ops c.op.toNat then
    let f := fnOf s fn
    (act (s.modFn fn (fun (g : Fn) => { g with dbgst := dbgstOf (cmdHead f + 1) (hltTail f) (repTail f) }))).dbgFlush fn
  else s

/-- Answer a command. -/
def State.dbgAnswer (s : State) (fn : Nat) (c : DbgCmd) (stat index val : Nat) : State :=
  s.dbgReply fn 0 stat c.ctxid c.tag index val

/-- The context that a command names. -/
def dbgCtx (fn : Nat) (c : DbgCmd) : CtxKey := { fn := fn, id := c.ctxid.toNat }

/-- The capability under which a function's session is open. -/
def sessionCap (s : State) (fn : Nat) : Option Capability :=
  match (fnOf s fn).session with
  | none => none
  | some id => s.caps.find? (fun p => p.capid == id && capLive s p)

/-- Why a command with a right is not performed: no session, a bad scope, no right, or a closed enclave (R441). -/
def dbgDenied (s : State) (fn : Nat) (c : DbgCmd) (right : Nat) : Option Nat :=
  match sessionCap s fn with
  | none => some 1
  | some p =>
    if c.scope == 3#2 then some 3
    else if !(covers p (dbgCtx fn c)) || !(p.rights.getLsbD right) then some 1
    else if debugDenied s (dbgCtx fn c) then some 5
    else none

/-- The fibres of a command's scope that have not exited (R457). -/
def dbgTargets (s : State) (fn : Nat) (c : DbgCmd) (scope : Nat) : List Nat :=
  let fid := fibId (slotId c.core.toNat c.sched.toNat c.slot.toNat) c.fib.toNat
  (s.fibs.filter (fun (i, f) => fibCtx s f == dbgCtx fn c && !f.exited &&
    (match scope with
     | 0 => i == fid
     | 1 => f.slot == fid / 4
     | _ => true))).map (·.1)

/-- Perform a command with a right, or answer why not. -/
def State.dbgAllowed (s : State) (fn : Nat) (c : DbgCmd) (right : Nat) (act : State → State) : State :=
  match dbgDenied s fn c right with
  | some st => s.dbgAnswer fn c st 0 0
  | none => act s

/-- A halted fibre goes on; its next issue skips the checks of R443 once. -/
def resumeFibre (f : Fibre) : Fibre := if f.halted.isSome then { f with halted := none, skipBp := true } else f

/-! ### Sessions (R439) -/

/-- A trace of a function stops: its last record stands, and the count of dropped records is returned. -/
def State.stopTrace (s : State) (fn : Nat) : State :=
  match (fnOf s fn).trace with
  | none => s
  | some t => (s.modFn fn (fun (g : Fn) => { g with trace := none })).dbgReply fn 2 0 (BitVec.ofNat 16 t.ctx.id) 0#16 0 t.drop

/-- The session of a function ends: its trace, breakpoints and watchpoints go, the fibres that it halted resume, and its
pending commands complete with status 4. -/
def State.endSession (s : State) (fn : Nat) : State :=
  let s := (s.modFn fn (fun (g : Fn) => { g with session := none })).stopTrace fn
  let s := { s with
    ctxs := s.ctxs.map (fun ((c, x) : CtxKey × Ctx) => (c, if c.fn == fn then { x with breaks := [], watches := [] } else x))
    fibs := s.fibs.map (fun ((i, f) : Nat × Fibre) =>
      (i, if (fibCtx s f).fn == fn then { resumeFibre f with haltReq := false, stepping := none } else f)) }
  let s := (s.dbgPend.filter (fun p => p.ctx.fn == fn)).foldl (fun (s : State) p =>
    s.dbgReply fn 0 4 (BitVec.ofNat 16 p.ctx.id) p.tag 0 0) s
  { s with dbgPend := s.dbgPend.filter (fun p => p.ctx.fn != fn) }

/-- The functions whose sessions were opened under capabilities that are void now. -/
def lostSessions (s : State) (void : List Word) : List Nat :=
  (s.fns.filter (fun (_, f) => match f.session with
    | some id => void.contains id
    | none => false)).map (·.1)

/-- Capabilities become void: their sessions end, and each mailbox is told. -/
def State.voidCaps (s : State) (void : List Word) : State :=
  let fns := lostSessions s void
  let s := { s with caps := s.caps.filter (fun p => !(void.contains p.capid)) }
  fns.foldl (fun (s : State) fn => ((s.endSession fn).dbgReply fn 3 4 0#16 0#16 0 0).dbgFlush fn) s

/-- A capability and those derived from it, on fuel. -/
def derived (caps : List Capability) : Nat → List Word → List Word
  | 0, a => a
  | fuel + 1, a => derived caps fuel (a ++ (caps.filter (fun p => a.contains p.parent && !(a.contains p.capid))).map (·.capid))

/-- Some context that a capability covers stands in an enclave that admits no debugging. -/
def coversClosed (s : State) (c : Capability) : Bool :=
  if c.allctx then s.ctxs.any (fun (k, _) => k.fn == c.hfn && debugDenied s k)
  else debugDenied s { fn := c.hfn, id := c.ctxid.toNat }

/-- A holder may delegate a capability: a subset of its rights and contexts, within its partition. -/
def mayDelegate (s : State) (by_ : Nat) (c : Capability) : Bool :=
  match s.caps.find? (fun p => p.capid == c.parent && p.hfn == by_ && capLive s p) with
  | none => false
  | some p =>
    p.rights.getLsbD 5 && (c.rights &&& ~~~ p.rights) == 0#6 && (p.allctx || (!c.allctx && c.ctxid == p.ctxid)) &&
    partOf s c.hfn == partOf s by_ && (fnRec s c.hfn).isSome

/-- GRANT_CAPABILITY: by the PF to any function, or by a holder with DELEG. -/
def execGrantCapability (by_ : Nat) (c : Capability) (s : State) : Out :=
  .next (
    let c : Capability := { c with gfn := by_, parent := if by_ == 0 then 0#32 else c.parent }
    let ok := if by_ == 0 then (fnRec s c.hfn).isSome else mayDelegate s by_ c
    if !ok || c.capid == 0#32 || s.capids.contains c.capid || coversClosed s c then s.reply by_ .refused
    else { s with caps := s.caps ++ [c], capids := s.capids ++ [c.capid] }.reply by_ .done)

/-- REVOCATION by the grantor or by the PF, with every capability derived from it. -/
def execRevocation (by_ : Nat) (capid : Word) (s : State) : Out :=
  .next (match s.caps.find? (fun p => p.capid == capid) with
    | none => s.reply by_ .refused
    | some p =>
      if by_ != 0 && by_ != p.gfn then s.reply by_ .refused
      else (s.voidCaps (derived s.caps s.caps.length [capid])).reply by_ .done)

/-- CAPABILITY_EXPIRY. -/
def execCapabilityExpiry (capid : Word) (s : State) : Out :=
  .next (match s.caps.find? (fun p => p.capid == capid) with
    | none => s
    | some p => if capLive s p then s else s.voidCaps [capid])

/-! ### The commands (R441) -/

/-- OPEN. -/
def execDbgOpen (fn : Nat) (c : DbgCmd) (s : State) : Out :=
  .next (s.dbgTake fn c (· == 1) (fun s =>
    if (sessionCap s fn).isSome then s.dbgAnswer fn c 3 0 0
    else
      match s.caps.find? (fun p => p.capid.toNat == c.arg0.toNat && p.hfn == fn && capLive s p) with
      | none => s.dbgAnswer fn c 1 0 0
      | some p =>
        let s := if (fnOf s fn).session.isSome then s.endSession fn else s
        (s.modFn fn (fun (g : Fn) => { g with session := some p.capid })).dbgAnswer fn c 0 0 0))

/-- CLOSE. -/
def execDbgClose (fn : Nat) (c : DbgCmd) (s : State) : Out :=
  .next (s.dbgTake fn c (· == 2) (fun s =>
    if (sessionCap s fn).isNone then s.dbgAnswer fn c 1 0 0
    else (s.endSession fn).dbgReply fn 3 0 c.ctxid c.tag 0 0))

/-- HALT of a scope: the reply follows the reports. -/
def execDebugHalt (fn : Nat) (c : DbgCmd) (s : State) : Out :=
  .next (s.dbgTake fn c (· == 0x10) (fun s => s.dbgAllowed fn c 0 (fun s =>
    let ts := dbgTargets s fn c c.scope.toNat
    if ts.isEmpty then s.dbgAnswer fn c 2 0 0
    else
      let s := ts.foldl (fun (s : State) i =>
        (s.modFib i (fun f => if f.halted.isSome then f else { f with haltReq := true })).settleHalt i) s
      { s with dbgPend := s.dbgPend ++ [{ ctx := dbgCtx fn c, tag := c.tag, fibs := ts }] })))

/-- RESUME of a scope. -/
def execDbgResume (fn : Nat) (c : DbgCmd) (s : State) : Out :=
  .next (s.dbgTake fn c (· == 0x11) (fun s => s.dbgAllowed fn c 0 (fun s =>
    let ts := dbgTargets s fn c c.scope.toNat
    if ts.isEmpty then s.dbgAnswer fn c 2 0 0
    else (ts.foldl (fun (s : State) i => s.modFib i resumeFibre) s).dbgAnswer fn c 0 0 0)))

/-- A command on one halted fibre. -/
def State.dbgFibre (s : State) (fn : Nat) (c : DbgCmd) (act : State → Nat → Fibre → State) : State :=
  match dbgTargets s fn c 0 with
  | [] => s.dbgAnswer fn c 2 0 0
  | i :: _ =>
    match tget s.fibs i with
    | none => s.dbgAnswer fn c 2 0 0
    | some f => if f.halted.isNone then s.dbgAnswer fn c 6 0 0 else act s i f

/-- STEP: the fibre issues one run and halts again (R459). -/
def execDbgStep (fn : Nat) (c : DbgCmd) (s : State) : Out :=
  .next (s.dbgTake fn c (· == 0x12) (fun s => s.dbgAllowed fn c 0 (fun s =>
    if c.scope != 0#2 then s.dbgAnswer fn c 3 0 0
    else s.dbgFibre fn c (fun s i f =>
      { s.setFib i { resumeFibre f with stepping := some c.tag } with
        dbgPend := s.dbgPend ++ [{ ctx := dbgCtx fn c, tag := c.tag, fibs := [i] }] }))))

/-- The target fields that breakpoint and watchpoint commands leave zero (R457). -/
def targetZero (c : DbgCmd) : Bool := c.core == 0#10 && c.sched == 0#2 && c.slot == 0#4 && c.fib == 0#2 && c.scope == 0#2

/-- A breakpoint or watchpoint command: `ok` are its arguments, `f` what it does to the context. -/
def State.dbgBreak (s : State) (fn : Nat) (c : DbgCmd) (ok : Bool) (f : Ctx → Ctx) : State :=
  s.dbgAllowed fn c 3 (fun s =>
    if !(targetZero c) || !ok then s.dbgAnswer fn c 3 0 0 else (s.modCtx (dbgCtx fn c) f).dbgAnswer fn c 0 0 0)

/-- Replace the entry of a number. -/
def setBreak (bs : List BreakPt) (b : BreakPt) : List BreakPt := bs.filter (fun x => x.n != b.n) ++ [b]

def execDbgSetbp (fn : Nat) (c : DbgCmd) (s : State) : Out :=
  .next (s.dbgTake fn c (· == 0x20) (fun s => s.dbgBreak fn c (c.arg1.toNat < 8) (fun (x : Ctx) =>
    { x with breaks := setBreak x.breaks { n := c.arg1.toNat, va := c.arg0, len := 0, access := 0, lanes := c.lanes } })))

def execDbgClrbp (fn : Nat) (c : DbgCmd) (s : State) : Out :=
  .next (s.dbgTake fn c (· == 0x21) (fun s => s.dbgBreak fn c (c.arg1.toNat < 8) (fun (x : Ctx) =>
    { x with breaks := x.breaks.filter (fun b => b.n != c.arg1.toNat) })))

/-- SETWP: ARG1 holds the length, the kind, SP and the index. -/
def execDbgSetwp (fn : Nat) (c : DbgCmd) (s : State) : Out :=
  let a := c.arg1.toNat
  let len := bitsOf a 63 32
  let kind := bitsOf a 3 2
  .next (s.dbgTake fn c (· == 0x22) (fun s => s.dbgBreak fn c (1 ≤ len && len ≤ 2 ^ 31 && kind != 0) (fun (x : Ctx) =>
    let b : BreakPt := { n := bitsOf a 1 0, va := c.arg0, len := len, access := kind + 4 * bitsOf a 4 4, lanes := 0#32 }
    { x with watches := setBreak x.watches b })))

def execDbgClrwp (fn : Nat) (c : DbgCmd) (s : State) : Out :=
  .next (s.dbgTake fn c (· == 0x23) (fun s => s.dbgBreak fn c (c.arg1.toNat < 4) (fun (x : Ctx) =>
    { x with watches := x.watches.filter (fun b => b.n != c.arg1.toNat) })))

/-- The place of a command's data in the debug buffer (R440). -/
def dbgData (s : State) (fn : Nat) (c : DbgCmd) : Nat :=
  bitsOf (fnOf s fn).dbgbuf.toNat 39 19 * 2 ^ 19 + 4096 * (c.tag.toNat % 64)

/-- Data moves to the buffer, or the command completes with status 3 where the buffer takes none. -/
def State.dbgPut (s : State) (fn : Nat) (c : DbgCmd) (bs : List Byte) (val : Nat) : State :=
  if (fnRead s fn (dbgData s fn c) bs.length).isNone then s.dbgAnswer fn c 3 0 0
  else (s.fnWrite fn (dbgData s fn c) bs).dbgAnswer fn c 0 0 val

/-- Data moves from the buffer. -/
def State.dbgGet (s : State) (fn : Nat) (c : DbgCmd) (n : Nat) (act : State → List Byte → State) : State :=
  match fnRead s fn (dbgData s fn c) n with
  | none => s.dbgAnswer fn c 3 0 0
  | some bs => act s bs

/-- RDREG and WRREG name something that the fibre has. -/
def dbgRegOk (s : State) (f : Fibre) (n : Nat) : Bool := n ≤ 67 && (64 ≤ n || decide (n < f.regs.length + (sharedOf s f).length))

/-- RDREG. -/
def execDbgRdreg (fn : Nat) (c : DbgCmd) (s : State) : Out :=
  .next (s.dbgTake fn c (· == 0x30) (fun s => s.dbgAllowed fn c 1 (fun s => s.dbgFibre fn c (fun s _ f =>
    let n := c.arg0.toNat
    if !(dbgRegOk s f n) then s.dbgAnswer fn c 3 0 0
    else if n < 64 then s.dbgPut fn c (vecBytes (regVal f (sharedOf s f) n)) 0
    else if n == 64 then s.dbgPut fn c (vecBytes f.l0.reg.val) (if f.l0.valid then 1 else 0)
    else if n == 65 then s.dbgPut fn c (vecBytes f.l1.reg.val) (if f.l1.valid then 1 else 0)
    else if n == 66 then s.dbgPut fn c (f.threads.map (fun t => leBytes (pcEntry t) 8)).flatten 0
    else s.dbgAnswer fn c 0 0 f.fpst.toNat))))

/-- The PC table that WRREG writes is one that it may write (R441). -/
def pcTableOk (f : Fibre) (es : List Nat) : Bool :=
  (es.zip f.threads).all (fun (e, t) =>
    bitsOf e 63 60 == t.st.toNat && e % 2 == 0 && bitsOf e 59 57 == 0 &&
    (t.st == 0#4 || bitsOf e 56 1 * 2 == t.pc.toNat % 2 ^ 57 / 2 * 2))

/-- The program counters of ready threads are written. -/
def putPcTable (f : Fibre) (es : List Nat) : Fibre :=
  { f with threads := f.threads.zipIdx.map (fun (t, i) =>
      if t.st == 0#4 then { t with pc := BitVec.ofNat 64 (bitsOf (es.getD i 0) 56 1 * 2) } else t) }

/-- WRREG. -/
def execDbgWrreg (fn : Nat) (c : DbgCmd) (s : State) : Out :=
  .next (s.dbgTake fn c (· == 0x31) (fun s => s.dbgAllowed fn c 2 (fun s => s.dbgFibre fn c (fun s i f =>
    let n := c.arg0.toNat
    if !(dbgRegOk s f n) then s.dbgAnswer fn c 3 0 0
    else if n < 64 then s.dbgGet fn c 128 (fun s bs =>
      (s.writePlace i (regPlace f n) (BitVec.allOnes 32) (vecOfBytes bs) false).dbgAnswer fn c 0 0 0)
    else if n == 64 then s.dbgGet fn c 128 (fun s bs =>
      (s.setFib i { f with l0 := { reg := Reg.plain (vecOfBytes bs), valid := true } }).dbgAnswer fn c 0 0 0)
    else if n == 65 then s.dbgGet fn c 128 (fun s bs =>
      (s.setFib i { f with l1 := { reg := Reg.plain (vecOfBytes bs), valid := true } }).dbgAnswer fn c 0 0 0)
    else if n == 66 then s.dbgGet fn c 256 (fun s bs =>
      let es := (List.range 32).map (fun k => leValue ((bs.drop (8 * k)).take 8))
      if !(pcTableOk f es) then s.dbgAnswer fn c 3 0 0 else (s.setFib i (putPcTable f es)).dbgAnswer fn c 0 0 0)
    else (s.setFib i { f with fpst := c.arg1.setWidth 32 &&& 0x1F#32 }).dbgAnswer fn c 0 0 0))))

/-- The places of a debug access, checked whole before a byte moves; an error is the lowest faulting address and its kind. -/
def dbgPlaces (s : State) (k : CtxKey) (acc : Acc) (va n : Nat) : Except (Nat × Nat) (List (Nat × Nat × Nat)) :=
  (linePieces (n + 1) va n).foldlM (fun (a : List (Nat × Nat × Nat)) (v, len) =>
    let v := v % 2 ^ 64
    match translate s k (ctxOf s k).force true acc (BitVec.ofNat 64 v) with
    | .error e => .error (v, e)
    | .ok (.dev d _) => if poisoned s d then .error (v, 6) else .ok (a ++ [(v, d, len)])
    | .ok (.sys _) => .error (v, 8)
    | .ok (.peer _ _) => .error (v, 4)) []

/-- A memory command over its checked range. -/
def State.dbgMem (s : State) (fn : Nat) (c : DbgCmd) (acc : Acc) (act : State → List (Nat × Nat × Nat) → Nat → State) : State :=
  let n := c.arg1.toNat
  if 4096 < n then s.dbgAnswer fn c 3 0 0
  else
    match dbgPlaces s (dbgCtx fn c) acc c.arg0.toNat n with
    | .error (va, k) => s.dbgAnswer fn c 7 k va
    | .ok ps => act s ps n

/-- RDMEM. -/
def execDbgRdmem (fn : Nat) (c : DbgCmd) (s : State) : Out :=
  .next (s.dbgTake fn c (· == 0x32) (fun s => s.dbgAllowed fn c 1 (fun s => s.dbgMem fn c .read (fun s ps _ =>
    s.dbgPut fn c (ps.map (fun (_, d, k) => readBytes s.mem d k)).flatten 0))))

/-- WRMEM. -/
def execDbgWrmem (fn : Nat) (c : DbgCmd) (s : State) : Out :=
  .next (s.dbgTake fn c (· == 0x33) (fun s => s.dbgAllowed fn c 2 (fun s => s.dbgMem fn c .write (fun s ps n =>
    s.dbgGet fn c n (fun s bs =>
      ((ps.foldl (fun (a : State × List Byte) (_, d, k) =>
        (a.1.sliceWrite d (bytesLine (d % 64) (a.2.take k)) (byteMask (d % 64) k), a.2.drop k)) (s, bs)).1).dbgAnswer fn c 0 0
        0)))))

/-- A command that the table does not list, or that no session may have performed (R441). It has no row of its own. -/
def State.dbgUnlisted (s : State) (fn : Nat) (c : DbgCmd) : State :=
  s.dbgTake fn c (fun op => !([1, 2, 0x10, 0x11, 0x12, 0x20, 0x21, 0x22, 0x23, 0x30, 0x31, 0x32, 0x33, 0x40].contains op))
    (fun s => s.dbgAnswer fn c (if (sessionCap s fn).isNone then 1 else 3) 0 0)

/-! ### Tracing (R445, R446) -/

/-- TRACE arms the trace of the session. A start condition of kind 0 is true at once. -/
def execDbgTrace (fn : Nat) (c : DbgCmd) (s : State) : Out :=
  .next (s.dbgTake fn c (· == 0x40) (fun s => s.dbgAllowed fn c 4 (fun s =>
    if 10 < c.sub.toNat then s.dbgAnswer fn c 3 0 0
    else if (dbgTargets s fn c c.scope.toNat).isEmpty then s.dbgAnswer fn c 2 0 0
    else
      let t : Trace :=
        { start := c.arg0, stop := c.arg1, ctx := dbgCtx fn c, scope := c.scope.toNat,
          fib := fibId (slotId c.core.toNat c.sched.toNat c.slot.toNat) c.fib.toNat, rate := c.sub.toNat,
          began := if c.arg0.toNat / 2 ^ 62 == 0 then some s.tick else none, ended := none, counts := [], out := 0, drop := 0 }
      (s.modFn fn (fun (g : Fn) => { g with trace := some t })).dbgAnswer fn c 0 0 0)))

/-- What happens in a tick as a condition of R445 sees it: a run of the scope issued at an address, or a trap taken. -/
inductive TraceCue where
  | time
  | issue (pc : Addr)
  | trap (code : BitVec 8)
  deriving DecidableEq, Repr

/-- The tick in which a condition becomes true, if it has by now. -/
def condTick (c : BitVec 64) (tick : Nat) (cue : TraceCue) : Option Nat :=
  let v := c.toNat % 2 ^ 62
  match c.toNat / 2 ^ 62, cue with
  | 0, _ => some 0
  | 1, _ => if v ≤ tick then some v else none
  | 2, .issue pc => if pc.toNat == v then some tick else none
  | 3, .trap k => if k.toNat == v % 256 then some tick else none
  | _, _ => none

/-- A trace after a cue: the start, and at or after it the stop. -/
def Trace.cue (t : Trace) (tick : Nat) (q : TraceCue) : Trace :=
  let b := match t.began with
    | some x => some x
    | none => condTick t.start tick q
  match b, t.ended with
  | some x, none => { t with began := b, ended := (condTick t.stop tick q).map (fun y => max x y) }
  | _, _ => { t with began := b }

/-- A tick is recorded. -/
def Trace.records (t : Trace) (tick : Nat) : Bool :=
  (match t.began with | some x => decide (x ≤ tick) | none => false) &&
  (match t.ended with | some y => decide (tick ≤ y) | none => true)

/-- A fibre is in a trace's scope. -/
def Trace.covers (t : Trace) (c : CtxKey) (fid : Nat) : Bool :=
  t.ctx == c && (match t.scope with
    | 0 => fid == t.fib
    | 1 => fid / 4 == t.fib / 4
    | _ => true)

/-- The stage record of a tagged instruction. Its times are free values. -/
def stageBits (s : State) (c : CtxKey) (fid : Nat) (pc : Addr) (m : LaneMask) (times : BitVec 48) : BitVec 256 :=
  BitVec.ofNat 256 (c.id % 2 ^ 16 + fid % 4 * 2 ^ 22 + fibSlotIdx fid * 2 ^ 24 + fibSched fid * 2 ^ 28 +
    fibCore fid % 2 ^ 10 * 2 ^ 30 + m.toNat * 2 ^ 40 + pc.toNat % 2 ^ 57 / 2 * 2 ^ 72 + times.toNat * 2 ^ 144 +
    s.tick % 2 ^ 64 * 2 ^ 192)

/-- The records that the trace area holds. -/
def traceRoom : Nat := 2 ^ 18 / 32

/-- An issue of a fibre in a trace's scope: it is counted, and every 2^TRATE-th one is recorded or dropped. -/
def State.traceIssue (s : State) (fid : Nat) (c : CtxKey) (pc : Addr) (m : LaneMask) : State :=
  match (fnOf s c.fn).trace with
  | none => s
  | some t =>
    if !(t.covers c fid) then s
    else
      let t := t.cue s.tick (.issue pc)
      if !(t.records s.tick) then s.modFn c.fn (fun (g : Fn) => { g with trace := some t })
      else
        let n := (tget t.counts fid).getD 0 + 1
        let t := { t with counts := tset t.counts fid n }
        if n % 2 ^ t.rate != 0 then s.modFn c.fn (fun (g : Fn) => { g with trace := some t })
        else if traceRoom ≤ t.out then s.modFn c.fn (fun (g : Fn) => { g with trace := some { t with drop := t.drop + 1 } })
        else
          let (k, s) := s.draw
          let a := bitsOf (fnOf s c.fn).dbgbuf.toNat 39 19 * 2 ^ 19 + 2 ^ 18 + 32 * t.out
          (s.fnWrite c.fn a (leBytes (stageBits s c fid pc m (Config.stageTimes k)).toNat 32)).modFn c.fn (fun (g : Fn) =>
            { g with trace := some { t with out := t.out + 1 } })

/-- A fibre in a trace's scope has taken a trap. -/
def State.traceTrap (s : State) (fid : Nat) (c : CtxKey) (code : BitVec 8) : State :=
  match (fnOf s c.fn).trace with
  | none => s
  | some t =>
    if t.covers c fid then s.modFn c.fn (fun (g : Fn) => { g with trace := some (t.cue s.tick (.trap code)) }) else s

/-- TRACE_START: a start condition that time makes true. -/
def execTraceStart (fn : Nat) (s : State) : Out :=
  .next (match (fnOf s fn).trace with
    | none => s
    | some t => s.modFn fn (fun (g : Fn) => { g with trace := some (t.cue s.tick .time) }))

/-- TRACE_STOP: the trace has ended after the tick in which its stop condition became true. -/
def execTraceStop (fn : Nat) (s : State) : Out :=
  .next (match (fnOf s fn).trace with
    | none => s
    | some t =>
      match (t.cue s.tick .time).ended with
      | some y => if y < s.tick then (s.stopTrace fn).dbgFlush fn else s
      | none => s)

end Sys2Proof.Machine
end

