-- ==== Sys2Proof/Machine/Enclave.lean ====
section
/-!
DEFINITION. Enclaves (R433 to R436), attestation (R437, R438) and what attestation and management report of the device's
images and records (R415, R421, R448).
-/
namespace Sys2Proof.Machine

/-! ### Randomness and lengths -/

/-- A list of bytes of a given length. -/
def fixLen (n : Nat) (bs : List Byte) : List Byte := (bs ++ List.replicate n 0#8).take n

/-- A number of `n` 64-bit words from the random generator. -/
def State.randomNat (s : State) : Nat → Nat × State
  | 0 => (0, s)
  | n + 1 =>
    let (x, s) := s.randomNat n
    let (k, s) := s.draw
    (x * 2 ^ 64 + (Config.random k).toNat, s)

/-! ### Enclaves (R433) -/

/-- The size of a region. -/
def regionSize : Nat := 2 ^ 21

def enclaveOf (s : State) (slot : Nat) : Option Enclave := s.enclaves.find? (fun e => e.slot == slot)

/-- A device address lies in one of the regions. -/
def inRegions (rs : List Nat) (d : Nat) : Bool := rs.contains (d / regionSize * regionSize)

/-- Every line of the regions is written as zeros. -/
def State.zeroRegions (s : State) (rs : List Nat) : State :=
  { s with mem := s.mem.filter (fun c => !(inRegions rs c.1)), unseen := s.unseen.filter (fun x => !(inRegions rs x.2.1)),
           lineRel := s.lineRel.filter (fun e => !(inRegions rs e.1)),
           poisonLines := s.poisonLines.filter (fun a => !(inRegions rs a)) }

/-- The regions of an ENCREATE: 2 MiB pieces of one function's window, named once and owned by no slot. -/
def regionsOk (s : State) (fn : Nat) (rs : List Nat) : Bool :=
  let (b, size) := fnWindow s fn
  rs.all (fun r => r % regionSize == 0 && decide (b ≤ r) && decide (r + regionSize ≤ b + size) && ownerOf s r == 0) &&
  rs.eraseDups.length == rs.length

/-- ENCREATE. -/
def execEncreate (slot fn : Nat) (regions : List Nat) (debugok : Bool) (s : State) : Out :=
  .next (if slot == 0 || 255 < slot || (enclaveOf s slot).isSome || (fnRec s fn).isNone || !(regionsOk s fn regions) then
      s.reply 0 .refused
    else
      let (key, s) := s.randomNat 8
      let (tkey, s) := s.randomNat 48
      let e : Enclave :=
        { slot := slot, fn := fn, regions := regions, debugok := debugok, measure := List.replicate 48 0#8, key := key,
          tkey := tkey }
      ({ s with enclaves := s.enclaves ++ [e] }.zeroRegions regions).reply 0 .done)

/-- ENCDESTROY: the regions are zeroed and the keys erased; no context is bound to the slot any more. -/
def execEncdestroy (slot : Nat) (s : State) : Out :=
  .next (match enclaveOf s slot with
    | none => s.reply 0 .refused
    | some e =>
      let s := s.zeroRegions e.regions
      { s with
        enclaves := s.enclaves.filter (fun x => x.slot != slot)
        ctxs := s.ctxs.map (fun ((c, x) : CtxKey × Ctx) =>
          (c, if x.encl.extractLsb' 0 8 == BitVec.ofNat 8 slot then { x with encl := 0#32 } else x)) }.reply 0 .done)

/-- The PF binds a context to an enclave of its function. -/
def execEnclaveBind (ctx : CtxKey) (slot : Nat) (s : State) : Out :=
  .next (match enclaveOf s slot with
    | none => s.reply 0 .refused
    | some e =>
      if e.fn != ctx.fn then s.reply 0 .refused
      else (s.modCtx ctx (fun (x : Ctx) =>
        { x with encl := BitVec.ofNat 32 (slot + (if e.debugok then 256 else 0)) })).reply 0 .done)

/-! ### Sealed pages (R435) -/

/-- The bytes that a sealed blob adds to what it holds: the wrapped key, the IV and the tag. -/
def sealOver : Nat := 384 + 12 + 16

/-- A range of a function's memory that no slot owns. -/
def plainRange (s : State) (fn a n : Nat) : Bool :=
  match fnAddr s fn a n with
  | some d => (touched d n).all (fun l => ownerOf s l == 0)
  | none => false

/-- A range of a function's memory that one slot owns. -/
def ownedRange (s : State) (fn a n : Nat) (e : Enclave) : Bool :=
  match fnAddr s fn a n with
  | some d => (touched d n).all (fun l => inRegions e.regions l)
  | none => false

/-- ENCIMPORT: only a blob whose tag verifies against the current measurement is written. -/
def execEncimport (slot fn src len dst : Nat) (s : State) : Out :=
  .next (match enclaveOf s slot with
    | none => s.reply fn .refused
    | some e =>
      let n := len - sealOver
      if e.fn != fn || len < sealOver || !(plainRange s fn src len) || !(ownedRange s fn dst n e) then s.reply fn .refused
      else
        match fnRead s fn src len with
        | none => s.reply fn .refused
        | some blob =>
          match Config.openPage e.tkey (e.measure ++ blob) with
          | none => s.reply fn .refused
          | some plain => (s.fnWrite fn dst (fixLen n plain)).reply fn .done)

/-- ENCEXPORT: a range of the enclave is sealed for a public key, in the same format. -/
def execEncexport (slot fn src len dst : Nat) (key : List Byte) (s : State) : Out :=
  .next (match enclaveOf s slot with
    | none => s.reply fn .refused
    | some e =>
      if e.fn != fn || !(ownedRange s fn src len e) || !(plainRange s fn dst (len + sealOver)) then s.reply fn .refused
      else
        match fnRead s fn src len with
        | none => s.reply fn .refused
        | some plain =>
          let (k, s) := s.randomNat 4
          let (iv, s) := s.randomNat 2
          let blob := fixLen 384 (Config.wrapKey k key) ++ leBytes iv 12 ++ fixLen (len + 16) (Config.sealPage k (e.measure ++ plain))
          (s.fnWrite fn dst blob).reply fn .done)

/-! ### Records and images (R415, R419, R421) -/

/-- The bytes of a configuration record before its signatures. -/
def configBytes (r : ConfigRecord) : List Byte :=
  leBytes (0x4E564B52 + r.ty % 2 ^ 16 * 2 ^ 80 + (32 + r.payload.length + r.block.length) % 2 ^ 32 * 2 ^ 96 +
    r.seq % 2 ^ 64 * 2 ^ 128 + r.tick % 2 ^ 64 * 2 ^ 192) 32 ++ r.payload

/-- A record verifies (R419). -/
def configOk (r : ConfigRecord) : Bool := Config.verify (configBytes r) r.block

/-- The assigned type of a record (R421). -/
def configType (r : ConfigRecord) : Bool := 1 ≤ r.ty && r.ty ≤ 3

/-- The record of a type that is in use: the one that verifies with the highest SEQ. -/
def configInUse (s : State) (ty : Nat) : Option ConfigRecord :=
  (s.nvConfig.filter (fun r => r.ty == ty && configOk r)).foldl (fun (a : Option ConfigRecord) r =>
    match a with
    | none => some r
    | some x => if x.seq < r.seq then some r else a) none

/-- SHA-384 as 48 bytes. -/
def digest (bs : List Byte) : List Byte := leBytes (Config.sha384 bs).toNat 48

/-- FWDIG, CFGDIG and LOGHEAD. -/
def fwdig (s : State) : List Byte := digest (s.running.map (·.bytes)).flatten
def cfgdig (s : State) : List Byte :=
  digest ([1, 2, 3].map (fun t => match configInUse s t with | some r => configBytes r ++ r.block | none => [])).flatten
def loghead (s : State) : List Byte := nextDigest s.nvLog

/-! ### Attestation (R437, R438) -/

/-- The record of a unit at the last accrual. -/
def accruedOf (s : State) (u : Word) : Wear :=
  match s.accrued.find? (fun w => w.unit == u) with
  | some w => w
  | none => Wear.fresh u

/-- A WEAR entry. -/
def wearEntry (s : State) (kind : Nat) : List Byte :=
  let ws := (allUnits.filter (fun u => unitKind u == kind)).map (accruedOf s)
  let count := fun (st : Nat) => (ws.filter (fun w => w.st == st)).length
  let most := fun (f : Wear → Nat) => ws.foldl (fun a w => max a (f w)) 0
  let top := most (fun w => (scoreOf s w * (2 ^ 12 : Nat)).floor.toNat)
  leBytes (count 0 % 2 ^ 16 + count 1 % 2 ^ 16 * 2 ^ 16 + count 2 % 2 ^ 16 * 2 ^ 32 +
    min top 0xFFFF * 2 ^ 48 + most (·.bti) / 2 ^ 24 % 2 ^ 48 * 2 ^ 64 +
    most (·.hci) / 2 ^ 24 % 2 ^ 48 * 2 ^ 112 + most (·.em) / 2 ^ 24 % 2 ^ 48 * 2 ^ 160) 32

/-- A debug capability names a context. -/
def capNames (s : State) (c : CtxKey) : Bool := s.caps.any (fun p => capLive s p && covers p c)

/-- The FLAGS of a report. -/
def attestFlags (s : State) (c : CtxKey) : Nat :=
  (if s.logbrk then 1 else 0) + (if (ctxOf s c).encl.getLsbD 8 then 2 else 0) + (if capNames s c then 4 else 0) +
  (if s.boot == .recovery then 8 else 0)

/-- The report body of 1,024 bytes. -/
def reportBody (s : State) (fn : Nat) (nonce : BitVec 384) (c : CtxKey) : List Byte :=
  let slot := ((ctxOf s c).encl.extractLsb' 0 8).toNat
  let e := if slot == 0 then none else enclaveOf s slot
  leBytes (0x41545345 + 0x0B1 * 2 ^ 84 + attestFlags s c * 2 ^ 96) 176 ++
  leBytes (fn % 2 ^ 8 + slot * 2 ^ 8 + c.id % 2 ^ 16 * 2 ^ 16 + Config.deviceId.toNat * 2 ^ 32 +
    elapsedNow s % 2 ^ 64 * 2 ^ 192 + s.target % 2 ^ 32 * 2 ^ 160 + s.tick % 2 ^ 64 * 2 ^ 96) 32 ++
  ((List.range 6).map (wearEntry s)).flatten ++ fwdig s ++ cfgdig s ++ loghead s ++ leBytes nonce.toNat 48 ++
  (match e with | some x => fixLen 48 x.measure | none => List.replicate 48 0#8) ++
  (match e with | some x => leBytes x.tkey 384 | none => List.replicate 384 0#8)

/-- ATTEST: the PF may name any context, a VF its own. -/
def execAttest (fn : Nat) (nonce : BitVec 384) (ctx : CtxKey) (s : State) : Out :=
  .next (if fn != 0 && ctx.fn != fn then s.reply fn .refused
    else
      let b := reportBody s fn nonce ctx
      s.send (.answer fn .done (b ++ fixLen 16608 (Config.sign b))))

end Sys2Proof.Machine
end

