-- ==== Sys2Proof/Machine/Boot.lean ====
section
/-!
DEFINITION. The register block of a function (R7, R8, R366, R430, R455), partitions (R362 to R365), the device's own
firmware and configuration (R419 to R421, R448), and boot: device reset, shutdown and loss of power (R417, R420, R422,
R432).
-/
namespace Sys2Proof.Machine

/-! ### The register block (R366, R308, R430, R455) -/

/-- FNINFO: function, partition, logical clusters, logical cores. -/
def fnInfo (s : State) (fn : Nat) : Nat :=
  let t := (partRec s fn).remap
  t.length % 2 ^ 9 + (t.map (· / 16)).eraseDups.length % 2 ^ 12 * 2 ^ 32 + partOf s fn % 2 ^ 4 * 2 ^ 44 + fn % 2 ^ 8 * 2 ^ 48

/-- An entry of the fabric map. -/
def fabRowBits (r : FabRow) : Nat :=
  r.port.toNat + (if r.pop then 2 ^ 7 else 0) + (if r.en then 2 ^ 8 else 0) + (if r.self then 2 ^ 9 else 0) + r.link % 4 * 2 ^ 10

/-- The control register of an error bank. -/
def bankBits (b : ErrBank) : Nat :=
  b.vec % 2 ^ 11 * 2 ^ 16 + (b.entries.filter (fun (_, r) => r.valid)).length % 2 ^ 10 * 2 ^ 27 + b.drop % 2 ^ 16 * 2 ^ 48

/-- The 8 bytes of the error banks' entries at an offset from 0x10000. -/
def entryBits (s : State) (o : Nat) : Nat :=
  match (s.errs.getD (o / 0x8000) ErrBank.reset).entries.find? (fun (i, _) => i == o % 0x8000 / 64) with
  | some (_, r) => errorBits r / 2 ^ (8 * (o % 64)) % 2 ^ 64
  | none => 0

/-- The value that a read of a function's register block returns. -/
def regRead (s : State) (fn off : Nat) : BitVec 64 :=
  let f := fnOf s fn
  if s.boot == .held || (fnRec s fn).isNone then 0#64
  else if off == 0 then BitVec.ofNat 64 (fnInfo s fn)
  else if s.boot != .up then 0#64
  else if off == 0x8 then f.qtab
  else if off == 0x10 then f.ctxtab
  else if off == 0x3000 then f.dbgcmd
  else if off == 0x3008 then f.dbghlt
  else if off == 0x3010 then f.dbgrep
  else if off == 0x3018 then f.dbgbuf
  else if off == 0x3028 then f.dbgst
  else if off == 0x3038 then f.dbgack
  else if fn != 0 || off % 8 != 0 then 0#64
  else if 0x400 ≤ off && off < 0x480 then
    BitVec.ofNat 64 (fabRowBits (s.fabric.getD ((off - 0x400) / 8) (FabRow.empty ((off - 0x400) / 8))))
  else if 0x2000 ≤ off && off < 0x2028 then BitVec.ofNat 64 (bankBits (s.errs.getD ((off - 0x2000) / 8) ErrBank.reset))
  else if 0x10000 ≤ off && off < 0x10000 + 5 * 0x8000 then BitVec.ofNat 64 (entryBits s (off - 0x10000))
  else 0#64

/-- The bits of a register that a write replaces. -/
def keepBits (v : BitVec 64) (hi lo : Nat) : BitVec 64 := BitVec.ofNat 64 (bitsOf v.toNat hi lo * 2 ^ lo)

/-- A write to a debug register of a function. -/
def State.dbgRegWrite (s : State) (fn off : Nat) (v : BitVec 64) : State :=
  match off with
  | 0x3000 => s.modFn fn (fun (f : Fn) => { f with dbgcmd := keepBits v 39 12 })
  | 0x3008 => s.modFn fn (fun (f : Fn) => { f with dbghlt := keepBits v 39 12 })
  | 0x3010 => s.modFn fn (fun (f : Fn) => { f with dbgrep := keepBits v 39 12 })
  | 0x3018 => s.modFn fn (fun (f : Fn) => { f with dbgbuf := keepBits v 39 19 })
  | 0x3020 => s.modFn fn (fun (f : Fn) => { f with dbgdb := keepBits v 15 0 })
  | 0x3038 => (s.modFn fn (fun (f : Fn) => { f with dbgack := keepBits v 42 0 })).dbgFlush fn
  | _ => s

/-- A write to the error banks: VEC and CLR of a control register, VALID of an entry. -/
def State.bankRegWrite (s : State) (off : Nat) (v : BitVec 64) : State :=
  if 0x2000 ≤ off && off < 0x2028 && off % 8 == 0 then
    s.modBank ((off - 0x2000) / 8) (fun (b : ErrBank) =>
      { b with vec := bitsOf v.toNat 26 16, drop := if v.getLsbD 0 then 0 else b.drop })
  else if 0x10000 ≤ off && off < 0x10000 + 5 * 0x8000 && off % 64 == 0 && v.getLsbD 0 then
    s.freeEntryOf ((off - 0x10000) / 0x8000) ((off - 0x10000) % 0x8000 / 64)
  else s

/-- REGISTER_WRITE: a write of the host to a function's register block. Read-only and unlisted offsets, and reserved
bits, discard it. -/
def execRegisterWrite (fn off : Nat) (value : BitVec 64) (s : State) : Out :=
  if s.boot != .up || (fnRec s fn).isNone then .next s
  else if off == 0x8 then .next (s.modFn fn (fun (f : Fn) => { f with qtab := keepBits value 39 6 }))
  else if off == 0x10 then .next (s.modFn fn (fun (f : Fn) => { f with ctxtab := keepBits value 39 6 }))
  else if 0x1000 ≤ off && off < 0x1200 && off % 8 == 0 then
    execDbell { fn := fn, q := (off - 0x1000) / 8 } (value.extractLsb' 0 32) s
  else if 0x3000 ≤ off && off < 0x3040 then .next (s.dbgRegWrite fn off value)
  else if fn == 0 then .next (s.bankRegWrite off value)
  else .next s

/-! ### Partitions (R362 to R364) -/

/-- A context of one of the functions that a test names is resident, holds a packet in progress, or is saved or being
restored. -/
def anyBusy (s : State) (which : Nat → Bool) : Bool :=
  anyResident s (fun c => which c.fn) ||
  s.queues.any (fun (q, x) => which q.fn && !x.pkts.isEmpty) ||
  s.ctxs.any (fun (c, x) => which c.fn && (match x.res with
    | .saved _ _ => true
    | _ => false))

/-- The physical slices of a die that stand in the rows, in order: a retired slice gives its place to the row's spare, if
that is still usable, and is left out otherwise. -/
def rowSlices (s : State) (die row : Nat) : List Nat :=
  let st := fun (k : Nat) => (wearOf s (unitId 3 die (row * 16 + k))).st
  let lost := (List.range 12).filter (fun k => st k == 2)
  ((List.range 12).filterMap (fun k =>
    if st k != 2 then some k else if st 12 != 2 && lost.head? == some k then some 12 else none)).map (row * 16 + ·)

/-- The slice map of a die over its usable slices (R100). -/
def sliceMap (s : State) (die : Nat) : List Nat :=
  let usable := rowSlices s die 0 ++ rowSlices s die 1
  (List.range 24).map (fun i => usable.getD (i % usable.length) 0)

/-- The reason of a unit's RETIRE record: a failure, unless the log says that it wore out. -/
def retireReason (s : State) (u : Word) : Nat :=
  match s.nvLog.reverse.find? (fun r => r.ty == 0x14 && r.payload.take 4 == leBytes u.toNat 4) with
  | some r => leValue (r.payload.drop 4)
  | none => 2

/-- A spare takes the role of a retired unit: the records of R404 and R429. -/
def State.standIn (s : State) (up down : Word) : State :=
  (((s.wakeUnit up).nvRecord 0x13 (leBytes up.toNat 4 ++ leBytes down.toNat 4 ++ leBytes (retireReason s down) 4))).errorRecord
    (unitDie up) 3 0 up.toNat 0 0 down none 0#8

/-- The spare of a slice row is due to be called up. -/
def rowDue (s : State) (die row : Nat) : Option Word :=
  if (wearOf s (unitId 3 die (row * 16 + 12))).st != 1 then none
  else ((List.range 12).map (fun k => unitId 3 die (row * 16 + k))).find? (fun u => (wearOf s u).st == 2)

/-- The slices of a die that are due are replaced, and its slice map is built again. -/
def State.replaceSlices (s : State) (die : Nat) : State :=
  let s := [0, 1].foldl (fun (s : State) row =>
    match rowDue s die row with
    | some u => s.standIn (unitId 3 die (row * 16 + 12)) u
    | none => s) s
  { s with slices := s.slices.set die (sliceMap s die) }

/-- A core after a partition reset. -/
def Core.clear (c : Core) : Core :=
  { c with snap := [], mq := [], bounds := [], regFree := List.replicate 4 1024, allocs := List.replicate 4 [] }

/-- PRESET. -/
def execPreset (p : Nat) (s : State) : Out :=
  .next (match tget s.parts p with
    | none => s.reply 0 .refused
    | some x =>
      if anyBusy s (fun fn => partOf s fn == p) then s.reply 0 .busy
      else
        let s := x.cores.foldl (fun (s : State) c => s.modCore c Core.clear) s
        let s := (List.range 4).foldl (fun (s : State) d =>
          if s.wgs.any (fun (_, w) => coreDie w.core == d) || [0, 1].all (fun r => (rowDue s d r).isNone) then s
          else s.replaceSlices d) s
        s.reply 0 .done)

/-- A list of core codes is a set of whole clusters: every core in use of each cluster that it names (R363). -/
def wholeClusters (s : State) (cores : List Nat) : Bool :=
  let sites := fun (k : Nat) => ((List.range 9).map (k * 16 + ·)).filter (fun c => (wearOf s (unitId 0 (coreDie c) c)).st == 0)
  cores.eraseDups.length == cores.length &&
  cores.all (fun c => unitExists (unitId 0 (coreDie c) c) && (sites (c / 16)).contains c) &&
  (cores.map (· / 16)).eraseDups.all (fun k => (sites k).all (fun c => cores.contains c))

/-- A range of device memory lies in the window of another function, the PF's among them (R362). -/
def windowTaken (s : State) (fn base gb : Nat) : Bool :=
  s.fns.any (fun (i, f) => i != fn && decide (base < f.base + f.gb * 2 ^ 30) && decide (f.base < base + gb * 2 ^ 30))

/-- PARTITION_ASSIGN: the PF creates a partition, binds a function, or sets a window. -/
def execPartitionAssign (r : AssignReq) (s : State) : Out :=
  .next (match r with
    | .partition p cores =>
      let cs := (cores.map (·.toNat)).mergeSort (· ≤ ·)
      if 16 ≤ p || !(wholeClusters s cs) || s.parts.any (fun (i, x) => i != p && x.cores.any (fun c => cs.contains c)) then
        s.reply 0 .refused
      else if anyResident s (fun c => partOf s c.fn == p) then s.reply 0 .busy
      else { s with parts := tset s.parts p { Part.reset with cores := cs, remap := cs } }.reply 0 .done
    | .bind fn p =>
      if 64 < fn || (tget s.parts p).isNone then s.reply 0 .refused
      else if anyResident s (fun c => c.fn == fn) then s.reply 0 .busy
      else { s with fns := tset s.fns fn { (fnRec s fn).getD Fn.absent with part := p } }.reply 0 .done
    | .window fn base gb =>
      if 64 < fn || base % 4096 != 0 || s.memsz.toNat * 2 ^ 30 < base + gb * 2 ^ 30 || windowTaken s fn base gb then
        s.reply 0 .refused
      else if anyResident s (fun c => c.fn == fn) then s.reply 0 .busy
      else { s with fns := tset s.fns fn { (fnRec s fn).getD Fn.absent with base := base, gb := gb } }.reply 0 .done)

/-! ### Firmware, configuration and the management port (R419, R421, R448) -/

/-- The bytes of a signature block (R419). -/
def blockLen : Nat := 384 + 16224

/-- An image verifies. -/
def imageOk (i : Image) : Bool :=
  let n := i.bytes.length - blockLen
  i.which < 2 && Config.verify (i.bytes.take n) (i.bytes.drop n)

/-- An image that verifies is written to the inactive copy of its kind, and runs from the next reset. -/
def State.storeImage (s : State) (i : Image) : State :=
  let k := 1 - s.nvActive.getD i.which 0
  { s with nvImages := tset s.nvImages (2 * i.which + k) i, nvActive := s.nvActive.set i.which k }

/-- CONFIG_RECORD_WRITE: the security block verifies a record before it is stored. -/
def execConfigRecordWrite (r : ConfigRecord) (s : State) : Out :=
  .next (if r.ty < 0x10 && configOk r then { s with nvConfig := s.nvConfig ++ [r] }.reply 0 .done else s.reply 0 .refused)

/-- FIRMWARE_UPDATE by the PF. -/
def execFirmwareUpdate (img : Image) (s : State) : Out :=
  .next (if imageOk img then (s.storeImage img).reply 0 .done else s.reply 0 .refused)

/-- RECOVERY_IMAGE_LOAD: through the recovery mailbox, which only a device in recovery presents. -/
def execRecoveryImageLoad (img : Image) (s : State) : Out :=
  .next (if s.boot != .recovery then s
    else if imageOk img then (s.storeImage img).reply 0 .done else s.reply 0 .refused)

/-- The temperatures that the units have sampled last, in millikelvin. -/
def temperatures (s : State) : List Byte := (s.wear.map (fun w => leBytes w.unit.toNat 4 ++ leBytes w.env.1 4)).flatten

/-- MANAGEMENT_REQUEST: device memory is never read or written. -/
def execManagementRequest (r : MgmtReq) (s : State) : Out :=
  .next (match r with
    | .temperature => s.send (.mgmt (temperatures s))
    | .power => s.send (.mgmt (leBytes s.power 4))
    | .errorBank b i =>
      s.send (.mgmt (match tget (s.errs.getD b ErrBank.reset).entries i with
        | some e => leBytes (errorBits e) 64
        | none => List.replicate 64 0#8))
    | .wear kind => s.send (.mgmt (if kind < 6 then wearEntry s kind else []))
    | .measurement => s.send (.mgmt (fwdig s ++ cfgdig s ++ loghead s))
    | .firmware img => (if imageOk img then s.storeImage img else s).send (.mgmt (leBytes (if imageOk img then 0 else 1) 1))
    | .readMemory _ => s.send (.mgmt [])
    | .writeMemory _ => s.send (.mgmt []))

/-! ### What boot reads from the non-volatile memory (R402, R416, R417, R421, R422) -/

/-- The LIFECFG of a payload (R416). -/
def lifeOf (p : List Byte) : LifeCfg :=
  let n := fun (o k : Nat) => leValue ((p.drop o).take k)
  { consts := (List.range 4).map (fun i => BitVec.ofNat 64 (n (8 * i) 8))
    limits := (List.range 18).map (fun i => n (32 + 8 * i) 8 * 2 ^ 24)
    trmin := n 176 8, trfull := n 184 8, rfrac := n 192 4, rotgap := (n 196 4, 2 ^ 16), target := n 200 4, tjmax := n 204 4
    area := n 208 8 }

/-- The payload of the record of a type in use. -/
def configPayload (s : State) (ty : Nat) : Option (List Byte) := (configInUse s ty).map (·.payload)

/-- A wear record as WEARCK holds it. -/
def wearFrom (b : List Byte) : Wear :=
  let x := leValue b
  { unit := BitVec.ofNat 32 x, bti := bitsOf x 255 208 * 2 ^ 24, hci := bitsOf x 207 160 * 2 ^ 24,
    em := bitsOf x 159 112 * 2 ^ 24, btir := bitsOf x 111 80 * 2 ^ 24, st := bitsOf x 79 76, gatedAt := 0, last := (0, 0, 0),
    boostEx := (0, 0, 0), env := (0, 0) }

/-- The latest WEARCK of the log. -/
def lastWearck (s : State) : Option NvRec := s.nvLog.reverse.find? (fun r => r.ty == 0x10)

/-- The wear records of a WEARCK. -/
def wearRecords (r : NvRec) : List Wear :=
  (List.range (leValue ((r.payload.drop 8).take 4))).map (fun i => wearFrom ((r.payload.drop (16 + 32 * i)).take 32))

/-- Some record's digest does not match its predecessor. -/
def chainBroken : List NvRec → Bool
  | a :: b :: r => b.digest != leBytes (Config.sha384 (nvBytes a)).toNat 48 || chainBroken (b :: r)
  | _ => false

/-- The image that a boot runs: the active copy, or the other, verified and no older than MINVER. -/
def bootImage (s : State) (which least : Nat) : Option Image :=
  let k := s.nvActive.getD which 0
  ([k, 1 - k].filterMap (fun c => tget s.nvImages (2 * which + c))).find? (fun i => imageOk i && decide (least ≤ i.version))

/-! ### Channels and the pool at a reset (R26, R28, R103) -/

/-- The engine that serves a channel's place: the engine itself, or the spare that stands in. -/
def engineOf (s : State) (u : Word) : Word :=
  match s.spared.find? (fun x => x.1 == u) with
  | some x => x.2
  | none => u

/-- A channel whose engine is retired takes a spare engine of its die, or is withdrawn. -/
def State.checkChannel (s : State) (c : Nat) : State :=
  let u := unitId 4 (c / 96) (c % 96)
  if s.withdrawn.contains c || (wearOf s (engineOf s u)).st != 2 then s
  else
    match ((List.range 4).map (fun k => unitId 4 (c / 96) (96 + k))).find? (fun x => (wearOf s x).st == 1) with
    | some up => { s.standIn up (engineOf s u) with spared := s.spared.filter (fun x => x.1 != u) ++ [(u, up)] }
    | none => { s with withdrawn := s.withdrawn ++ [c], memsz := s.memsz - 2#10 }

/-- The granules below a granule that lie on a channel (R99). -/
def granulesOn (n c : Nat) : Nat := n / 384 + (if (c + 384 - n / 384 % 384) % 384 < n % 384 then 1 else 0)

/-- Granules that need a place in the pool. -/
def needGranules (s : State) : Nat :=
  (s.withdrawn.map (granulesOn (poolBase s / 256))).sum + (s.retired.map (fun (_, a) => frameBad s a)).sum

/-- Pack granules into pool frames in ascending order: the frames taken and the granules left without a place. -/
def packPool (s : State) : Nat → Nat → Nat → Nat × Nat
  | 0, k, need => (k, need)
  | fuel + 1, k, need =>
    if need == 0 then (k, 0)
    else
      let a := poolBase s + 4096 * k
      if s.retired.any (fun (_, f) => f == a) then packPool s fuel (k + 1) need
      else packPool s fuel (k + 1) (need - (16 - frameBad s a))

/-- The frames whose granules need a place, one entry for each granule, in ascending address. -/
def needFrames (s : State) : List Nat :=
  ((List.range (poolBase s / 256)).filter (fun g => s.withdrawn.contains (channelOf (256 * g)))).map (fun g => g / 16 * 4096) ++
  (s.retired.map (fun (f, a) => List.replicate (frameBad s a) f)).flatten

/-- The pool after the channels are settled. -/
def State.packRemaps (s : State) : State :=
  if s.withdrawn.isEmpty then s
  else
    let n := needGranules s
    let (k, left) := packPool s ((768 * 2 ^ 30 - poolBase s) / 4096) 0 n
    let s := { s with poolRemap := k }
    if left == 0 then s
    else
      ((needFrames s).drop (n - left)).eraseDups.foldl (fun (s : State) f =>
        { s with poisonFrames := s.poisonFrames ++ [f] }.errorRecord (dieOf f) 0x21 1 f 0 0 0#32 none 0#8) s

/-! ### Device reset (R420) -/

/-- What a reset keeps: the non-volatile memory, device memory with its line poison and retirements, and the world
outside. -/
def State.cold (s : State) : State :=
  { State.reset with
    steps := s.steps, free := s.free, ids := s.ids, inbox := s.inbox, cur := s.cur, nvImages := s.nvImages
    nvActive := s.nvActive, nvConfig := s.nvConfig, nvLog := s.nvLog, nvSeq := s.nvSeq, mem := s.mem
    poisonLines := s.poisonLines, retired := s.retired, poolUsed := s.poolUsed, withdrawn := s.withdrawn, memsz := s.memsz
    spared := s.spared, laneUp := s.laneUp, hostOut := s.hostOut }

/-- Step 4: the configuration records are applied, and those that are skipped are recorded. -/
def State.applyConfig (s : State) : State :=
  let skipped := s.nvConfig.filter (fun r => !(configOk r && configType r))
  let s := skipped.foldl (fun (s : State) r => s.errorRecord 4 0x11 0 r.seq r.ty 0 0#32 none 0#8) s
  let life := match configPayload s 1 with
    | some p => lifeOf p
    | none => LifeCfg.default
  { s with
    life := life, target := life.target
    ceframe := match configPayload s 2 with
      | some p => leValue (p.take 4)
      | none => 16 }

/-- The runner groups as the wear records give them. -/
def bootGroups (s : State) : Tbl Group :=
  (List.range 16).filterMap (fun g =>
    let act := (List.range 9).filter (fun k => (wearOf s (unitId 2 (g / 4) (g % 4 * 16 + k))).st == 0)
    if act == List.range 8 then none else some (g, { active := act, servedBy := g }))

/-- Step 5: wear records, spare bindings, slice maps and channels; step 6: the chain of the log. -/
def State.train (s : State) : State :=
  let s := match lastWearck s with
    | some r => { s with wear := wearRecords r, accrued := wearRecords r, elapsed := leValue (r.payload.take 8) }
    | none => s
  let s := { s with logbrk := chainBroken (s.nvLog.dropWhile (fun r => r.ty != 0x10)), groups := bootGroups s }
  let s := (List.range 4).foldl (fun (s : State) d => s.replaceSlices d) s
  ((List.range 384).foldl (fun (s : State) c => s.checkChannel c) s).packRemaps

/-- Step 7: the host link presents the PF. -/
def State.present (s : State) : State := { s with boot := .up, fns := [(0, { Fn.reset with gb := s.memsz.toNat })] }

/-- Steps 1 to 7, from what a reset keeps. -/
def State.bootUp (s : State) : State :=
  let least := match configPayload s 3 with
    | some p => leValue (p.take 4)
    | none => 0
  match bootImage s 0 least, bootImage s 1 least with
  | some a, some b => ({ s.applyConfig with running := [a, b] }).train.present
  | _, _ => { s with boot := .recovery, running := [] }

/-- The policy core's own last records before a reset or shutdown that it performs (R417). -/
def State.parkLog (s : State) : State := if s.boot == .up && !s.contained then s.drainLog.putWearck else s

/-- Device reset. Enclaves end with it, and their regions are zeroed. -/
def State.deviceReset (s : State) : State :=
  let s := s.parkLog
  let s := s.zeroRegions (s.enclaves.map (·.regions)).flatten
  s.cold.bootUp

def execDeviceReset (s : State) : Out := .next s.deviceReset

/-- A Function Level Reset: of the PF, a device reset; of a VF, the end of its contexts and of its debug session, and the
reset of its register block. -/
def execFunctionLevelReset (fn : Nat) (s : State) : Out :=
  .next (if fn == 0 then s.deviceReset
    else
      match fnRec s fn with
      | none => s
      | some f =>
        let cs := (allContexts s).filter (fun c => c.fn == fn)
        let s := cs.foldl (fun (s : State) c => s.endContext c 5 none) s
        let s := s.endSession fn
        { s with
          fns := tset s.fns fn { Fn.reset with part := f.part, base := f.base, gb := f.gb }
          queues := s.queues.filter (fun (q, _) => q.fn != fn)
          dbgOut := s.dbgOut.filter (fun x => x.fn != fn), dbgPend := s.dbgPend.filter (fun p => p.ctx.fn != fn)
          ctxs := s.ctxs.filter (fun (c, _) => c.fn != fn) })

/-- ORDERLY_SHUTDOWN: the log is closed by a full WEARCK, and the device stops. -/
def execOrderlyShutdown (s : State) : Out := .next { s.parkLog with boot := .held }

/-- POWER_LOSS: all but the non-volatile memory is lost. -/
def execPowerLoss (s : State) : Out :=
  .next { State.reset with
    steps := s.steps, free := s.free, ids := s.ids, inbox := s.inbox, cur := s.cur, nvImages := s.nvImages
    nvActive := s.nvActive, nvConfig := s.nvConfig, nvLog := s.nvLog, nvSeq := s.nvSeq, spared := s.spared
    withdrawn := s.withdrawn, memsz := s.memsz, laneUp := s.laneUp, hostOut := s.hostOut, boot := .held }

/-- CONFIGURATION_REQUEST: answered with Retry Status until boot has ended. -/
def execConfigurationRequest (fn off : Nat) (s : State) : Out :=
  .next (if s.boot == .held then s.send (.config fn true 0#64)
    else if (s.boot == .recovery && fn != 0) || (fnRec s fn).isNone then s.send (.refuse fn false)
    else s.send (.config fn false (Config.configSpace fn off)))

end Sys2Proof.Machine
end

