-- ==== Sys2Proof/Machine/Convert.lean ====
section
/-!
DEFINITION. The conversion class (R245 to R252): CVT, PACK, UNPK, QNT and DQN.
-/
namespace Sys2Proof.Machine

/-- CVT (R246). -/
def execCvt (f : LForm) (s : State) : Out :=
  let v := ofLForm f
  let S := Conv.S f
  vec 0x90 8 v.y v.k v.d false [src v.a S] true 2 (fun i =>
    .ok (roundLanes i v.mode 1 (fun l us =>
      convert v.ty S v.mode (draw1 us) (Conv.sat f) ((i.s 0).lane l).toNat))) s

/-- PACK's conversion of one element (R248). -/
def packElem (t s : BitVec 4) (mode u : Nat) (sat : Bool) (w : Word) : Word × Flags5 :=
  if t == Ty.q4 then
    if isIntType s then (wordOfInt (clampInt (-7) 7 (intOf s w.toNat)), Flags5.none)
    else
      let (r, fl) := toIntRange (-7) 7 mode u (decodeFloat s w.toNat)
      (wordOfInt r, fl)
  else convert t s mode u sat w.toNat

/-- PACK to a 16-bit or 8-bit type in one lane (R248). -/
def packLane (t : BitVec 4) (hi : Bool) (ea eb c : Word) : Word :=
  if tyIn t packed16 then putBits (putBits 0#32 0 16 ea.toNat) 16 16 eb.toNat
  else
    let o := if hi then 16 else 0
    putBits (putBits c o 8 ea.toNat) (o + 8) 8 eb.toNat

/-- PACK to a 4-bit type (R248): every lane of a and b is converted, with 64 draws of the lowest active lane. -/
def packNibbles (t s : BitVec 4) (mode q : Nat) (sat : Bool) (i : VIn) : VOut :=
  let (us, rs) := drawsAt i (lowestLane i.m) mode 64
  let es := (List.range 64).map (fun k =>
    packElem t s mode (us.getD k 0) sat ((i.s (k % 2)).lane (k / 2)))
  let lane := fun l =>
    if l / 8 == q then
      (List.range 8).foldl (fun (w : Word) n =>
        let e := es.getD (2 * (8 * (n / 2) + l % 8) + n % 2) (0#32, Flags5.none)
        putBits w (4 * n) 4 e.1.toNat) 0#32
    else (i.s 2).lane l
  { r := LaneVec.of lane, r2 := none, fl := allFlags es, rs := rs }

/-- PACK (R248). The merge source is a pattern of 32 bits (log entry 11). -/
def execPack (f : LForm) (s : State) : Out :=
  let v := ofLForm f
  let S := Conv.S f
  let c := if tyIn v.ty packed16 then Opd.const 0#32 else v.c
  if tyIn v.ty packed4 then
    vec 0x91 8 v.y v.k v.d false [srcAll v.a S, srcAll v.b S, src c Ty.i32] true 2 (fun i =>
      .ok (packNibbles v.ty S v.mode (Conv.q f) (Conv.sat f) i)) s
  else
    vec 0x91 8 v.y v.k v.d false [src v.a S, src v.b S, src c Ty.i32] true 2 (fun i =>
      .ok (roundLanes i v.mode 2 (fun l us =>
        let ea := packElem v.ty S v.mode (us.getD 0 0) (Conv.sat f) ((i.s 0).lane l)
        let eb := packElem v.ty S v.mode (us.getD 1 0) (Conv.sat f) ((i.s 1).lane l)
        (packLane v.ty (Conv.hi f) ea.1 eb.1 ((i.s 2).lane l), ea.2 ||| eb.2)))) s

/-- The lanes of position q. -/
def posLanes (q : Nat) : LaneMask := BitVec.ofNat 32 (255 * 2 ^ (8 * q))

/-- UNPK's result from a decoded integer (R249). -/
def unpackInt (t : BitVec 4) (mode u : Nat) (v : Int) : Word × Flags5 :=
  if isIntType t then
    if v < intMin t then (wordOfInt (intMin t), Flags5.nv) else (wordOfInt v, Flags5.none)
  else (toFloat t mode u false (numOfInt v)).word

/-- The element that lane `l` of UNPK reads, converted (R249). -/
def unpackLane (f : LForm) (a : LaneVec) (l u : Nat) : Word × Flags5 :=
  let S := Conv.S f
  let q := Conv.q f
  let e := if Conv.hi f then 1 else 0
  let mode := f.mode.toNat
  if tyIn S packed4 then
    let w := (a.lane (8 * q + l % 8)).toNat
    let n := 2 * (l / 8)
    let c0 := bitsOf w (4 * n + 3) (4 * n)
    let c1 := bitsOf w (4 * n + 7) (4 * n + 4)
    if S == Ty.q4 then
      let p := sq4Pair c0 c1
      unpackInt f.ty mode u (if e == 1 then p.2 else p.1)
    else convert f.ty S mode u false (if e == 1 then c1 else c0)
  else
    let w := typeBits S
    let x := (a.lane l).toNat / 2 ^ (w * q) % 2 ^ w
    if isIntType S then unpackInt f.ty mode u (intOf S x) else convert f.ty S mode u false x

/-- UNPK (R249). -/
def execUnpk (f : LForm) (s : State) : Out :=
  let v := ofLForm f
  let S := Conv.S f
  let a := if tyIn S packed4 then srcLanes v.a S (posLanes (Conv.q f)) else src v.a S
  vec 0x92 8 v.y v.k v.d false [a] true 2 (fun i =>
    .ok (roundLanes i v.mode 1 (fun l us => unpackLane f (i.s 0) l (draw1 us)))) s

/-- The exact inputs of QNT, or the fault that stops it (R250). -/
def qntInputs (f : LForm) (i : VIn) : Except Nat (List Num) :=
  let S := Conv.S f
  if S == Ty.q4 then
    let codes := blockCodes S (i.s 0) (Conv.q f) (Conv.hi f)
    let vin := bitsOf ((i.s 1).lane (lowestLane i.m)).toNat 7 0
    if hasOddEscape codes then .error 0x50
    else if vin == 0xFF then .error 0x51
    else .ok ((sq4Values codes).map (fun x => scaleNum ((vin : Int) - 127) (numOfInt x)))
  else .ok ((List.range 32).map (fun l => laneNum S ((i.s 0).lane l)))

/-- QNT (R250). -/
def execQnt (f : LForm) (s : State) : Out :=
  let v := ofLForm f
  let S := Conv.S f
  let q := Conv.q f
  let a := if S == Ty.q4 then srcLanes v.a S (posLanes q) else srcAll v.a S
  let b := if S == Ty.q4 then v.b else Opd.const 0#32
  vec 0x93 8 v.y v.k v.d true [a, src b Ty.i32, src v.c Ty.i32] true 6 (fun i =>
    match qntInputs f i with
    | .error code => .error (code, i.m)
    | .ok xs =>
      let (us, rs) := drawsAt i (lowestLane i.m) v.mode 32
      let o := qblock v.ty v.mode (Conv.h f) us xs
      .ok { r := LaneVec.of (fun l => placeCodes v.ty q (Conv.hi f) o.codes l ((i.s 2).lane l)),
            r2 := some (LaneVec.splat (BitVec.ofNat 32 o.scale)), fl := o.fl, rs := rs }) s

/-- The decoded value of a block's codes in lane order (R251). -/
def dqnValues (f : LForm) (a : LaneVec) : List Num :=
  codeValues (Conv.S f) (blockCodes (Conv.S f) a (Conv.q f) (Conv.hi f))

/-- The active lanes whose scale is the scale NaN (R251). -/
def nanScales (i : VIn) : LaneMask :=
  BitVec.ofNat 32 ((lanesOf i.m).foldl (fun a l =>
    if bitsOf ((i.s 1).lane l).toNat 7 0 == 0xFF then a + 2 ^ l else a) 0)

/-- DQN.acc in one lane (R252). -/
def dqnAccLane (f : LForm) (i : VIn) (l : Nat) (us : List Nat) : Word × Flags5 :=
  let r := dequantAcc f.mode.toNat (us.getD 0 0) (us.getD 1 0) ((i.s 0).lane l).toInt ((i.s 1).lane l).toInt
    none (if f.c == 66#7 then none else some ((i.s 2).lane l).toNat)
  r.word

/-- DQN (R251, R252). -/
def execDqn (f : LForm) (s : State) : Out :=
  let v := ofLForm f
  let S := Conv.S f
  if Conv.acc f then
    vec 0x94 8 v.y v.k v.d false [src v.a Ty.i32, src v.b Ty.i32, src v.c Ty.f32] true 6 (fun i =>
      .ok (roundLanes i v.mode 2 (dqnAccLane f i))) s
  else
    vec 0x94 8 v.y v.k v.d false [srcLanes v.a S (posLanes (Conv.q f)), src v.b Ty.i32] true 6 (fun i =>
      let bad := nanScales i
      if bad != 0#32 then .error (0x51, bad)
      else
        let xs := dqnValues f (i.s 0)
        .ok (roundLanes i v.mode 1 (fun l us =>
          (dequant v.mode (draw1 us) (bitsOf ((i.s 1).lane l).toNat 7 0) (xs.getD l (.nan false))).word))) s

end Sys2Proof.Machine
end

