-- ==== Sys2Proof/Machine/Dispatch.lean ====
section
/-!
DEFINITION. Dispatch: one arm per row of the opcode table, each a direct call of that row's meaning.
-/
namespace Sys2Proof.Machine

def exec (i : Instr) (s : State) : Host.Outcome State Fault Refusal :=
  match i with
  | .movC f => Sys2Proof.Machine.execMovC f s
  | .moviC f => Sys2Proof.Machine.execMoviC f s
  | .iaddC f => Sys2Proof.Machine.execIaddC f s
  | .iaddi f => Sys2Proof.Machine.execIaddi f s
  | .isubC f => Sys2Proof.Machine.execIsubC f s
  | .andC f => Sys2Proof.Machine.execAndC f s
  | .orC f => Sys2Proof.Machine.execOrC f s
  | .xorC f => Sys2Proof.Machine.execXorC f s
  | .shli f => Sys2Proof.Machine.execShli f s
  | .shri f => Sys2Proof.Machine.execShri f s
  | .faddC f => Sys2Proof.Machine.execFaddC f s
  | .fsubC f => Sys2Proof.Machine.execFsubC f s
  | .fmulC f => Sys2Proof.Machine.execFmulC f s
  | .braC f => Sys2Proof.Machine.execBraC f s
  | .nopC f => Sys2Proof.Machine.execNopC f s
  | .exitC f => Sys2Proof.Machine.execExitC f s
  | .iaddW f => Sys2Proof.Machine.execIaddW f s
  | .iaddL f => Sys2Proof.Machine.execIaddL f s
  | .isubW f => Sys2Proof.Machine.execIsubW f s
  | .isubL f => Sys2Proof.Machine.execIsubL f s
  | .imulW f => Sys2Proof.Machine.execImulW f s
  | .imulL f => Sys2Proof.Machine.execImulL f s
  | .imulhW f => Sys2Proof.Machine.execImulhW f s
  | .imulhL f => Sys2Proof.Machine.execImulhL f s
  | .idivW f => Sys2Proof.Machine.execIdivW f s
  | .idivL f => Sys2Proof.Machine.execIdivL f s
  | .iremW f => Sys2Proof.Machine.execIremW f s
  | .iremL f => Sys2Proof.Machine.execIremL f s
  | .iminW f => Sys2Proof.Machine.execIminW f s
  | .iminL f => Sys2Proof.Machine.execIminL f s
  | .imaxW f => Sys2Proof.Machine.execImaxW f s
  | .imaxL f => Sys2Proof.Machine.execImaxL f s
  | .iabsW f => Sys2Proof.Machine.execIabsW f s
  | .iabsL f => Sys2Proof.Machine.execIabsL f s
  | .inegW f => Sys2Proof.Machine.execInegW f s
  | .inegL f => Sys2Proof.Machine.execInegL f s
  | .lea f => Sys2Proof.Machine.execLea f s
  | .movW f => Sys2Proof.Machine.execMovW f s
  | .movL f => Sys2Proof.Machine.execMovL f s
  | .moviW f => Sys2Proof.Machine.execMoviW f s
  | .moviL f => Sys2Proof.Machine.execMoviL f s
  | .andW f => Sys2Proof.Machine.execAndW f s
  | .andL f => Sys2Proof.Machine.execAndL f s
  | .orW f => Sys2Proof.Machine.execOrW f s
  | .orL f => Sys2Proof.Machine.execOrL f s
  | .xorW f => Sys2Proof.Machine.execXorW f s
  | .xorL f => Sys2Proof.Machine.execXorL f s
  | .notW f => Sys2Proof.Machine.execNotW f s
  | .notL f => Sys2Proof.Machine.execNotL f s
  | .andnW f => Sys2Proof.Machine.execAndnW f s
  | .andnL f => Sys2Proof.Machine.execAndnL f s
  | .shlW f => Sys2Proof.Machine.execShlW f s
  | .shlL f => Sys2Proof.Machine.execShlL f s
  | .shrW f => Sys2Proof.Machine.execShrW f s
  | .shrL f => Sys2Proof.Machine.execShrL f s
  | .sarW f => Sys2Proof.Machine.execSarW f s
  | .sarL f => Sys2Proof.Machine.execSarL f s
  | .rotW f => Sys2Proof.Machine.execRotW f s
  | .rotL f => Sys2Proof.Machine.execRotL f s
  | .popcW f => Sys2Proof.Machine.execPopcW f s
  | .popcL f => Sys2Proof.Machine.execPopcL f s
  | .clzW f => Sys2Proof.Machine.execClzW f s
  | .clzL f => Sys2Proof.Machine.execClzL f s
  | .brevW f => Sys2Proof.Machine.execBrevW f s
  | .brevL f => Sys2Proof.Machine.execBrevL f s
  | .faddW f => Sys2Proof.Machine.execFaddW f s
  | .faddL f => Sys2Proof.Machine.execFaddL f s
  | .fsubW f => Sys2Proof.Machine.execFsubW f s
  | .fsubL f => Sys2Proof.Machine.execFsubL f s
  | .fmulW f => Sys2Proof.Machine.execFmulW f s
  | .fmulL f => Sys2Proof.Machine.execFmulL f s
  | .fminW f => Sys2Proof.Machine.execFminW f s
  | .fminL f => Sys2Proof.Machine.execFminL f s
  | .fmaxW f => Sys2Proof.Machine.execFmaxW f s
  | .fmaxL f => Sys2Proof.Machine.execFmaxL f s
  | .frcpW f => Sys2Proof.Machine.execFrcpW f s
  | .frcpL f => Sys2Proof.Machine.execFrcpL f s
  | .frsqW f => Sys2Proof.Machine.execFrsqW f s
  | .frsqL f => Sys2Proof.Machine.execFrsqL f s
  | .fsqrtW f => Sys2Proof.Machine.execFsqrtW f s
  | .fsqrtL f => Sys2Proof.Machine.execFsqrtL f s
  | .fexp2W f => Sys2Proof.Machine.execFexp2W f s
  | .fexp2L f => Sys2Proof.Machine.execFexp2L f s
  | .flog2W f => Sys2Proof.Machine.execFlog2W f s
  | .flog2L f => Sys2Proof.Machine.execFlog2L f s
  | .fsinW f => Sys2Proof.Machine.execFsinW f s
  | .fsinL f => Sys2Proof.Machine.execFsinL f s
  | .fcosW f => Sys2Proof.Machine.execFcosW f s
  | .fcosL f => Sys2Proof.Machine.execFcosL f s
  | .ftanhW f => Sys2Proof.Machine.execFtanhW f s
  | .ftanhL f => Sys2Proof.Machine.execFtanhL f s
  | .frndW f => Sys2Proof.Machine.execFrndW f s
  | .frndL f => Sys2Proof.Machine.execFrndL f s
  | .fclassW f => Sys2Proof.Machine.execFclassW f s
  | .fclassL f => Sys2Proof.Machine.execFclassL f s
  | .shflSelW f => Sys2Proof.Machine.execShflSelW f s
  | .shflSelL f => Sys2Proof.Machine.execShflSelL f s
  | .shflLoW f => Sys2Proof.Machine.execShflLoW f s
  | .shflLoL f => Sys2Proof.Machine.execShflLoL f s
  | .shflHiW f => Sys2Proof.Machine.execShflHiW f s
  | .shflHiL f => Sys2Proof.Machine.execShflHiL f s
  | .shflXorW f => Sys2Proof.Machine.execShflXorW f s
  | .shflXorL f => Sys2Proof.Machine.execShflXorL f s
  | .voteAnyW f => Sys2Proof.Machine.execVoteAnyW f s
  | .voteAnyL f => Sys2Proof.Machine.execVoteAnyL f s
  | .voteAllW f => Sys2Proof.Machine.execVoteAllW f s
  | .voteAllL f => Sys2Proof.Machine.execVoteAllL f s
  | .voteMaskW f => Sys2Proof.Machine.execVoteMaskW f s
  | .voteMaskL f => Sys2Proof.Machine.execVoteMaskL f s
  | .matchW f => Sys2Proof.Machine.execMatchW f s
  | .matchL f => Sys2Proof.Machine.execMatchL f s
  | .braW f => Sys2Proof.Machine.execBraW f s
  | .braL f => Sys2Proof.Machine.execBraL f s
  | .brzW f => Sys2Proof.Machine.execBrzW f s
  | .brzL f => Sys2Proof.Machine.execBrzL f s
  | .brnzW f => Sys2Proof.Machine.execBrnzW f s
  | .brnzL f => Sys2Proof.Machine.execBrnzL f s
  | .jmpiW f => Sys2Proof.Machine.execJmpiW f s
  | .jmpiL f => Sys2Proof.Machine.execJmpiL f s
  | .callW f => Sys2Proof.Machine.execCallW f s
  | .callL f => Sys2Proof.Machine.execCallL f s
  | .calliW f => Sys2Proof.Machine.execCalliW f s
  | .calliL f => Sys2Proof.Machine.execCalliL f s
  | .retW f => Sys2Proof.Machine.execRetW f s
  | .retL f => Sys2Proof.Machine.execRetL f s
  | .rcvW f => Sys2Proof.Machine.execRcvW f s
  | .rcvL f => Sys2Proof.Machine.execRcvL f s
  | .exitW f => Sys2Proof.Machine.execExitW f s
  | .exitL f => Sys2Proof.Machine.execExitL f s
  | .nopW f => Sys2Proof.Machine.execNopW f s
  | .nopL f => Sys2Proof.Machine.execNopL f s
  | .yldW f => Sys2Proof.Machine.execYldW f s
  | .yldL f => Sys2Proof.Machine.execYldL f s
  | .barArvW f => Sys2Proof.Machine.execBarArvW f s
  | .barArvL f => Sys2Proof.Machine.execBarArvL f s
  | .barWtW f => Sys2Proof.Machine.execBarWtW f s
  | .barWtL f => Sys2Proof.Machine.execBarWtL f s
  | .barMeetW f => Sys2Proof.Machine.execBarMeetW f s
  | .barMeetL f => Sys2Proof.Machine.execBarMeetL f s
  | .fbarW f => Sys2Proof.Machine.execFbarW f s
  | .fbarL f => Sys2Proof.Machine.execFbarL f s
  | .cbarArvW f => Sys2Proof.Machine.execCbarArvW f s
  | .cbarArvL f => Sys2Proof.Machine.execCbarArvL f s
  | .cbarWtW f => Sys2Proof.Machine.execCbarWtW f s
  | .cbarWtL f => Sys2Proof.Machine.execCbarWtL f s
  | .waitW f => Sys2Proof.Machine.execWaitW f s
  | .waitL f => Sys2Proof.Machine.execWaitL f s
  | .testW f => Sys2Proof.Machine.execTestW f s
  | .testL f => Sys2Proof.Machine.execTestL f s
  | .cnclW f => Sys2Proof.Machine.execCnclW f s
  | .cnclL f => Sys2Proof.Machine.execCnclL f s
  | .phaseW f => Sys2Proof.Machine.execPhaseW f s
  | .phaseL f => Sys2Proof.Machine.execPhaseL f s
  | .fenceW f => Sys2Proof.Machine.execFenceW f s
  | .fenceL f => Sys2Proof.Machine.execFenceL f s
  | .trap f => Sys2Proof.Machine.execTrap f s
  | .rteW f => Sys2Proof.Machine.execRteW f s
  | .rteL f => Sys2Proof.Machine.execRteL f s
  | .srd f => Sys2Proof.Machine.execSrd f s
  | .swr f => Sys2Proof.Machine.execSwr f s
  | .boostW f => Sys2Proof.Machine.execBoostW f s
  | .boostL f => Sys2Proof.Machine.execBoostL f s
  | .allocW f => Sys2Proof.Machine.execAllocW f s
  | .allocL f => Sys2Proof.Machine.execAllocL f s
  | .freeW f => Sys2Proof.Machine.execFreeW f s
  | .freeL f => Sys2Proof.Machine.execFreeL f s
  | .shdwW f => Sys2Proof.Machine.execShdwW f s
  | .shdwL f => Sys2Proof.Machine.execShdwL f s
  | .bkptW f => Sys2Proof.Machine.execBkptW f s
  | .bkptL f => Sys2Proof.Machine.execBkptL f s
  | .haltW f => Sys2Proof.Machine.execHaltW f s
  | .haltL f => Sys2Proof.Machine.execHaltL f s
  | .imad f => Sys2Proof.Machine.execImad f s
  | .icmp f => Sys2Proof.Machine.execIcmp f s
  | .bfx f => Sys2Proof.Machine.execBfx f s
  | .bfi f => Sys2Proof.Machine.execBfi f s
  | .prmb f => Sys2Proof.Machine.execPrmb f s
  | .movh f => Sys2Proof.Machine.execMovh f s
  | .sel f => Sys2Proof.Machine.execSel f s
  | .ffma f => Sys2Proof.Machine.execFfma f s
  | .fcmp f => Sys2Proof.Machine.execFcmp f s
  | .lred f => Sys2Proof.Machine.execLred f s
  | .lscan f => Sys2Proof.Machine.execLscan f s
  | .cvt f => Sys2Proof.Machine.execCvt f s
  | .pack f => Sys2Proof.Machine.execPack f s
  | .unpk f => Sys2Proof.Machine.execUnpk f s
  | .qnt f => Sys2Proof.Machine.execQnt f s
  | .dqn f => Sys2Proof.Machine.execDqn f s
  | .ld f => Sys2Proof.Machine.execLd f s
  | .st f => Sys2Proof.Machine.execSt f s
  | .lds f => Sys2Proof.Machine.execLds f s
  | .sts f => Sys2Proof.Machine.execSts f s
  | .ldx f => Sys2Proof.Machine.execLdx f s
  | .stx f => Sys2Proof.Machine.execStx f s
  | .atom f => Sys2Proof.Machine.execAtom f s
  | .atoms f => Sys2Proof.Machine.execAtoms f s
  | .pref f => Sys2Proof.Machine.execPref f s
  | .enq f => Sys2Proof.Machine.execEnq f s
  | .deq f => Sys2Proof.Machine.execDeq f s
  | .podi f => Sys2Proof.Machine.execPodi f s
  | .podq f => Sys2Proof.Machine.execPodq f s
  | .cpy f => Sys2Proof.Machine.execCpy f s
  | .cpyx f => Sys2Proof.Machine.execCpyx f s
  | .runs f => Sys2Proof.Machine.execRuns f s
  | .coll f => Sys2Proof.Machine.execColl f s
  | .mld f => Sys2Proof.Machine.execMld f s
  | .msw f => Sys2Proof.Machine.execMsw f s
  | .mxm f => Sys2Proof.Machine.execMxm f s
  | .mhad f => Sys2Proof.Machine.execMhad f s
  | .mz f => Sys2Proof.Machine.execMz f s
  | .mrd f => Sys2Proof.Machine.execMrd f s
  | .mst f => Sys2Proof.Machine.execMst f s
  | .mqry f => Sys2Proof.Machine.execMqry f s
  | .xmov f => Sys2Proof.Machine.execXmov f s
  | .xtil f => Sys2Proof.Machine.execXtil f s
  | .xgth f => Sys2Proof.Machine.execXgth f s
  | .xsct f => Sys2Proof.Machine.execXsct f s
  | .xred f => Sys2Proof.Machine.execXred f s
  | .xfil f => Sys2Proof.Machine.execXfil f s
  | .xsig f => Sys2Proof.Machine.execXsig f s
  | .xwt f => Sys2Proof.Machine.execXwt f s
  | .xmxm f => Sys2Proof.Machine.execXmxm f s
  | .xhs f => Sys2Proof.Machine.execXhs f s
  | .xend f => Sys2Proof.Machine.execXend f s
  | .nopPacket qr p => Sys2Proof.Machine.execNopPacket qr p s
  | .launch qr p => Sys2Proof.Machine.execLaunch qr p s
  | .chain qr p => Sys2Proof.Machine.execChain qr p s
  | .inval qr p => Sys2Proof.Machine.execInval qr p s
  | .signal qr p => Sys2Proof.Machine.execSignal qr p s
  | .waitv qr p => Sys2Proof.Machine.execWaitv qr p s
  | .dbgOpen fn c => Sys2Proof.Machine.execDbgOpen fn c s
  | .dbgClose fn c => Sys2Proof.Machine.execDbgClose fn c s
  | .debugHalt fn c => Sys2Proof.Machine.execDebugHalt fn c s
  | .dbgResume fn c => Sys2Proof.Machine.execDbgResume fn c s
  | .dbgStep fn c => Sys2Proof.Machine.execDbgStep fn c s
  | .dbgSetbp fn c => Sys2Proof.Machine.execDbgSetbp fn c s
  | .dbgClrbp fn c => Sys2Proof.Machine.execDbgClrbp fn c s
  | .dbgSetwp fn c => Sys2Proof.Machine.execDbgSetwp fn c s
  | .dbgClrwp fn c => Sys2Proof.Machine.execDbgClrwp fn c s
  | .dbgRdreg fn c => Sys2Proof.Machine.execDbgRdreg fn c s
  | .dbgWrreg fn c => Sys2Proof.Machine.execDbgWrreg fn c s
  | .dbgRdmem fn c => Sys2Proof.Machine.execDbgRdmem fn c s
  | .dbgWrmem fn c => Sys2Proof.Machine.execDbgWrmem fn c s
  | .dbgTrace fn c => Sys2Proof.Machine.execDbgTrace fn c s
  | .trapEntry fib => Sys2Proof.Machine.execTrapEntry fib s
  | .splitLoad flt => Sys2Proof.Machine.execSplitLoad flt s
  | .fairnessBurst fib => Sys2Proof.Machine.execFairnessBurst fib s
  | .issueLimitSwitch slot => Sys2Proof.Machine.execIssueLimitSwitch slot s
  | .loadReply flt rep => Sys2Proof.Machine.execLoadReply flt rep s
  | .atomComplete flt rep => Sys2Proof.Machine.execAtomComplete flt rep s
  | .sliceRead flt line => Sys2Proof.Machine.execSliceRead flt line s
  | .merge core ent => Sys2Proof.Machine.execMerge core ent s
  | .atomicEvent flt line => Sys2Proof.Machine.execAtomicEvent flt line s
  | .taddWake flt lane => Sys2Proof.Machine.execTaddWake flt lane s
  | .phaseBoundary core => Sys2Proof.Machine.execPhaseBoundary core s
  | .mergeAck core ent fail => Sys2Proof.Machine.execMergeAck core ent fail s
  | .podControlEvent flt rep => Sys2Proof.Machine.execPodControlEvent flt rep s
  | .enqcAdvance flt => Sys2Proof.Machine.execEnqcAdvance flt s
  | .deqcAdvance flt => Sys2Proof.Machine.execDeqcAdvance flt s
  | .podWake flt => Sys2Proof.Machine.execPodWake flt s
  | .waitTableRetry flt => Sys2Proof.Machine.execWaitTableRetry flt s
  | .podPublishTimeout flt => Sys2Proof.Machine.execPodPublishTimeout flt s
  | .runnerDispatch grp => Sys2Proof.Machine.execRunnerDispatch grp s
  | .handleFull cmd => Sys2Proof.Machine.execHandleFull cmd s
  | .drainSettle wg h => Sys2Proof.Machine.execDrainSettle wg h s
  | .collWaitEnd cmd => Sys2Proof.Machine.execCollWaitEnd cmd s
  | .followOnCommand cmd => Sys2Proof.Machine.execFollowOnCommand cmd s
  | .matrixQueueDepart core cmd => Sys2Proof.Machine.execMatrixQueueDepart core cmd s
  | .matrixCommandComplete core cmd => Sys2Proof.Machine.execMatrixCommandComplete core cmd s
  | .workgroupEnd wg => Sys2Proof.Machine.execWorkgroupEnd wg s
  | .workgroupStart lid core => Sys2Proof.Machine.execWorkgroupStart lid core s
  | .groupTake fib => Sys2Proof.Machine.execGroupTake fib s
  | .checkpoint wg => Sys2Proof.Machine.execCheckpoint wg s
  | .redundantCompare wg => Sys2Proof.Machine.execRedundantCompare wg s
  | .runnerSgcCompare wg => Sys2Proof.Machine.execRunnerSgcCompare wg s
  | .mismatchTimeout wg => Sys2Proof.Machine.execMismatchTimeout wg s
  | .watchdogExpiry wg kind obj => Sys2Proof.Machine.execWatchdogExpiry wg kind obj s
  | .dbell qr tail => Sys2Proof.Machine.execDbell qr tail s
  | .launchComplete lid => Sys2Proof.Machine.execLaunchComplete lid s
  | .invalComplete id => Sys2Proof.Machine.execInvalComplete id s
  | .waitvRecheck qr => Sys2Proof.Machine.execWaitvRecheck qr s
  | .preempt ctx => Sys2Proof.Machine.execPreempt ctx s
  | .quantumExpiry ctx => Sys2Proof.Machine.execQuantumExpiry ctx s
  | .preemptPeerTimeout flt => Sys2Proof.Machine.execPreemptPeerTimeout flt s
  | .contextHalted ctx => Sys2Proof.Machine.execContextHalted ctx s
  | .contextSave ctx => Sys2Proof.Machine.execContextSave ctx s
  | .restore ctx => Sys2Proof.Machine.execRestore ctx s
  | .hostEndContext ctx => Sys2Proof.Machine.execHostEndContext ctx s
  | .hostRead fn dpa len => Sys2Proof.Machine.execHostRead fn dpa len s
  | .hostWrite fn dpa data poisoned => Sys2Proof.Machine.execHostWrite fn dpa data poisoned s
  | .hostCompletion flt line data old st => Sys2Proof.Machine.execHostCompletion flt line data old st s
  | .completionTimeout flt => Sys2Proof.Machine.execCompletionTimeout flt s
  | .linkError e => Sys2Proof.Machine.execLinkError e s
  | .peerRequest r => Sys2Proof.Machine.execPeerRequest r s
  | .flitRetransmit peer seq => Sys2Proof.Machine.execFlitRetransmit peer seq s
  | .relayForward dst r => Sys2Proof.Machine.execRelayForward dst r s
  | .laneFailure port lane => Sys2Proof.Machine.execLaneFailure port lane s
  | .retrainComplete port => Sys2Proof.Machine.execRetrainComplete port s
  | .unitFailure unit => Sys2Proof.Machine.execUnitFailure unit s
  | .fatalError src loc => Sys2Proof.Machine.execFatalError src loc s
  | .frameRetire frame uncorrectable => Sys2Proof.Machine.execFrameRetire frame uncorrectable s
  | .faultRecordPost ctx => Sys2Proof.Machine.execFaultRecordPost ctx s
  | .faultReplay ctx => Sys2Proof.Machine.execFaultReplay ctx s
  | .faultCancel ctx => Sys2Proof.Machine.execFaultCancel ctx s
  | .registerWrite fn off value => Sys2Proof.Machine.execRegisterWrite fn off value s
  | .errorEntryFree bank ent => Sys2Proof.Machine.execErrorEntryFree bank ent s
  | .errorBankClr bank => Sys2Proof.Machine.execErrorBankClr bank s
  | .traceStart fn => Sys2Proof.Machine.execTraceStart fn s
  | .traceStop fn => Sys2Proof.Machine.execTraceStop fn s
  | .haltReportPost fn => Sys2Proof.Machine.execHaltReportPost fn s
  | .grantCapability by_ c => Sys2Proof.Machine.execGrantCapability by_ c s
  | .revocation by_ capid => Sys2Proof.Machine.execRevocation by_ capid s
  | .capabilityExpiry capid => Sys2Proof.Machine.execCapabilityExpiry capid s
  | .fabset self map => Sys2Proof.Machine.execFabset self map s
  | .fabpart p ftid fmask => Sys2Proof.Machine.execFabpart p ftid fmask s
  | .fabap src ftid ctxid target => Sys2Proof.Machine.execFabap src ftid ctxid target s
  | .preset p => Sys2Proof.Machine.execPreset p s
  | .partitionAssign r => Sys2Proof.Machine.execPartitionAssign r s
  | .setTarget fn hours => Sys2Proof.Machine.execSetTarget fn hours s
  | .setShare p v => Sys2Proof.Machine.execSetShare p v s
  | .setLbcap p v => Sys2Proof.Machine.execSetLbcap p v s
  | .setPlim watts => Sys2Proof.Machine.execSetPlim watts s
  | .setMaxlvl p v => Sys2Proof.Machine.execSetMaxlvl p v s
  | .encreate slot fn regions debugok => Sys2Proof.Machine.execEncreate slot fn regions debugok s
  | .encdestroy slot => Sys2Proof.Machine.execEncdestroy slot s
  | .enclaveBind ctx slot => Sys2Proof.Machine.execEnclaveBind ctx slot s
  | .encimport slot fn src len dst => Sys2Proof.Machine.execEncimport slot fn src len dst s
  | .encexport slot fn src len dst key => Sys2Proof.Machine.execEncexport slot fn src len dst key s
  | .attest fn nonce ctx => Sys2Proof.Machine.execAttest fn nonce ctx s
  | .configRecordWrite r => Sys2Proof.Machine.execConfigRecordWrite r s
  | .firmwareUpdate img => Sys2Proof.Machine.execFirmwareUpdate img s
  | .managementRequest r => Sys2Proof.Machine.execManagementRequest r s
  | .stressSample samples => Sys2Proof.Machine.execStressSample samples s
  | .accrual => Sys2Proof.Machine.execAccrual s
  | .spareCallup unit => Sys2Proof.Machine.execSpareCallup unit s
  | .remapChange p l phys => Sys2Proof.Machine.execRemapChange p l phys s
  | .runnerGroupMerge die grp => Sys2Proof.Machine.execRunnerGroupMerge die grp s
  | .boostEnd core => Sys2Proof.Machine.execBoostEnd core s
  | .powerWindow watts => Sys2Proof.Machine.execPowerWindow watts s
  | .boostResume => Sys2Proof.Machine.execBoostResume s
  | .thermalLimit die milliK => Sys2Proof.Machine.execThermalLimit die milliK s
  | .wearck => Sys2Proof.Machine.execWearck s
  | .logRecordWrite => Sys2Proof.Machine.execLogRecordWrite s
  | .deviceReset => Sys2Proof.Machine.execDeviceReset s
  | .recoveryImageLoad img => Sys2Proof.Machine.execRecoveryImageLoad img s
  | .functionLevelReset fn => Sys2Proof.Machine.execFunctionLevelReset fn s
  | .orderlyShutdown => Sys2Proof.Machine.execOrderlyShutdown s
  | .powerLoss => Sys2Proof.Machine.execPowerLoss s
  | .xwtWatchdogTimeout rnr => Sys2Proof.Machine.execXwtWatchdogTimeout rnr s
  | .junctionBelowTjmax die milliK => Sys2Proof.Machine.execJunctionBelowTjmax die milliK s
  | .configurationRequest fn off => Sys2Proof.Machine.execConfigurationRequest fn off s

end Sys2Proof.Machine
end

