-- ==== Sys2Proof/Machine/Issue.lean ====
section
/-!
DEFINITION. The issue of one instruction by a fibre or a runner (R64, R65, R213, R340 to R343, R443, R445, R459), and the
passage of time (R423, R443).
-/
namespace Sys2Proof.Machine

/-! ### Fibres -/

/-- The agent that is issued. -/
def State.issuing (s : State) (a : Agent) (m : LaneMask) (pc : Addr) : State :=
  { s with cur := { agent := a, mask := m, pc := pc, stalled := false } }

/-- An armed breakpoint stands at the run that a fibre would issue (R443). -/
def breakHit (s : State) (f : Fibre) (pc : Addr) (m : LaneMask) : Bool :=
  let c := fibCtx s f
  !f.skipBp && (ctxSession s c).isSome &&
  (ctxOf s c).breaks.any (fun b => b.va == pc && b.lanes &&& m != 0#32)

/-- The fibre as it stands in front of the issue of a run: another set of threads than that of its previous instruction is
a group switch (R213). -/
def switchTo (f : Fibre) (m : LaneMask) : Fibre := if f.lastSet == 0#32 || f.lastSet == m then f else groupSwitch f

/-- The latches and the shadow count of one fibre, in another. -/
def keepLatches (old f : Fibre) : Fibre :=
  { f with
    l0 := { f.l0 with valid := old.l0.valid }, l1 := { f.l1 with valid := old.l1.valid }, shadow := old.shadow }

/-- The instruction is SHDW, which sets the count that others reduce. -/
def setsShadow (i : Instr) : Bool :=
  match viewOf i with
  | .w op _ => op == 0x67
  | .l op _ => op == 0x67
  | _ => false

/-- The fibre's accounts after an issue that did not stall: fairness, shadow count, breakpoint skip, step. `old` is the
fibre in front of the issue, which began at `pc`; what it kept for its instruction is used up. An issue that enters a handler or
leaves one has the count of R386 or R391. -/
def issued (s : State) (old : Fibre) (pc : Addr) (m : LaneMask) (isShdw : Bool) (f : Fibre) : Fibre :=
  let others := decide (popMask m < (readyThreads old).length)
  let f := if f.handler.isSome == old.handler.isSome then afterIssue f m others (ctxHalted s (fibCtx s old))
    else { f with lastSet := m }
  { f with
    kept := f.kept.filter (fun k => !(k.meets pc m))
    got := []
    shadow := if isShdw then f.shadow else f.shadow - 1
    skipBp := false
    haltReq := f.haltReq || f.stepping.isSome
    stepping := none }

/-- The slot's accounts after an issue (R342). -/
def State.countSlot (s : State) (slot : Nat) : State :=
  match tget s.slots slot with
  | none => s
  | some x => s.setSlot slot { x with consec := if (nextReady s slot x.cur).isSome then x.consec + 1 else 0 }

/-- The fibre that issued still has its slot: an issue that has handed it on counts for no other fibre (R342). -/
def hasSlot (s : State) (f : Fibre) : Bool :=
  match tget s.slots f.slot with
  | some x => x.cur == f.idx
  | none => false

/-- What follows the instruction of a fibre. -/
def State.afterFibre (s : State) (fid : Nat) (old : Fibre) (pc : Addr) (m : LaneMask) (isShdw : Bool) : State :=
  if s.cur.stalled then
    if hasSlot s old then s.modFib fid (keepLatches old) else s
  else
    let c := fibCtx s old
    let s := s.modFib fid (issued s old pc m isShdw)
    (if hasSlot s old then s.countSlot old.slot else s).traceIssue fid c pc m

/-- The outcome of a fibre's instruction with what follows it. -/
def fibreOut (fid : Nat) (old : Fibre) (pc : Addr) (m : LaneMask) (isShdw : Bool) (o : Out) : Out :=
  match o with
  | .next s => .next (s.afterFibre fid old pc m isShdw)
  | x => x

/-- The slot is that of the fibre, which takes its turn (R342, R343). -/
def State.takeSlot (s : State) (f : Fibre) : State :=
  s.modSlot f.slot (fun (x : Slot) =>
    { x with cur := f.idx, consec := if x.cur == f.idx then x.consec else 0, lastIssue := s.tick + 1 })

/-- The instruction at a run's address, once the run is chosen. -/
def State.issueRun (s : State) (fid : Nat) (f : Fibre) (l : Launch) (pc : Addr) (m : LaneMask) : Out :=
  let s := ((s.takeSlot f).setFib fid (switchTo f m)).issuing (.fib fid) m pc
  match fetchInstr s l (privOf f) pc with
  | .instr i _ => fibreOut fid f pc m (setsShadow i) (exec i s)
  | .illegal => fibreOut fid f pc m false (.next (s.raise fid (trapOf 0x01 m)))
  | .fault k => .next (s.accessFault fid m [laneFault (xlRply l.xl) 0 pc k 3])
  | .sys line => fibreOut fid f pc m false (.next (s.fetchLine fid pc line))

/-- The fibre has halted in front of its instruction. -/
def heldBack (s : State) (fid : Nat) : Bool :=
  s.cur.stalled && (match tget s.fibs fid with | some f => f.halted.isSome | none => false)

/-- A fibre halts in front of a breakpoint; where its instruction also meets a watchpoint, with the watch records in front
of the one report (R458). -/
def State.breakRun (s : State) (fid : Nat) (f : Fibre) (l : Launch) (pc : Addr) (m : LaneMask) : Out :=
  match s.issueRun fid f l pc m with
  | .next t => .next (if heldBack t fid then t else s.haltFibre fid 2 [])
  | x => x

/-- A fibre issues the run of R340, or halts in front of a breakpoint. -/
def issueFibre (fid : Nat) (s : State) : Out :=
  match tget s.fibs fid with
  | none => .next s
  | some f =>
    match selectRun s f, fibLaunch s f with
    | some (pc, m), some l => if breakHit s f pc m then s.breakRun fid f l pc m else s.issueRun fid f l pc m
    | _, _ => .next s

/-! ### Runners -/

/-- A line of host memory is read as code of a runner (R66). -/
def State.fetchRunner (s : State) (c : RunCtx) (pc : Addr) (line : Nat) : State :=
  let (id, s) := s.newId
  let ln : LineReq := { va := pc, place := .sys line, ownMask := 0#64, own := 0#512, data := none }
  (s.setFlight id { runFlight s c .fetch [ln] with pc := pc }).send (.read line 64 id)

/-- A source of an instruction is the global tick. -/
def readsTick (i : Instr) : Bool :=
  match viewOf i with
  | .w _ f => f.a == 78#7 || f.b == 78#7
  | .l _ f => f.a == 78#7 || f.b == 78#7 || f.c == 78#7
  | _ => false

/-- A runner's instruction; in redundant mode one that reads the tick waits in the twin for the primary's value, which the primary keeps
for it (R300). -/
def runnerExec (r : Runner) (i : Instr) (s : State) : Out :=
  if !readsTick i then exec i s
  else
    match redReadAt s r.wg (runnerReader s r) (BitVec.ofNat 64 s.tick) with
    | none => .next s.runnerStall
    | some v =>
      match exec i s with
      | .next t => .next (if t.cur.stalled then t else t.redNoteAt r.wg (runnerReader s r) v)
      | x => x

/-- A runner issues nothing more: its program is cancelled (R163), or a write of its last instruction is still to be performed. -/
def runnerStopped (s : State) (rid : Nat) : Bool :=
  putsLocal s rid || (match tget s.cmds rid with
    | some c => c.cancelled
    | none => false)

/-- A runner issues its next instruction. -/
def issueRunner (rid : Nat) (s : State) : Out :=
  match tget s.runners rid, runCtx s rid with
  | some r, some c =>
    match tget s.wgs r.wg with
    | none => .next s
    | some w =>
      if runnerStopped s rid then .next s
      else
      match launchOf s w with
      | none => .next s
      | some l =>
        let s := s.issuing (.runner rid) 1#32 r.pc
        match fetchInstr s l false r.pc with
        | .instr i _ => runnerExec r i s
        | .illegal => .next (s.runnerFault rid 0x01#8)
        | .fault k => .next (s.runStop rid (.fault (laneFault (xlRply l.xl) 0 r.pc k 3)))
        | .sys line => .next (s.fetchRunner c r.pc line)
  | _, _ => .next s

/-! ### Time -/

/-- Traps taken in a step, as the traces see them (R445). -/
def State.traceTraps (s t : State) : State :=
  if t.fns.all (fun (_, f) => f.trace.isNone) then t
  else
    t.fibs.foldl (fun (u : State) (i, f) =>
      match f.handler, (tget s.fibs i).bind (·.handler) with
      | some h, none => u.traceTrap i (fibCtx u f) h.code
      | _, _ => u) t

/-- The waits of a fibre whose watchdog clock stands begin that much later. -/
def laterFibre (d : Nat) (f : Fibre) : Fibre :=
  { f with
    heldSince := if f.trap.isSome then f.heldSince else f.heldSince + d
    threads := f.threads.map (fun (t : Thread) => { t with since := t.since + d }) }

/-- Time passes by `d` ticks. The watchdog clocks of a context stand while one of its fibres is halted by a session
(R443). -/
def State.pass (s : State) (d : Nat) : State :=
  let s := { s with tick := s.tick + d }
  if s.fibs.all (fun (_, f) => f.halted.isNone) then s
  else
    { s with
      fibs := s.fibs.map (fun ((i, f) : Nat × Fibre) => (i, if ctxHalted s (fibCtx s f) then laterFibre d f else f))
      runners := s.runners.map (fun ((i, r) : Nat × Runner) =>
        (i, if (match tget s.wgs r.wg with | some w => ctxHalted s w.ctx | none => false) then { r with since := r.since + d } else r)) }

/-- A burst ends when no thread of it is ready (R341). -/
def burstEnds (f : Fibre) : Fibre :=
  match f.burst with
  | some b => if (readyThreads f).any (fun x => b.set.getLsbD x.1) then f else { f with burst := none, ft := 0 }
  | none => f

/-- What the step may have brought about is looked at: the end of bursts, the release of FBAR (R354), and the requests for registers
(R218, R219). -/
def State.reexamineAll (s : State) : State :=
  let s := { s with fibs := s.fibs.map (fun ((i, f) : Nat × Fibre) => (i, burstEnds f)) }
  let s := ((s.fibs.filter (fun ((i, f) : Nat × Fibre) => fbarArrived s i f)).map (fun (i, _) => i / 4)).eraseDups.foldl
    (fun (s : State) k => s.fbarCheck k) s
  s.cores.foldl (fun (s : State) (i, c) =>
    (List.range 4).foldl (fun (s : State) k => if (c.allocs.getD k []).isEmpty then s else s.examineAllocs i k) s) s

/-- The end of a step: no agent is being issued, and time passes. -/
def State.settleStep (s t : State) : State :=
  { (s.traceTraps t.reexamineAll).pass (1 + Config.elapsed t.steps) with cur := Cur.idle, steps := t.steps + 1 }

end Sys2Proof.Machine
end

