-- ==== Sys2Proof/Machine/Schedule.lean ====
section
/-!
DEFINITION. What the device may do next by itself: the issues of its fibres and runners and its own events, each with the
meaning that its row of the opcode table has. Which one moves is a choice that the spec leaves open (log entry 3).
-/
namespace Sys2Proof.Machine

/-- A move of the device's own. -/
inductive Move where
  | issue (fid : Nat)
  | runner (rid : Nat)
  | settle (fid : Nat)
  | burst (fid : Nat)
  | limit (slot : Nat)
  | trap (fid : Nat)
  | group (fid : Nat)
  | slice (flt line : Nat)
  | put (flt line : Nat)
  | flit (peer seq : Nat)
  | reply (flt : Nat)
  | split (flt : Nat)
  | atomic (flt line : Nat)
  | atomDone (flt : Nat)
  | tadd (flt lane : Nat)
  | pod (flt : Nat)
  | enqc (flt : Nat)
  | deqc (flt : Nat)
  | wake (flt : Nat)
  | retry (flt : Nat)
  | publish (flt : Nat)
  | peerTime (flt : Nat)
  | phase (core : Nat)
  | merge (core ent : Nat)
  | ack (core ent : Nat)
  | depart (core cmd : Nat)
  | mxDone (core cmd : Nat)
  | boostEnd (core : Nat)
  | wgEnd (wg : Nat)
  | checkpoint (wg : Nat)
  | compare (wg : Nat)
  | sgc (wg : Nat)
  | mismatch (wg : Nat)
  | watchdog (wg kind obj : Nat)
  | drain (wg h : Nat)
  | dispatch (grp : Nat)
  | mergeGroup (die grp : Nat)
  | full (cmd : Nat)
  | collEnd (cmd : Nat)
  | follow (cmd : Nat)
  | xwtTime (rid : Nat)
  | start (lid core : Nat)
  | done (lid : Nat)
  | packet (q : QueueRef) (p : Packet)
  | waitv (q : QueueRef)
  | invalDone (id : Nat)
  | preempt (c : CtxKey)
  | quantum (c : CtxKey)
  | halted (c : CtxKey)
  | save (c : CtxKey)
  | restore (c : CtxKey)
  | postFault (c : CtxKey)
  | debug (fn : Nat) (c : DbgCmd)
  | report (fn : Nat)
  | traceStart (fn : Nat)
  | traceStop (fn : Nat)
  | expiry (capid : Word)
  | accrual
  | wearck
  | log
  | callup (unit : Word)
  | boostResume
  deriving DecidableEq, Repr

/-- The event of a packet type. -/
def runPacket (q : QueueRef) (p : Packet) (s : State) : Out :=
  match p.ty.toNat with
  | 1 => execLaunch q p s
  | 2 => execChain q p s
  | 3 => execInval q p s
  | 4 => execSignal q p s
  | 5 => execWaitv q p s
  | _ => execNopPacket q p s

/-- The event of a debug command. -/
def runDebug (fn : Nat) (c : DbgCmd) (s : State) : Out :=
  match c.op.toNat with
  | 0x01 => execDbgOpen fn c s
  | 0x02 => execDbgClose fn c s
  | 0x10 => execDebugHalt fn c s
  | 0x11 => execDbgResume fn c s
  | 0x12 => execDbgStep fn c s
  | 0x20 => execDbgSetbp fn c s
  | 0x21 => execDbgClrbp fn c s
  | 0x22 => execDbgSetwp fn c s
  | 0x23 => execDbgClrwp fn c s
  | 0x30 => execDbgRdreg fn c s
  | 0x31 => execDbgWrreg fn c s
  | 0x32 => execDbgRdmem fn c s
  | 0x33 => execDbgWrmem fn c s
  | 0x40 => execDbgTrace fn c s
  | _ => .next (s.dbgUnlisted fn c)

/-- A move. -/
def act (m : Move) (s : State) : Out :=
  match m with
  | .issue fid => issueFibre fid s
  | .runner rid => issueRunner rid s
  | .settle fid => .next (s.settleHalt fid)
  | .burst fid => execFairnessBurst fid s
  | .limit slot => execIssueLimitSwitch slot s
  | .trap fid => execTrapEntry fid s
  | .group fid => execGroupTake fid s
  | .slice flt line => execSliceRead flt line s
  | .put flt line => .next (if flightHalted s flt then s else s.putOne flt line)
  | .flit peer seq => execFlitRetransmit peer seq s
  | .reply flt => execLoadReply flt none s
  | .split flt => execSplitLoad flt s
  | .atomic flt line => execAtomicEvent flt line s
  | .atomDone flt => execAtomComplete flt none s
  | .tadd flt lane => execTaddWake flt lane s
  | .pod flt => execPodControlEvent flt none s
  | .enqc flt => execEnqcAdvance flt s
  | .deqc flt => execDeqcAdvance flt s
  | .wake flt => execPodWake flt s
  | .retry flt => execWaitTableRetry flt s
  | .publish flt => execPodPublishTimeout flt s
  | .peerTime flt => execPreemptPeerTimeout flt s
  | .phase core => execPhaseBoundary core s
  | .merge core ent => execMerge core ent s
  | .ack core ent => execMergeAck core ent none s
  | .depart core cmd => execMatrixQueueDepart core cmd s
  | .mxDone core cmd => execMatrixCommandComplete core cmd s
  | .boostEnd core => execBoostEnd core s
  | .wgEnd wg => execWorkgroupEnd wg s
  | .checkpoint wg => execCheckpoint wg s
  | .compare wg => execRedundantCompare wg s
  | .sgc wg => execRunnerSgcCompare wg s
  | .mismatch wg => execMismatchTimeout wg s
  | .watchdog wg kind obj => execWatchdogExpiry wg kind obj s
  | .drain wg h => execDrainSettle wg h s
  | .dispatch grp => execRunnerDispatch grp s
  | .mergeGroup die grp => execRunnerGroupMerge die grp s
  | .full cmd => execHandleFull cmd s
  | .collEnd cmd => execCollWaitEnd cmd s
  | .follow cmd => execFollowOnCommand cmd s
  | .xwtTime rid => execXwtWatchdogTimeout rid s
  | .start lid core => execWorkgroupStart lid core s
  | .done lid => execLaunchComplete lid s
  | .packet q p => runPacket q p s
  | .waitv q => execWaitvRecheck q s
  | .invalDone id => execInvalComplete id s
  | .preempt c => execPreempt c s
  | .quantum c => execQuantumExpiry c s
  | .halted c => execContextHalted c s
  | .save c => execContextSave c s
  | .restore c => execRestore c s
  | .postFault c => execFaultRecordPost c s
  | .debug fn c => runDebug fn c s
  | .report fn => execHaltReportPost fn s
  | .traceStart fn => execTraceStart fn s
  | .traceStop fn => execTraceStop fn s
  | .expiry capid => execCapabilityExpiry capid s
  | .accrual => execAccrual s
  | .wearck => execWearck s
  | .log => execLogRecordWrite s
  | .callup unit => execSpareCallup unit s
  | .boostResume => execBoostResume s

/-! ### Fibres and runners -/

/-- The context of a fibre or runner is resident, and not being stopped (R395). -/
def runsNow (s : State) (c : CtxKey) : Bool := (residentSince s c).isSome

/-- The fibre has a run that it may issue. -/
def canIssue (s : State) (f : Fibre) : Bool := f.ready && !f.haltReq && runsNow s (fibCtx s f)

/-- A fibre with a ready thread that holds its slot while it cannot issue: a stall without a Y mark (R74, R342); none in a fibre
wait, whose threads are held (R345). -/
def keepsSlot (f : Fibre) : Bool :=
  f.threads.any (fun t => t.st == 0#4) && !inFibreWait f && f.frozen.isEmpty && f.halted.isNone && !f.yield

/-- The fibre of a slot that may issue: the current one, or the next ready one where that has no ready thread (R342). -/
def slotFibre (s : State) (slot : Nat) (x : Slot) : Option Nat :=
  let ok := fun (i : Nat) => match tget s.fibs (fibId slot i) with
    | some f => canIssue s f
    | none => false
  if ok x.cur then some (fibId slot x.cur)
  else
    match tget s.fibs (fibId slot x.cur) with
    | some f => if keepsSlot f then none else (((nextReady s slot x.cur).filter ok).map (fibId slot))
    | none => ((nextReady s slot x.cur).filter ok).map (fibId slot)

/-- The slot that issued least recently of those of one scheduler that can issue (R343): by scheduler, with its fibre. -/
def pickSlots (s : State) : List (Nat × Slot × Nat) :=
  s.slots.foldl (fun (a : List (Nat × Slot × Nat)) (i, x) =>
    match slotFibre s i x with
    | none => a
    | some fid =>
      match a.find? (fun y => y.1 / 16 == i / 16) with
      | none => a ++ [(i, x, fid)]
      | some y => if x.lastIssue < y.2.1.lastIssue then a.filter (fun z => z.1 / 16 != i / 16) ++ [(i, x, fid)] else a) []

/-- The move of a scheduler: its fibre's issue, or the burst or switch that falls due in front of it. -/
def slotMove (s : State) (p : Nat × Slot × Nat) : Move :=
  if switchDue s p.1 then .limit p.1
  else
    match tget s.fibs p.2.2 with
    | some f => if burstDue s f then .burst p.2.2 else .issue p.2.2
    | none => .issue p.2.2

/-- The events of one fibre besides its issues. -/
def fibreEvents (s : State) (fid : Nat) (f : Fibre) : List Move :=
  (if f.trap.isSome then [Move.trap fid] else []) ++
  (if f.haltReq then [Move.settle fid] else []) ++
  (if f.exited && (match fibLaunch s f with | some l => l.lr.pool | none => false) then [Move.group fid] else [])

/-- A line of host memory is on its way as code of a runner. -/
def fetchPending (s : State) (rid : Nat) : Bool := s.flights.any (fun (_, fl) => fl.cmd == some rid && fl.kind == .fetch)

/-- A runner may issue. -/
def runnerReady (s : State) (rid : Nat) (r : Runner) : Bool :=
  r.xwt.isNone && r.frozen.isEmpty && !gatherPending s rid && !fetchPending s rid && !runnerStopped s rid &&
  (match tget s.wgs r.wg with | some w => runsNow s w.ctx | none => false)

/-! ### Work in flight -/

/-- The places of a flight's lines. -/
def lineNos (fl : Flight) : List Nat := List.range fl.lines.length

/-- The events of a flight. -/
def flightEvents (id : Nat) (fl : Flight) : List Move :=
  (match fl.kind with
   | .load _ _ _ _ => (lineNos fl).map (Move.slice id) ++ [Move.reply id, Move.split id]
   | .atom _ _ _ => (lineNos fl).map (Move.atomic id) ++ [Move.atomDone id]
   | .tadd _ _ =>
     (lineNos fl).map (Move.atomic id) ++ [Move.atomDone id, Move.retry id] ++ fl.lanes.map (fun x => Move.tadd id x.lane)
   | .tadds _ _ => Move.atomDone id :: fl.lanes.map (fun x => Move.tadd id x.lane)
   | .relStore => []
   | .fetch => [Move.reply id]
   | .gather => [Move.reply id]
   | .putLines => (lineNos fl).map (Move.put id) ++ [Move.reply id]
   | .device => [Move.reply id]
   | _ => [Move.pod id, Move.enqc id, Move.deqc id, Move.wake id, Move.retry id, Move.publish id]) ++
  (if fl.lines.any (fun ln => ln.place.remote) then [Move.peerTime id] else [])

/-- The events of a core. -/
def coreEvents (i : Nat) (c : Core) : List Move :=
  (if c.bounds.isEmpty then [] else [Move.phase i]) ++
  (c.path.map (fun (j, e) =>
    if !e.marked then [] else if !e.performed then [Move.merge i j]
    else match e.place with
      | .peer _ _ => []
      | _ => [Move.ack i j])).flatten ++
  (c.mq.map (fun (j, _) => [Move.depart i j, Move.mxDone i j])).flatten ++
  (if c.boost.isSome then [Move.boostEnd i] else [])

/-- The events of a workgroup. -/
def wgEvents (s : State) (i : Nat) (w : Workgroup) : List Move :=
  let waits := (wgFibs s i).any (fun (_, f) => f.threads.any (fun t => t.st == 1#4))
  (if wgExited s i || w.ending then [Move.wgEnd i] else []) ++
  (if w.red.isSome then [Move.checkpoint i, Move.compare i, Move.sgc i, Move.mismatch i] else []) ++
  (if waits then
    (List.range w.bars.length).map (Move.watchdog i 0) ++ (List.range w.cbars.length).map (Move.watchdog i 1) ++
    (List.range w.slots.length).map (Move.watchdog i 2) else []) ++
  (s.flights.filterMap (fun (id, fl) => if (blockedSince fl).isSome then some (Move.watchdog i 3 id) else none)) ++
  (w.handles.zipIdx.filterMap (fun (h, k) => if h.st == .draining then some (Move.drain i k) else none))

/-- The events of the commands of runner groups. -/
def cmdEvents (s : State) : List Move :=
  ((s.cmds.filterMap (fun (_, c) => if c.stage == .queued then some c.grp else none)).eraseDups.map Move.dispatch) ++
  (s.cmds.map (fun (i, _) => [Move.full i, Move.collEnd i, Move.follow i])).flatten ++
  s.groups.map (fun (g, _) => Move.mergeGroup (g / 4) (g % 4))

/-! ### Queues, launches and contexts -/

/-- The queues of a function that memory describes. -/
def liveQueues (s : State) (fn : Nat) : List QueueRef :=
  match fnAddr s fn (bitsOf (fnOf s fn).qtab.toNat 39 6 * 64) 4096 with
  | none => []
  | some d => if (cellsIn s.mem d 4096).isEmpty then [] else (List.range 64).map (fun k => { fn := fn, q := k })

/-- The next packet of a queue as the packet cores read it. One that cannot be read yet stands as a NOP, whose event asks
for its lines or reports its fault. -/
def nextPacket (s : State) (q : QueueRef) : Option Packet :=
  match nextAddr s q with
  | none => none
  | some (va, _, _) =>
    if gatherPending s (queueAgent q) then none
    else
      let s1 := s.readEntry (queueCtx s q)
      match runRead s1 (queueRun s1 q (ctxOf s1 (queueCtx s q)).force) 0 [(va % 2 ^ 64, 16)] with
      | .ok bs => some (packetOf (leValue bs.flatten))
      | .error _ => some (packetOf 0)

/-- The events of a queue. -/
def queueEvents (s : State) (q : QueueRef) : List Move :=
  (match nextPacket s q with
   | some p => [Move.packet q p]
   | none => []) ++
  (if (queueOf s q).pkts.any (fun p => match p.kind with | .waitv _ _ => true | _ => false) &&
      !gatherPending s (queueAgent q) then [Move.waitv q] else [])

/-- The events of a launch. -/
def launchEvents (s : State) (i : Nat) (l : Launch) : List Move :=
  (l.remap.filter (startable s l)).map (Move.start i) ++ [Move.done i]

/-- The events of a context. -/
def ctxEvents (s : State) (c : CtxKey) (x : Ctx) : List Move :=
  (match x.res with
   | .resident _ => if (wantedBy s c).isEmpty then [] else [Move.preempt c, Move.quantum c]
   | .stopping _ => [Move.halted c]
   | .halted _ => [Move.save c]
   | .saved _ _ => [Move.restore c]
   | .idle => []) ++
  (if (firstFault s c).isSome then [Move.postFault c] else [])

/-- The events of a function. -/
def fnEvents (s : State) (fn : Nat) (f : Fn) : List Move :=
  (match dbgHead s fn with
   | some c => [Move.debug fn c]
   | none => []) ++
  (if s.dbgOut.any (fun x => x.fn == fn) || s.dbgPend.any (fun p => p.ctx.fn == fn) then [Move.report fn] else []) ++
  (if f.trace.isSome then [Move.traceStart fn, Move.traceStop fn] else [])

/-- The events of the device as a whole. -/
def deviceEvents (s : State) : List Move :=
  (s.caps.filterMap (fun p => if capLive s p then none else some (Move.expiry p.capid))) ++
  (if s.accrualAt ≤ s.tick then [Move.accrual] else []) ++
  (if s.wearckAt ≤ s.tick then [Move.wearck] else []) ++
  (if s.nvPending.isEmpty then [] else [Move.log]) ++
  (s.swaps.map (fun x => Move.callup x.up)) ++
  ((s.sent.filter (fun x => x.relay != relayTo s x.peer || !pathTo s x.peer)).map (fun x => Move.flit x.peer x.seq.toNat)) ++
  (if s.cores.any (fun (_, c) => match c.boost with | some b => b.byPower | none => false) then [Move.boostResume] else [])

/-- The events that may be due, the issues apart. -/
def eventMoves (s : State) : List Move :=
  (s.fibs.map (fun (i, f) => fibreEvents s i f)).flatten ++
  (s.flights.map (fun (i, fl) => flightEvents i fl)).flatten ++
  (s.cores.map (fun (i, c) => coreEvents i c)).flatten ++
  (s.wgs.map (fun (i, w) => wgEvents s i w)).flatten ++
  cmdEvents s ++
  (s.runners.filterMap (fun (i, r) => if r.xwt.isSome then some (Move.xwtTime i) else none)) ++
  (s.launches.map (fun (i, l) => launchEvents s i l)).flatten ++
  (s.fns.map (fun (i, _) => (liveQueues s i).map (queueEvents s))).flatten.flatten ++
  s.invals.map (fun (i, _) => Move.invalDone i) ++
  (s.ctxs.map (fun (c, x) => ctxEvents s c x)).flatten ++
  (s.fns.map (fun (i, f) => fnEvents s i f)).flatten ++
  deviceEvents s

/-- A move changes something. -/
def moves (s : State) (m : Move) : Bool :=
  match act m s with
  | .next t => t != s
  | _ => true

/-- The issues that the schedulers and runners may make. -/
def issueMoves (s : State) : List Move :=
  (pickSlots s).map (slotMove s) ++
  s.runners.filterMap (fun (i, r) => if runnerReady s i r then some (Move.runner i) else none)

/-- Every move that the device may make now: none before boot has ended. -/
def candidates (s : State) : List Move := if s.boot != .up then [] else issueMoves s ++ (eventMoves s).filter (moves s)

/-- The device makes the `n`-th of its moves, counted around, or idles. -/
def State.moveSelf (s : State) (n : Nat) : Out :=
  match candidates s with
  | [] => .next s
  | m :: ms => act ((m :: ms).getD (n % (m :: ms).length) m) s

/-- An entry of the input list is an event from outside. -/
def isEvent (i : Instr) : Bool := viewOf i == .event

end Sys2Proof.Machine
end

