-- ==== Sys2Proof/Machine/Place.lean ====
section
/-!
DEFINITION. One instruction placed as the next that the device fetches: a launch whose code page holds it, with one
workgroup of one fibre, or one runner for an instruction that only a runner executes (log entry 16).
-/
namespace Sys2Proof.Machine

/-- The context, the code address and the entry of its page that a placed instruction has. -/
def placedCtx : CtxKey := { fn := 0, id := 0 }

def placedPc : Nat := 0x1000

/-- The leaf of the code page: PFN 1, AT, W, R, U, LEAF and V (R107). -/
def placedLeaf : BitVec 64 := 0x107B#64

/-- The translation of the code page as core 0's cluster and runner group 0 hold it (R110). -/
def placedTlb : List TlbEntry :=
  [.cluster 0, .group 0].map (fun (at_ : TlbLoc) =>
    { loc := at_, fn := 0, asid := 0#12, vbase := placedPc, size := 4096, pa := placedPc, entry := placedLeaf })

/-- The kernel header of a placed instruction: 64 registers and one fibre. -/
def placedHeader : Header :=
  { entry := BitVec.ofNat 64 placedPc, priv := 64, shared := 0, nfib := 1, scratch := 4096, roles := [0], codesz := 64,
    kind := 0, trapent := none, nlev := 0, lvl := [], shdw := true, rdnc := false, detc := false }

/-- Its launch record. -/
def placedRecord : Record :=
  { addr := 0#64, stksz := 0, g := 1, x := [], fairlim := 65536, wdt := 2 ^ 32, cbars := 32, banks := 2, tiles := 16,
    pool := false, shoff := false, rdn := false, det := false, auxa := 0#64, pmapa := 0#64, cpla := 0#64, wda := 0#64,
    stkbase := 0#64, seed := 0#64, fbase := 0, ccnt := 0 }

/-- The launch, which has started its one workgroup. -/
def placedLaunch (mem : Bytes) (lseq : Nat) : Launch :=
  { ctx := placedCtx, qr := { fn := 0, q := 0 }, pkt := 0, part := 0, lr := placedRecord, hdr := placedHeader, lseq := lseq,
    total := 1, next := 1, ahead := [], ended := 0, units := [], map := [], remap := [], parked := [], live := 0,
    xl := List.replicate 5 0#32, code := mem, codeSys := [] }

/-- Its fibre. -/
def placedFibre (l : Launch) (wid tick : Nat) : Fibre := newFibre l wid 0 0 0 0 tick

/-- An instruction that only a runner executes (R82). -/
def runnerOnly (i : Instr) : Bool :=
  match viewOf i with
  | .l op _ => decide (0xD0 ≤ op) && decide (op ≤ 0xDA)
  | _ => false

/-- Its slot. -/
def placedSlot (wid : Nat) : Slot :=
  { wg := wid, ord := 0, cur := 0, nfib := 1, shared := [], consec := 0, copies := 0, lastIssue := 0 }

/-- Its command and runner. -/
def placedCmd (wid : Nat) : Cmd :=
  { kind := .program (BitVec.ofNat 64 placedPc) 64 (LaneVec.splat 0#32), stage := .running 0, grp := 0, wg := wid, handle := 0,
    sent := 0, cancelled := false, sgc := none, held := [] }

def placedRunner (wid cid tick : Nat) : Runner :=
  { grp := 0, wg := wid, cmd := cid, regs := List.replicate 64 0#32, pc := BitVec.ofNat 64 placedPc, opened := [], lines := [],
    xwt := none, since := tick, frozen := [] }

/-- The code page, the launch, its context and its workgroup. -/
def State.placeLaunch (s : State) (nbits w : Nat) : State :=
  let d := (fnWindow s 0).1 + placedPc
  let mem := writeBytes s.mem d (leBytes (w % 2 ^ nbits) 8)
  let wid := s.ids
  let l := placedLaunch mem s.lseq
  { s with
    boot := .up, mem := mem, ids := s.ids + 3
    tlb := placedTlb ++ s.tlb
    ctxs := kset s.ctxs placedCtx { ctxOf s placedCtx with res := .resident s.tick }
    launches := tset s.launches (wid + 1) l
    wgs := tset s.wgs wid { newWg l (wid + 1) 0 0 0 [0] none with
      handles := { st := .filling, cause := 0#8, cmd := some (wid + 2), owner := none } :: List.replicate 63
        { st := .free, cause := 0#8, cmd := none, owner := none } } }

/-- The device with an instruction placed. The entry of the input list names the issue among the moves. -/
def State.placeWord (s : State) (nbits w : Nat) : State :=
  let wid := s.ids
  let t := s.placeLaunch nbits w
  match decodeTableWord nbits w with
  | some i =>
    if runnerOnly i then
      let t := { t with
        cmds := tset t.cmds (wid + 2) (placedCmd wid)
        runners := (wid + 2, placedRunner wid (wid + 2) s.tick) :: t.runners }
      { t with inbox := [.choose (pickSlots t).length] }
    else
      { t with
        slots := (0, placedSlot wid) :: t.slots.filter (fun x => x.1 / 16 != 0)
        fibs := (0, placedFibre (placedLaunch t.mem s.lseq) wid s.tick) :: t.fibs.filter (fun x => x.1 / 64 != 0)
        inbox := [.choose 0] }
  | none =>
    { t with
      slots := (0, placedSlot wid) :: t.slots.filter (fun x => x.1 / 16 != 0)
      fibs := (0, placedFibre (placedLaunch t.mem s.lseq) wid s.tick) :: t.fibs.filter (fun x => x.1 / 64 != 0)
      inbox := [.choose 0] }

end Sys2Proof.Machine
end

