-- ==== Sys2Proof/Machine/Upset.lean ====
section
/-!
DEFINITION. Errors that come upon stored bits: registers and latches, scratchpad words, tiles, banks and home slices
(log entry 52).
-/
namespace Sys2Proof.Machine

/-- Bits of one lane of a register turn over (R223). -/
def Reg.upset (r : Reg) (lane : Nat) (bits : BitVec 39) : Reg :=
  let x := ((tget r.flips lane).getD 0#39) ^^^ bits
  { r with
    val := LaneVec.of (fun l => if l == lane then r.val.lane l ^^^ bits.setWidth 32 else r.val.lane l)
    flips := if x == 0#39 then tdel r.flips lane else tset r.flips lane x }

/-- Bits of a word of an allocation turn over (R187): one wrong bit waits for the read that corrects it, and more make the word
one with an uncorrectable error. -/
def Workgroup.spadUpset (w : Workgroup) (off : Nat) (bits : BitVec 39) : Workgroup :=
  let p := off / 4 * 4
  let x := ((tget w.spadWeak p).getD 0#39) ^^^ bits
  if w.scratch ≤ p || w.spadPoison.contains p then w
  else if x == 0#39 then { w with spadWeak := tdel w.spadWeak p }
  else if wrongBits x == 1 then { w with spadWeak := tset w.spadWeak p x }
  else { w with spadWeak := tdel w.spadWeak p, spadPoison := w.spadPoison ++ [p] }

/-- A corrected error of a unit of a workgroup's core, with its record (R290, R429). -/
def State.matrixCorrected (s : State) (w : Workgroup) (place bit : Nat) : State :=
  s.errorRecord (coreDie w.core) 0x01 0 place bit 0 (coreUnit w.core) (some w.ctx) 0#8

/-- An uncorrectable error of such a unit, with its record (R290, R429). -/
def State.matrixLost (s : State) (w : Workgroup) (place : Nat) : State :=
  s.errorRecord (coreDie w.core) 0x24 1 place 0 0 (coreUnit w.core) (some w.ctx) 0#8

/-- An error comes upon stored bits. -/
def State.upset (s : State) : Upset → State
  | .reg fid p lane bits =>
    match tget s.fibs fid with
    | none => s
    | some f =>
      if 32 ≤ lane then s
      else if p < 64 then
        s.modFib fid (fun g => { g with regs := g.regs.modify p (fun r => r.upset lane bits) })
      else s.modSlot f.slot (fun x => { x with shared := x.shared.modify (p - 64) (fun r => r.upset lane bits) })
  | .latch fid i lane bits =>
    if 32 ≤ lane then s
    else
      s.modFib fid (fun g =>
        if i == 0 then { g with l0 := { g.l0 with reg := g.l0.reg.upset lane bits } }
        else { g with l1 := { g.l1 with reg := g.l1.reg.upset lane bits } })
  | .spad wid off bits => s.modWg wid (fun w => w.spadUpset off bits)
  | .tile wid t bit =>
    match tget s.wgs wid with
    | none => s
    | some w =>
      if w.tiles.length ≤ t then s
      else
        let place := w.held.tiles.getD t t
        match bit with
        | some b => s.matrixCorrected w place b
        | none =>
          (s.modWg wid (fun w => { w with tiles := w.tiles.modify t (fun x => { x with word := putBits x.word 15 1 1 }) })).matrixLost
            w place
  | .bank wid b bit =>
    match tget s.wgs wid with
    | none => s
    | some w =>
      if w.banks.length ≤ b then s
      else
        let place := w.held.banks.getD b b
        match bit with
        | some k => s.matrixCorrected w place k
        | none =>
          (s.modWg wid (fun w => { w with banks := w.banks.modify b (fun x => { x with word := putBits x.word 8 1 0 }) })).matrixLost
            w place
  | .slice dpa bit => s.errorRecord (dieOf dpa) 0x01 0 dpa bit 0 0#32 none 0#8

end Sys2Proof.Machine
end

