-- ==== Sys2Proof/Machine/Step.lean ====
section
/-!
DEFINITION. One step of the device, and the device with one instruction placed where it is fetched next.
-/
namespace Sys2Proof.Machine

/-- The outcome of a step that begins in `s`. -/
def settleOut (s : State) (o : Out) : Out :=
  match o with
  | .next t => .next (s.settleStep t)
  | x => x

/-- A step: the first entry of the input list, or a move of the device's own. -/
def step (s : State) : Host.Outcome State Fault Refusal :=
  match s.inbox with
  | .event i :: r => settleOut s (if isEvent i then exec i { s with inbox := r } else .next { s with inbox := r })
  | .upset u :: r => settleOut s (.next ({ s with inbox := r }.upset u))
  | .choose n :: r => settleOut s ({ s with inbox := r }.moveSelf n)
  | [] => settleOut s (s.moveSelf (Config.choice s.steps))

/-- The device with an instruction placed where a fibre fetches it next (log entry 16). -/
def State.withFetchWord (s : State) (nbits w : Nat) : State := s.placeWord nbits w

end Sys2Proof.Machine
end

