-- ==== Sys2Proof/Safety.lean ====
section
/-!
DEFINITION. What counts as a safe state of the machine, and the terms in which claims about it are stated: when an agent
issues, what its operands supply, what a register holds, and what a completed instruction leaves.
-/
namespace Sys2Proof.Machine

/-- Device memory keeps its canonical form. -/
def State.memWf (s : State) : Bool := bytesWf s.mem

/-! ### Issue and operands -/

/-- An instruction of fibre `fid`, whose state is `f`, is being executed with the active lanes `m`. -/
abbrev Issuing (s : State) (fid : Nat) (f : Fibre) (m : LaneMask) : Prop :=
  s.cur.agent = .fib fid ∧ s.cur.mask = m ∧ tget s.fibs fid = some f

/-- An instruction of runner `rid`, whose state is `r`, is being executed. -/
abbrev Running (s : State) (rid : Nat) (r : Runner) : Prop :=
  s.cur.agent = .runner rid ∧ tget s.runners rid = some r

/-- Check bits that agree everywhere with their data (R223). -/
def CheckRead.clean : CheckRead := { shadow := 0#32, uncorrectable := 0#32, corrected := [] }

/-- The sources `xs` and the destinations `ds` let a fibre's instruction execute: every selector is legal in the window
(R76 to R78, R208), a latch that is read is valid (R215), no named register has a write pending (R225), the check bits
agree (R223), the tick is read only where no twin shares the read (R300), and the instruction does not begin again with
sources that an earlier issue of it has read (R214). -/
abbrev Readable (s : State) (fid : Nat) (f : Fibre) (m : LaneMask) (xs : List Src) (ds : List Nat) : Prop :=
  (∀ x ∈ xs, opdOk false (windowOf s f) x = true) ∧ (∀ d ∈ ds, d < windowOf s f) ∧
  (∀ x ∈ xs, x.o = .sel 64#7 → f.l0.valid = true) ∧ (∀ x ∈ xs, x.o = .sel 65#7 → f.l1.valid = true) ∧
  regsPending s fid f (ds ++ xs.filterMap (fun x => x.o.reg?)) = false ∧
  checkSources f (sharedOf s f) m xs = CheckRead.clean ∧
  (∀ x ∈ xs, x.o = .sel 78#7 → redKey s f.wg = none) ∧ keptFor s f m = none

/-- The vector that a source supplies. -/
def srcVec (s : State) (fid : Nat) (f : Fibre) (m : LaneMask) (x : Src) : LaneVec :=
  opdVec s fid f (sharedOf s f) x (x.mask m)

/-- The word that operand `o` supplies in lane `l` under type `ty`. -/
def opdLane (s : State) (fid : Nat) (f : Fibre) (m : LaneMask) (o : Opd) (ty : BitVec 4) (l : Nat) : Word :=
  (srcVec s fid f m (src o ty)).lane l

/-- Register `i` of a fibre's window as it stands. -/
def regAt (s : State) (fid i : Nat) : Reg :=
  match tget s.fibs fid with
  | none => Reg.plain (LaneVec.splat 0#32)
  | some f => placeReg f (sharedOf s f) (regPlace f i)

/-- The word of register `i` in lane `l`. -/
def regLane (s : State) (fid i l : Nat) : Word := (regAt s fid i).val.lane l

/-! ### What an instruction of a fibre leaves -/

/-- Nothing differs between two states but fibres and shared windows; memory reads as before. -/
structure OnlyFibres (s t : State) (fid slot : Nat) : Prop where
  rest : t = { s with fibs := t.fibs, slots := t.slots }
  others : ∀ j, j ≠ fid → tget t.fibs j = tget s.fibs j
  slots : ∀ j, j ≠ slot → tget t.slots j = tget s.slots j
  slot : ∀ x, tget s.slots slot = some x → ∃ sh, tget t.slots slot = some { x with shared := sh }
  bytes : ∀ a, readByte t.mem a = readByte s.mem a

/-- What a vector instruction leaves once it has taken effect (R225, R209, R212, R223, R261, R50, R447). `ds` are the
registers that it writes with their words by lane, `latch` the words of its first result, `fl` its flags, `rs` what
becomes of each thread's rounding state, `len` its length and `weight` its energy per lane. -/
structure VecDone (s t : State) (fid : Nat) (f : Fibre) (m : LaneMask) (ds : List (Nat × (Nat → Word)))
    (latch : Nat → Word) (fl : BitVec 5) (rs : Nat → BitVec 64 → BitVec 64) (len weight : Nat) : Prop where
  /-- The active lanes of each destination take the result, the others keep their words. -/
  written : ∀ p ∈ ds, ∀ l < 32, regLane t fid p.1 l = if m.getLsbD l then p.2 l else regLane s fid p.1 l
  /-- The tags of the written lanes say whether shadow execution covered the write. -/
  tagged : ∀ p ∈ ds, ∀ l < 32,
    (regAt t fid p.1).tag.getLsbD l = if m.getLsbD l then decide (f.shadow ≠ 0) else (regAt s fid p.1).tag.getLsbD l
  /-- The check bits of the written lanes are made afresh. -/
  checked : ∀ p ∈ ds, (regAt t fid p.1).flips = (regAt s fid p.1).flips.filter (fun e => !m.getLsbD e.1)
  /-- Every other register keeps its words, tags and check bits. -/
  kept : ∀ i < 64, (∀ p ∈ ds, p.1 ≠ i) → regAt t fid i = regAt s fid i
  /-- The fibre: both latches, the flags, the energy, and each thread's pc and rounding state; nothing else. -/
  fibre : ∃ g, tget t.fibs fid = some g ∧
    g = { f with regs := g.regs, l0 := g.l0, l1 := f.l0, fpst := f.fpst ||| fl.setWidth 32,
                 energy := f.energy + BitVec.ofNat 64 (weight * popMask m), threads := g.threads } ∧
    g.regs.length = f.regs.length ∧
    g.l0.valid = true ∧ g.l0.reg.flips = [] ∧ g.l0.reg.tag = (if f.shadow ≠ 0 then m else 0#32) ∧
    (∀ l < 32, g.l0.reg.val.lane l = if m.getLsbD l then latch l else 0#32) ∧
    (∀ i, g.threads[i]? = (f.threads[i]?).map (fun (t : Thread) =>
      { t with pc := if m.getLsbD i then t.pc + BitVec.ofNat 64 len else t.pc, rstate := rs i t.rstate }))
  frame : OnlyFibres s t fid f.slot

/-- One row of a table of lane-wise instructions: the instruction, its length, marks, destination and sources, its
energy, the number `n` of draws that each active lane takes, and its result in a lane, with flags, from the active mask, the sources
and the lane's draws. -/
structure LaneRow where
  i : Instr
  len : Nat
  y : Bool
  k : Bool
  d : Nat
  xs : List Src
  weight : Nat
  n : Nat
  res : LaneMask → List LaneVec → Nat → List Nat → Word × Flags5

/-- The draws of a lane under a row. -/
def LaneRow.drawn (r : LaneRow) (f : Fibre) (l : Nat) : List Nat :=
  match f.threads[l]? with
  | some t => (draws r.n t.rstate).1
  | none => (draws r.n 0#64).1

/-- The result of a row in a lane. -/
def LaneRow.at (r : LaneRow) (s : State) (fid : Nat) (f : Fibre) (m : LaneMask) (l : Nat) : Word × Flags5 :=
  r.res m (r.xs.map (srcVec s fid f m)) l (r.drawn f l)

/-- The flags of a row, gathered over the active lanes (R50). -/
def LaneRow.flags (r : LaneRow) (s : State) (fid : Nat) (f : Fibre) (m : LaneMask) : Flags5 :=
  (lanesOf m).foldl (fun a l => a ||| (r.at s fid f m l).2) Flags5.none

/-- The registers that a row writes. -/
def LaneRow.dests (r : LaneRow) : List Nat := if r.k then [] else [r.d]

/-- A row's instruction takes effect: in a fibre that can read its operands it leaves what R225 says. -/
def LaneRow.Takes (r : LaneRow) : Prop :=
  ∀ (s : State) (fid : Nat) (f : Fibre) (m : LaneMask), Issuing s fid f m → Readable s fid f m r.xs r.dests →
    ∃ t, exec r.i s = .next t ∧
      VecDone s t fid f m (r.dests.map (fun d => (d, fun l => (r.at s fid f m l).1))) (fun l => (r.at s fid f m l).1)
        (r.flags s fid f m) (fun l st => if m.getLsbD l then (draws r.n st).2 else st) r.len r.weight

/-- The lane `l` of source `n` of a row. -/
def lane (xs : List LaneVec) (n l : Nat) : Word := (xs.getD n (LaneVec.splat 0#32)).lane l

/-- A row without flags or draws whose result in a lane depends on that lane of its sources alone. -/
def plainRow (i : Instr) (len : Nat) (y k : Bool) (d : Nat) (xs : List Src) (g : List LaneVec → Nat → Word) : LaneRow :=
  { i := i, len := len, y := y, k := k, d := d, xs := xs, weight := 1, n := 0,
    res := fun _ v l _ => (g v l, Flags5.none) }

/-! ### Control -/

/-- The active threads of fibre `fid`, whose state is `f`, changed by `g`, with one unit of energy for each of them (R447);
nothing else changes. -/
def State.withThreads (s : State) (fid : Nat) (f : Fibre) (m : LaneMask) (g : Nat → Thread → Thread) : State :=
  s.setFib fid { f with
    energy := f.energy + BitVec.ofNat 64 (popMask m)
    threads := f.threads.zipIdx.map (fun (t, j) => if m.getLsbD j then g j t else t) }

/-- The active threads go on to the instruction `len` bytes further on. -/
def State.goneOn (s : State) (fid : Nat) (f : Fibre) (m : LaneMask) (len : Nat) : State :=
  s.withThreads fid f m (fun _ t => { t with pc := t.pc + BitVec.ofNat 64 len })

/-- The active threads wait at their instruction of `len` bytes (R345). -/
def State.waiting (s : State) (fid : Nat) (f : Fibre) (m : LaneMask) (len : Nat) (w : Wait) : State :=
  s.withThreads fid f m (fun _ t => { t with st := 1#4, wait := w, wlen := len, since := s.tick })

/-- The word that an operand supplies in the lowest active lane. -/
def opdLow (s : State) (fid : Nat) (f : Fibre) (m : LaneMask) (o : Opd) : Word := opdLane s fid f m o Ty.i32 (lowestLane m)

/-! ### Integers as R31, R33 and R227 give them -/

/-- The width of an integer type. -/
def intWidth (ty : BitVec 4) : Nat :=
  match ty.toNat with
  | 0 | 4 => 32
  | 1 | 5 => 16
  | _ => 8

/-- The integer type is signed: .i32, .i16 and .i8. -/
def signedType (ty : BitVec 4) : Bool := ty.toNat < 4

/-- The integer that a lane holds under an integer type. -/
def intVal (ty : BitVec 4) (w : Word) : Int :=
  if signedType ty then (w.setWidth (intWidth ty)).toInt else (w.setWidth (intWidth ty)).toNat

/-- The word that an exact result leaves under an integer type: wrapped to its width and extended, or under .sat the
nearest value of the type. -/
def intWord (ty : BitVec 4) (sat : Bool) (r : Int) : Word :=
  if sat then
    let lo : Int := if signedType ty then -(2 ^ (intWidth ty - 1)) else 0
    let hi : Int := if signedType ty then 2 ^ (intWidth ty - 1) - 1 else 2 ^ intWidth ty - 1
    BitVec.ofInt 32 (max lo (min hi r))
  else if signedType ty then (BitVec.ofInt (intWidth ty) r).signExtend 32
  else (BitVec.ofInt (intWidth ty) r).setWidth 32

end Sys2Proof.Machine
end

