-- ==== Sys2Proof/Certificates/Slice0/Obligations.lean ====
section
/-!
DEFINITION. The statements of this row, from the numbered rules of the spec.
-/
open Sys2Proof Sys2Proof.Machine

/-! ### Tables of lane-wise instructions -/

namespace Sys2Proof.Machine

/-- The register that a field of a C form names, as an operand. -/
def fieldOpd {n : Nat} (x : BitVec n) : Opd := .sel (x.setWidth 7)

/-- A row of a C form, of two halfword bytes and without marks (R67, R68). -/
def rowC (i : Instr) (c : CForm) (xs : List Src) (g : List LaneVec → Nat → Word) : LaneRow :=
  plainRow i 2 false false c.d.toNat xs g

/-- A row of a W form (R70). -/
def rowW (i : Instr) (w : WForm) (xs : List Src) (g : List LaneVec → Nat → Word) : LaneRow :=
  plainRow i 4 w.y w.k w.d.toNat xs g

/-- A row of an L form (R71). -/
def rowL (i : Instr) (l : LForm) (xs : List Src) (g : List LaneVec → Nat → Word) : LaneRow :=
  plainRow i 8 l.y l.k l.d.toNat xs g

/-- The sources a and b, and a, b and c, under a type. -/
def srcsC (c : CForm) : List Src := [src (fieldOpd c.d) Ty.i32, src (fieldOpd c.s) Ty.i32]
def srcs1W (w : WForm) : List Src := [src (.sel w.a) Ty.i32]
def srcs2W (w : WForm) : List Src := [src (.sel w.a) Ty.i32, src (.sel w.b) Ty.i32]
def srcs1L (l : LForm) : List Src := [src (.sel l.a) l.ty]
def srcs2L (l : LForm) : List Src := [src (.sel l.a) l.ty, src (.sel l.b) l.ty]
def srcs3L (l : LForm) : List Src := [src (.sel l.a) l.ty, src (.sel l.b) l.ty, src (.sel l.c) l.ty]

/-- The result of an exact integer function of the sources of a lane (R227). -/
def exact (ty : BitVec 4) (sat : Bool) (h : List Int → Int) (v : List LaneVec) (l : Nat) : Word :=
  intWord ty sat (h (v.map (fun x => intVal ty (x.lane l))))

/-- A two-source integer instruction in its W and L forms. -/
def arith2 (iw : WForm → Instr) (il : LForm → Instr) (h : BitVec 4 → List Int → Int) (w : WForm) (l : LForm) :
    List LaneRow :=
  [rowW (iw w) w (srcs2W w) (exact Ty.i32 false (h Ty.i32)),
   rowL (il l) l (srcs2L l) (exact l.ty (l.imm.getLsbD 0) (h l.ty))]

/-- A one-source integer instruction in its W and L forms. -/
def arith1 (iw : WForm → Instr) (il : LForm → Instr) (h : List Int → Int) (w : WForm) (l : LForm) : List LaneRow :=
  [rowW (iw w) w (srcs1W w) (exact Ty.i32 false h), rowL (il l) l (srcs1L l) (exact l.ty (l.imm.getLsbD 0) h)]

/-- The first, second and third integer of a lane. -/
def x0 (v : List Int) : Int := v.getD 0 0
def x1 (v : List Int) : Int := v.getD 1 0
def x2 (v : List Int) : Int := v.getD 2 0

/-- IDIV's exact result (R229). -/
def quotient (ty : BitVec 4) (v : List Int) : Int :=
  if x1 v = 0 then (if signedType ty then -1 else 2 ^ intWidth ty - 1) else (x0 v).tdiv (x1 v)

/-- IREM's exact result (R229). -/
def remainder (v : List Int) : Int := if x1 v = 0 then x0 v else x0 v - (x0 v).tdiv (x1 v) * x1 v

/-- ICMP's relation (R83, R230). -/
def holds (cc : BitVec 3) (x y : Int) : Bool :=
  match cc.toNat with
  | 0 => decide (x = y)
  | 1 => decide (x ≠ y)
  | 2 => decide (x < y)
  | 3 => decide (x ≤ y)
  | 4 => decide (x > y)
  | _ => decide (x ≥ y)

/-- All ones where a condition holds, zero where it does not. -/
def truth (p : Bool) : Word := if p then 0xFFFFFFFF#32 else 0x00000000#32

/-- The rows of the integer arithmetic instructions (R228, R230) and of their C forms (R68). -/
def integerRows (c : CForm) (w : WForm) (l : LForm) : List LaneRow :=
  [rowC (.iaddC c) c (srcsC c) (exact Ty.i32 false (fun v => x0 v + x1 v)),
   rowC (.iaddi c) c [src (fieldOpd c.d) Ty.i32, src (.const (c.s.signExtend 32)) Ty.i32]
     (exact Ty.i32 false (fun v => x0 v + x1 v)),
   rowC (.isubC c) c (srcsC c) (exact Ty.i32 false (fun v => x0 v - x1 v))] ++
  arith2 .iaddW .iaddL (fun _ v => x0 v + x1 v) w l ++ arith2 .isubW .isubL (fun _ v => x0 v - x1 v) w l ++
  arith2 .imulW .imulL (fun _ v => x0 v * x1 v) w l ++
  arith2 .imulhW .imulhL (fun ty v => (x0 v * x1 v) / 2 ^ intWidth ty) w l ++
  arith2 .idivW .idivL quotient w l ++ arith2 .iremW .iremL (fun _ => remainder) w l ++
  arith2 .iminW .iminL (fun _ v => min (x0 v) (x1 v)) w l ++ arith2 .imaxW .imaxL (fun _ v => max (x0 v) (x1 v)) w l ++
  arith1 .iabsW .iabsL (fun v => |x0 v|) w l ++ arith1 .inegW .inegL (fun v => -x0 v) w l ++
  [rowL (.imad l) l (srcs3L l) (exact l.ty (l.imm.getLsbD 0) (fun v => x0 v * x1 v + x2 v)),
   rowL (.icmp l) l (srcs2L l) (fun v n => truth (holds l.mode (intVal l.ty (lane v 0 n)) (intVal l.ty (lane v 1 n))))]

/-- A bitwise instruction of one or two sources in its W and L forms. -/
def bits2 (iw : WForm → Instr) (il : LForm → Instr) (h : Word → Word → Word) (w : WForm) (l : LForm) : List LaneRow :=
  [rowW (iw w) w (srcs2W w) (fun v n => h (lane v 0 n) (lane v 1 n)),
   rowL (il l) l (srcs2L l) (fun v n => h (lane v 0 n) (lane v 1 n))]
def bits1 (iw : WForm → Instr) (il : LForm → Instr) (h : Word → Word) (w : WForm) (l : LForm) : List LaneRow :=
  [rowW (iw w) w (srcs1W w) (fun v n => h (lane v 0 n)), rowL (il l) l (srcs1L l) (fun v n => h (lane v 0 n))]

/-- SHL, SHR and SAR by the unsigned value of b (R233). -/
def shiftLeft (a b : Word) : Word := if b.toNat < 32 then BitVec.ofNat 32 (a.toNat * 2 ^ b.toNat) else 0#32
def shiftRight (a b : Word) : Word := if b.toNat < 32 then BitVec.ofNat 32 (a.toNat / 2 ^ b.toNat) else 0#32
def shiftSigned (a b : Word) : Word :=
  if b.toNat < 32 then BitVec.ofInt 32 (a.toInt / 2 ^ b.toNat) else if a.msb then 0xFFFFFFFF#32 else 0#32

/-- The word whose bit `j` is `p j`. -/
def wordBits (p : Nat → Bool) : Word := BitVec.ofFnLE (fun j : Fin 32 => p j.val)

/-- BFX (R234): the field of `a` at a position and of a width, extended. -/
def fieldOf (signed : Bool) (a ctl : Word) : Word :=
  let p := (ctl.extractLsb' 0 8).toNat
  let n := min (ctl.extractLsb' 8 8).toNat 32
  let x : BitVec n := (a >>> p).setWidth n
  if signed then x.signExtend 32 else x.setWidth 32

/-- BFI (R234): `a` with the low bits of `b` in the field. -/
def fieldPut (a b ctl : Word) : Word :=
  let p := (ctl.extractLsb' 0 8).toNat
  let n := min (ctl.extractLsb' 8 8).toNat 32
  wordBits (fun j => if p ≤ j ∧ j < p + n then b.getLsbD (j - p) else a.getLsbD j)

/-- A byte of PRMB (R235). -/
def permuted (a b c : Word) (k : Nat) : BitVec 8 :=
  let n := (c.extractLsb' (4 * k) 4).toNat
  if n ≥ 8 then 0#8 else (b ++ a).extractLsb' (8 * n) 8

/-- The rows of the move, bitwise, field and selection instructions (R232 to R236) and of their C forms (R68). -/
def bitRows (c : CForm) (w : WForm) (l : LForm) : List LaneRow :=
  [rowC (.movC c) c [src (fieldOpd c.s) Ty.i32] (fun v n => lane v 0 n),
   rowC (.moviC c) c [] (fun _ _ => c.s.signExtend 32),
   rowC (.andC c) c (srcsC c) (fun v n => lane v 0 n &&& lane v 1 n),
   rowC (.orC c) c (srcsC c) (fun v n => lane v 0 n ||| lane v 1 n),
   rowC (.xorC c) c (srcsC c) (fun v n => lane v 0 n ^^^ lane v 1 n),
   rowC (.shli c) c [src (fieldOpd c.d) Ty.i32, src (.const (c.s.setWidth 32)) Ty.i32]
     (fun v n => shiftLeft (lane v 0 n) (lane v 1 n)),
   rowC (.shri c) c [src (fieldOpd c.d) Ty.i32, src (.const (c.s.setWidth 32)) Ty.i32]
     (fun v n => shiftRight (lane v 0 n) (lane v 1 n)),
   rowW (.movW w) w (srcs1W w) (fun v n => lane v 0 n),
   rowL (.movL l) l [src (.sel l.a) Ty.i32] (fun v n => lane v 0 n),
   rowW (.moviW w) w [] (fun _ _ => (w.b ++ w.a).signExtend 32),
   rowL (.moviL l) l [] (fun _ _ => l.imm.signExtend 32),
   rowL (.movh l) l [src (.sel l.a) Ty.i32] (fun v n => l.imm ++ (lane v 0 n).extractLsb' 0 16)] ++
  bits2 .andW .andL (fun a b => a &&& b) w l ++ bits2 .orW .orL (fun a b => a ||| b) w l ++
  bits2 .xorW .xorL (fun a b => a ^^^ b) w l ++ bits1 .notW .notL (fun a => ~~~ a) w l ++
  bits2 .andnW .andnL (fun a b => a &&& ~~~ b) w l ++ bits2 .shlW .shlL shiftLeft w l ++
  bits2 .shrW .shrL shiftRight w l ++ bits2 .sarW .sarL shiftSigned w l ++
  bits2 .rotW .rotL (fun a b => a.rotateLeft (b.toNat % 32)) w l ++ bits1 .popcW .popcL BitVec.cpop w l ++
  bits1 .clzW .clzL BitVec.clz w l ++ bits1 .brevW .brevL (fun a => wordBits (fun j => a.getLsbD (31 - j))) w l ++
  [rowL (.bfx l) l (srcs2L l) (fun v n => fieldOf (l.ty == Ty.i32) (lane v 0 n) (lane v 1 n)),
   rowL (.bfi l) l (srcs3L l) (fun v n => fieldPut (lane v 0 n) (lane v 1 n) (lane v 2 n)),
   rowL (.prmb l) l (srcs3L l) (fun v n =>
     let p := permuted (lane v 0 n) (lane v 1 n) (lane v 2 n)
     p 3 ++ p 2 ++ p 1 ++ p 0),
   rowL (.sel l) l (srcs3L l) (fun v n => if lane v 2 n ≠ 0#32 then lane v 0 n else lane v 1 n)]

end Sys2Proof.Machine

/-- Every integer instruction, in each of its forms, takes effect in a fibre that can read its operands: in each active
lane the exact result, wrapped or saturated (R227, R228, R229, R230). -/
def Obligations.IntegerArithmeticResults : Prop :=
  ∀ (c : CForm) (w : WForm) (l : LForm), ∀ r ∈ integerRows c w l, r.i.wellFormed = true → r.Takes

/-- Every move, bitwise, shift, field, byte and selection instruction, in each of its forms, takes effect in a fibre that
can read its operands, with the result of R232 to R236. -/
def Obligations.BitAndMoveResults : Prop :=
  ∀ (c : CForm) (w : WForm) (l : LForm), ∀ r ∈ bitRows c w l, r.i.wellFormed = true → r.Takes

/-! ### Float, conversion and cross-lane instructions -/

namespace Sys2Proof.Machine

/-- A row of a W form under its default type .f32 and .rn (R75), and of an L form. -/
def rowFW (i : Instr) (w : WForm) (xs : List Src) (weight : Nat)
    (res : LaneMask → List LaneVec → Nat → List Nat → Word × Flags5) : LaneRow :=
  { i := i, len := 4, y := w.y, k := w.k, d := w.d.toNat, xs := xs, weight := weight, n := 0, res := res }
def rowFL (i : Instr) (l : LForm) (xs : List Src) (weight n : Nat)
    (res : LaneMask → List LaneVec → Nat → List Nat → Word × Flags5) : LaneRow :=
  { i := i, len := 8, y := l.y, k := l.k, d := l.d.toNat, xs := xs, weight := weight, n := n, res := res }

/-- The draws of a mode: `k` under .rs, none else (R43, R46). -/
def drawCount (mode : BitVec 3) (k : Nat) : Nat := if mode = 4#3 then k else 0

/-- An exact value with its flags, rounded once to a type under a mode (R44, R45, R47, R238). -/
def rounded (ty : BitVec 4) (mode : Nat) (us : List Nat) (x : Num × Flags5) : Word × Flags5 :=
  let r := toFloat ty mode (us.headD 0) false x.1
  (BitVec.ofNat 32 r.pat, x.2 ||| r.fl)

/-- The value that lane `l` of source `n` has under a float type (R34 to R36). -/
def fval (ty : BitVec 4) (v : List LaneVec) (n l : Nat) : Num := decodeFloat ty (lane v n l).toNat

def srcsCf (c : CForm) : List Src := [src (fieldOpd c.d) Ty.f32, src (fieldOpd c.s) Ty.f32]
def srcs1Wf (w : WForm) : List Src := [src (.sel w.a) Ty.f32]
def srcs2Wf (w : WForm) : List Src := [src (.sel w.a) Ty.f32, src (.sel w.b) Ty.f32]

/-- The exact sum, difference, product and fused sum (R239); `rm` gives the sign of an exact zero sum. -/
def fsum (ty : BitVec 4) (mode : Nat) (v : List LaneVec) (l : Nat) : Num × Flags5 :=
  addNum (mode == 3) (fval ty v 0 l) (fval ty v 1 l)
def fdiff (ty : BitVec 4) (mode : Nat) (v : List LaneVec) (l : Nat) : Num × Flags5 :=
  addNum (mode == 3) (fval ty v 0 l) (negNum (fval ty v 1 l))
def fprod (ty : BitVec 4) (_mode : Nat) (v : List LaneVec) (l : Nat) : Num × Flags5 :=
  mulNum (fval ty v 0 l) (fval ty v 1 l)
def ffused (ty : BitVec 4) (mode : Nat) (v : List LaneVec) (l : Nat) : Num × Flags5 :=
  fmaNum (mode == 3) (fval ty v 0 l) (fval ty v 1 l) (fval ty v 2 l)

/-- A two-source float instruction that rounds, in its C, W and L forms. -/
def float2C (ic : CForm → Instr) (g : BitVec 4 → Nat → List LaneVec → Nat → Num × Flags5) (c : CForm) : LaneRow :=
  { i := ic c, len := 2, y := false, k := false, d := c.d.toNat, xs := srcsCf c, weight := 2, n := 0,
    res := fun _ v n us => rounded Ty.f32 0 us (g Ty.f32 0 v n) }
def float2 (iw : WForm → Instr) (il : LForm → Instr) (g : BitVec 4 → Nat → List LaneVec → Nat → Num × Flags5)
    (w : WForm) (l : LForm) : List LaneRow :=
  [rowFW (iw w) w (srcs2Wf w) 2 (fun _ v n us => rounded Ty.f32 0 us (g Ty.f32 0 v n)),
   rowFL (il l) l (srcs2L l) 2 (drawCount l.mode 1) (fun _ v n us => rounded l.ty l.mode.toNat us (g l.ty l.mode.toNat v n))]

/-- A function of R242 in its W and L forms. -/
def float1 (op : Nat) (iw : WForm → Instr) (il : LForm → Instr) (w : WForm) (l : LForm) : List LaneRow :=
  [rowFW (iw w) w (srcs1Wf w) 6 (fun _ v n us => rounded Ty.f32 0 us (specialFn op (fval Ty.f32 v 0 n))),
   rowFL (il l) l (srcs1L l) 6 (drawCount l.mode 1)
     (fun _ v n us => rounded l.ty l.mode.toNat us (specialFn op (fval l.ty v 0 n)))]

/-- FMIN and FMAX, FRND and FCLASS in a lane (R240, R243, R244). -/
def pick (isMax : Bool) (ty : BitVec 4) (v : List LaneVec) (n : Nat) : Word × Flags5 :=
  let r := fminmax ty isMax (lane v 0 n).toNat (lane v 1 n).toNat
  (BitVec.ofNat 32 r.1, r.2)
def integral (ty : BitVec 4) (mode : Nat) (us : List Nat) (v : List LaneVec) (n : Nat) : Word × Flags5 :=
  let r := frnd ty mode (us.headD 0) (fval ty v 0 n)
  (BitVec.ofNat 32 r.pat, r.fl)
def classOf (ty : BitVec 4) (v : List LaneVec) (n : Nat) : Word × Flags5 := (fclass ty (lane v 0 n).toNat, Flags5.none)

/-- The rows of the float instructions (R237). -/
def floatRows (c : CForm) (w : WForm) (l : LForm) : List LaneRow :=
  [float2C .faddC fsum c, float2C .fsubC fdiff c, float2C .fmulC fprod c] ++
  float2 .faddW .faddL fsum w l ++ float2 .fsubW .fsubL fdiff w l ++ float2 .fmulW .fmulL fprod w l ++
  [rowFL (.ffma l) l (srcs3L l) 2 (drawCount l.mode 1)
     (fun _ v n us => rounded l.ty l.mode.toNat us (ffused l.ty l.mode.toNat v n)),
   rowFW (.fminW w) w (srcs2Wf w) 2 (fun _ v n _ => pick false Ty.f32 v n),
   rowFL (.fminL l) l (srcs2L l) 2 0 (fun _ v n _ => pick false l.ty v n),
   rowFW (.fmaxW w) w (srcs2Wf w) 2 (fun _ v n _ => pick true Ty.f32 v n),
   rowFL (.fmaxL l) l (srcs2L l) 2 0 (fun _ v n _ => pick true l.ty v n),
   rowFL (.fcmp l) l (srcs2L l) 2 0 (fun _ v n _ =>
     let r := fcmp l.mode.toNat (fval l.ty v 0 n) (fval l.ty v 1 n)
     (truth r.1, r.2))] ++
  float1 0x25 .frcpW .frcpL w l ++ float1 0x26 .frsqW .frsqL w l ++ float1 0x27 .fsqrtW .fsqrtL w l ++
  float1 0x28 .fexp2W .fexp2L w l ++ float1 0x29 .flog2W .flog2L w l ++ float1 0x2A .fsinW .fsinL w l ++
  float1 0x2B .fcosW .fcosL w l ++ float1 0x2C .ftanhW .ftanhL w l ++
  [rowFW (.frndW w) w (srcs1Wf w) 2 (fun _ v n us => integral Ty.f32 0 us v n),
   rowFL (.frndL l) l (srcs1L l) 2 (drawCount l.mode 1) (fun _ v n us => integral l.ty l.mode.toNat us v n),
   rowFW (.fclassW w) w (srcs1Wf w) 2 (fun _ v n _ => classOf Ty.f32 v n),
   rowFL (.fclassL l) l (srcs1L l) 2 0 (fun _ v n _ => classOf l.ty v n)]

/-- The source of a conversion and whether its result type is packed (R245). -/
def convSrc (l : LForm) : BitVec 4 := l.imm.extractLsb' 0 4
def isPacked4 (ty : BitVec 4) : Bool := ty == Ty.f4 || ty == Ty.q4
def isPacked16 (ty : BitVec 4) : Bool := ty == Ty.i16 || ty == Ty.n16 || ty == Ty.h16 || ty == Ty.b16

/-- One byte or halfword of a word replaced (R248). -/
def setHalf (w : Word) (k : Nat) (x : BitVec 16) : Word := wordBits (fun j => if j / 16 = k then x.getLsbD (j % 16) else w.getLsbD j)
def setByte (w : Word) (k : Nat) (x : BitVec 8) : Word := wordBits (fun j => if j / 8 = k then x.getLsbD (j % 8) else w.getLsbD j)

/-- PACK to a 16-bit or an 8-bit type in a lane (R248). -/
def packed (l : LForm) (v : List LaneVec) (n : Nat) (us : List Nat) : Word × Flags5 :=
  let e := fun (i : Nat) => packElem l.ty (convSrc l) l.mode.toNat (us.getD i 0) (l.imm.getLsbD 4) (lane v i n)
  let h := if l.imm.getLsbD 7 then 1 else 0
  (if isPacked16 l.ty then setHalf (setHalf 0#32 0 ((e 0).1.setWidth 16)) 1 ((e 1).1.setWidth 16)
   else setByte (setByte (lane v 2 n) (2 * h) ((e 0).1.setWidth 8)) (2 * h + 1) ((e 1).1.setWidth 8),
   (e 0).2 ||| (e 1).2)

/-- DQN.acc in a lane: the scaled accumulator rounded, then the addend (R63, R252). -/
def dequantised (l : LForm) (v : List LaneVec) (n : Nat) (us : List Nat) : Word × Flags5 :=
  let r := dequantAcc l.mode.toNat (us.getD 0 0) (us.getD 1 0) (lane v 0 n).toInt (lane v 1 n).toInt none
    (if l.c = 66#7 then none else some (lane v 2 n).toNat)
  (BitVec.ofNat 32 r.pat, r.fl)

/-- The rows of CVT, PACK, UNPK and DQN.acc: one conversion in each active lane (R246, R248, R249, R252). -/
def convertRows (l : LForm) : List LaneRow :=
  [rowFL (.cvt l) l [src (.sel l.a) (convSrc l)] 2 (drawCount l.mode 1) (fun _ v n us =>
     convert l.ty (convSrc l) l.mode.toNat (us.headD 0) (l.imm.getLsbD 4) (lane v 0 n).toNat),
   rowFL (.unpk l) l [if isPacked4 (convSrc l) then srcLanes (.sel l.a) (convSrc l) (posLanes (Conv.q l))
       else src (.sel l.a) (convSrc l)] 2 (drawCount l.mode 1) (fun _ v n us =>
     unpackLane l (v.getD 0 (LaneVec.splat 0#32)) n (us.headD 0))] ++
  (if isPacked4 l.ty then [] else
    [rowFL (.pack l) l [src (.sel l.a) (convSrc l), src (.sel l.b) (convSrc l),
        src (if isPacked16 l.ty then .const 0#32 else .sel l.c) Ty.i32] 2 (drawCount l.mode 2) (fun _ v n us => packed l v n us)]) ++
  (if l.imm.getLsbD 11 then
    [rowFL (.dqn l) l [src (.sel l.a) Ty.i32, src (.sel l.b) Ty.i32, src (.sel l.c) Ty.f32] 6 (drawCount l.mode 2)
      (fun _ v n us => dequantised l v n us)]
  else [])

/-- A row of a cross-lane instruction of type .i32. -/
def rowXW (i : Instr) (w : WForm) (xs : List Src) (g : LaneMask → List LaneVec → Nat → Word) : LaneRow :=
  { i := i, len := 4, y := w.y, k := w.k, d := w.d.toNat, xs := xs, weight := 3, n := 0,
    res := fun m v n _ => (g m v n, Flags5.none) }
def rowXL (i : Instr) (l : LForm) (xs : List Src) (g : LaneMask → List LaneVec → Nat → Word) : LaneRow :=
  { i := i, len := 8, y := l.y, k := l.k, d := l.d.toNat, xs := xs, weight := 3, n := 0,
    res := fun m v n _ => (g m v n, Flags5.none) }

/-- SHFL (R254): the candidate source lane of a mode, and the result with its fill. -/
def shflSource (mode base l n : Nat) : Int :=
  match mode with
  | 0 => (base : Int) + n
  | 1 => (l : Int) - n
  | 2 => (l : Int) + n
  | _ => (base : Int) + ((l - base) ^^^ n : Nat)
def shuffled (mode seg : Nat) (ownFill : Bool) (v : List LaneVec) (l : Nat) : Word :=
  let w := 32 >>> seg
  let base := l - l % w
  let j := shflSource mode base l (lane v 1 l).toNat
  if (base : Int) ≤ j ∧ j < base + w then lane v 0 j.toNat else if ownFill then lane v 0 l else lane v 2 l
def shflRows (mode : Nat) (iw : WForm → Instr) (il : LForm → Instr) (w : WForm) (l : LForm) : List LaneRow :=
  [rowXW (iw w) w [srcAll (.sel w.a) Ty.i32, src (.sel w.b) Ty.i32, src (.sel 66#7) Ty.i32]
     (fun _ v n => shuffled mode 0 true v n),
   rowXL (il l) l [srcAll (.sel l.a) Ty.i32, src (.sel l.b) Ty.i32, src (.sel l.c) Ty.i32]
     (fun _ v n => shuffled mode (l.imm.extractLsb' 0 3).toNat (l.c == 66#7) v n)]

/-- VOTE and MATCH (R255, R256). -/
def voteRows (g : LaneMask → List LaneVec → Word) (iw : WForm → Instr) (il : LForm → Instr) (w : WForm) (l : LForm) :
    List LaneRow :=
  [rowXW (iw w) w (srcs1W w) (fun m v _ => g m v), rowXL (il l) l [src (.sel l.a) Ty.i32] (fun m v _ => g m v)]
def voters (m : LaneMask) (v : List LaneVec) : Word := wordBits (fun j => m.getLsbD j && lane v 0 j != 0#32)
def matching (m : LaneMask) (v : List LaneVec) (l : Nat) : Word :=
  wordBits (fun j => m.getLsbD j && lane v 0 j == lane v 0 l)

/-- The rows of SHFL, VOTE and MATCH. -/
def crossRows (w : WForm) (l : LForm) : List LaneRow :=
  shflRows 0 .shflSelW .shflSelL w l ++ shflRows 1 .shflLoW .shflLoL w l ++ shflRows 2 .shflHiW .shflHiL w l ++
  shflRows 3 .shflXorW .shflXorL w l ++
  voteRows (fun m v => truth (voters m v != 0#32)) .voteAnyW .voteAnyL w l ++
  voteRows (fun m v => truth (voters m v == m)) .voteAllW .voteAllL w l ++
  voteRows voters .voteMaskW .voteMaskL w l ++
  [rowXW (.matchW w) w (srcs1W w) matching, rowXL (.matchL l) l [src (.sel l.a) Ty.i32] matching]

/-- An instruction of an L form that gives its result as a whole, with draws of the lowest active lane's thread (R55, R248,
R250): `out` answers the result by lane, a second result, and the flags, from the mask, the sources and the draws. -/
def WholeTakes (i : Instr) (l : LForm) (xs : List Src) (two : Bool) (weight n : Nat)
    (out : LaneMask → List LaneVec → List Nat → (Nat → Word) × (Nat → Word) × Flags5) : Prop :=
  ∀ (s : State) (fid : Nat) (f : Fibre) (m : LaneMask) (th : Thread), Issuing s fid f m →
    f.threads[lowestLane m]? = some th → (two = true → l.d.toNat + 1 < 64) →
    Readable s fid f m xs (if l.k then [] else if two then [l.d.toNat, l.d.toNat + 1] else [l.d.toNat]) →
    let o := out m (xs.map (srcVec s fid f m)) (draws n th.rstate).1
    ∃ t, exec i s = .next t ∧
      VecDone s t fid f m
        (if l.k then [] else if two then [(l.d.toNat, o.1), (l.d.toNat + 1, o.2.1)] else [(l.d.toNat, o.1)]) o.1 o.2.2
        (fun j st => if j = lowestLane m then (draws n st).2 else st) 8 weight

/-- LRED's inputs, with the identity in inactive lanes, and its tree (R55, R257). -/
def reduction (l : LForm) (m : LaneMask) (v : List LaneVec) (us : List Nat) : (Nat → Word) × (Nat → Word) × Flags5 :=
  let op := (l.imm.extractLsb' 0 3).toNat
  let xs := (List.range 32).map (fun j => if m.getLsbD j then laneElem l.ty (lane v 0 j) else reduceIdentity l.ty op)
  let r := reduceTree l.ty op l.mode.toNat 5 us xs
  (fun _ => r.1, fun _ => 0#32, r.2)

/-- PACK to a 4-bit type: 64 conversions, placed at the position's lanes (R247, R248). -/
def packedNibbles (l : LForm) (_m : LaneMask) (v : List LaneVec) (us : List Nat) : (Nat → Word) × (Nat → Word) × Flags5 :=
  let e := fun (k : Nat) =>
    packElem l.ty (convSrc l) l.mode.toNat (us.getD k 0) (l.imm.getLsbD 4) (lane v (k % 2) (k / 2))
  (fun j =>
    if j / 8 = (l.imm.extractLsb' 5 2).toNat then
      wordBits (fun b => let n := b / 4; (e (2 * (8 * (n / 2) + j % 8) + n % 2)).1.getLsbD (b % 4))
    else lane v 2 j,
   fun _ => 0#32, (List.range 64).foldl (fun a k => a ||| (e k).2) Flags5.none)

/-- QNT's block, its codes placed into the merge source, and its scale (R59 to R61, R250). -/
def quantised (l : LForm) (xs : List Num) (v : List LaneVec) (us : List Nat) : (Nat → Word) × (Nat → Word) × Flags5 :=
  let o := qblock l.ty l.mode.toNat (l.imm.extractLsb' 8 3).toNat us xs
  (fun j => placeCodes l.ty (l.imm.extractLsb' 5 2).toNat (l.imm.getLsbD 7) o.codes j (lane v 2 j),
   fun _ => BitVec.ofNat 32 o.scale, o.fl)

end Sys2Proof.Machine

/-- Every float instruction, in each of its forms, takes effect in a fibre that can read its operands: it rounds its exact
function once, with the flags and the draws of the active lanes (R237 to R244). -/
def Obligations.FloatResults : Prop :=
  ∀ (c : CForm) (w : WForm) (l : LForm), ∀ r ∈ floatRows c w l, r.i.wellFormed = true → r.Takes

/-- CVT, UNPK, PACK to 16 and 8 bits, and DQN.acc take effect in a fibre that can read their operands, with one conversion
in each active lane (R246, R248, R249, R252). -/
def Obligations.ConversionResults : Prop :=
  ∀ (l : LForm), ∀ r ∈ convertRows l, r.i.wellFormed = true → r.Takes

/-- SHFL, VOTE and MATCH take effect in a fibre that can read their operands, with the results of R254 to R256. -/
def Obligations.CrossLaneResults : Prop :=
  ∀ (w : WForm) (l : LForm), ∀ r ∈ crossRows w l, r.i.wellFormed = true → r.Takes

namespace Sys2Proof.Machine

/-- LSCAN's inclusive value at lane `k` with the flags so far (R56, R258): lane 0's input, a NaN made canonical (R36), then one node a lane, an active
lane's node with a draw of its own thread under .rs. -/
def scanTo (l : LForm) (m : LaneMask) (xs : Nat → Word) (st : Nat → BitVec 64) : Nat → Word × Flags5
  | 0 => scanFirst l.ty (xs 0)
  | k + 1 =>
    let p := scanTo l m xs st k
    let mode := if !m.getLsbD (k + 1) && l.mode == 4#3 then 0 else l.mode.toNat
    let u := if m.getLsbD (k + 1) && l.mode == 4#3 then drawValue (drawStep (st (k + 1))) else drawValue (st (k + 1))
    let r := reduceNode l.ty (l.imm.extractLsb' 0 3).toNat mode (if m.getLsbD (k + 1) then u else 0) p.1 (xs (k + 1))
    (r.1, p.2 ||| r.2)

/-- The rounding state of a fibre's lane. -/
def threadState (f : Fibre) (j : Nat) : BitVec 64 := match f.threads[j]? with | some t => t.rstate | none => 0#64

/-- LSCAN's word for lane `j`: its inclusive value, or under .excl that of the next lower active lane (R258). -/
def scanned (l : LForm) (m : LaneMask) (xs : Nat → Word) (st : Nat → BitVec 64) (j : Nat) : Word :=
  if l.imm.getLsbD 3 then
    match ((lanesOf m).filter (fun k => decide (k < j))).getLast? with
    | some k => (scanTo l m xs st k).1
    | none => reduceIdentity l.ty (l.imm.extractLsb' 0 3).toNat
  else (scanTo l m xs st j).1

end Sys2Proof.Machine

/-- LRED and LSCAN take effect in a fibre that can read their source: LRED gives every active lane the value of the
tree of R55 over the active lanes, LSCAN the scan of R56 (R257, R258). Over integers LRED's value is the reduction of
the active lanes by its operation, in any order (R257): the sum modulo 2^32, the smallest, the largest, or the bitwise
and, or and exclusive or. -/
def Obligations.ReduceAndScan : Prop :=
  (∀ (l : LForm),
     ((Instr.lred l).wellFormed = true →
       WholeTakes (.lred l) l [src (.sel l.a) l.ty] false 3 (drawCount l.mode 31) (reduction l)) ∧
     ((Instr.lscan l).wellFormed = true →
       ∀ (s : State) (fid : Nat) (f : Fibre) (m : LaneMask), Issuing s fid f m →
         Readable s fid f m [src (.sel l.a) l.ty] (if l.k then [] else [l.d.toNat]) →
         let xs := fun j => if m.getLsbD j then laneElem l.ty (opdLane s fid f m (.sel l.a) l.ty j)
           else reduceIdentity l.ty (l.imm.extractLsb' 0 3).toNat
         ∃ t, exec (.lscan l) s = .next t ∧
           VecDone s t fid f m (if l.k then [] else [(l.d.toNat, scanned l m xs (threadState f))])
             (scanned l m xs (threadState f)) (scanTo l m xs (threadState f) 31).2
             (fun j st => if m.getLsbD j ∧ j ≠ 0 ∧ l.mode = 4#3 then drawStep st else st) 8 3)) ∧
  (∀ (l : LForm) (m : LaneMask) (v : List LaneVec) (us : List Nat), l.ty = Ty.i32 ∨ l.ty = Ty.n32 → m ≠ 0#32 →
     let w := (reduction l m v us).1 0
     let xs := (lanesOf m).map (fun j => lane v 0 j)
     ((l.imm.extractLsb' 0 3) = 0#3 → w = xs.foldl (fun a b => a + b) 0#32) ∧
     ((l.imm.extractLsb' 0 3) = 1#3 → w ∈ xs ∧ ∀ x ∈ xs, intVal l.ty w ≤ intVal l.ty x) ∧
     ((l.imm.extractLsb' 0 3) = 2#3 → w ∈ xs ∧ ∀ x ∈ xs, intVal l.ty x ≤ intVal l.ty w) ∧
     ((l.imm.extractLsb' 0 3) = 3#3 → w = xs.foldl (fun a b => a &&& b) (BitVec.allOnes 32)) ∧
     ((l.imm.extractLsb' 0 3) = 4#3 → w = xs.foldl (fun a b => a ||| b) 0#32) ∧
     ((l.imm.extractLsb' 0 3) = 5#3 → w = xs.foldl (fun a b => a ^^^ b) 0#32))

/-- PACK to a 4-bit type and QNT of a float block take effect in a fibre that can read their operands (R247, R248, R250); QNT
of a 4-bit block and DQN do so when no odd escape and no scale NaN stands in their way, and else take the trap of R250 and
R251 with nothing written. Where the spec is silent it states the model's choice (log entries 11, 47). -/
def Obligations.QuantisedBlocks : Prop :=
  ∀ (l : LForm),
    ((Instr.pack l).wellFormed = true → isPacked4 l.ty = true →
      WholeTakes (.pack l) l [srcAll (.sel l.a) (convSrc l), srcAll (.sel l.b) (convSrc l), src (.sel l.c) Ty.i32] false 2
        (drawCount l.mode 64) (packedNibbles l)) ∧
    ((Instr.qnt l).wellFormed = true → convSrc l ≠ Ty.q4 →
      WholeTakes (.qnt l) l [srcAll (.sel l.a) (convSrc l), src (.const 0#32) Ty.i32, src (.sel l.c) Ty.i32] true 6
        (drawCount l.mode 32) (fun _ v us =>
          quantised l ((List.range 32).map (fun j => fval (convSrc l) v 0 j)) v us)) ∧
    (∀ (s : State) (fid : Nat) (f : Fibre) (m : LaneMask), Issuing s fid f m → (Instr.qnt l).wellFormed = true →
      convSrc l = Ty.q4 → l.d.toNat + 1 < 64 →
      let xs := [srcLanes (.sel l.a) Ty.q4 (posLanes (l.imm.extractLsb' 5 2).toNat), src (.sel l.b) Ty.i32,
        src (.sel l.c) Ty.i32]
      Readable s fid f m xs (if l.k then [] else [l.d.toNat, l.d.toNat + 1]) →
      let v := xs.map (srcVec s fid f m)
      let codes := blockCodes Ty.q4 (v.getD 0 (LaneVec.splat 0#32)) (l.imm.extractLsb' 5 2).toNat (l.imm.getLsbD 7)
      let scale := ((lane v 1 (lowestLane m)).extractLsb' 0 8).toNat
      if hasOddEscape codes = true then exec (.qnt l) s = .next (s.raise fid (trapOf 0x50 m))
      else if scale = 0xFF then exec (.qnt l) s = .next (s.raise fid (trapOf 0x51 m))
      else ∀ th, f.threads[lowestLane m]? = some th →
        let o := quantised l ((sq4Values codes).map (fun x => scaleNum ((scale : Int) - 127) (numOfInt x))) v
          (draws (drawCount l.mode 32) th.rstate).1
        ∃ t, exec (.qnt l) s = .next t ∧
          VecDone s t fid f m (if l.k then [] else [(l.d.toNat, o.1), (l.d.toNat + 1, o.2.1)]) o.1 o.2.2
            (fun j st => if j = lowestLane m then (draws (drawCount l.mode 32) st).2 else st) 8 6) ∧
    (∀ (s : State) (fid : Nat) (f : Fibre) (m : LaneMask), Issuing s fid f m → (Instr.dqn l).wellFormed = true →
      l.imm.getLsbD 11 = false →
      let xs := [srcLanes (.sel l.a) (convSrc l) (posLanes (l.imm.extractLsb' 5 2).toNat), src (.sel l.b) Ty.i32]
      Readable s fid f m xs (if l.k then [] else [l.d.toNat]) →
      let v := xs.map (srcVec s fid f m)
      let scale := fun j => ((lane v 1 j).extractLsb' 0 8).toNat
      let bad := wordBits (fun j => m.getLsbD j && scale j == 0xFF)
      let us := fun j => (draws (drawCount l.mode 1) (threadState f j)).1
      let values := codeValues (convSrc l) (blockCodes (convSrc l) (v.getD 0 (LaneVec.splat 0#32))
        (l.imm.extractLsb' 5 2).toNat (l.imm.getLsbD 7))
      let r := fun j => dequant l.mode.toNat ((us j).headD 0) (scale j) (values.getD j (.nan false))
      if bad ≠ 0#32 then exec (.dqn l) s = .next (s.raise fid (trapOf 0x51 bad))
      else ∃ t, exec (.dqn l) s = .next t ∧
        VecDone s t fid f m (if l.k then [] else [(l.d.toNat, fun j => BitVec.ofNat 32 (r j).pat)])
          (fun j => BitVec.ofNat 32 (r j).pat) ((lanesOf m).foldl (fun a j => a ||| (r j).fl) Flags5.none)
          (fun j st => if m.getLsbD j then (draws (drawCount l.mode 1) st).2 else st) 8 6)

/-! ### LEA, special operands, draws, selectors, runners, traps of operands -/

/-- LEA takes effect in a fibre that can read its operands: the 64-bit address of R231 in d and d + 1, its low word in l0.
Under K neither register is written or checked. -/
def Obligations.LeaAddress : Prop :=
  ∀ (l : LForm) (s : State) (fid : Nat) (f : Fibre) (m : LaneMask), Issuing s fid f m → (Instr.lea l).wellFormed = true →
    l.a.toNat < 63 → l.a.toNat % 2 = 0 → (l.k = false → l.d.toNat % 2 = 0) →
    Readable s fid f m [src (.sel l.a) Ty.n32, src (.sel (l.a + 1#7)) Ty.n32, src (.sel l.b) l.ty]
      (if l.k then [] else [l.d.toNat, l.d.toNat + 1]) →
    let base := fun j => opdLane s fid f m (.sel (l.a + 1#7)) Ty.n32 j ++ opdLane s fid f m (.sel l.a) Ty.n32 j
    let off := fun j =>
      let b := opdLane s fid f m (.sel l.b) l.ty j
      if l.ty = Ty.i32 then b.signExtend 64 else b.setWidth 64
    let r := fun j => base j + off j <<< l.mode.toNat + l.imm.signExtend 64
    ∃ t, exec (.lea l) s = .next t ∧
      VecDone s t fid f m
        (if l.k then [] else [(l.d.toNat, fun j => (r j).extractLsb' 0 32), (l.d.toNat + 1, fun j => (r j).extractLsb' 32 32)])
        (fun j => (r j).extractLsb' 0 32) 0#5 (fun _ st => st) 8 1

namespace Sys2Proof.Machine

/-- The exponent and mantissa widths of .f32, .h16 and .b16 (R34). -/
def expBits (ty : BitVec 4) : Nat := if ty = Ty.h16 then 5 else 8
def manBits (ty : BitVec 4) : Nat := if ty = Ty.f32 then 23 else if ty = Ty.h16 then 10 else 7
def expField (ty : BitVec 4) (w : Word) : Nat := w.toNat / 2 ^ manBits ty % 2 ^ expBits ty
def manField (ty : BitVec 4) (w : Word) : Nat := w.toNat % 2 ^ manBits ty
def signField (ty : BitVec 4) (w : Word) : Bool := w.getLsbD (manBits ty + expBits ty)

/-- NaN, signalling NaN, infinity and zero patterns, and the canonical NaN (R34 to R36). -/
def isNaNWord (ty : BitVec 4) (w : Word) : Bool := expField ty w == 2 ^ expBits ty - 1 && manField ty w != 0
def isSignalling (ty : BitVec 4) (w : Word) : Bool := isNaNWord ty w && decide (manField ty w < 2 ^ (manBits ty - 1))
def isInfWord (ty : BitVec 4) (w : Word) : Bool := expField ty w == 2 ^ expBits ty - 1 && manField ty w == 0
def isZeroWord (ty : BitVec 4) (w : Word) : Bool := expField ty w == 0 && manField ty w == 0
def canonicalNaN (ty : BitVec 4) : Word := BitVec.ofNat 32 ((2 ^ expBits ty - 1) * 2 ^ manBits ty + 2 ^ (manBits ty - 1))
def infWord (ty : BitVec 4) (neg : Bool) : Word :=
  BitVec.ofNat 32 ((if neg then 2 ^ (manBits ty + expBits ty) else 0) + (2 ^ expBits ty - 1) * 2 ^ manBits ty)
def zeroWord (ty : BitVec 4) (neg : Bool) : Word := BitVec.ofNat 32 (if neg then 2 ^ (manBits ty + expBits ty) else 0)

/-- A float type of arithmetic (R237). -/
def isFloat3 (ty : BitVec 4) : Bool := ty == Ty.f32 || ty == Ty.h16 || ty == Ty.b16

/-- The rounding instructions of R238 in their L form. -/
def roundingRows (l : LForm) : List LaneRow :=
  (floatRows { s := 0, d := 0 } { y := false, k := false, d := 0, a := 0, b := 0 } l).filter (fun r =>
    match r.i with
    | .faddL _ | .fsubL _ | .fmulL _ | .ffma _ | .frcpL _ | .frsqL _ | .fsqrtL _ | .fexp2L _ | .flog2L _ | .fsinL _
    | .fcosL _ | .ftanhL _ | .frndL _ => true
    | _ => false)

end Sys2Proof.Machine

/-- A NaN operand makes the result of a rounding float instruction the canonical NaN of its type, and a signalling NaN
operand sets NV (R238). The special cases of sums and products (R239): opposite infinities, a zero times an infinity,
an infinite operand of a valid operation, zero sums, and FSUB as FADD of the negative. Rounding a value of the format
gives that value back and sets no flag, under every mode and draw, for every finite pattern of every float format
(R44, R242). -/
def Obligations.FloatSpecialCases : Prop :=
  (∀ (l : LForm), isFloat3 l.ty = true → ∀ r ∈ roundingRows l, ∀ (m : LaneMask) (v : List LaneVec) (j : Nat) (us : List Nat),
     (∀ i < r.xs.length, isNaNWord l.ty (lane v i j) = true →
       (r.res m v j us).1 = canonicalNaN l.ty ∧
       (isSignalling l.ty (lane v i j) = true → (r.res m v j us).2 &&& 16#5 = 16#5))) ∧
  (∀ (ty : BitVec 4) (mode : Nat) (us : List Nat) (a b : LaneVec) (j : Nat), isFloat3 ty = true → mode ≤ 4 →
     let x := a.lane j
     let y := b.lane j
     let sum := rounded ty mode us (fsum ty mode [a, b] j)
     let diff := rounded ty mode us (fdiff ty mode [a, b] j)
     let prod := rounded ty mode us (fprod ty mode [a, b] j)
     let sx := signField ty x
     let sy := signField ty y
     (isInfWord ty x = true → isInfWord ty y = true → sx ≠ sy → sum = (canonicalNaN ty, 16#5)) ∧
     (isInfWord ty x = true → isInfWord ty y = true → sx = sy → sum = (infWord ty sx, 0#5)) ∧
     (isInfWord ty x = true → isInfWord ty y = false → isNaNWord ty y = false → sum = (infWord ty sx, 0#5)) ∧
     (isZeroWord ty x = true → isZeroWord ty y = true → sum = (zeroWord ty (if sx = sy then sx else decide (mode = 3)), 0#5)) ∧
     (isZeroWord ty x = false → expField ty x < 2 ^ expBits ty - 1 → expField ty y = expField ty x →
       manField ty y = manField ty x → sx ≠ sy → sum = (zeroWord ty (decide (mode = 3)), 0#5)) ∧
     (isZeroWord ty x = true → isInfWord ty y = true → prod = (canonicalNaN ty, 16#5)) ∧
     (isInfWord ty x = true → isInfWord ty y = true → prod = (infWord ty (sx != sy), 0#5)) ∧
     (∀ c : LaneVec, c.lane j = (y ^^^ BitVec.ofNat 32 (2 ^ (manBits ty + expBits ty))) →
       diff = rounded ty mode us (fsum ty mode [a, c] j))) ∧
  (∀ (ty : BitVec 4) (mode u x : Nat) (sat neg : Bool) (sig : Nat) (e : Int),
     ty ∈ [Ty.f32, Ty.h16, Ty.b16, Ty.e4, Ty.e5, Ty.f4] → x < 2 ^ typeBits ty → decodeFloat ty x = .fin neg sig e →
     toFloat ty mode u sat (decodeFloat ty x) = { pat := x, fl := Flags5.none })

/-- Each selector supplies what R76 and R77 say: a register, a latch, zero, the lane, the fibre and slot numbers, the
coordinates, the tick, and the immediates under integer types. -/
def Obligations.OperandValues : Prop :=
  ∀ (s : State) (fid : Nat) (f : Fibre) (m : LaneMask) (ty : BitVec 4) (l : Nat), Issuing s fid f m → l < 32 →
    (∀ n : BitVec 7, n.toNat < 64 → (regAt s fid n.toNat).flips = [] →
      opdLane s fid f m (.sel n) ty l = regLane s fid n.toNat l) ∧
    (f.l0.reg.flips = [] → opdLane s fid f m (.sel 64#7) ty l = f.l0.reg.val.lane l) ∧
    (f.l1.reg.flips = [] → opdLane s fid f m (.sel 65#7) ty l = f.l1.reg.val.lane l) ∧
    opdLane s fid f m (.sel 66#7) ty l = 0#32 ∧
    opdLane s fid f m (.sel 67#7) ty l = BitVec.ofNat 32 l ∧
    opdLane s fid f m (.sel 68#7) ty l = BitVec.ofNat 32 f.idx ∧
    opdLane s fid f m (.sel 69#7) ty l = BitVec.ofNat 32 (fid / 4 % 16) ∧
    (∀ th, f.threads[l]? = some th → opdLane s fid f m (.sel 70#7) ty l = BitVec.ofNat 32 th.crd0) ∧
    (∀ k : Nat, 1 ≤ k → k < 8 → opdLane s fid f m (.sel (BitVec.ofNat 7 (70 + k))) ty l = BitVec.ofNat 32 (f.crd.getD (k - 1) 0)) ∧
    (redKey s f.wg = none → opdLane s fid f m (.sel 78#7) ty l = BitVec.ofNat 32 s.tick) ∧
    (∀ n : BitVec 7, 96 ≤ n.toNat → isFloat3 ty = false →
      opdLane s fid f m (.sel n) ty l = BitVec.ofInt 32 ((n.toNat : Int) - 112)) ∧
    (∀ n : BitVec 7, 96 ≤ n.toNat → isFloat3 ty = true →
      ∃ neg sig e, decodeFloat ty (opdLane s fid f m (.sel n) ty l).toNat = .fin neg sig e ∧
        (if neg then -1 else 1) * (sig : Int) * 2 ^ (e + 64).toNat = ((n.toNat : Int) - 112) * 2 ^ 64)

/-- A runner executes the integer, move, bitwise and field instructions on its own registers: the result enters d, the pc
moves on, nothing else changes; with K = 1 the command ends with the illegal-instruction fault (R82). -/
def Obligations.RunnerScalarResults : Prop :=
  ∀ (c : CForm) (w : WForm) (l : LForm), ∀ r ∈ integerRows c w l ++ bitRows c w l, r.i.wellFormed = true →
    ∀ (s : State) (rid : Nat) (q : Runner), Running s rid q →
      (r.k = true → exec r.i s = .next (s.runnerFault rid 0x01#8)) ∧
      (r.k = false → (∀ x ∈ r.xs, opdOk true q.regs.length x = true) → r.d < q.regs.length →
        exec r.i s = .next (s.setRunner rid { q with
          regs := q.regs.set r.d (r.res 1#32 (r.xs.map (fun x => LaneVec.splat (runnerWord s q x))) 0 []).1
          pc := q.pc + BitVec.ofNat 64 r.len }))

/-- What stops a lane-wise instruction that has read no source yet, in the order of R88: an illegal selector or register
number traps as an illegal operand (R76 to R78), a lost latch as such (R215), a pending write stalls the issue with every
register, the latches' contents, the flags and the pcs of the fibre unchanged (R225), and an uncorrectable or mismatching
source traps as a register check with its cause (R223). Where the spec is silent it states the model's choice (log entry 28).
-/
def Obligations.OperandTraps : Prop :=
  ∀ (c : CForm) (w : WForm) (l : LForm), ∀ r ∈ integerRows c w l ++ bitRows c w l ++ floatRows c w l ++ crossRows w l,
    r.i.wellFormed = true → ∀ (s : State) (fid : Nat) (f : Fibre) (m : LaneMask), Issuing s fid f m →
    let legal := (∀ x ∈ r.xs, opdOk false (windowOf s f) x = true) ∧ (∀ d ∈ r.dests, d < windowOf s f)
    let latches := (∀ x ∈ r.xs, x.o = .sel 64#7 → f.l0.valid = true) ∧ (∀ x ∈ r.xs, x.o = .sel 65#7 → f.l1.valid = true)
    let pending := regsPending s fid f (r.dests ++ r.xs.filterMap (fun x => x.o.reg?))
    let check := checkSources f (sharedOf s f) m r.xs
    keptFor s f m = none →
    (¬ legal → exec r.i s = .next (s.raise fid (trapOf 0x02 m))) ∧
    (legal → ¬ latches → exec r.i s = .next (s.raise fid (trapOf 0x40 m))) ∧
    (legal → latches → pending = true → ∃ t g, exec r.i s = .next t ∧ t.cur.stalled = true ∧ tget t.fibs fid = some g ∧
      g.regs = f.regs ∧ g.l0.reg = f.l0.reg ∧ g.l1.reg = f.l1.reg ∧ g.fpst = f.fpst ∧ g.threads = f.threads ∧
      t.mem = s.mem ∧ ∀ j, j ≠ fid → tget t.fibs j = tget s.fibs j) ∧
    (legal → latches → pending = false → check.uncorrectable ≠ 0#32 →
      exec r.i s = .next (s.raise fid (trapCause 0x41 1 m))) ∧
    (legal → latches → pending = false → check.uncorrectable = 0#32 → check.shadow ≠ 0#32 →
      exec r.i s = .next (s.raise fid (trapCause 0x41 2 m)))

/-- What the check bits of a register find in the lanes that are read (R223): nothing where they agree; under a clear tag one
wrong bit, of the 32 data bits or the 7 check bits, is corrected and two are uncorrectable; under a set tag any difference is
a shadow mismatch. Once a read has corrected its one wrong bit, the register holds the corrected word. Where the spec is
silent it states the model's choice (log entry 47). -/
def Obligations.CheckBits : Prop :=
  ∀ (v : LaneVec) (tag : LaneMask) (m : LaneMask) (l : Nat) (x : BitVec 39), l < 32 → m.getLsbD l = true →
    let r : Reg := { val := v, tag := tag, flips := [(l, x)] }
    (x = 0#39 → checkReg r m = CheckRead.clean ∧ r.fixed (checkReg r m) = v) ∧
    (tag.getLsbD l = true → x ≠ 0#39 → (checkReg r m).shadow.getLsbD l = true ∧ (checkReg r m).uncorrectable = 0#32) ∧
    (∀ i < 39, tag.getLsbD l = false → x = BitVec.ofNat 39 (2 ^ i) →
      (checkReg r m).shadow = 0#32 ∧ (checkReg r m).uncorrectable = 0#32 ∧
      (∀ k < 32, (r.fixed (checkReg r m)).lane k = if k = l then v.lane l ^^^ BitVec.ofNat 32 (2 ^ i) else v.lane k) ∧
      (r.scrub m).val = r.fixed (checkReg r m) ∧ (r.scrub m).flips = []) ∧
    (∀ i k, i < 39 → k < 39 → i ≠ k → tag.getLsbD l = false → x = BitVec.ofNat 39 (2 ^ i + 2 ^ k) →
      (checkReg r m).shadow = 0#32 ∧ (checkReg r m).uncorrectable.getLsbD l = true)

/-! ### Control -/

namespace Sys2Proof.Machine

/-- A branch or NOP: its length in bytes, its condition, whether it is taken on a word, and its offset in halfwords. -/
structure BranchRow where
  i : Instr
  len : Nat
  cond : Option (BitVec 7)
  taken : Word → Bool
  off : Int

/-- The source of a condition. -/
def BranchRow.xs (r : BranchRow) : List Src := (r.cond.map (fun n => src (.sel n) Ty.i32)).toList

/-- The bytes from a branch to the instruction that follows it, as it is taken or not (R84, R346); `read` gives the word of
a condition's selector. -/
def BranchRow.bytes (r : BranchRow) (read : BitVec 7 → Word) : Addr :=
  if r.taken (match r.cond with | some n => read n | none => 0#32) then BitVec.ofInt 64 (2 * r.off) else BitVec.ofNat 64 r.len

/-- BRA, BRZ, BRNZ and NOP in each of their forms, with the offsets of R84. -/
def branchRows (c : CForm) (w : WForm) (l : LForm) : List BranchRow :=
  let off20 : BitVec 20 := w.b ++ w.a ++ w.d
  let off13 : BitVec 13 := w.b ++ w.d
  let off30 : BitVec 30 := l.imm ++ l.c ++ l.b
  let off11 : BitVec 11 := c.s ++ c.d
  [⟨.braC c, 2, none, fun _ => true, off11.toInt⟩, ⟨.braW w, 4, none, fun _ => true, off20.toInt⟩,
   ⟨.braL l, 8, none, fun _ => true, off30.toInt⟩,
   ⟨.brzW w, 4, some w.a, fun x => decide (x = 0#32), off13.toInt⟩, ⟨.brzL l, 8, some l.a, fun x => decide (x = 0#32), off30.toInt⟩,
   ⟨.brnzW w, 4, some w.a, fun x => decide (x ≠ 0#32), off13.toInt⟩,
   ⟨.brnzL l, 8, some l.a, fun x => decide (x ≠ 0#32), off30.toInt⟩,
   ⟨.nopC c, 2, none, fun _ => false, 0⟩, ⟨.nopW w, 4, none, fun _ => false, 0⟩, ⟨.nopL l, 8, none, fun _ => false, 0⟩]

end Sys2Proof.Machine

/-- BRA, BRZ, BRNZ and NOP, in each of their forms, take effect in a fibre that can read their condition and in a runner: each
active thread goes to the branch's own address plus twice the offset where the branch is taken, else to the next instruction;
nothing else changes but the fibre's energy (R84, R346). JMPI takes effect in a fibre that can read its target: each active
thread goes to its zero-extended target. An odd target in an active lane raises the misaligned-target trap with every pc as it
was. Outside a handler of a pool launch the threads park instead, unless one of them holds a barrier token, which traps as
barrier misuse; the records hold what loads in flight will write, so the instruction waits for those first, and a record's
page that fails is a fault of its write (R84, R224, R346, R380, R381). Where the spec is silent it states the model's choice
(log entry 39). -/
def Obligations.BranchesAndJumps : Prop :=
  (∀ (c : CForm) (w : WForm) (l : LForm), ∀ r ∈ branchRows c w l, r.i.wellFormed = true →
     (∀ (s : State) (fid : Nat) (f : Fibre) (m : LaneMask), Issuing s fid f m → Readable s fid f m r.xs [] →
       exec r.i s = .next (s.withThreads fid f m (fun j t =>
         { t with pc := t.pc + r.bytes (fun n => opdLane s fid f m (.sel n) Ty.i32 j) }))) ∧
     (∀ (s : State) (rid : Nat) (q : Runner), Running s rid q → (∀ x ∈ r.xs, opdOk true q.regs.length x = true) →
       exec r.i s = .next (s.setRunner rid
         { q with pc := q.pc + r.bytes (fun n => runnerWord s q (src (.sel n) Ty.i32)) }))) ∧
  (∀ (w : WForm) (l : LForm), ∀ r ∈ [(Instr.jmpiW w, w.a), (Instr.jmpiL l, l.a)], r.1.wellFormed = true →
     ∀ (s : State) (fid : Nat) (f : Fibre) (m : LaneMask), Issuing s fid f m →
       Readable s fid f m [src (.sel r.2) Ty.i32] [] →
       let target : Nat → Addr := fun j => (opdLane s fid f m (.sel r.2) Ty.i32 j).setWidth 64
       let odd := (lanesOf m).filter (fun j => (target j).getLsbD 0)
       let tokens := (lanesOf m).filter (fun j => match f.threads[j]? with
         | some t => t.token.isSome
         | none => false)
       (odd = [] → inPool s f = false ∨ f.handler.isSome = true →
         exec r.1 s = .next (s.withThreads fid f m (fun j t => { t with pc := target j }))) ∧
       (odd ≠ [] → exec r.1 s = .next (s.raise fid (trapAddr 0x31 (maskOf odd) (target (odd.headD 0))))) ∧
       (odd = [] → inPool s f = true → f.handler = none → tokens ≠ [] →
         exec r.1 s = .next (s.raise fid (trapOf 0x62 (maskOf tokens)))) ∧
       (odd = [] → inPool s f = true → f.handler = none → tokens = [] → (∃ p ∈ pendingPlaces s fid f, p < 64) →
         ∃ t, exec r.1 s = .next t ∧ t.cur.stalled = true ∧ t.mem = s.mem ∧ t.launches = s.launches) ∧
       (∀ p, odd = [] → inPool s f = true → f.handler = none → tokens = [] → f.splits = [] →
         (∀ p ∈ pendingPlaces s fid f, 64 ≤ p) → s.park fid m target = .ok p →
         exec r.1 s = .next ((p.modFib fid (fun g => { g with energy := g.energy + BitVec.ofNat 64 (popMask m) })).threadsLeft fid)) ∧
       (∀ k a j, odd = [] → inPool s f = true → f.handler = none → tokens = [] → f.splits = [] →
         (∀ p ∈ pendingPlaces s fid f, 64 ≤ p) → s.park fid m target = .error (k, a, j) →
         exec r.1 s = .next (s.accessFault fid m
           [{ kind := k, va := a, acc := 1, obj := 0, lane := j, replayable := false }])))

namespace Sys2Proof.Machine

/-- CALL and CALLI in their forms: length, Y mark, the selector of an indirect target, the offset in halfwords of a direct one. -/
def callRows (w : WForm) (l : LForm) : List (Instr × Nat × Bool × Option (BitVec 7) × Int) :=
  let off20 : BitVec 20 := w.b ++ w.a ++ w.d
  let off30 : BitVec 30 := l.imm ++ l.c ++ l.b
  [(.callW w, 4, w.y, none, off20.toInt), (.callL l, 8, l.y, none, off30.toInt), (.calliW w, 4, w.y, some w.a, 0),
   (.calliL l, 8, l.y, some l.a, 0)]

/-- The lanes of a mask whose thread stands at a depth that satisfies `p`. -/
def lanesAt (f : Fibre) (m : LaneMask) (p : Nat → Bool) : List Nat :=
  (lanesOf m).filter (fun j => match f.threads[j]? with
    | some t => p t.depth
    | none => false)

end Sys2Proof.Machine

/-- CALL and CALLI take effect in a fibre that can read their target: each active thread pushes the address of the next
instruction and goes to its target. They trap on an odd indirect target, then on a full stack, with every stack and pc as it
was. Where eight entries stand on chip, the lowest of them is written to the thread's overflow area first; a failure of that
write is a fault of the CALL with ACC 1, a Y mark hands the slot on, and a write to a peer is awaited before the CALL begins
again with the target that it has read (R214, R346 to R349). RET takes effect in a fibre: each active thread pops its return
address and goes to it. It traps on an empty stack, then on a failed fill, then on an odd return address, with every stack and
pc as it was. Where the stack goes on in the thread's overflow area, the entry next below those on chip is read back; a Y mark
hands the slot on meanwhile, and a read from host memory or from a peer is awaited before the RET begins again (R346 to R349).
Where the spec is silent it states the model's choice (log entry 32). -/
def Obligations.CallStack : Prop :=
  (∀ (w : WForm) (l : LForm), ∀ r ∈ callRows w l, r.1.wellFormed = true →
     ∀ (s : State) (fid : Nat) (f : Fibre) (m : LaneMask) (wg : Workgroup) (la : Launch), Issuing s fid f m →
       wgOf s f = some wg → launchOf s wg = some la →
       Readable s fid f m (r.2.2.2.1.map (fun n => src (.sel n) Ty.i32)).toList [] →
       let len := r.2.1
       let target : Nat → Thread → Addr := fun j t => match r.2.2.2.1 with
         | some n => (opdLane s fid f m (.sel n) Ty.i32 j).setWidth 64
         | none => t.pc + BitVec.ofInt 64 (2 * r.2.2.2.2)
       let odd := match r.2.2.2.1 with
         | some n => (lanesOf m).filter (fun j => (opdLane s fid f m (.sel n) Ty.i32 j).getLsbD 0)
         | none => []
       let latch : Bool := match r.2.2.2.1 with
         | some n => decide (n = 64#7 ∨ n = 65#7)
         | none => false
       let full := lanesAt f m (fun d => d == 8 + la.lr.stksz / 8)
       let pushed : Nat → Thread → Thread := fun j t =>
         { t with pc := target j t, depth := t.depth + 1, stack := (t.pc + BitVec.ofNat 64 len) :: t.stack.take 7 }
       let xs := spillsOf s f m
       (odd = [] → full = [] → lanesAt f m (fun d => decide (8 ≤ d)) = [] → exec r.1 s = .next (s.withThreads fid f m pushed)) ∧
       (odd ≠ [] → exec r.1 s = .next (s.raise fid (trapAddr 0x31 (maskOf odd) (match r.2.2.2.1 with
         | some n => (opdLane s fid f m (.sel n) Ty.i32 (odd.headD 0)).setWidth 64
         | none => 0#64)))) ∧
       (odd = [] → full ≠ [] → exec r.1 s = .next (s.raise fid (trapOf 0x60 (maskOf full)))) ∧
       (∀ j t e, lanesOf m = [j] → f.threads[j]? = some t → 8 ≤ t.depth → t.stack.getLast? = some e →
         xs = [{ lane := j, va := la.lr.stkbase + BitVec.ofNat 64 (t.tid * la.lr.stksz + 8 * (t.depth - 8)), entry := e }]) ∧
       (∀ u, odd = [] → full = [] → xs ≠ [] → (∀ x ∈ xs, x.remote s f .write = []) → s.spills f xs = (u, []) →
         exec r.1 s = .next ((u.withThreads fid f m pushed).yieldSlot fid r.2.2.1 latch)) ∧
       (∀ u fs, odd = [] → full = [] → s.spills f xs = (u, fs) → fs ≠ [] → exec r.1 s = .next (u.accessFault fid m fs)) ∧
       (∀ u, odd = [] → full = [] → s.spills f xs = (u, []) → (∃ x ∈ xs, x.remote s f .write ≠ []) →
         ∃ t g, exec r.1 s = .next t ∧ t.cur.stalled = true ∧ t.mem = s.mem ∧ tget t.fibs fid = some g ∧
           g.hold = .flight s.ids ∧ (∃ fl, tget t.flights s.ids = some fl ∧ fl.fib = fid))) ∧
  (∀ (w : WForm) (l : LForm), ∀ r ∈ [(Instr.retW w, w.y), (Instr.retL l, l.y)], r.1.wellFormed = true →
     ∀ (s : State) (fid : Nat) (f : Fibre) (m : LaneMask) (wg : Workgroup) (la : Launch), Issuing s fid f m →
       wgOf s f = some wg → launchOf s wg = some la →
       let none_ := lanesAt f m (fun d => d == 0)
       let top : Nat → Addr := fun j => match f.threads[j]? with
         | some t => t.stack.headD 0#64
         | none => 0#64
       let odd := (lanesOf m).filter (fun j => (top j).getLsbD 0)
       let xs := fillsOf s f m
       (none_ = [] → lanesAt f m (fun d => decide (9 ≤ d)) = [] → odd = [] →
         exec r.1 s = .next (s.withThreads fid f m (fun _ t =>
           { t with pc := t.stack.headD 0#64, depth := t.depth - 1, stack := t.stack.drop 1 }))) ∧
       (none_ ≠ [] → exec r.1 s = .next (s.raise fid (trapOf 0x61 (maskOf none_)))) ∧
       (none_ = [] → lanesAt f m (fun d => decide (9 ≤ d)) = [] → odd ≠ [] →
         exec r.1 s = .next (s.raise fid (trapAddr 0x31 (maskOf odd) (top (odd.headD 0))))) ∧
       (∀ j t, lanesOf m = [j] → f.threads[j]? = some t → 9 ≤ t.depth →
         xs = [{ lane := j, va := la.lr.stkbase + BitVec.ofNat 64 (t.tid * la.lr.stksz + 8 * (t.depth - 9)), entry := 0#64 }]) ∧
       (∀ es, none_ = [] → xs ≠ [] → (∀ x ∈ xs, x.remote s f .read = []) → fills s f xs = (es, []) →
         (odd = [] → exec r.1 s = .next ((s.withThreads fid f m (fun j t =>
           { t with pc := t.stack.headD 0#64, depth := t.depth - 1, stack := t.stack.drop 1 ++ (tget es j).toList })).yieldSlot
             fid r.2 false)) ∧
         (odd ≠ [] → exec r.1 s = .next (s.raise fid (trapAddr 0x31 (maskOf odd) (top (odd.headD 0)))))) ∧
       (∀ es fs, none_ = [] → fills s f xs = (es, fs) → fs ≠ [] → exec r.1 s = .next (s.accessFault fid m fs)) ∧
       (∀ es, none_ = [] → fills s f xs = (es, []) → (∃ x ∈ xs, x.remote s f .read ≠ []) →
         ∃ t g, exec r.1 s = .next t ∧ t.cur.stalled = true ∧ t.mem = s.mem ∧ tget t.fibs fid = some g ∧
           g.hold = .flight s.ids ∧ (∃ fl, tget t.flights s.ids = some fl ∧ fl.fib = fid)))

namespace Sys2Proof.Machine

/-- Every late set of every open split stands at an RCV or in front of its parking, or has exited (R351). -/
def lateSetsMet (f : Fibre) : Prop :=
  ∀ sp ∈ f.splits, ∀ j ∈ lanesOf sp.late, ∀ t, f.threads[j]? = some t →
    t.st = 3#4 ∨ t.st = 6#4 ∨ (t.st = 1#4 ∧ (t.wait = .rcv ∨ ∃ a, t.wait = .park a))

/-- A fibre after `m` has reached an RCV of `len` bytes at tick `tick`. -/
def atRcv (f : Fibre) (m : LaneMask) (len tick : Nat) : Fibre :=
  { f with
    energy := f.energy + BitVec.ofNat 64 (popMask m)
    threads := f.threads.zipIdx.map (fun ((t, j) : Thread × Nat) =>
      if m.getLsbD j then { t with st := 1#4, wait := .rcv, wlen := len, since := tick } else t) }

/-- Nothing else hangs on the exit of some threads of a fibre: another thread of it lives on, and no barrier, split,
handler, FBAR or register request can end by the exit. -/
def quietExit (s : State) (fid : Nat) (f : Fibre) (m : LaneMask) : Prop :=
  (∃ j t, f.threads[j]? = some t ∧ m.getLsbD j = false ∧ t.st = 0#4) ∧
  (∀ wg, wgOf s f = some wg → ∀ b ∈ wg.bars, b.arr = 0) ∧ f.splits = [] ∧ f.handler = none ∧
  (∀ k < 4, tget s.fibs (fibId f.slot k) = none ∨ fibId f.slot k = fid) ∧
  (∀ wg, wgOf s f = some wg → (coreOf s wg.core).allocs.getD (fibSched fid) [] = [])

end Sys2Proof.Machine

/-- EXIT takes effect: the active threads are in state 3, and what their exit ends elsewhere ends; where nothing hangs on it
the fibre's other threads go on and nothing else changes (R350). Where the spec is silent it states the model's choice (log
entry 39). -/
def Obligations.ExitThreads : Prop :=
  ∀ (c : CForm) (w : WForm) (l : LForm), ∀ i ∈ [Instr.exitC c, Instr.exitW w, Instr.exitL l], i.wellFormed = true →
    ∀ (s : State) (fid : Nat) (f : Fibre) (m : LaneMask), Issuing s fid f m → inPool s f = false →
      let out := s.withThreads fid f m (fun _ t => { t with st := 3#4, wait := .none, wlen := 0, record := none })
      exec i s = .next (out.threadsLeft fid) ∧
      (quietExit s fid f m → exec i s = .next out)

/-- RCV takes effect in a fibre: without an open split it is a NOP; else its threads wait, and once every late set stands at
an RCV or has exited, every split closes and every thread that waits at an RCV of the fibre goes on, or is held while the
fibre is in a fibre wait (R345, R351). -/
def Obligations.RcvMeets : Prop :=
  ∀ (w : WForm) (l : LForm), ∀ r ∈ [(Instr.rcvW w, 4), (Instr.rcvL l, 8)], r.1.wellFormed = true →
    ∀ (s : State) (fid : Nat) (f : Fibre) (m : LaneMask), Issuing s fid f m →
      let g := atRcv f m r.2 s.tick
      (f.splits = [] → exec r.1 s = .next (s.goneOn fid f m r.2)) ∧
      (f.splits ≠ [] → ¬ lateSetsMet g → exec r.1 s = .next (s.waiting fid f m r.2 .rcv)) ∧
      (f.splits ≠ [] → lateSetsMet g → (∀ t ∈ f.threads, ∀ a, t.wait ≠ .park a) →
        exec r.1 s = .next (s.setFib fid { g with
          splits := []
          threads := g.threads.map (fun (t : Thread) =>
            if t.st = 1#4 ∧ t.wait = .rcv then
              { t with st := if inFibreWait g then 4#4 else 0#4, wait := .none, wlen := 0,
                       pc := t.pc + BitVec.ofNat 64 t.wlen } else t) }))

/-- YLD takes effect in a fibre: its threads go on, it is a group switch, and the slot passes to the next ready fibre in
ascending index, wrapping around, if there is one (R213, R342, R346). Where the spec is silent it states the model's choice
(log entry 28). -/
def Obligations.YieldPassesOn : Prop :=
  ∀ (w : WForm) (l : LForm), ∀ r ∈ [(Instr.yldW w, 4), (Instr.yldL l, 8)], r.1.wellFormed = true →
    ∀ (s : State) (fid : Nat) (f : Fibre) (m : LaneMask) (x : Slot), Issuing s fid f m → tget s.slots f.slot = some x →
      x.cur < 4 →
      let t := s.withThreads fid
        { f with l0 := { f.l0 with valid := false }, l1 := { f.l1 with valid := false }, shadow := 0 } m
        (fun _ th => { th with pc := th.pc + BitVec.ofNat 64 r.2 })
      let ready : Nat → Prop := fun k => ∃ g, tget t.fibs (4 * f.slot + (x.cur + k) % 4) = some g ∧ g.ready = true
      ((∀ k, 1 ≤ k → k ≤ 3 → ¬ ready k) → exec r.1 s = .next t) ∧
      (∀ k, 1 ≤ k → k ≤ 3 → ready k → (∀ n, 1 ≤ n → n < k → ¬ ready n) →
        exec r.1 s = .next (t.setSlot f.slot { x with cur := (x.cur + k) % 4, consec := 0 }))

/-! ### Barriers, handles and ordering -/

namespace Sys2Proof.Machine

/-- Arrivals at a barrier in ascending lane (R352): `live` counts the workgroup's threads that have not exited; the answer is
the barrier and each lane's token generation. -/
def arrivals (live n : Nat) : List Nat → Barrier → Barrier × List (Nat × BitVec 16)
  | [], b => (b, [])
  | j :: js, b =>
    let req := if b.arr = 0 then n else b.req
    let need := if req ≠ 0 then req else live
    let c : Barrier := if need ≤ b.arr + 1 then { gen := b.gen + 1#16, arr := 0, req := req }
      else { gen := b.gen, arr := b.arr + 1, req := req }
    let r := arrivals live n js c
    (r.1, (j, b.gen) :: r.2)

/-- A fibre whose threads wait on barrier `x` for a generation that is over: they empty their tokens and go on, or are held
while the fibre is in a fibre wait (R345, R353). -/
def barReleased (x : Nat) (gen : BitVec 16) (f : Fibre) : Fibre :=
  { f with threads := f.threads.map (fun (t : Thread) =>
      if t.st = 1#4 ∧ t.wait = .bar x ∧ t.token ≠ some (x, gen) then
        { t with st := if inFibreWait f then 4#4 else 0#4, wait := .none, wlen := 0, pc := t.pc + BitVec.ofNat 64 t.wlen,
                 token := none } else t) }

/-- Every fibre of a workgroup looks at barrier `x` again (R345). -/
def State.barLooked (s : State) (wid x : Nat) (gen : BitVec 16) : State :=
  { s with fibs := s.fibs.map (fun ((i, f) : Nat × Fibre) => (i, if f.wg = wid then barReleased x gen f else f)) }

/-- The sources of a barrier instruction with a barrier number and a count. -/
def barSrcs (a b : BitVec 7) : List Src := [src (.sel a) Ty.i32, src (.sel b) Ty.i32]

end Sys2Proof.Machine

/-- BAR.ARV, BAR.WT and BAR.MEET take effect in a fibre that can read their operands: the active threads arrive in
ascending lane, take the barrier and its generation as their token, and where the generation completes its waiters go on with
empty tokens; a wait lasts while the token names the barrier's generation. A number of 16 or more is an illegal operand, and
BAR.WT traps in no lane where a token is empty or names another barrier. An arrival waits for the fibre's earlier memory
instructions (R352, R353). -/
def Obligations.WorkgroupBarriers : Prop :=
  ∀ (w : WForm) (l : LForm) (s : State) (fid : Nat) (f : Fibre) (m : LaneMask) (wg : Workgroup), Issuing s fid f m →
    tget s.wgs f.wg = some wg →
    (∀ r ∈ [(Instr.barArvW w, 4, w.a, w.b, false), (Instr.barArvL l, 8, l.a, l.b, false), (Instr.barMeetW w, 4, w.a, w.b, true),
        (Instr.barMeetL l, 8, l.a, l.b, true)], r.1.wellFormed = true → Readable s fid f m (barSrcs r.2.2.1 r.2.2.2.1) [] →
      let x := (opdLow s fid f m (.sel r.2.2.1)).toNat
      let n := (opdLow s fid f m (.sel r.2.2.2.1)).toNat
      let base := if r.2.2.2.2 then s.waiting fid f m r.2.1 (.bar x) else s.goneOn fid f m r.2.1
      let a := arrivals (liveThreads base f.wg) n (lanesOf m) (barOf wg x)
      let wg' : Workgroup := { wg with bars := wg.bars.set x a.1 }
      (16 ≤ x → exec r.1 s = .next (s.raise fid (trapOf 0x02 m))) ∧
      (x < 16 → memBusy s fid = true → ∃ t, exec r.1 s = .next t ∧ t.cur.stalled = true ∧ t.wgs = s.wgs) ∧
      (x < 16 → memBusy s fid = false →
        exec r.1 s = .next (((s.withThreads fid f m (fun j (t : Thread) =>
          let t' := { t with token := (tget a.2 j).map (fun g => (x, g)) }
          if r.2.2.2.2 then { t' with st := 1#4, wait := .bar x, wlen := r.2.1, since := s.tick }
          else { t' with pc := t.pc + BitVec.ofNat 64 r.2.1 })).setWg f.wg wg').barLooked f.wg x (barOf wg' x).gen))) ∧
    (∀ r ∈ [(Instr.barWtW w, 4, w.a), (Instr.barWtL l, 8, l.a)], r.1.wellFormed = true →
      Readable s fid f m [src (.sel r.2.2) Ty.i32] [] →
      let x := (opdLow s fid f m (.sel r.2.2)).toNat
      let bad := (lanesOf m).filter (fun j => match f.threads[j]? with
        | some t => match t.token with
          | some (y, _) => decide (y ≠ x)
          | none => true
        | none => true)
      (16 ≤ x → exec r.1 s = .next (s.raise fid (trapOf 0x02 m))) ∧
      (x < 16 → bad ≠ [] → exec r.1 s = .next (s.raise fid (trapOf 0x62 (maskOf bad)))) ∧
      (x < 16 → bad = [] → exec r.1 s = .next ((s.waiting fid f m r.2.1 (.bar x)).barLooked f.wg x (barOf wg x).gen)))

namespace Sys2Proof.Machine

/-- A counted barrier that holds `x` arrivals against its target (R165). -/
def settled (b : CBar) (x : Nat) : CBar :=
  if b.target = 0#16 then { b with count := BitVec.ofNat 16 (min x 65535) }
  else { b with gen := b.gen + BitVec.ofNat 16 (x / b.target.toNat), count := BitVec.ofNat 16 (x % b.target.toNat) }

/-- No fibre and no runner of a workgroup waits on counted barrier `x`. -/
def cbarUnwaited (s : State) (wid x : Nat) : Prop :=
  (∀ e ∈ s.fibs, e.2.wg = wid → ∀ t ∈ e.2.threads, ∀ g, t.wait ≠ .cbar x g) ∧
  (∀ e ∈ s.runners, e.2.wg = wid → ∀ y g, e.2.xwt = some (y, g) → y % 64 ≠ x)

end Sys2Proof.Machine

/-- CBAR.ARV, CBAR.ARV.init and CBAR.WT take effect in a fibre that can read their operands: one arrival of n or one
initialisation settles the barrier's count against its target, and wakes its waiters where GEN changes, with a refresh of the
core where a thread waits there; CBAR.WT waits while GEN is bits 15:0 of g and else goes on at once with a refresh. A number
beyond the grant is a barrier-grant fault; an n of 0, or an initial target of 2^16 or more, an illegal operand (R164, R165,
R355). Where the spec is silent it states the model's choice (log entry 47). -/
def Obligations.CountedBarriers : Prop :=
  ∀ (w : WForm) (l : LForm) (s : State) (fid : Nat) (f : Fibre) (m : LaneMask) (wg : Workgroup), Issuing s fid f m →
    tget s.wgs f.wg = some wg →
    (∀ r ∈ [(Instr.cbarArvW w, 4, w.a, w.b, false), (Instr.cbarArvL l, 8, l.a, l.b, l.mode.getLsbD 0)],
      r.1.wellFormed = true → Readable s fid f m (barSrcs r.2.2.1 r.2.2.2.1) [] →
      let x := (opdLow s fid f m (.sel r.2.2.1)).toNat
      let n := (opdLow s fid f m (.sel r.2.2.2.1)).toNat
      let init := r.2.2.2.2
      let b := wg.cbars.getD x { gen := 0#16, count := 0#16, target := 0#16 }
      let c := if init then settled { b with target := BitVec.ofNat 16 n } b.count.toNat else settled b (b.count.toNat + n)
      let out := (s.goneOn fid f m r.2.1).setWg f.wg { wg with cbars := wg.cbars.set x c }
      (wg.cbars.length ≤ x → exec r.1 s = .next (s.raise fid (trapOf 0x63 m))) ∧
      (x < wg.cbars.length → (if init then 65536 ≤ n else n = 0) → exec r.1 s = .next (s.raise fid (trapOf 0x02 m))) ∧
      (x < wg.cbars.length → init = false → n ≠ 0 → memBusy s fid = true →
        ∃ t, exec r.1 s = .next t ∧ t.cur.stalled = true ∧ t.wgs = s.wgs) ∧
      (x < wg.cbars.length → (if init then n < 65536 else n ≠ 0 ∧ memBusy s fid = false) → c.gen = b.gen →
        exec r.1 s = .next out) ∧
      (x < wg.cbars.length → (if init then n < 65536 else n ≠ 0 ∧ memBusy s fid = false) → c.gen ≠ b.gen →
        let t := { out with
          fibs := out.fibs.map (fun ((i, g) : Nat × Fibre) => (i, if g.wg = f.wg then releaseCbar x c.gen g else g))
          runners := out.runners.map (fun ((i, q) : Nat × Runner) => (i, if q.wg = f.wg then releaseXwt x c.gen q else q)) }
        let waited := ∃ e ∈ (s.goneOn fid f m r.2.1).fibs, e.2.wg = f.wg ∧ ∃ th ∈ e.2.threads, ∃ g, th.wait = .cbar x g
        (waited → exec r.1 s = .next (t.refresh wg.core)) ∧ (¬ waited → exec r.1 s = .next t)) ∧
      (x < wg.cbars.length → (if init then n < 65536 else n ≠ 0 ∧ memBusy s fid = false) →
        cbarUnwaited (s.goneOn fid f m r.2.1) f.wg x → exec r.1 s = .next out)) ∧
    (∀ r ∈ [(Instr.cbarWtW w, 4, w.a, w.b), (Instr.cbarWtL l, 8, l.a, l.b)], r.1.wellFormed = true →
      Readable s fid f m (barSrcs r.2.2.1 r.2.2.2) [] →
      let x := (opdLow s fid f m (.sel r.2.2.1)).toNat
      let g := (opdLow s fid f m (.sel r.2.2.2)).extractLsb' 0 16
      (wg.cbars.length ≤ x → exec r.1 s = .next (s.raise fid (trapOf 0x63 m))) ∧
      (x < wg.cbars.length → (cbarOf wg x).gen = g → exec r.1 s = .next (s.waiting fid f m r.2.1 (.cbar x g))) ∧
      (x < wg.cbars.length → (cbarOf wg x).gen ≠ g →
        exec r.1 s = .next ((s.goneOn fid f m r.2.1).refresh (fibCore fid))))

/-- FBAR takes effect in a fibre that can read its mask: its threads wait, and every arrived fibre of the slot whose mask is
covered is released. A mask beyond the slot's fibres, or without the issuing fibre, is an illegal operand. A fibre alone in
its slot, all of whose threads that have not exited meet there with nothing outstanding, goes straight on (R354). -/
def Obligations.FibreBarriers : Prop :=
  ∀ (w : WForm) (l : LForm), ∀ r ∈ [(Instr.fbarW w, 4, w.a), (Instr.fbarL l, 8, l.a)], r.1.wellFormed = true →
    ∀ (s : State) (fid : Nat) (f : Fibre) (m : LaneMask) (x : Slot), Issuing s fid f m →
      Readable s fid f m [src (.sel r.2.2) Ty.i32] [] → tget s.slots f.slot = some x →
      let m0 := ((opdLow s fid f m (.sel r.2.2)).extractLsb' 0 4).toNat
      let mask := if m0 = 0 then 2 ^ x.nfib - 1 else m0
      (2 ^ x.nfib ≤ mask ∨ mask.testBit f.idx = false → exec r.1 s = .next (s.raise fid (trapOf 0x02 m))) ∧
      (mask < 2 ^ x.nfib → mask.testBit f.idx = true →
        exec r.1 s = .next (((s.waiting fid f m r.2.1 (.fbar mask)).fbarCheck f.slot).examineAllocs (fibCore fid) (fibSched fid))) ∧
      (mask < 2 ^ x.nfib → mask.testBit f.idx = true → x.nfib = 1 → fid = fibId f.slot 0 →
        (∀ k, 1 ≤ k → k < 4 → tget s.fibs (fibId f.slot k) = none) → fibFlights s fid = [] →
        (∀ e ∈ (coreOf s (fibCore fid)).mq, e.2.fib = some fid → mxDests e.2 = []) → m ≠ 0#32 →
        f.threads.length ≤ 32 → (∀ j t, f.threads[j]? = some t → if m.getLsbD j then True else t.st = 3#4 ∨ t.st = 6#4) →
        (∃ j, j < f.threads.length ∧ m.getLsbD j = true) →
        (coreOf s (fibCore fid)).allocs.getD (fibSched fid) [] = [] →
        exec r.1 s = .next (s.withThreads fid f m (fun _ t =>
          { t with st := 0#4, wait := .none, wlen := 0, since := s.tick, pc := t.pc + BitVec.ofNat 64 r.2.1 })))

namespace Sys2Proof.Machine

/-- The handle that an instruction names (R85): by number, or in the lowest active lane of a register. -/
def handleNamed (s : State) (fid : Nat) (f : Fibre) (m : LaneMask) (l : LForm) : Nat :=
  if l.imm.getLsbD 6 then (l.imm.extractLsb' 0 6).toNat else ((opdLow s fid f m (.sel l.a)).extractLsb' 0 6).toNat

/-- The L form that a W form of a handle instruction stands for (R85). -/
def handleW (w : WForm) : LForm :=
  { y := w.y, k := w.k, d := w.d, a := w.a, b := w.b, c := 0#7, ty := 0#4, mode := 0#3, imm := 0#16 }

/-- A handle that no command holds. -/
def Handle.unused : Handle := { st := .free, cause := 0#8, cmd := none, owner := none }

/-- A handle as it stands. -/
def handleAt (wg : Workgroup) (h : Nat) : Handle := wg.handles.getD h Handle.unused

end Sys2Proof.Machine

/-- WAIT, TEST and CNCL take effect in a fibre that can read their handle. WAIT of a full handle goes on with a refresh, of a
filling or draining one holds the fibre, of a free or errored one traps with the handle's number and cause. TEST writes the
state code and the cause. CNCL frees a full or errored handle, but lets that of a collective copy of which slots are still to
join drain; it lets a filling one drain with its command cancelled, frees one that a runner opened, and leaves a free or
draining one (R160, R163, R171). Where the spec is silent it states the model's choice (log entry 44). -/
def Obligations.HandleInstructions : Prop :=
  ∀ (w : WForm) (l : LForm) (s : State) (fid : Nat) (f : Fibre) (m : LaneMask) (wg : Workgroup), Issuing s fid f m →
    tget s.wgs f.wg = some wg →
    (∀ r ∈ [(Instr.waitW w, 4, handleW w), (Instr.waitL l, 8, l)], r.1.wellFormed = true →
      Readable s fid f m (handleSrc r.2.2) [] →
      let h := handleNamed s fid f m r.2.2
      let x := handleAt wg h
      (x.st = .full → exec r.1 s = .next ((s.goneOn fid f m r.2.1).refresh (fibCore fid))) ∧
      (x.st = .filling ∨ x.st = .draining → exec r.1 s = .next (s.setFib fid { f with
        hold := .handle h r.2.1 m, heldSince := s.tick
        threads := f.threads.map (fun (t : Thread) => if t.st = 0#4 then { t with st := 4#4 } else t) })) ∧
      (x.st = .free → exec r.1 s = .next (s.raise fid
        { code := 0x54#8, cause := 0#8, addr := BitVec.ofNat 64 h, fm := m, num := 0#8 })) ∧
      (x.st = .error → exec r.1 s = .next (s.raise fid
        { code := 0x54#8, cause := x.cause, addr := BitVec.ofNat 64 h, fm := m, num := 0#8 }))) ∧
    (∀ r ∈ [(Instr.testW w, 4, handleW w), (Instr.testL l, 8, l)], r.1.wellFormed = true →
      Readable s fid f m (handleSrc r.2.2) [r.2.2.d.toNat] →
      let x := handleAt wg (handleNamed s fid f m r.2.2)
      let code : BitVec 3 := match x.st with
        | .free => 0#3
        | .filling => 1#3
        | .full => 2#3
        | .draining => 3#3
        | .error => 4#3
      let word : Word := 0#16 ++ (if x.st = .error then x.cause else 0#8) ++ 0#5 ++ code
      ∃ t, exec r.1 s = .next t ∧ t = (s.writeReg fid r.2.2.d.toNat m (LaneVec.splat word)).modFib fid (fun (g : Fibre) =>
          { g with
            energy := g.energy + BitVec.ofNat 64 (popMask m)
            threads := g.threads.zipIdx.map (fun ((th, j) : Thread × Nat) =>
              if m.getLsbD j then { th with pc := th.pc + BitVec.ofNat 64 r.2.1 } else th) }) ∧
        (∀ j < 32, m.getLsbD j = true → regLane t fid r.2.2.d.toNat j = word)) ∧
    (∀ r ∈ [(Instr.cnclW w, 4, handleW w), (Instr.cnclL l, 8, l)], r.1.wellFormed = true →
      Readable s fid f m (handleSrc r.2.2) [] →
      let h := handleNamed s fid f m r.2.2
      let x := handleAt wg h
      let out := s.goneOn fid f m r.2.1
      (x.st = .free ∨ x.st = .draining → exec r.1 s = .next out) ∧
      (x.st = .full ∨ (x.st = .error ∧ ∀ c ∈ wg.colls, c.handle ≠ some h) →
        exec r.1 s = .next (out.setWg f.wg { wg with handles := wg.handles.set h Handle.unused })) ∧
      (x.st = .error → (∃ c ∈ wg.colls, c.handle = some h) →
        exec r.1 s = .next (out.setWg f.wg { wg with
          handles := wg.handles.set h { Handle.unused with st := .draining }
          colls := wg.colls.map (fun (c : Collective) => if c.handle = some h then { c with cancelled := true } else c) })) ∧
      (x.st = .filling → x.owner = none →
        exec r.1 s = .next { out with
          cmds := s.cmds.map (fun ((i, c) : Nat × Cmd) =>
            (i, if c.wg = f.wg ∧ c.handle = h then { c with cancelled := true } else c))
          wgs := tset s.wgs f.wg { wg with
            handles := wg.handles.set h { x with st := .draining }
            colls := wg.colls.map (fun (c : Collective) => if c.handle = some h then { c with cancelled := true } else c) } }) ∧
      (∀ rid, x.st = .filling → x.owner = some rid →
        exec r.1 s = .next (((out.modRunner rid (fun (q : Runner) => { q with opened := q.opened.filter (· != h) })).setWg f.wg
          { wg with handles := wg.handles.set h Handle.unused }).wakeHandle f.wg h)))

/-- FENCE completes at once and leaves its obligations: a release or full fence makes later memory instructions wait for every
earlier one, an acquire or full fence for earlier loads, atomics and pod operations, with a refresh before them at scope .clu
or wider; a relaxed atomic after a release fence is a release at its scope, and the relaxed atomics and pod operations before
an acquire fence, of whose releases the fibre has taken note, become acquires at its scope (R321, R323, R328). PHASE waits for
the fibre's earlier memory instructions; then it asks for a phase boundary of its core and holds the fibre until that boundary
has completed, in redundant mode until its checkpoint. A boundary in progress serves only where it marked every store of the
fibre (R295, R322). Under conditions on the state and the operands alone it concludes that exec answers a next state with the
effect named for fenceW, fenceL, phaseW and phaseL. Where the spec is silent it states the model's choice (log entries 30,
34). -/
def Obligations.FenceAndPhase : Prop :=
  (∀ (w : WForm) (l : LForm), ∀ r ∈ [(Instr.fenceW w, 4, w.d, 0), (Instr.fenceL l, 8, l.d, l.mode.toNat)],
     r.1.wellFormed = true → ∀ (s : State) (fid : Nat) (f : Fibre) (m : LaneMask), Issuing s fid f m →
       let rel := decide (r.2.2.2 = 0 ∨ r.2.2.2 = 2)
       let acq := decide (r.2.2.2 = 0 ∨ r.2.2.2 = 1)
       let scope := r.2.2.1.toNat
       let obliged : Fibre → Fibre := fun g => { g with
           fences := f.fences ++ [{ rel := rel, acq := acq, scope := scope, refresh := acq && decide (5 ≤ scope), flt := none }]
           relMark := if rel then some (match f.relMark with
             | some a => max a scope
             | none => scope) else f.relMark }
       (acq = false ∨ f.seenRel = [] →
         exec r.1 s = .next (s.withThreads fid (obliged f) m (fun _ t => { t with pc := t.pc + BitVec.ofNat 64 r.2.1 }))) ∧
       (acq = true →
         exec r.1 s = .next (((f.seenRel.foldl (fun (u : State) (e : Nat × RelRec) =>
             u.noteAcquire (fibCtx s f) (agentOf u fid e.1 scope) scope (some e.2)) (s.goneOn fid f m r.2.1)).modFib fid
           (fun g => { g with seenRel := [] })).modFib fid obliged))) ∧
  (∀ (w : WForm) (l : LForm), ∀ r ∈ [(Instr.phaseW w, 4, w.y, w.d), (Instr.phaseL l, 8, l.y, l.d)], r.1.wellFormed = true →
     ∀ (s : State) (fid : Nat) (f : Fibre) (m : LaneMask), Issuing s fid f m →
       let core := coreOf s (fibCore fid)
       let y := r.2.2.1
       let held : Fibre := { f with energy := f.energy + BitVec.ofNat 64 (popMask m), heldSince := s.tick, yield := y }
       (memBusy s fid = true → ∃ t, exec r.1 s = .next t ∧ t.cur.stalled = true ∧ t.cores = s.cores) ∧
       (memBusy s fid = false → redKey s f.wg = none →
         let asked : Boundary :=
           { id := s.ids, fib := some fid, len := r.2.1, mask := m, flt := none, scope := r.2.2.2.toNat, ctx := none,
             lid := none,
             started := core.bounds.any (fun b => b.started) &&
               core.path.all (fun e => e.2.marked || e.2.wg.isSome || e.2.rel.isSome || !e.2.fibs.contains fid) }
         exec r.1 s = .next ((({ s with ids := s.ids + 1 }.setFib fid { held with hold := .boundary s.ids }).yieldSlot
           fid y false).modCore (fibCore fid) (fun (c : Core) => { c with bounds := c.bounds ++ [asked] }))) ∧
       (memBusy s fid = false → (redKey s f.wg).isSome = true →
         exec r.1 s = .next ((s.setFib fid { held with
           phases := f.phases + 1, hold := .checkpoint (f.phases + 1) r.2.1 m r.2.2.2.toNat none }).yieldSlot fid y false)))

/-! ### Traps, special registers, boost, registers granted -/

namespace Sys2Proof.Machine

/-- A fibre as the report of its halt describes it: once the issue of `m` has been counted in its burst (R341, R393). -/
def viewed (s : State) (f : Fibre) (m : LaneMask) : Fibre → Fibre := fun g =>
  afterIssue g m (decide (popMask m < (readyThreads f).length)) (ctxHalted s (fibCtx s f))

end Sys2Proof.Machine

/-- TRAP n raises trap 0x80 with NUM = n and the active mask, every active thread standing at the next instruction; RTE
outside handler mode raises trap 0x03, and in it makes its threads wait until every thread of the fibre that has not exited
waits at an RTE, when the fibre returns. HALT and BKPT halt the fibre at the next instruction where a session holds its
context (for BKPT one with the right BREAK), with a report of the fibre as it then stands, and else trap with every active
thread at the next instruction (R390 to R392, R444). Where the spec is silent it states the model's choice (log entries 35,
36). -/
def Obligations.TrapInstructions : Prop :=
  ∀ (w : WForm) (l : LForm) (s : State) (fid : Nat) (f : Fibre) (m : LaneMask), Issuing s fid f m →
    ((Instr.trap l).wellFormed = true → exec (.trap l) s = .next ((s.goneOn fid f m 8).raise fid
      { code := 0x80#8, cause := 0#8, addr := 0#64, fm := m, num := l.imm.extractLsb' 0 8 })) ∧
    (∀ r ∈ [(Instr.rteW w, 4), (Instr.rteL l, 8)], r.1.wellFormed = true →
      let out := s.waiting fid f m r.2 .rte
      (f.handler = none → exec r.1 s = .next (s.raise fid (trapOf 0x03 m))) ∧
      (f.handler.isSome = true → ∀ g, tget out.fibs fid = some g →
        ((∃ t ∈ g.threads, t.st ≠ 3#4 ∧ t.st ≠ 6#4 ∧ (t.st ≠ 1#4 ∨ t.wait ≠ .rte)) → exec r.1 s = .next out) ∧
        ((∀ t ∈ g.threads, t.st = 3#4 ∨ t.st = 6#4 ∨ (t.st = 1#4 ∧ t.wait = .rte)) →
          (∃ t ∈ g.threads, t.st = 1#4) → exec r.1 s = .next (out.returnFibre fid)))) ∧
    (∀ r ∈ [(Instr.haltW w, 4), (Instr.haltL l, 8)], r.1.wellFormed = true →
      ((ctxSession s (fibCtx s f)).isSome = true →
        exec r.1 s = .next ((s.goneOn fid f m r.2).haltFibreAs fid 1 [] (viewed s f m))) ∧
      (ctxSession s (fibCtx s f) = none → exec r.1 s = .next ((s.goneOn fid f m r.2).raise fid (trapOf 0x82 m)))) ∧
    (∀ r ∈ [(Instr.bkptW w, 4), (Instr.bkptL l, 8)], r.1.wellFormed = true →
      (∀ p, ctxSession s (fibCtx s f) = some p → p.rights.getLsbD 3 = true →
        exec r.1 s = .next ((s.goneOn fid f m r.2).haltFibreAs fid 2 [] (viewed s f m))) ∧
      (∀ p, ctxSession s (fibCtx s f) = some p → p.rights.getLsbD 3 = false →
        exec r.1 s = .next ((s.goneOn fid f m r.2).raise fid (trapOf 0x81 m))) ∧
      (ctxSession s (fibCtx s f) = none → exec r.1 s = .next ((s.goneOn fid f m r.2).raise fid (trapOf 0x81 m))))

namespace Sys2Proof.Machine

/-- The 512 bits of a trap frame's header (R387). -/
def frameHeader (f : Fibre) (t : Trap) (wgi : BitVec 32) (kent : Addr) : BitVec 512 :=
  0#192 ++ kent ++ wgi ++ f.fpst ++ 0#4 ++ BitVec.ofBool f.l1.valid ++ BitVec.ofBool f.l0.valid ++ 0#10 ++ t.num ++ t.cause ++
    t.code ++ 0#24 ++ t.fm ++ 0#32 ++ t.addr

/-- The bytes of a frame that trap entry writes (R387): the header, the PC table (R338), the latches, v0 to v7 and the tick. -/
def frameImage (s : State) (f : Fibre) (t : Trap) (w : Workgroup) (la : Launch) (fid : Nat) : List Byte :=
  let words := fun (v : LaneVec) => (List.range 32).flatMap (fun j => leBytes (v.lane j).toNat 4)
  leBytes (frameHeader f t (BitVec.ofNat 32 w.w) la.hdr.entry).toNat 64 ++
  f.threads.flatMap (fun th => leBytes (th.st ++ 0#3 ++ th.pc.extractLsb' 1 56 ++ 0#1).toNat 8) ++
  words f.l0.reg.val ++ words f.l1.reg.val ++
  (List.range 8).flatMap (fun i => words (if i < windowOf s f then regAt s fid i else Reg.plain (LaneVec.splat 0#32)).val) ++
  leBytes s.tick 8

end Sys2Proof.Machine

/-- Taking a trap: with nothing earlier outstanding and a usable handler, the frame of R387 is written at TFA + 2048 × i,
every thread that has not exited is ready at HDLR + 64, both latches are invalid, the shadow count, FT and RV are 0, no burst
runs, and the fibre is in handler mode; v0 and v1 hold the frame's address. A frame that cannot be written, or no usable
handler, ends the context; a failed register check is recorded first. With something outstanding the trap waits, and so it
does for a handler's header or a frame that lies in host memory or at a peer and has not been read or written there (R223,
R386 to R388, R452). Where the spec is silent it states the model's choice (log entry 34). -/
def Obligations.TrapEntry : Prop :=
  ∀ (s : State) (fid : Nat) (f : Fibre) (w : Workgroup) (la : Launch) (t : Trap), tget s.fibs fid = some f →
    tget s.wgs f.wg = some w → tget s.launches w.lid = some la → f.trap = none → f.threads.length = 32 →
    ((s.flights.any (fun e => e.2.fib == fid) = true ∨ (redKey s f.wg).isSome = true ∨ trapAtHand s fid = false) →
      s.raise fid t = s.setFib fid { f with trap := some t, heldSince := s.tick }) ∧
    (s.flights.any (fun e => e.2.fib == fid) = false → redKey s f.wg = none → trapAtHand s fid = true →
      let pc := (match f.threads[lowestLane t.fm]? with
        | some th => th.pc
        | none => 0#64).toNat
      let r := if t.code = 0x41#8 then s.errorRecord (coreDie w.core) 0x23 1 pc t.fm.toNat 0 0#32 (some w.ctx) t.code else s
      ((f.handler.isSome = true ∨ (ctxOf r w.ctx).page = none) → s.raise fid t = r.failContext f.wg t.code pc 0) ∧
      (∀ pg, f.handler = none → (ctxOf r w.ctx).page = some pg →
        (pg.remote = false → handlerUsable r f w pg = pg.usable) ∧
        (handlerUsable r f w pg = false → s.raise fid t = r.failContext f.wg t.code pc 0) ∧
        (handlerUsable r f w pg = true → (ctxOf r w.ctx).encl.extractLsb' 0 8 = 0#8 →
          let i := 256 * w.lcore + 64 * (fid / 64 % 4) + 4 * (fid / 4 % 16) + fid % 4
          let frame := pg.tfa.toNat + 2048 * i
          (∀ k, writeGot r f.got w.ctx (xlOf r w) true frame (frameImage r f t w la fid) = .error k →
            s.raise fid t = r.failContext f.wg t.code pc frame) ∧
          (∀ u, writeGot r f.got w.ctx (xlOf r w) true frame (frameImage r f t w la fid) = .ok u →
            s.raise fid t = u.setFib fid { f with
              threads := f.threads.map (fun (th : Thread) => if th.st = 3#4 ∨ th.st = 6#4 then th
                else { th with st := 0#4, pc := pg.hdlr + 64#64, wait := .none, wlen := 0 })
              regs := (f.regs.set 0 (Reg.plain (LaneVec.splat ((BitVec.ofNat 64 frame).extractLsb' 0 32)))).set 1
                (Reg.plain (LaneVec.splat ((BitVec.ofNat 64 frame).extractLsb' 32 32)))
              l0 := { f.l0 with valid := false }, l1 := { f.l1 with valid := false }
              shadow := 0, ft := 0, rv := 0#64, burst := none, hold := .none, trap := none, frozen := [], kept := [], got := []
              handler := some { code := t.code, frame := i, waits := f.threads.map (fun th => (th.wait, th.wlen)),
                                gone := ~~~ (liveMask f) } }))))

namespace Sys2Proof.Machine

/-- The threads that a frame gives back: one that has exited in the handler stays as it is, an entry's pc and state stand for
the others; a wait is entered again where it was saved at entry, and a thread whose bytes were late has them (R391; log
entry 18). -/
def frameThread (e : BitVec 64) (saved : Wait × Nat) (t : Thread) : Thread :=
  if t.st = 3#4 ∨ t.st = 6#4 then t
  else
    let st : BitVec 4 := e.extractLsb' 60 4
    { t with
      pc := 0#7 ++ e.extractLsb' 1 56 ++ 0#1
      st := if st = 2#4 then 0#4 else st
      wait := if st = 1#4 then saved.1 else .none
      wlen := if st = 1#4 then saved.2 else 0 }

/-- The entry of the PC table of a frame for a lane. -/
def frameEntry (bs : List Byte) (j : Nat) : BitVec 64 := BitVec.ofNat 64 (leValue ((bs.drop (0x40 + 8 * j)).take 8))

/-- The word of a frame at a byte offset. -/
def frameWord (bs : List Byte) (o : Nat) : Word := BitVec.ofNat 32 (leValue ((bs.drop o).take 4))

end Sys2Proof.Machine

/-- The return from a trap reads the frame and gives back every thread that has not exited, v0 to v7 but in the lanes of
threads that exited in the handler, both latches with their validity and sr.fpst; the shadow count and FT are 0, no burst
runs, and handler mode ends. A frame that cannot be read, or an entry with an odd pc, a state of 7 to 15, or a late state
without an open split, ends the context (R391). Where the spec is silent it states the model's choice (log entry 18). -/
def Obligations.TrapReturn : Prop :=
  ∀ (s : State) (fid : Nat) (f : Fibre) (w : Workgroup) (h : Handler) (pg : CtxPage), tget s.fibs fid = some f →
    tget s.wgs f.wg = some w → f.handler = some h → (ctxOf s w.ctx).page = some pg → f.threads.length = 32 →
    let frame := pg.tfa.toNat + 2048 * h.frame
    (∀ k, readFresh s f.got w.core w.ctx (redKey s f.wg) (xlOf s w) true frame 0x640 = .error k →
      s.returnTrap fid = s.failContext f.wg (BitVec.ofNat 8 (0x10 + k)) frame 0) ∧
    (∀ bs, readFresh s f.got w.core w.ctx (redKey s f.wg) (xlOf s w) true frame 0x640 = .ok bs →
      let bad := ∃ j t, j < 32 ∧ f.threads[j]? = some t ∧ t.st ≠ 3#4 ∧ t.st ≠ 6#4 ∧
        ((frameEntry bs j).getLsbD 0 = true ∨ 7 ≤ ((frameEntry bs j).extractLsb' 60 4).toNat ∨
          ((frameEntry bs j).extractLsb' 60 4 = 2#4 ∧ f.splits = []))
      (bad → s.returnTrap fid = s.failContext f.wg 0x03#8 frame 0) ∧
      (¬ bad → ∃ g, s.returnTrap fid = s.setFib fid g ∧
        g = { f with threads := g.threads, regs := g.regs, l0 := g.l0, l1 := g.l1, fpst := g.fpst, shadow := 0, ft := 0,
                     burst := none, handler := none, kept := [], got := [] } ∧
        g.threads = f.threads.zipIdx.map (fun ((t, j) : Thread × Nat) =>
          frameThread (frameEntry bs j) (h.waits.getD j (.none, 0)) t) ∧
        g.regs.length = f.regs.length ∧
        (∀ i, 8 ≤ i → g.regs[i]? = f.regs[i]?) ∧
        (∀ i < 8, ∀ r, f.regs[i]? = some r → ∃ q, g.regs[i]? = some q ∧ q.tag = 0#32 ∧ q.flips = [] ∧
          ∀ j < 32, q.val.lane j = (match f.threads[j]? with
            | some t => if (t.st = 3#4 ∨ t.st = 6#4) ∧ h.gone.getLsbD j = false then r.val.lane j
                else frameWord bs (0x240 + 128 * i + 4 * j)
            | none => r.val.lane j)) ∧
        (∀ j < 32, g.l0.reg.val.lane j = frameWord bs (0x140 + 4 * j) ∧ g.l1.reg.val.lane j = frameWord bs (0x1C0 + 4 * j)) ∧
        g.l0.valid = (BitVec.ofNat 512 (leValue (bs.take 64))).getLsbD 186 ∧
        g.l1.valid = (BitVec.ofNat 512 (leValue (bs.take 64))).getLsbD 187 ∧
        g.fpst = ((BitVec.ofNat 512 (leValue (bs.take 64))).extractLsb' 192 5).setWidth 32))

namespace Sys2Proof.Machine

/-- The special registers of R424 with the value that a fibre reads. -/
def specialRegs (s : State) (fid : Nat) (f : Fibre) : List (Nat × BitVec 64) :=
  let c := fibCtx s f
  let x := ctxOf s c
  let p := partRec s c.fn
  let core := coreOf s (fibCore fid)
  let bstat : Nat := match core.boost with
    | none => 0
    | some b => b.level * 2 ^ 30 + (if b.susp.isSome then 2 ^ 29 else 0) + (if b.ctx = c then 2 ^ 28 else 0) +
        (b.start + b.dur - s.tick) / 16 % 2 ^ 28
  [(0x001, 0x010040B1#64), (0x004, BitVec.ofNat 64 s.tick),
   (0x030, BitVec.ofNat 64 ((sharedOf s f).length * 256 + f.regs.length)), (0x031, f.fpst.setWidth 64),
   (0x03A, x.wbst.setWidth 64), (0x03B, x.scopemiss.setWidth 64), (0x040, p.lifebud.setWidth 64),
   (0x041, core.bprice.setWidth 64), (0x042, BitVec.ofNat 64 bstat), (0x044, f.energy),
   (0x810, x.xlroot.setWidth 64), (0x811, x.xlctl.setWidth 64), (0x812, x.objtab.setWidth 64),
   (0x813, x.objcnt.setWidth 64), (0x814, x.fqbase.setWidth 64),
   (0x815, (0#32 ++ x.fqhead ++ x.fqtail ++ 0#4 ++ x.fqlogn : BitVec 64)), (0x816, BitVec.ofNat 64 (fnMemsz s c.fn)),
   (0x817, x.encl.setWidth 64),
   (0x818, (s.fibs.filter (fun e => e.2.wg == f.wg)).foldl (fun a e => a + e.2.energy) 0#64)]

/-- The special registers of 64 bits (R424). -/
def wideReg (n : Nat) : Bool := n == 0x004 || n == 0x044 || n == 0x818

end Sys2Proof.Machine

/-- SRD reads the special register that R424 assigns to a number, outside redundant mode: its value in every active lane of d,
for one of 64 bits in d and d + 1. An unassigned number is an illegal operand; a privileged one outside a handler raises trap
0x03; a 64-bit register with an odd d, or with d + 1 outside the window, is an illegal operand (R424, R425). Where the spec is
silent it states the model's choice (log entry 17). -/
def Obligations.SpecialRegisterReads : Prop :=
  ∀ (l : LForm) (s : State) (fid : Nat) (f : Fibre) (m : LaneMask), (Instr.srd l).wellFormed = true → Issuing s fid f m →
    redKey s f.wg = none → Readable s fid f m [] [l.d.toNat] →
    let n := (l.imm.extractLsb' 0 12).toNat
    let d := l.d.toNat
    ((∀ e ∈ specialRegs s fid f, e.1 ≠ n) → exec (.srd l) s = .next (s.raise fid (trapOf 0x02 m))) ∧
    (∀ e ∈ specialRegs s fid f, e.1 = n →
      (0x800 ≤ n → f.handler = none → exec (.srd l) s = .next (s.raise fid (trapOf 0x03 m))) ∧
      ((n < 0x800 ∨ f.handler.isSome = true) → srPending s fid n = false →
        (wideReg n = false → exec (.srd l) s = .next
          ((s.writeReg fid d m (LaneVec.splat (e.2.extractLsb' 0 32))).modFib fid (fun (g : Fibre) =>
            addEnergy (advance g m 8) (popMask m)))) ∧
        (wideReg n = true → d % 2 = 1 ∨ windowOf s f ≤ d + 1 → exec (.srd l) s = .next (s.raise fid (trapOf 0x02 m))) ∧
        (wideReg n = true → d % 2 = 0 → d + 1 < windowOf s f → regsPending s fid f [d + 1] = false →
          exec (.srd l) s = .next
            (((s.writeReg fid d m (LaneVec.splat (e.2.extractLsb' 0 32))).writeReg fid (d + 1) m
              (LaneVec.splat (e.2.extractLsb' 32 32))).modFib fid (fun (g : Fibre) =>
            addEnergy (advance g m 8) (popMask m))))))

/-- SWR writes the special register under its access codes: sr.fpst and sr.wbst are write-one-to-clear, the registers of R118
take their writable fields, with COUNT and LOGN brought to the nearest limit; HEAD takes effect at once, and CANCEL goes
before REPLAY. A register without a writable field is an illegal operand (R7, R118, R425). Where the spec is silent it states
the model's choice (log entries 17, 33). -/
def Obligations.SpecialRegisterWrites : Prop :=
  ∀ (l : LForm) (s : State) (fid : Nat) (f : Fibre) (m : LaneMask), (Instr.swr l).wellFormed = true → Issuing s fid f m →
    Readable s fid f m [src (.sel l.a) Ty.i32] [] →
    let n := (l.imm.extractLsb' 0 12).toNat
    let v := opdLow s fid f m (.sel l.a)
    let out := s.goneOn fid f m 8
    let c := fibCtx s f
    let x := ctxOf s c
    ((∀ e ∈ specialRegs s fid f, e.1 ≠ n) → exec (.swr l) s = .next (s.raise fid (trapOf 0x02 m))) ∧
    ((∃ e ∈ specialRegs s fid f, e.1 = n) → 0x800 ≤ n → f.handler = none →
      exec (.swr l) s = .next (s.raise fid (trapOf 0x03 m))) ∧
    (n ∈ [0x001, 0x004, 0x030, 0x03B, 0x040, 0x041, 0x042, 0x044, 0x816, 0x817, 0x818] →
      (n < 0x800 ∨ f.handler.isSome = true) → exec (.swr l) s = .next (s.raise fid (trapOf 0x02 m))) ∧
    (n = 0x031 → srPending s fid n = false →
      exec (.swr l) s = .next (out.modFib fid (fun (g : Fibre) => { g with fpst := g.fpst &&& ~~~ v }))) ∧
    (n = 0x03A → exec (.swr l) s = .next (out.setCtx c { x with wbst := x.wbst &&& ~~~ (v &&& 3#32) })) ∧
    (f.handler.isSome = true →
      (n = 0x810 → exec (.swr l) s = .next (out.setCtx c { x with xlroot := 0#4 ++ v.extractLsb' 0 28 })) ∧
      (n = 0x811 → exec (.swr l) s = .next (out.setCtx c { x with xlctl := v.extractLsb' 4 28 ++ 0#3 ++ v.extractLsb' 0 1 })) ∧
      (n = 0x812 → exec (.swr l) s = .next (out.setCtx c { x with objtab := 0#4 ++ v.extractLsb' 0 28 })) ∧
      (n = 0x813 → exec (.swr l) s = .next (out.setCtx c
        { x with objcnt := BitVec.ofNat 32 (min (v.extractLsb' 0 17).toNat 65536) })) ∧
      (n = 0x814 → exec (.swr l) s = .next (out.setCtx c { x with fqbase := 0#4 ++ v.extractLsb' 0 28 })) ∧
      (n = 0x815 →
        let u := out.setCtx c { x with
          fqhead := v.extractLsb' 20 12, fqlogn := BitVec.ofNat 4 (max 4 (min (v.extractLsb' 0 4).toNat 12)) }
        exec (.swr l) s = .next (if v.getLsbD 6 then u.cancelFaults c else if v.getLsbD 7 then u.replayFaults c else u)))

namespace Sys2Proof.Machine

/-- A register holding `v` in every active lane, the fibre's threads gone on by `len` bytes and its energy (R447). -/
def State.answered (s : State) (fid d : Nat) (m : LaneMask) (v : Word) (len : Nat) : State :=
  (s.writeReg fid d m (LaneVec.splat v)).modFib fid (fun (g : Fibre) => addEnergy (advance g m len) (popMask m))

end Sys2Proof.Machine

/-- BOOST outside redundant mode completes with one status: 2 for invalid operands, 4 where another boost or another context's
stands in the way, 3 where the level is not permitted or has no price, 1 where the budget does not suffice; else 0, and a
positive level is in force for its duration at a cost taken from the partition's budget, with a debit record; level 0 ends the
context's own boost. A refusal changes nothing beyond d. While BOOST stalls, a Y mark hands the slot on. An accrual or the end
of a boost of the core that is due comes first, and BOOST stalls (R407, R408, R412, R413). Where the spec is silent it states
the model's choice (log entry 35). -/
def Obligations.BoostStatus : Prop :=
  ∀ (w : WForm) (l : LForm), ∀ r ∈ [(Instr.boostW w, 4, w.d, w.a, w.b, w.y), (Instr.boostL l, 8, l.d, l.a, l.b, l.y)],
    r.1.wellFormed = true → ∀ (s : State) (fid : Nat) (f : Fibre) (m : LaneMask), Issuing s fid f m →
      Readable s fid f m (barSrcs r.2.2.2.1 r.2.2.2.2.1) [r.2.2.1.toNat] → redKey s f.wg = none →
      let L := (opdLow s fid f m (.sel r.2.2.2.1)).toNat
      let dur := (opdLow s fid f m (.sel r.2.2.2.2.1)).toNat
      let c := fibCtx s f
      let p := partRec s c.fn
      let core := fibCore fid
      let price := ((coreOf s core).bprice.toNat / 2 ^ (10 * (L - 1))) % 2 ^ 10
      let cost := (dur * price + (2 ^ 24 - 1)) / 2 ^ 24
      let latch := decide (r.2.2.2.1 = 64#7 ∨ r.2.2.2.1 = 65#7 ∨ r.2.2.2.2.1 = 64#7 ∨ r.2.2.2.2.1 = 65#7)
      let status := fun (u : State) (k : Nat) =>
        (u.answered fid r.2.2.1.toNat m (BitVec.ofNat 32 k) r.2.1).yieldSlot fid r.2.2.2.2.2 latch
      let invalid := 3 < L ∨ (L = 0 ∧ dur ≠ 0) ∨ (0 < L ∧ dur < 65536)
      let due := s.accrualAt ≤ s.tick ∨ ∃ b, (coreOf s core).boost = some b ∧ b.start + b.dur ≤ s.tick
      (due → ∃ t, exec r.1 s = .next t ∧ t.cur.stalled = true ∧ t.parts = s.parts ∧ t.mem = s.mem) ∧
      (¬ due →
      (invalid → exec r.1 s = .next (status s 2)) ∧
      (∀ b, L = 0 → dur = 0 → (coreOf s core).boost = some b → b.ctx ≠ c → exec r.1 s = .next (status s 4)) ∧
      (∀ b, L = 0 → dur = 0 → (coreOf s core).boost = some b → b.ctx = c → exec r.1 s = .next (status (s.endBoost core) 0)) ∧
      (L = 0 → dur = 0 → (coreOf s core).boost = none → exec r.1 s = .next (status s 0)) ∧
      (0 < L → ¬ invalid → (p.maxlvl < L ∨ price = 0) → exec r.1 s = .next (status s 3)) ∧
      (0 < L → ¬ invalid → L ≤ p.maxlvl → price ≠ 0 → (coreOf s core).boost.isSome = true →
        exec r.1 s = .next (status s 4)) ∧
      (0 < L → ¬ invalid → L ≤ p.maxlvl → price ≠ 0 → (coreOf s core).boost = none → p.lifebud.toNat < cost →
        exec r.1 s = .next (status s 1)) ∧
      (0 < L → ¬ invalid → L ≤ p.maxlvl → price ≠ 0 → (coreOf s core).boost = none → cost ≤ p.lifebud.toNat →
        let bud := p.lifebud - BitVec.ofNat 32 cost
        let debit := leBytes core 2 ++ leBytes c.id 2 ++ leBytes (partOf s c.fn) 1 ++ leBytes L 1 ++ leBytes 0 2 ++
          leBytes dur 4 ++ leBytes cost 4 ++ leBytes bud.toNat 4
        let u : State := { s with
          parts := tset s.parts (partOf s c.fn) { p with lifebud := bud }, nvPending := s.nvPending ++ [(0x11, debit)] }
        let b : Boost :=
          { ctx := c, part := partOf s c.fn, level := L, dur := dur, start := s.tick, cost := cost,
            susp := if s.hot.contains (coreDie core) then some s.tick else none, suspended := 0, order := s.boostSeq,
            byPower := false }
        exec r.1 s = .next (status { u.modCore core (fun (x : Core) => { x with boost := some b }) with
          boostSeq := s.boostSeq + 1 } 0)))

/-- ALLOC outside redundant mode completes with status 3 in a pool launch or a handler, 2 for an invalid count, 0 at once for
P itself; a growth that no request stands before and that the free registers cover is granted at once: the fibre's private
registers grow by zeros, the file has as many fewer free, and d, numbered under the new P, holds 0. Other requests block the
fibre in its scheduler's queue (R217, R218). Where the spec is silent it states the model's choice (log entry 34). -/
def Obligations.AllocGrants : Prop :=
  ∀ (w : WForm) (l : LForm), ∀ r ∈ [(Instr.allocW w, 4, w.d, w.a), (Instr.allocL l, 8, l.d, l.a)], r.1.wellFormed = true →
    ∀ (s : State) (fid : Nat) (f : Fibre) (m : LaneMask) (core : Core), Issuing s fid f m →
      Readable s fid f m [src (.sel r.2.2.2) Ty.i32] [r.2.2.1.toNat] → twinFib s fid = none →
      tget s.cores (fibCore fid) = some core →
      let n := (opdLow s fid f m (.sel r.2.2.2)).toNat
      let P := f.regs.length
      let d := r.2.2.1.toNat
      let S := (sharedOf s f).length
      let sched := fibSched fid
      let forbidden := inPool s f = true ∨ f.handler.isSome = true
      let invalid := n % 8 ≠ 0 ∨ n < P ∨ 64 < n + S
      (forbidden → exec r.1 s = .next (s.answered fid d m 3#32 r.2.1)) ∧
      (¬ forbidden → invalid → exec r.1 s = .next (s.answered fid d m 2#32 r.2.1)) ∧
      (¬ forbidden → ¬ invalid → n = P → exec r.1 s = .next (s.answered fid d m 0#32 r.2.1)) ∧
      (¬ forbidden → ¬ invalid → P < n → core.allocs.length = 4 → (∀ q ∈ core.allocs, ∀ x ∈ q, x.fib ≠ fid) →
        core.allocs.getD sched [] = [] → n - P ≤ core.regFree.getD sched 0 → f.yield = false →
        (∀ t ∈ f.threads, t.st ≠ 4#4) →
        exec r.1 s = .next (((s.setCore (fibCore fid)
          { core with regFree := core.regFree.set sched (core.regFree.getD sched 0 - (n - P)) }).setFib fid
          { f with
            hold := .none, heldSince := s.tick
            energy := f.energy + BitVec.ofNat 64 (popMask m)
            regs := f.regs ++ List.replicate (n - P) (Reg.plain (LaneVec.splat 0#32))
            threads := f.threads.zipIdx.map (fun ((t, j) : Thread × Nat) =>
              if m.getLsbD j then { t with pc := t.pc + BitVec.ofNat 64 r.2.1 } else t) }).writeReg fid d m
                (LaneVec.splat 0#32))) ∧
      (¬ forbidden → ¬ invalid → P < n →
        exec r.1 s = .next (((s.setFib fid { f with
            hold := .alloc, heldSince := s.tick
            threads := f.threads.map (fun (t : Thread) => if t.st = 0#4 then { t with st := 4#4 } else t) }).setCore (fibCore fid)
          { core with allocs := core.allocs.modify sched (fun q =>
              q ++ [{ fib := fid, n := n, d := d, mask := m, len := r.2.1 }]) }).examineAllocs (fibCore fid) sched))

/-- FREE shrinks the fibre's private registers to a multiple of 8 from 8 to P and returns the others to its scheduler's file,
which looks at its ALLOC queue again; another count is an illegal operand that changes nothing, and it waits for writes pending
to the registers that it returns, with the count that it has read (R214, R220). SHDW sets the shadow count to its immediate, 1 to 15, in a launch whose kernel lets
shadow execution take effect, and 0 elsewhere; another operand is illegal (R259, R260). -/
def Obligations.FreeAndShadow : Prop :=
  ∀ (w : WForm) (l : LForm) (s : State) (fid : Nat) (f : Fibre) (m : LaneMask), Issuing s fid f m →
    (∀ r ∈ [(Instr.freeW w, 4, w.a), (Instr.freeL l, 8, l.a)], r.1.wellFormed = true →
      Readable s fid f m [src (.sel r.2.2) Ty.i32] [] →
      let n := (opdLow s fid f m (.sel r.2.2)).toNat
      let P := f.regs.length
      (n % 8 ≠ 0 ∨ n < 8 ∨ P < n → exec r.1 s = .next (s.raise fid (trapOf 0x02 m))) ∧
      (n % 8 = 0 → 8 ≤ n → n ≤ P → (∃ i, n ≤ i ∧ i < P ∧ i ∈ pendingPlaces s fid f) →
        ∃ t g, exec r.1 s = .next t ∧ t.cur.stalled = true ∧ tget t.fibs fid = some g ∧ g.regs = f.regs) ∧
      (n % 8 = 0 → 8 ≤ n → n ≤ P → (∀ i, n ≤ i → i < P → i ∉ pendingPlaces s fid f) →
        exec r.1 s = .next (((s.withThreads fid { f with regs := f.regs.take n } m
          (fun _ t => { t with pc := t.pc + BitVec.ofNat 64 r.2.1 })).modCore (fibCore fid) (fun (c : Core) =>
            { c with regFree := c.regFree.set (fibSched fid) (c.regFree.getD (fibSched fid) 0 + (P - n)) })).examineAllocs
              (fibCore fid) (fibSched fid)))) ∧
    (∀ r ∈ [(Instr.freeW w, 4, w.a), (Instr.freeL l, 8, l.a)], r.1.wellFormed = true →
      let P := f.regs.length
      (∀ q v, opdOk false (windowOf s f) (src (.sel r.2.2) Ty.i32) = true → keptFor s f m = some q → q.mask = m → q.src = [v] →
        let k := (v.lane (lowestLane m)).toNat
        k % 8 = 0 → 8 ≤ k → k ≤ P → (∀ i, k ≤ i → i < P → i ∉ pendingPlaces s fid f) → m ≠ 0#32 →
        ∃ (t : State) (g : Fibre), exec r.1 s = .next (t.examineAllocs (fibCore fid) (fibSched fid)) ∧
          tget t.fibs fid = some g ∧
          g.regs = f.regs.take k)) ∧
    (∀ r ∈ [(Instr.shdwW w, 4, w.a), (Instr.shdwL l, 8, l.a)], r.1.wellFormed = true →
      let on := match fibLaunch s f with
        | some la => la.hdr.shdw && !la.lr.shoff
        | none => false
      (r.2.2.toNat < 113 → exec r.1 s = .next (s.raise fid (trapOf 0x02 m))) ∧
      (113 ≤ r.2.2.toNat → exec r.1 s = .next (s.withThreads fid
        { f with shadow := if on then r.2.2.toNat - 112 else 0 } m (fun _ t => { t with pc := t.pc + BitVec.ofNat 64 r.2.1 }))))

/-! ### Loads, stores and the scratchpad -/

namespace Sys2Proof.Machine

/-- A fibre's next memory instruction may begin: no fence obligation stands before it, and no unbuffered release of it is
outstanding (R200, R323). `w` is its workgroup. -/
abbrev MemFree (s : State) (fid : Nat) (f : Fibre) (w : Workgroup) : Prop :=
  tget s.wgs f.wg = some w ∧ f.fences = [] ∧ relPending s fid = false

/-- No watchpoint is looked at: no debug session holds the context, or the fibre is stepping past its match (R443, R445). -/
abbrev Unwatched (s : State) (f : Fibre) : Prop := f.skipBp = true ∨ ctxSession s (fibCtx s f) = none

/-- The lanes of an access and what each accesses. -/
def accessAt (m : LaneMask) (g : Nat → Addr) : List LaneAddr := (lanesOf m).map (fun j => (j, g j))

/-- The address that a register pair and a 32-bit offset give a lane (R197). -/
def pairOffset (s : State) (fid : Nat) (f : Fibre) (m : LaneMask) (l : LForm) (j : Nat) : Addr :=
  (opdLane s fid f m (.sel (l.a + 1#7)) Ty.i32 j ++ opdLane s fid f m (.sel l.a) Ty.i32 j) +
    (opdLane s fid f m (.sel l.b) Ty.i32 j).signExtend 64

/-- The record that LDX and STX read in lanes 0 to 3 of their a register (R188). -/
def recordAt (s : State) (fid : Nat) (f : Fibre) (m : LaneMask) (l : LForm) : ExtRecord :=
  extRecord (srcVec s fid f m (srcLanes (.sel l.a) Ty.i32 0xF#32))

/-- The address or offset that a record gives a lane (R197). -/
def recordOffset (s : State) (fid : Nat) (f : Fibre) (m : LaneMask) (l : LForm) (j : Nat) : Addr :=
  (recordAt s fid f m l).base + (opdLane s fid f m (.sel l.b) Ty.i32 j).setWidth 64

/-- The scratchpad offset of LDS and STS in a lane (R197). -/
def spadOffset (s : State) (fid : Nat) (f : Fibre) (m : LaneMask) (l : LForm) (j : Nat) : Addr :=
  (opdLane s fid f m (.sel l.a) Ty.i32 j + opdLane s fid f m (.sel l.b) Ty.i32 j).setWidth 64

/-- A record takes every active lane's access within its extent (R197). -/
def WithinExtent (s : State) (fid : Nat) (f : Fibre) (m : LaneMask) (l : LForm) : Prop :=
  (recordAt s fid f m l).bad = false ∧
  ∀ j < 32, m.getLsbD j = true →
    (opdLane s fid f m (.sel l.b) Ty.i32 j).toNat + accessSize l ≤ (recordAt s fid f m l).extent

/-- Every lane's access is aligned to its size (R197). -/
def Aligned (size : Nat) (las : List LaneAddr) : Prop := ∀ x ∈ las, x.2.toNat % size = 0

/-- The bytes of lane `j`'s data as a number: one element, or W whole registers (R195, R196). -/
def dataNat (s : State) (fid : Nat) (f : Fibre) (m : LaneMask) (l : LForm) (j : Nat) : Nat :=
  if memW l = 1 then (opdLane s fid f m (.sel l.c) l.ty j).toNat % 2 ^ (8 * elemSize l.ty)
  else (List.range (memW l)).foldl (fun a k => a + (opdLane s fid f m (.sel (l.c + BitVec.ofNat 7 k)) l.ty j).toNat * 2 ^ (32 * k)) 0

/-- The fibre after a memory instruction that lets its threads go on: energy of 4 for each active lane (R447). -/
def memGone (f : Fibre) (m : LaneMask) : Fibre :=
  { f with
    energy := f.energy + BitVec.ofNat 64 (4 * popMask m)
    threads := f.threads.zipIdx.map (fun ((t, j) : Thread × Nat) =>
      if m.getLsbD j then { t with pc := t.pc + BitVec.ofNat 64 8 } else t) }

/-- The flight of a load, as it stands when the load has been issued. -/
def loadFlight (s : State) (fid : Nat) (f : Fibre) (m : LaneMask) (w : Workgroup) (l : LForm)
    (ok : List (Nat × Addr × Place)) : Flight :=
  { kind := .load (memW l) l.ty (Mem.cache l) (Mem.ord l == 1), fib := fid, cmd := none, ctx := w.ctx, core := w.core,
    pc := s.cur.pc, len := 8, mask := m, dst := (loadDests l).map (regPlace f), scope := Mem.scope l, ord := Mem.ord l,
    lanes := ok.map (fun x => { lane := x.1, va := x.2.1, place := x.2.2, x := 0#32, y := 0#32, u := 0, ret := none }),
    lines := (accessLines (accessSize l) ok).map (fun x =>
      let own := ownBytes s w.core w.ctx (redKey s f.wg) x.2.1
      let held := match x.2.1 with
        | .dev d _ => if Mem.ord l = 1 ∨ Mem.cache l = 2 ∨ loadBefore s s.ids w.core (lineSpans d (x.2.2 &&& ~~~ own.1)) = true then none
            else heldLine s w.core d
        | _ => none
      { va := x.1, place := x.2.1, ownMask := own.1, own := own.2,
        data := match x.2.1 with
          | .dev _ _ => if x.2.2 &&& ~~~ own.1 = 0#64 then some own.2 else held.map (fun h => mergeLine h own.2 own.1)
          | _ => none }),
    stage := .request, done := 0#32, flags := 0#5, since := s.tick, retry := 0, split := false, fault := none, waiters := 0 }

end Sys2Proof.Machine

/-- LD and LDX of memory take effect in a fibre that can read their operands when every lane's address is aligned, within the
record's extent, and translates for a read: the load goes into flight with its lanes and lines, a line of device memory being
at hand at once where the core's own stores cover every byte or the core holds a copy that the policy lets it use and no
earlier load of the core has yet to read its bytes; no register and no memory changes yet. Where every lane's place is device
memory the fibre goes on; where one is not, it is held by the load. An acquire holds back the fibre's later memory
instructions. PREF changes neither registers nor memory and goes on (R192, R193, R197, R198, R200, R201, R204). Where the spec
is silent it states the model's choice (log entries 1, 29, 30). -/
def Obligations.LoadsIssue : Prop :=
  ∀ (l : LForm) (s : State) (fid : Nat) (f : Fibre) (m : LaneMask) (w : Workgroup), Issuing s fid f m → MemFree s fid f w →
    (∀ (r : Instr × List Src × (Nat → Addr) × Prop),
      r ∈ [(Instr.ld l, pairSrcs l.a ++ [src (.sel l.b) Ty.i32], pairOffset s fid f m l, addrPairOk (windowOf s f) l.a = true),
        (Instr.ldx l, recordSrcs l, recordOffset s fid f m l,
          l.a.toNat < 64 ∧ (recordAt s fid f m l).sp = false ∧ WithinExtent s fid f m l)] →
      r.1.wellFormed = true → Readable s fid f m r.2.1 (loadDests l) → r.2.2.2 → Unwatched s f →
      let las := accessAt m r.2.2.1
      ∀ ok, Aligned (accessSize l) las → translateLanes s (.core w.core) w.ctx (xlOf s w) (privOf f) .read true las = (ok, []) →
        ∃ t, exec r.1 s = .next t ∧ t.mem = s.mem ∧ (∀ k < 64, regAt t fid k = regAt s fid k) ∧
          tget t.flights s.ids = some (loadFlight s fid f m w l ok) ∧
          (∀ k, k ≠ s.ids → tget t.flights k = tget s.flights k) ∧
          ((∀ x ∈ ok, x.2.2.remote = false) → t.sent = s.sent ∧ t.hostOut = s.hostOut ∧
            tget t.fibs fid = some { memGone f m with fences := if Mem.ord l = 1 then
              [{ rel := false, acq := true, scope := Mem.scope l, refresh := false, flt := some s.ids }] else [] }) ∧
          ((∃ x ∈ ok, x.2.2.remote = true) → ∃ g, tget t.fibs fid = some g ∧ g.hold = .flight s.ids ∧
            g.threads.map (fun (t : Thread) => t.pc) = f.threads.map (fun (t : Thread) => t.pc))) ∧
    ((Instr.pref l).wellFormed = true → Readable s fid f m (pairSrcs l.a ++ [src (.sel l.b) Ty.i32]) [] →
      addrPairOk (windowOf s f) l.a = true →
        ∃ t, exec (.pref l) s = .next t ∧ t = { s with fibs := t.fibs, cores := t.cores } ∧
          tget t.fibs fid = some (memGone f m) ∧ (∀ j, j ≠ fid → tget t.fibs j = tget s.fibs j) ∧
          (Mem.cache l ≠ 0 → t.cores = s.cores))

namespace Sys2Proof.Machine

/-- The byte that a store's lanes leave at byte `k` of a line: the highest lane's that stores there (R199). -/
def storedByte (size : Nat) (ok : List (Nat × Addr × Place)) (val : Nat → Nat) (p : Place) (k : Nat) : Option Byte :=
  (ok.filter (fun x => x.2.2.line = p ∧ x.2.2.off ≤ k ∧ k < x.2.2.off + size)).getLast?.map
    (fun x => BitVec.ofNat 8 (val x.1 / 256 ^ (k - x.2.2.off)))

/-- The byte that the core's own retired stores supply for byte `k` of a line, if they do (R192). -/
def ownByte (s : State) (core : Nat) (c : CtxKey) (red : Option Nat) (p : Place) (k : Nat) : Option Byte :=
  let own := ownBytes s core c red p
  if own.1.getLsbD k then some (lineByte own.2 k) else none

end Sys2Proof.Machine

/-- ST and STX of memory take effect in a fibre that can read their operands when every lane's address is aligned, within the
record's extent, and translates for a write. A store that is no release of scope .clu or wider retires into its core's path
while the path has room: from then on the core reads the stored bytes, the highest lane's where lanes meet, and every other
byte as before; device memory has not changed, and the fibre goes on. Without room it waits for a boundary, with nothing
stored. A wide release goes into flight behind a boundary that is asked for, and holds the fibre. Every store waits for the
fibre's own earlier loads and atomics in flight on its bytes (R192, R197, R199, R200, R293, R294, R320). Where the spec is
silent it states the model's choice (log entries 30, 37). -/
def Obligations.StoresRetire : Prop :=
  ∀ (l : LForm) (s : State) (fid : Nat) (f : Fibre) (m : LaneMask) (w : Workgroup) (c : Core), Issuing s fid f m →
    MemFree s fid f w → Unwatched s f → w.red = none → tget s.cores w.core = some c →
    (∀ e ∈ c.path, e.2.marked = false) →
    ∀ (r : Instr × List Src × (Nat → Addr) × Prop),
      r ∈ [(Instr.st l, pairSrcs l.a ++ [src (.sel l.b) Ty.i32] ++ dataSrcs l, pairOffset s fid f m l,
          addrPairOk (windowOf s f) l.a = true),
        (Instr.stx l, recordSrcs l ++ dataSrcs l, recordOffset s fid f m l,
          l.a.toNat < 64 ∧ (recordAt s fid f m l).sp = false ∧ WithinExtent s fid f m l)] →
      r.1.wellFormed = true → Readable s fid f m r.2.1 [] → r.2.2.2 → dataOk (windowOf s f) l = true →
      (Mem.ord l = 2 → memBusy s fid = false) →
      let las := accessAt m r.2.2.1
      ∀ ok, Aligned (accessSize l) las → translateLanes s (.core w.core) w.ctx (xlOf s w) (privOf f) .write false las = (ok, []) →
        let open_ := ownOpen s fid (ok.filterMap (fun x => match x.2.2 with | .dev d _ => some (d, accessSize l) | _ => none))
        (open_ = true → ∃ t, exec r.1 s = .next t ∧ t.cur.stalled = true ∧ t.mem = s.mem ∧ t.cores = s.cores) ∧
        (open_ = false →
        let lines := storeLines (accessSize l) ok (dataNat s fid f m l)
        let need := pathUsed c + newEntries c lines w.ctx none
        (¬ (Mem.ord l = 2 ∧ 5 ≤ Mem.scope l) → need ≤ 4096 →
          ∃ t, exec r.1 s = .next t ∧ t.mem = s.mem ∧ (∀ k < 64, regAt t fid k = regAt s fid k) ∧
            tget t.fibs fid = some { memGone f m with stores := f.stores + 1#32 } ∧
            (∀ p, ∀ k < 64, ownByte t w.core w.ctx none p k =
              match storedByte (accessSize l) ok (dataNat s fid f m l) p k with
              | some b => some b
              | none => ownByte s w.core w.ctx none p k)) ∧
        (¬ (Mem.ord l = 2 ∧ 5 ≤ Mem.scope l) → 4096 < need →
          ∃ t, exec r.1 s = .next t ∧ t.cur.stalled = true ∧ t.mem = s.mem ∧ (coreOf t w.core).path = c.path ∧
            (∃ g, tget t.fibs fid = some g ∧ g.hold = .boundary s.ids)) ∧
        (Mem.ord l = 2 → 5 ≤ Mem.scope l →
          ∃ t, exec r.1 s = .next t ∧ t.mem = s.mem ∧ (coreOf t w.core).path = c.path ∧
            (∃ fl, tget t.flights s.ids = some fl ∧ fl.kind = .relStore ∧ fl.scope = Mem.scope l ∧
              fl.lines.map (fun (x : LineReq) => (x.place, x.ownMask, x.own)) =
                lines.map (fun (x : StoreLine) => (x.place, x.mask, x.data))) ∧
            (∃ g, tget t.fibs fid = some g ∧ g.hold = .boundary (s.ids + 1)) ∧
            (∃ b ∈ (coreOf t w.core).bounds, b.id = s.ids + 1 ∧ b.flt = some s.ids ∧ b.scope = Mem.scope l)))

namespace Sys2Proof.Machine

/-- No lane passes the end of the scratchpad's allocation (R197), and no lane fails on poison there (R187). -/
def SpadFits (w : Workgroup) (size : Nat) (write : Bool) (las : List LaneAddr) : Prop :=
  (∀ x ∈ las, x.2.toNat + size ≤ w.scratch) ∧ spadFaults w size write las = []

/-- A scratchpad record's use passes R188: its extent lies in the allocation and its instruction has no order, scope or
cache mark. -/
def SpadRecord (s : State) (fid : Nat) (f : Fibre) (m : LaneMask) (w : Workgroup) (l : LForm) : Prop :=
  l.a.toNat < 64 ∧ (recordAt s fid f m l).sp = true ∧ WithinExtent s fid f m l ∧
  (recordAt s fid f m l).base.toNat + (recordAt s fid f m l).extent ≤ w.scratch ∧
  Mem.ord l = 0 ∧ Mem.scope l = 0 ∧ Mem.cache l = 0

/-- The byte that a scratchpad store's lanes leave at byte `k` of the allocation. -/
def spadStored (size : Nat) (las : List LaneAddr) (val : Nat → Nat) (k : Nat) : Option Byte :=
  (las.filter (fun x => x.2.toNat ≤ k ∧ k < x.2.toNat + size)).getLast?.map
    (fun x => BitVec.ofNat 8 (val x.1 / 256 ^ (k - x.2.toNat)))

end Sys2Proof.Machine

/-- LDS, STS, and LDX and STX of a scratchpad record, take effect at once in a fibre that can read their operands when every
lane's access is aligned, within the allocation and free of poison; single-bit errors of the words that they read are
corrected, each with its record. A load writes its registers in the active lanes, each element extended as its type says, and
changes nothing else; a store leaves each lane's bytes in the allocation, the highest lane's where lanes meet, and every other
byte as before, and changes no register and no memory (R184, R187, R188, R196, R197, R199, R202). Where the spec is silent it
states the model's choice (log entry 31). -/
def Obligations.ScratchpadAccesses : Prop :=
  ∀ (l : LForm) (s : State) (fid : Nat) (f : Fibre) (m : LaneMask) (w : Workgroup), Issuing s fid f m → MemFree s fid f w →
    Unwatched s f →
    (∀ (r : Instr × List Src × (Nat → Addr) × Prop),
      r ∈ [(Instr.lds l, [src (.sel l.a) Ty.i32, src (.sel l.b) Ty.i32], spadOffset s fid f m l, True),
        (Instr.ldx l, recordSrcs l, recordOffset s fid f m l, SpadRecord s fid f m w l)] →
      r.1.wellFormed = true → Readable s fid f m r.2.1 (loadDests l) → l.d.toNat + memW l ≤ 64 → r.2.2.2 →
      let las := accessAt m r.2.2.1
      Aligned (accessSize l) las → SpadFits w (accessSize l) false las →
        ∃ t, exec r.1 s = .next t ∧ OnlyFibres (s.spadMend f.wg (laneRanges (accessSize l) las)) t fid f.slot ∧
          (∀ k < memW l, ∀ j < 32, regLane t fid (l.d.toNat + k) j =
            if m.getLsbD j then loadedWord l.ty (readNat w.spad (r.2.2.1 j).toNat (accessSize l)) k
            else regLane s fid (l.d.toNat + k) j) ∧
          (∀ i < 64, i ∉ loadDests l → regAt t fid i = regAt s fid i) ∧
          (∃ g, tget t.fibs fid = some g ∧ g = { memGone f m with regs := g.regs })) ∧
    (∀ (r : Instr × List Src × (Nat → Addr) × Prop),
      r ∈ [(Instr.sts l, [src (.sel l.a) Ty.i32, src (.sel l.b) Ty.i32] ++ dataSrcs l, spadOffset s fid f m l, True),
        (Instr.stx l, recordSrcs l ++ dataSrcs l, recordOffset s fid f m l, SpadRecord s fid f m w l)] →
      r.1.wellFormed = true → Readable s fid f m r.2.1 [] → r.2.2.2 → dataOk (windowOf s f) l = true →
      let las := accessAt m r.2.2.1
      Aligned (accessSize l) las → SpadFits w (accessSize l) true las →
        let u := if 4 ≤ accessSize l then s else s.spadMend f.wg (laneRanges (accessSize l) las)
        ∃ t v, exec r.1 s = .next t ∧ t = { u with fibs := t.fibs, wgs := tset u.wgs f.wg v } ∧
          v = { w with spad := v.spad, spadPoison := v.spadPoison, spadRel := v.spadRel, spadWeak := v.spadWeak } ∧
          (∀ k, readByte v.spad k = match spadStored (accessSize l) las (dataNat s fid f m l) k with
            | some b => b
            | none => readByte w.spad k) ∧
          tget t.fibs fid = some (memGone f m) ∧ (∀ j, j ≠ fid → tget t.fibs j = tget s.fibs j))

/-- Accesses that R197 refuses write nothing and trap. A misaligned lane raises the alignment trap with the failing lanes and
the address of the lowest, a scratchpad offset giving no address; a lane beyond the allocation of LDS, STS and ATOMS, or
beyond the extent of a record, raises the bounds trap; a record that R188 calls malformed is an illegal operand; and lanes
that do not translate go to the access fault of R115 (R131, R188, R197, R387). Where the spec is silent it states the model's
choice (log entries 31, 32). -/
def Obligations.AccessTraps : Prop :=
  ∀ (l : LForm) (s : State) (fid : Nat) (f : Fibre) (m : LaneMask) (w : Workgroup), Issuing s fid f m → MemFree s fid f w →
    (Mem.ord l = 2 ∨ Mem.ord l = 3 → memBusy s fid = false) →
    let low (bad : List LaneAddr) : Addr := (bad.headD (0, 0#64)).2
    let off (size : Nat) (las : List LaneAddr) := las.filter (fun x => x.2.toNat % size ≠ 0)
    let lanes (bad : List LaneAddr) := maskOf (bad.map (fun x => x.1))
    let pair := pairSrcs l.a ++ [src (.sel l.b) Ty.i32]
    let spad := [src (.sel l.a) Ty.i32, src (.sel l.b) Ty.i32]
    -- memory: alignment, then translation
    (∀ (r : Instr × List Src × List Nat × Acc × Bool),
      r ∈ [(Instr.ld l, pair, loadDests l, Acc.read, true), (Instr.st l, pair ++ dataSrcs l, [], Acc.write, false)] →
      r.1.wellFormed = true → Readable s fid f m r.2.1 r.2.2.1 → addrPairOk (windowOf s f) l.a = true →
      (r.2.2.2.2 = false → dataOk (windowOf s f) l = true) →
      let las := accessAt m (pairOffset s fid f m l)
      let bad := off (accessSize l) las
      (bad ≠ [] → exec r.1 s = .next (s.raise fid (trapAddr 0x30 (lanes bad) (low bad)))) ∧
      (bad = [] → ∀ ok faults, translateLanes s (.core w.core) w.ctx (xlOf s w) (privOf f) r.2.2.2.1 r.2.2.2.2 las = (ok, faults) → faults ≠ [] →
        exec r.1 s = .next (s.accessFault fid m faults))) ∧
    -- scratchpad: alignment, then the allocation's end
    (∀ (r : Instr × List Src × List Nat × (Nat → Addr) × Nat),
      r ∈ [(Instr.lds l, spad, loadDests l, spadOffset s fid f m l, accessSize l),
        (Instr.sts l, spad ++ dataSrcs l, [], spadOffset s fid f m l, accessSize l),
        (Instr.atoms l, src (.sel l.a) Ty.i32 :: atomSrcs l, atomDests l,
          fun j => (opdLane s fid f m (.sel l.a) Ty.i32 j).setWidth 64, if Mem.sub l = 0xC then 8 else 4)] →
      r.1.wellFormed = true → Readable s fid f m r.2.1 r.2.2.1 → (r.1 = .sts l → dataOk (windowOf s f) l = true) →
      let las := accessAt m r.2.2.2.1
      let bad := off r.2.2.2.2 las
      let past := las.filter (fun x => w.scratch < x.2.toNat + r.2.2.2.2)
      (bad ≠ [] → exec r.1 s = .next (s.raise fid (trapAddr 0x30 (lanes bad) 0#64))) ∧
      (bad = [] → past ≠ [] → exec r.1 s = .next (s.raise fid (trapAddr 0x32 (lanes past) 0#64)))) ∧
    -- records
    (∀ (r : Instr × List Src × List Nat), r ∈ [(Instr.ldx l, recordSrcs l, loadDests l), (Instr.stx l, recordSrcs l ++ dataSrcs l, [])] →
      r.1.wellFormed = true → Readable s fid f m r.2.1 r.2.2 → l.a.toNat < 64 → (r.1 = .stx l → dataOk (windowOf s f) l = true) →
      let x := recordAt s fid f m l
      let las := accessAt m (recordOffset s fid f m l)
      let bad := off (accessSize l) las
      let past := las.filter (fun y => x.extent < (opdLane s fid f m (.sel l.b) Ty.i32 y.1).toNat + accessSize l)
      let illegal := x.bad = true ∨ (x.sp = true ∧ ¬ (Mem.ord l = 0 ∧ Mem.scope l = 0 ∧ Mem.cache l = 0))
      (bad ≠ [] → exec r.1 s = .next (s.raise fid (trapAddr 0x30 (lanes bad) (if x.sp then 0#64 else low bad)))) ∧
      (bad = [] → illegal → exec r.1 s = .next (s.raise fid (trapOf 0x02 m))) ∧
      (bad = [] → ¬ illegal → x.sp = false → past ≠ [] →
        exec r.1 s = .next (s.raise fid (trapAddr 0x32 (lanes past) (low past)))))

/-! ### Atomics, pods and the events of memory -/

namespace Sys2Proof.Machine

/-- The new value of a word under R132 for the integer types. -/
def atomTable (sub : Nat) (ty : BitVec 4) (old x y : Word) : Word :=
  match sub with
  | 0 => old + x
  | 1 => if intVal ty old ≤ intVal ty x then old else x
  | 2 => if intVal ty x ≤ intVal ty old then old else x
  | 3 => old &&& x
  | 4 => old ||| x
  | 5 => old ^^^ x
  | 6 => x
  | 7 => if old = y then x else old
  | 8 => if intVal ty old < intVal ty x then old + 1#32 else old
  | 9 => if intVal ty x < intVal ty old then old - 1#32 else old
  | 10 => old
  | 11 => x
  | _ => old + x

/-- One lane of an atomic: its number, the place of its word, its operands, and its draw. -/
structure AtomLane where
  lane : Nat
  at_ : Nat
  x : Word
  y : Word
  u : Nat

/-- The lanes of an atomic one after the other on a memory: the memory after them, what each found, and the flags (R135). -/
def atomRun (sub : Nat) (ty : BitVec 4) (mode : Nat) : List AtomLane → Bytes → Bytes × List (Nat × Word) × Flags5
  | [], b => (b, [], Flags5.none)
  | a :: r, b =>
    let old := readWord b a.at_
    let n := atomNew sub ty mode a.u old a.x a.y
    let q := atomRun sub ty mode r (writeBytes b a.at_ (leBytes n.1.toNat 4))
    (q.1, (a.lane, old) :: q.2.1, n.2 ||| q.2.2)

/-- The b and c operands of an atomic in a lane, where the sub-operation has them (R132). -/
def atomB (s : State) (fid : Nat) (f : Fibre) (m : LaneMask) (l : LForm) (j : Nat) : Word :=
  if Mem.sub l = 0xA then 0#32 else opdLane s fid f m (.sel l.b) l.ty j
def atomC (s : State) (fid : Nat) (f : Fibre) (m : LaneMask) (l : LForm) (j : Nat) : Word :=
  if Mem.sub l = 7 ∨ Mem.sub l = 0xC then opdLane s fid f m (.sel l.c) l.ty j else 0#32

/-- The rounding state of a lane, and the draw that an atomic under .rs takes from it (R133). -/
def rstateOf (f : Fibre) (j : Nat) : BitVec 64 := (f.threads.map (fun (t : Thread) => t.rstate)).getD j 0#64
def atomU (f : Fibre) (l : LForm) (j : Nat) : Nat := if l.mode = 4#3 then drawValue (drawStep (rstateOf f j)) else 0

/-- The active threads of an atomic go on, and under .rs each has taken its draw. -/
def atomThreads (f : Fibre) (m : LaneMask) (l : LForm) : List Thread :=
  f.threads.zipIdx.map (fun ((t, j) : Thread × Nat) =>
    if m.getLsbD j then
      { t with pc := t.pc + BitVec.ofNat 64 8, rstate := if l.mode = 4#3 then drawStep t.rstate else t.rstate }
    else t)

end Sys2Proof.Machine

/-- The new value of a word under each sub-operation of an integer type is R132's, and raises no flag. ATOMS takes effect at
once in a fibre that can read its operands when every offset is aligned, within the allocation and free of poison: its lanes
run in ascending order on the allocation, single-bit errors of the words being corrected first, each receives the word that it
found, .st writes no register, and nothing but the allocation, the destination, the flags and what ordering records changes.
The one-lane .tadd of ATOMS is performed when its ticket is the cell's, refused with status 1 when it is stale, and else waits
(R132, R133, R134, R138, R139). Where the spec is silent it states the model's choice (log entry 42). -/
def Obligations.AtomicResults : Prop :=
  (∀ (sub : Nat) (ty : BitVec 4) (mode u : Nat) (old x y : Word), sub ≤ 12 → ty = Ty.i32 ∨ ty = Ty.n32 →
    atomNew sub ty mode u old x y = (atomTable sub ty old x y, Flags5.none)) ∧
  (∀ (l : LForm) (s : State) (fid : Nat) (f : Fibre) (m : LaneMask) (w : Workgroup), Issuing s fid f m → MemFree s fid f w →
    Unwatched s f → (Instr.atoms l).wellFormed = true → Readable s fid f m (src (.sel l.a) Ty.i32 :: atomSrcs l) (atomDests l) →
    (2 ≤ Mem.ord l → memBusy s fid = false) →
    let off (j : Nat) : Addr := (opdLane s fid f m (.sel l.a) Ty.i32 j).setWidth 64
    let las := accessAt m off
    (Mem.sub l ≠ 0xC → Aligned 4 las → SpadFits w 4 false las →
      let run := atomRun (Mem.sub l) l.ty l.mode.toNat ((lanesOf m).map (fun j =>
        { lane := j, at_ := (off j).toNat, x := atomB s fid f m l j, y := atomC s fid f m l j, u := atomU f l j })) w.spad
      ∃ t v g, exec (.atoms l) s = .next t ∧
        t = { s.spadMend f.wg (laneRanges 4 las) with fibs := t.fibs, slots := t.slots, wgs := t.wgs, ctxs := t.ctxs } ∧
        tget t.wgs f.wg = some v ∧ v = { w with spad := v.spad, spadRel := v.spadRel, spadWeak := v.spadWeak } ∧
        (∀ k, readByte v.spad k = readByte run.1 k) ∧
        (Mem.sub l ≠ 0xB → ∀ j < 32, regLane t fid l.d.toNat j =
          if m.getLsbD j then (tget run.2.1 j).getD 0#32 else regLane s fid l.d.toNat j) ∧
        (∀ i < 64, i ∉ atomDests l → regAt t fid i = regAt s fid i) ∧
        tget t.fibs fid = some g ∧
        g = { f with regs := g.regs, fpst := f.fpst ||| run.2.2.setWidth 32,
                     energy := f.energy + BitVec.ofNat 64 (8 * popMask m), threads := atomThreads f m l,
                     seenRel := g.seenRel }) ∧
    (Mem.sub l = 0xC → Aligned 8 las → SpadFits w 8 false las → ∀ j, lanesOf m = [j] → (liveMask f).getLsbD j = true →
      let a := (off j).toNat
      let ahead := (atomC s fid f m l j - readWord w.spad (a + 4)).toInt
      let new := (atomNew 0 l.ty l.mode.toNat (atomU f l j) (readWord w.spad a) (atomB s fid f m l j) 0#32).1
      ∃ t v g, exec (.atoms l) s = .next t ∧ t.mem = s.mem ∧ tget t.wgs f.wg = some v ∧ tget t.fibs fid = some g ∧
        (ahead < 0 → v.spad = w.spad ∧ regLane t fid l.d.toNat j = 1#32) ∧
        (ahead = 0 → (∀ k, readByte v.spad k = readByte (writeBytes (writeBytes w.spad a (leBytes new.toNat 4)) (a + 4)
            (leBytes (readWord w.spad (a + 4) + 1#32).toNat 4)) k) ∧ regLane t fid l.d.toNat j = 0#32) ∧
        (0 < ahead → v.spad = w.spad ∧ g.hold = .flight s.ids ∧
          (∀ i < 64, regAt t fid i = regAt s fid i))))

namespace Sys2Proof.Machine

/-- The address that a pair register gives the lowest active lane (R131). -/
def podAddr (s : State) (fid : Nat) (f : Fibre) (m : LaneMask) (l : LForm) : Addr :=
  (srcVec s fid f m (srcLanes (.sel (l.a + 1#7)) Ty.i32 (lowMask s))).lane (lowestLane m) ++
    (srcVec s fid f m (srcLanes (.sel l.a) Ty.i32 (lowMask s))).lane (lowestLane m)

/-- The word of a source that is read in the lowest active lane alone. -/
def podOpd (s : State) (fid : Nat) (f : Fibre) (m : LaneMask) (o : BitVec 7) : Word :=
  (srcVec s fid f m (srcLanes (.sel o) Ty.i32 (lowMask s))).lane (lowestLane m)

/-- The ticket of a .seq form. -/
def podTicket (s : State) (fid : Nat) (f : Fibre) (m : LaneMask) (l : LForm) : Word :=
  if Pod.variant l = 2 then podOpd s fid f m l.c else 0#32

/-- What a memory request leaves at issue: one more flight, nothing in memory, no register. -/
structure GoesOut (s t : State) (fid : Nat) (fl : Flight) : Prop where
  mem : t.mem = s.mem
  regs : ∀ k < 64, regAt t fid k = regAt s fid k
  flight : tget t.flights s.ids = some fl
  others : ∀ k, k ≠ s.ids → tget t.flights k = tget s.flights k
  wgs : t.wgs = s.wgs

/-- A flight as R135 and R143 issue it. -/
def requestFlight (s : State) (fid : Nat) (f : Fibre) (m : LaneMask) (w : Workgroup) (kind : FKind) (ds : List Nat)
    (scope ord size : Nat) (ok : List (Nat × Addr × Place)) (lane : Nat × Addr × Place → LaneReq) : Flight :=
  { kind := kind, fib := fid, cmd := none, ctx := w.ctx, core := w.core, pc := s.cur.pc, len := 8, mask := m,
    dst := ds.map (regPlace f), scope := scope, ord := ord, lanes := ok.map lane,
    lines := (accessLines size ok).map (fun x => { va := x.1, place := x.2.1, ownMask := 0#64, own := 0#512, data := none }),
    stage := .request, done := 0#32, flags := 0#5, since := s.tick, retry := 0, split := false, fault := none, waiters := 0 }

end Sys2Proof.Machine

/-- ATOM, ENQ, DEQ, PODI and PODQ take effect in a fibre of a workgroup that is not redundant and can read their operands,
when their addresses are aligned and translate: one request goes into flight, with the lanes' operands or with the elements of
an ENQ, in ascending lane; no register and no memory changes yet. An ATOM on device memory that is no .tadd lets its threads
go on; every other of these holds its fibre until it completes. A release waits for the fibre's earlier memory instructions,
and after a release fence a relaxed ATOM is one at the fence's scope, an ENQ or PODI one at the wider of both (R323, R324,
R131, R133, R135, R137, R143, R145, R147, R148, R200). Where the spec is silent it states the model's choice (log entry 42).
-/
def Obligations.RequestsIssue : Prop :=
  ∀ (l : LForm) (s : State) (fid : Nat) (f : Fibre) (m : LaneMask) (w : Workgroup), Issuing s fid f m → MemFree s fid f w →
    Unwatched s f → w.red = none → m ≠ 0#32 → addrPairOk (windowOf s f) l.a = true →
    ((Instr.atom l).wellFormed = true → Readable s fid f m (pairSrcs l.a ++ atomSrcs l) (atomDests l) →
      (2 ≤ Mem.ord l → memBusy s fid = false) →
      let va (j : Nat) : Addr := opdLane s fid f m (.sel (l.a + 1#7)) Ty.i32 j ++ opdLane s fid f m (.sel l.a) Ty.i32 j
      let las := accessAt m va
      let acq : Bool := decide (Mem.ord l = 1 ∨ Mem.ord l = 3)
      let ordered : Nat × Nat := match f.relMark with
        | some sc => if Mem.ord l = 0 ∧ Mem.sub l ≠ 0xA then (4, sc) else (Mem.ord l, Mem.scope l)
        | none => (Mem.ord l, Mem.scope l)
      ∀ ok, Aligned (if Mem.sub l = 0xC then 8 else 4) las →
        translateLanes s (.core w.core) w.ctx (xlOf s w) (privOf f) (if Mem.sub l = 0xA then .read else .atomic) true las = (ok, []) →
        hostAtomFaults (Mem.sub l) l.ty ok = [] →
        ∃ t g, exec (.atom l) s = .next t ∧
          GoesOut s t fid (requestFlight s fid f m w
            (if Mem.sub l = 0xC then .tadd l.ty l.mode.toNat else .atom (Mem.sub l) l.ty l.mode.toNat) (atomDests l)
            ordered.2 ordered.1 4 ok (fun x =>
              { lane := x.1, va := x.2.1, place := x.2.2, x := atomB s fid f m l x.1, y := atomC s fid f m l x.1,
                u := atomU f l x.1, ret := none,
                rs := if l.mode = 4#3 then (f.threads.map (fun (t : Thread) => t.rstate))[x.1]? else none })) ∧
          tget t.fibs fid = some g ∧
          g.fences = (if acq then [{ rel := false, acq := true, scope := Mem.scope l, refresh := false, flt := some s.ids }] else []) ∧
          g.energy = f.energy + BitVec.ofNat 64 (8 * popMask m) ∧
          (Mem.sub l ≠ 0xC → (∀ x ∈ ok, x.2.2.remote = false) → g = { f with
            fences := g.fences, energy := g.energy, threads := atomThreads f m l }) ∧
          (Mem.sub l = 0xC ∨ (∃ x ∈ ok, x.2.2.remote = true) → g.hold = .flight s.ids)) ∧
    (∀ (r : Instr × List Src × List Nat × Bool × FKind),
      r ∈ [(Instr.enq l, enqSrcs l ++ ticketSrcs l s, [l.d.toNat], true,
            FKind.enq (Pod.variant l) (Pod.logW l) (podTicket s fid f m l) ((lanesOf m).map (fun j =>
              (List.range (2 ^ Pod.logW l)).map (fun k => opdLane s fid f m (.sel (l.b + BitVec.ofNat 7 k)) Ty.i32 j)))),
        (Instr.deq l, ticketSrcs l s, (List.range (2 ^ Pod.logW l + 1)).map (fun k => l.d.toNat + k), false,
            FKind.deq (Pod.variant l) (Pod.logW l) (podTicket s fid f m l)),
        (Instr.podi l, if Mem.sub l = 0 then [srcLanes (.sel l.b) Ty.i32 (lowMask s)] else [], [l.d.toNat], true,
            if Mem.sub l = 0 then FKind.podInit (podOpd s fid f m l.b) else FKind.podClose),
        (Instr.podq l, [], [l.d.toNat], false, FKind.podQuery (Mem.sub l))] →
      r.1.wellFormed = true → Readable s fid f m (podPair l s ++ r.2.1) r.2.2.1 →
      (r.1 = .enq l → Pod.logW l = 0 ∨ l.b.toNat + 2 ^ Pod.logW l ≤ windowOf s f) →
      (r.2.2.2.1 = true → memBusy s fid = false) → (podAddr s fid f m l).toNat % 64 = 0 →
      let scope := match f.relMark with
        | some sc => if r.2.2.2.1 then max (Mem.scope l) sc else Mem.scope l
        | none => Mem.scope l
      ∀ ok, translateLanes s (.core w.core) w.ctx (xlOf s w) (privOf f) .atomic true [(lowestLane m, podAddr s fid f m l)] = (ok, []) →
        hostAtomFaults 0xC l.ty ok = [] →
        ∃ t g, exec r.1 s = .next t ∧
          GoesOut s t fid (requestFlight s fid f m w r.2.2.2.2 r.2.2.1 scope (if r.2.2.2.1 then 2 else 0) 64 ok
            (fun x => { lane := x.1, va := x.2.1, place := x.2.2, x := 0#32, y := 0#32, u := 0, ret := none })) ∧
          tget t.fibs fid = some g ∧ g.hold = .flight s.ids ∧ g.energy = f.energy + 16#64)

/-- The events of a load. SLICE_READ waits for the core's earlier loads of the same bytes; it takes a line from a copy that
the core holds, where the policy allows one, and else from the home slice: its bytes are the core's own stores where they
cover and memory's elsewhere, memory keeps its bytes, and the core holds the line afterwards under .hold or in place of a copy
that it held. A poisoned line fails the load. LOAD_REPLY of a load whose lines are all at hand writes its registers in the
lanes still to be written whose threads live, ends the flight, and lets a fibre that it held go on; an acquire of scope .clu
or wider empties the core's snapshot. SPLIT_LOAD writes the lanes whose bytes have arrived, lets them go on, and leaves the
others late (R192, R198, R201, R312, R315). Under conditions on the state and the operands alone it concludes that exec
answers a next state with the effect named for splitLoad, loadReply and sliceRead. Where the spec is silent it states the
model's choice (log entries 1, 29). -/
def Obligations.LoadEvents : Prop :=
  ∀ (s : State) (id n : Nat) (fl : Flight) (w : Nat) (ty : BitVec 4) (policy : Nat) (acq : Bool),
    tget s.flights id = some fl → fl.kind = .load w ty policy acq →
    (∀ (ln : LineReq) (d k : Nat), fl.lines[n]? = some ln → ln.place = .dev d k → ln.data = none →
      loadBefore s id fl.core (openOnLine fl n) = true → exec (.sliceRead id n) s = .next s) ∧
    (∀ (ln : LineReq) (d k : Nat), fl.lines[n]? = some ln → ln.place = .dev d k → ln.data = none → fl.ord = (if acq then 1 else 0) →
      loadBefore s id fl.core (openOnLine fl n) = false →
      let fresh := acq || decide (policy = 2)
      let held := if fresh then none else heldLine s fl.core d
      (∀ x, held = some x → exec (.sliceRead id n) s = .next (s.setFlight id { fl with
        lines := fl.lines.modify n (fun y => { y with data := some (mergeLine x y.own y.ownMask) }) })) ∧
      (held = none → poisoned s d = true → (fresh = true → atomBefore s id fl (openOnLine fl n) = false) →
        exec (.sliceRead id n) s = .next (s.failFlight id 6 n)) ∧
      (held = none → poisoned s d = false → (fresh = true → atomBefore s id fl (openOnLine fl n) = false) →
        ∃ t g y x, exec (.sliceRead id n) s = .next t ∧ t = { s with flights := t.flights, ctxs := t.ctxs, cores := t.cores } ∧
          tget t.flights id = some g ∧ g = { fl with lines := g.lines } ∧ g.lines[n]? = some y ∧
          y = { ln with data := some x } ∧
          (∀ j < 64, lineByte x j = if ln.ownMask.getLsbD j then lineByte ln.own j else readByte s.mem (d + j)) ∧
          (∀ i, i ≠ n → g.lines[i]? = fl.lines[i]?) ∧
          (policy = 0 → acq = false → (tget s.cores fl.core).isSome = true →
            tget (coreOf t fl.core).snap (lineBase d) = some (readLine s.mem d)))) ∧
    (∀ (f : Fibre) (d : Nat), tget s.fibs fl.fib = some f → d + w ≤ windowOf s f → d + w ≤ 64 →
      fl.dst = (List.range w).map (fun k => regPlace f (d + k)) →
      linesReady fl = true →
      ∃ t g, exec (.loadReply id none) s = .next t ∧ t = { s with flights := t.flights, fibs := t.fibs, slots := t.slots, cores := t.cores } ∧
        tget t.flights id = none ∧ tget t.fibs fl.fib = some g ∧
        (∀ k < w, ∀ j < 32, ∀ x b, fl.mask.getLsbD j = true → fl.done.getLsbD j = false → (liveMask f).getLsbD j = true → laneReq fl j = some x →
          laneBytes fl (w * elemSize ty) x = some b → regLane t fl.fib (d + k) j = loadedWord ty b k) ∧
        (∀ i < 64, (∀ k < w, i ≠ d + k) → regAt t fl.fib i = regAt s fl.fib i) ∧
        (∀ k < w, ∀ j < 32, fl.mask.getLsbD j = false ∨ fl.done.getLsbD j = true ∨ (liveMask f).getLsbD j = false →
          regLane t fl.fib (d + k) j = regLane s fl.fib (d + k) j) ∧
        (f.hold = .flight id → g.hold = .none) ∧ (f.hold ≠ .flight id → g.hold = f.hold) ∧
        (acq = true → 5 ≤ fl.scope → (coreOf t fl.core).snap = []) ∧
        ((acq = false ∨ fl.scope < 5) → t.cores = s.cores)) ∧
    (∀ (f : Fibre), tget s.fibs fl.fib = some f →
      let early := arrivedLanes fl (w * elemSize ty) &&& fl.mask
      let late := fl.mask &&& ~~~ early
      maySplit s fl = true → early ≠ 0#32 → late ≠ 0#32 →
      ∃ t g, exec (.splitLoad id) s = .next t ∧ t.mem = s.mem ∧ tget t.flights id = some { fl with split := true, done := early } ∧
        tget t.fibs fl.fib = some g ∧ g.hold = .none ∧ g.splits = f.splits ++ [{ flt := id, late := late }] ∧
        (∀ j (t0 : Thread), j < 32 → f.threads[j]? = some t0 → early.getLsbD j = true →
          ∃ t1, g.threads[j]? = some t1 ∧ t1.pc = t0.pc + BitVec.ofNat 64 fl.len) ∧
        (∀ j (t0 : Thread), j < 32 → f.threads[j]? = some t0 → late.getLsbD j = true →
          ∃ t1, g.threads[j]? = some t1 ∧ t1.st = 2#4 ∧ t1.wait = .late id ∧ t1.pc = t0.pc))

/-- The events of the store path. MERGE of a marked entry writes its bytes at the home slice of its line and no other byte, or
loses them on poison with the context's wbst bit set; bytes of host memory go out as one write for each run. MERGE_ACK of an
entry that has been performed acknowledges it. PHASE_BOUNDARY marks every entry that holds buffered bytes of workgroups that
are not redundant (R293, R295, R296, R297). Under conditions on the state and the operands alone it concludes that exec
answers a next state with the effect named for merge, phaseBoundary and mergeAck. Where the spec is silent it states the
model's choice (log entry 37). -/
def Obligations.StoreEvents : Prop :=
  ∀ (s : State) (core ent : Nat) (c : Core), tget s.cores core = some c →
    (∀ (e : PathEntry) (d k : Nat), tget c.path ent = some e → e.marked = true → e.performed = false → e.place = .dev d k →
      d % 64 = 0 → e.rel = none →
      ∃ t, exec (.merge core ent) s = .next t ∧
        tget (coreOf t core).path ent = some { e with performed := true } ∧
        (∀ i, i ≠ ent → tget (coreOf t core).path i = tget c.path i) ∧
        (writeLands s d e.mask = true → ∀ a, readByte t.mem a =
          if d ≤ a ∧ a < d + 64 ∧ e.mask.getLsbD (a - d) = true then lineByte e.data (a - d) else readByte s.mem a) ∧
        (writeLands s d e.mask = false → t.mem = s.mem ∧
          (ctxOf t e.ctx).wbst = (ctxOf s e.ctx).wbst ||| 1#32)) ∧
    (∀ (e : PathEntry) (a : Nat), tget c.path ent = some e → e.marked = true → e.performed = false → e.place = .sys a →
      s.contained = false →
      ∃ t, exec (.merge core ent) s = .next t ∧ t.mem = s.mem ∧
        tget (coreOf t core).path ent = some { e with performed := true } ∧
        t.hostOut = s.hostOut ++ (maskRuns e.mask).map (fun r => .write (a + r.1) (lineRun e.data r))) ∧
    (∀ (e : PathEntry) (d k : Nat), tget c.path ent = some e → e.performed = true → e.acked = false → e.place = .dev d k →
      e.rel = none → boundaryBusy c = false →
      exec (.mergeAck core ent none) s = .next (s.setCore core { c with path := tset c.path ent { e with acked := true } })) ∧
    (boundaryBusy c = false → c.bounds ≠ [] → (∃ e ∈ c.path, e.2.wg = none ∧ e.2.rel = none ∧ e.2.acked = false) →
      exec (.phaseBoundary core) s = .next (s.setCore core { c with
        path := c.path.map (fun ((i, e) : Nat × PathEntry) => (i, if e.wg = none ∧ e.rel = none then { e with marked := true } else e))
        bounds := c.bounds.map (fun (b : Boundary) => { b with started := true }) }))

/-- The events of an atomic. ATOMIC_EVENT performs the lanes of one line as one event in ascending order, each receiving the
word that it found. ATOM_COMPLETE of one whose lanes have all been served writes its destination in its lanes whose threads
live, ORs its flags into the fibre's and ends the flight. TADD_WAKE evaluates one waiting lane of a .tadd against its cell
(R135, R139, R149). Under conditions on the state and the operands alone it concludes that exec answers a next state with the
effect named for atomComplete, atomicEvent and taddWake. Where the spec is silent it states the model's choice (log entry 42).
-/
def Obligations.AtomicEvents : Prop :=
  ∀ (s : State) (id n : Nat) (fl : Flight), tget s.flights id = some fl → flightHalted s id = false → fl.stage = .request →
    (fl.lanes.map (fun (x : LaneReq) => x.lane)).Nodup → isGuest fl = false →
    (∀ (sub : Nat) (ty : BitVec 4) (mode : Nat) (ln : LineReq) (d k : Nat), fl.kind = .atom sub ty mode →
      fl.lines[n]? = some ln → ln.place = .dev d k → ln.data = none → mustFollow s id fl (openOnLine fl n) = false →
      poisoned s d = false →
      let run := atomRun sub ty mode ((lanesOnLine fl n).map (fun (x : LaneReq) =>
        { lane := x.lane, at_ := (match x.place with | .dev a _ => a | _ => 0), x := x.x, y := x.y, u := x.u })) s.mem
      ∃ t, exec (.atomicEvent id n) s = .next t ∧
        t = { s with mem := t.mem, unseen := t.unseen, flights := t.flights, fibs := t.fibs, ctxs := t.ctxs, lineRel := t.lineRel } ∧
        (∀ a, readByte t.mem a = readByte run.1 a) ∧
        tget t.flights id = some { fl with
          lanes := fl.lanes.map (fun (x : LaneReq) => { x with ret := match tget run.2.1 x.lane with | some o => some o | none => x.ret })
          lines := fl.lines.modify n (fun (y : LineReq) => { y with data := some 0#512 })
          flags := fl.flags ||| run.2.2 } ∧
        (∀ j, j ≠ id → tget t.flights j = tget s.flights j)) ∧
    (∀ (sub : Nat) (ty : BitVec 4) (mode : Nat) (f : Fibre) (d : Nat), fl.kind = .atom sub ty mode → lanesReady fl = true →
      tget s.fibs fl.fib = some f → d < windowOf s f → d < 64 → fl.dst = [regPlace f d] → twinFib s fl.fib = none → logWg s fl.fib = none →
      f.hold ≠ .flight id →
      ∃ t g, exec (.atomComplete id none) s = .next t ∧ t.mem = s.mem ∧ tget t.flights id = none ∧ tget t.fibs fl.fib = some g ∧
        g = { f with regs := g.regs, fpst := f.fpst ||| fl.flags.setWidth 32 } ∧
        (∀ j < 32, regLane t fl.fib d j = if fl.mask.getLsbD j && (liveMask f).getLsbD j then
          (match laneReq fl j with | some x => x.ret.getD 0#32 | none => 0#32) else regLane s fl.fib d j) ∧
        (∀ i < 64, i ≠ d → regAt t fl.fib i = regAt s fl.fib i)) ∧
    (∀ (ty : BitVec 4) (mode : Nat) (x : LaneReq) (d k : Nat), fl.kind = .tadd ty mode → laneReq fl n = some x →
      x.place = .dev d k → x.ret = none → poisoned s d = false →
      (∃ y ∈ fl.lanes, y.lane ≠ n ∧ y.ret = none) →
      let ahead := (x.y - readWord s.mem (d + 4)).toInt
      (0 < ahead → exec (.taddWake id n) s = .next s) ∧
      (ahead < 0 → exec (.taddWake id n) s = .next (s.setFlight id (setRet n 1#32 fl))) ∧
      (ahead = 0 → ∃ t, exec (.taddWake id n) s = .next t ∧
        (∀ a, readByte t.mem a = readByte (writeBytes (writeBytes s.mem d
          (leBytes (atomNew 0 ty mode x.u (readWord s.mem d) x.x x.y).1.toNat 4)) (d + 4)
          (leBytes (readWord s.mem (d + 4) + 1#32).toNat 4)) a) ∧
        ∃ g, tget t.flights id = some g ∧ ∀ y, laneReq g n = some y → y.ret = some 0#32))

namespace Sys2Proof.Machine

/-- A pod operation of a fibre of this device, outside redundant mode, with no waiter recorded anywhere. -/
abbrev PodAlone (s : State) (fl : Flight) : Prop :=
  isGuest fl = false ∧ twinFib s fl.fib = none ∧ logWg s fl.fib = none ∧ s.podWait = []

/-- A pod operation of fibre `f` that has ended with a status in every active lane of register `d` whose thread lives: its flight
is gone. -/
structure PodEnded (s t : State) (id : Nat) (fl : Flight) (f : Fibre) (d : Nat) (status : Word) : Prop where
  lanes : ∀ j < 32, regLane t fl.fib d j =
    if fl.mask.getLsbD j && (liveMask f).getLsbD j then status else regLane s fl.fib d j
  gone : tget t.flights id = none

/-- A block with its CHECK word so that the sixteen words sum to 0 (R141). -/
def sealed (b : List Word) : List Word := b.take 15 ++ [0#32 - (b.take 15).foldl (fun x y => x + y) 0#32]

end Sys2Proof.Machine

/-- The control slice's decision takes the checks of R144 in their order, then serves, waits, or under .nb refuses. The events
of a pod operation on a sound block of this device: POD_CONTROL_EVENT ends a refused operation with its status and no effect
on the block, records one that waits, and serves one by advancing the reserving counter, with FREE for an ENQ; ENQC_ADVANCE
and DEQC_ADVANCE, when the counter reaches the operation's base, publish its elements, or free their slots and deliver them;
POD_WAKE and WAIT_TABLE_RETRY let a waiting operation begin again; POD_PUBLISH_TIMEOUT marks the block corrupt and ends the
operation with the pod fault, not before the bound (R141, R142, R143, R144, R145, R149). Under conditions on the state and the
operands alone it concludes that exec answers a next state with the effect named for podControlEvent, enqcAdvance,
deqcAdvance, podWake, waitTableRetry and podPublishTimeout. Where the spec is silent it states the model's choice (log entry
42). -/
def Obligations.PodEvents : Prop :=
  (∀ (b : List Word) (enq : Bool) (v w : Nat) (t : Word) (n : Nat) (first : Bool),
    let have_ := (podEnqc b - podDeqr b).toNat
    let turn := if enq then podEtkt b else podDtkt b
    let room := if enq then n ≤ (podFree b).toNat else n ≤ have_
    let go := room ∧ first = true ∧ (v = 2 → t = turn)
    podDecide b enq v w t n first =
      if w ≠ podEsz b then .refuse 6
      else if ¬ (v = 2 ↔ podSeq b = true) then .refuse 4
      else if podCap b < n then .refuse 5
      else if v = 2 ∧ (t - turn).toInt < 0 then .refuse 3
      else if podClosed b = true ∧ (enq = true ∨ have_ < n) then .refuse 2
      else if go then .serve
      else if v = 1 then .refuse 1
      else .wait) ∧
  (∀ (s : State) (id d : Nat) (fl : Flight) (x : LaneReq) (k : Nat) (f : Fibre), tget s.flights id = some fl → PodAlone s fl →
    flightHalted s id = false → fl.lanes.head? = some x → x.place = .dev d k → tget s.fibs fl.fib = some f →
    let b := podWords s d
    let n := popMask fl.mask
    let pg := podPage s fl
    -- the control event
    (fl.stage = .request → mustFollow s id fl [(d, 64 + podCap b * (4 * 2 ^ podEsz b))] = false → poisoned s d = false →
      podOk b pg.1 pg.2 = true →
      (∀ (v w : Nat) (t : Word) (es : List (List Word)) (r : Nat), fl.kind = .enq v w t es → fl.dst = [regPlace f r] →
        r < windowOf s f → r < 64 →
        (∀ st, podDecide b true v w t n true = .refuse st →
          ∃ u, exec (.podControlEvent id none) s = .next u ∧ u.mem = s.mem ∧ PodEnded s u id fl f r (BitVec.ofNat 32 st)) ∧
        (podDecide b true v w t n true = .wait → waitTableUsed s d < 512 →
          ∃ u, exec (.podControlEvent id none) s = .next u ∧ u.mem = s.mem ∧ u.podWait = [(waitKey d 0, id)] ∧
            tget u.flights id = some { fl with stage := .waiting, waiters := 0, retry := 0, blocked := some (fl.blocked.getD s.tick) }) ∧
        (podDecide b true v w t n true = .serve → es.length = n → (∀ e ∈ es, e.length = 2 ^ w) →
          (∀ i < n, ∀ q < 2 ^ w, poisoned s (podSlot d b ((podEnqr b).toNat + i) + 4 * q) = false) →
          d % 64 = 0 →
          ∃ u, exec (.podControlEvent id none) s = .next u ∧
            tget u.flights id = some { fl with stage := .reserved (podEnqr b).toNat, since := s.tick } ∧
            podWords u d = sealed (let c := (b.set 8 (podEnqr b + BitVec.ofNat 32 n)).set 7 (podFree b - BitVec.ofNat 32 n)
              if v = 2 then c.set 12 (podEtkt b + 1#32) else c) ∧
            (∀ i < n, ∀ q < 2 ^ w, readWord u.mem (podSlot d b ((podEnqr b).toNat + i) + 4 * q) = (es.getD i []).getD q 0#32))) ∧
      (∀ (v w : Nat) (t : Word), fl.kind = .deq v w t → podDecide b false v w t n true = .serve →
        ∃ u, exec (.podControlEvent id none) s = .next u ∧
          tget u.flights id = some { fl with stage := .reserved (podDeqr b).toNat, since := s.tick } ∧
          podWords u d = sealed (let c := b.set 10 (podDeqr b + BitVec.ofNat 32 n)
            if v = 2 then c.set 13 (podDtkt b + 1#32) else c)) ∧
      (∀ (what r : Nat), fl.kind = .podQuery what → fl.dst = [regPlace f r] → r < windowOf s f → r < 64 →
        ∃ u, exec (.podControlEvent id none) s = .next u ∧ u.mem = s.mem ∧ PodEnded s u id fl f r
          (match what with
           | 0 => podEnqc b - podDeqr b
           | 1 => podFree b
           | 2 => podW b 0
           | 3 => podEtkt b
           | _ => podDtkt b))) ∧
    -- the counters advance
    (∀ (v w : Nat) (t : Word) (es : List (List Word)) (base r : Nat), fl.kind = .enq v w t es → fl.stage = .reserved base →
      fl.dst = [regPlace f r] → r < windowOf s f → r < 64 →
      (podEnqc b ≠ BitVec.ofNat 32 base → exec (.enqcAdvance id) s = .next s) ∧
      (podEnqc b = BitVec.ofNat 32 base → ∃ u, exec (.enqcAdvance id) s = .next u ∧ PodEnded s u id fl f r 0#32 ∧
        podWords u d = sealed (b.set 9 (BitVec.ofNat 32 (base + n))))) ∧
    (∀ (v w : Nat) (t : Word) (base r : Nat), fl.kind = .deq v w t → fl.stage = .reserved base → w = podEsz b →
      fl.dst = (List.range (2 ^ w + 1)).map (fun q => regPlace f (r + q)) → r + 2 ^ w < windowOf s f → r + 2 ^ w < 64 →
      (podDeqc b ≠ BitVec.ofNat 32 base → exec (.deqcAdvance id) s = .next s) ∧
      (podDeqc b = BitVec.ofNat 32 base →
        (∀ i < n, ∀ q < 2 ^ w, poisoned s (podSlot d b (base + i) + 4 * q) = false) →
        ∃ u, exec (.deqcAdvance id) s = .next u ∧ PodEnded s u id fl f (r + 2 ^ w) 0#32 ∧
          podWords u d = sealed ((b.set 11 (BitVec.ofNat 32 (base + n))).set 7 (podFree b + BitVec.ofNat 32 n)) ∧
          (∀ q < 2 ^ w, ∀ j < 32, fl.mask.getLsbD j = true → (liveMask f).getLsbD j = true →
            regLane u fl.fib (r + q) j = readWord s.mem (podSlot d b (base + (lanesOf fl.mask).idxOf j) + 4 * q)))) ∧
    -- wakes, retries and the bound
    (fl.stage = .waiting → (∀ ln ∈ fl.lines, ln.place.remote = false) →
      let begun : Flight := { fl with stage := .request, waiters := 0, retry := 0 }
      (fl.waiters = 1 → exec (.podWake id) s = .next (s.setFlight id begun)) ∧
      (fl.waiters ≠ 1 → exec (.podWake id) s = .next s) ∧
      (∀ (v w : Nat) (t : Word), fl.kind = .deq v w t →
        (fl.retry ≠ 0 → fl.retry ≤ s.tick → exec (.waitTableRetry id) s = .next (s.setFlight id begun)) ∧
        (s.tick < fl.retry → exec (.waitTableRetry id) s = .next s))) ∧
    (∀ (v w : Nat) (t : Word) (base : Nat), fl.kind = .deq v w t → fl.stage = .reserved base →
      (podDeqc b = BitVec.ofNat 32 base ∨ s.tick < fl.since + 7600 → exec (.podPublishTimeout id) s = .next s) ∧
      (podDeqc b ≠ BitVec.ofNat 32 base → fl.since + 7600 ≤ s.tick →
        ∃ u, exec (.podPublishTimeout id) s = .next (s.asFlight id (fun _ => u.podTrap id)) ∧
          podWords u d = sealed (b.set 0 (podW b 0 ||| 0x00800000#32)))))

/-! ### Commands of a fibre: copies, programs, collectives, and the matrix array -/

namespace Sys2Proof.Machine

/-- A command has given its word: the active lanes of `d` hold it, the fibre goes on by 8 bytes with the command's energy, and
no other register and no memory changes. -/
structure Answered (s t : State) (fid : Nat) (f : Fibre) (m : LaneMask) (d : Nat) (word : Word) (energy : Nat) : Prop where
  lanes : ∀ j < 32, regLane t fid d j = if m.getLsbD j then word else regLane s fid d j
  regs : ∀ i < 64, i ≠ d → regAt t fid i = regAt s fid i
  fibre : ∃ g, tget t.fibs fid = some g ∧ g = { f with
    regs := g.regs, energy := f.energy + BitVec.ofNat 64 energy
    threads := f.threads.zipIdx.map (fun ((t, j) : Thread × Nat) =>
      if m.getLsbD j then { t with pc := t.pc + BitVec.ofNat 64 8 } else t) }
  mem : t.mem = s.mem

/-- A command stands in its group's queue under handle `h`. -/
structure Queued (s t : State) (f : Fibre) (w : Workgroup) (h : Nat) (kind : CmdKind) : Prop where
  cmd : tget t.cmds s.ids = some { kind := kind, stage := .queued, grp := groupOf s w.core, wg := f.wg, handle := h, sent := 0,
                                   cancelled := false, sgc := none, held := [] }
  others : ∀ k, k ≠ s.ids → tget t.cmds k = tget s.cmds k
  handle : ∃ v, tget t.wgs f.wg = some v ∧
    v.handles = w.handles.set h { st := .filling, cause := 0#8, cmd := some s.ids, owner := none }

/-- A command that needs a handle of its own and queue room of its kind (R154, R162). -/
def Taken (i : Instr) (s : State) (fid : Nat) (f : Fibre) (m : LaneMask) (w : Workgroup) (d : Nat) (program : Bool)
    (kind : CmdKind) (energy : Nat) : Prop :=
  (∀ h, freeHandle w = some h → queueFull s (groupOf s w.core) program = false →
    ∃ t, exec i s = .next t ∧ Answered s t fid f m d (BitVec.ofNat 32 h) energy ∧ Queued s t f w h kind) ∧
  (freeHandle w = none → ∃ t, exec i s = .next t ∧ Answered s t fid f m d 0x80000000#32 energy ∧ t.cmds = s.cmds) ∧
  (∀ h, freeHandle w = some h → queueFull s (groupOf s w.core) program = true →
    ∃ t, exec i s = .next t ∧ t.cur.stalled = true ∧ t.cmds = s.cmds ∧ t.wgs = s.wgs)

/-- The record that a copy reads in its a register's lanes. -/
def copyAt (s : State) (fid : Nat) (f : Fibre) (m : LaneMask) (l : LForm) : CopyDesc :=
  copyDesc (fun k => ((srcVec s fid f m (srcLanes (.sel l.a) Ty.i32 0x1FFF#32)).lane k).toNat)

end Sys2Proof.Machine

/-- CPY, CPYX, RUNS and COLL take effect in a fibre that can read their operands: with their checks passed, a free handle and
room in the group's queue, the command is queued, the lowest free handle fills, and every active lane of d holds its number;
without a free handle d holds 0x80000000 and nothing is queued; without room the instruction waits. The first slot of a
collective copy does the same and opens the collective. An object that is not there, or a tile that fails its checks, traps
with nothing queued, a poisoned object-table entry with its record; one that reads memory waits for the fibre's atomics in
flight. RUNS of a misaligned entry, or of a header that does not pass, gives 0x80000001. COLL of a participant count, a rank,
an element count or a block address that fails its check is an illegal operand (R115, R154, R162, R168, R170, R172, R173,
R177, R329). Under conditions on the state and the operands alone it concludes that exec answers a next state with the effect
named for cpy, cpyx, runs and coll. Where the spec is silent it states the model's choice (log entry 44). -/
def Obligations.AsyncCommands : Prop :=
  ∀ (l : LForm) (s : State) (fid : Nat) (f : Fibre) (m : LaneMask) (w : Workgroup) (slot : Slot), Issuing s fid f m →
    MemFree s fid f w → tget s.slots f.slot = some slot →
    (∀ (r : Instr × List Src × Bool),
      r ∈ [(Instr.cpy l, [srcLanes (.sel l.a) Ty.i32 0x1FFF#32], false),
        (Instr.cpyx l, [srcLanes (.sel l.a) Ty.i32 0x1FFF#32, srcLanes (.sel l.b) Ty.i32 0x1F#32], true)] →
      r.1.wellFormed = true → Readable s fid f m r.2.1 [l.d.toNat] → l.a.toNat < 64 → (r.2.2 = true → l.b.toNat < 64) →
      let may : ObjEntry → Bool := fun e => if r.2.2 then e.rd && e.mx else if Cpy.st l then e.wr else e.rd
      let b := srcVec s fid f m (srcLanes (.sel l.b) Ty.i32 0x1F#32)
      let d := copyAt s fid f m l
      (Cpy.st l = false → atomOpen s fid = true → ∃ t, exec r.1 s = .next t ∧ t.cur.stalled = true ∧ t.cmds = s.cmds ∧ t.wgs = s.wgs) ∧
      ((Cpy.st l = false → atomOpen s fid = false) → ∀ k, objCheck s w.ctx (xlOf s w) l.imm.toNat may = .error k →
        exec r.1 s = .next ((if k = 5 then s else s.postFault w.ctx
          { tick := s.tick, va := 0#64, obj := l.imm.toNat, asid := xlAsid (xlOf s w), kind := k, acc := 0, run := false,
            req := fid, lanes := m, rpl := false }).raise fid (objTrap k l.imm.toNat m))) ∧
      ((Cpy.st l = false → atomOpen s fid = false) → ∀ e, objCheck s w.ctx (xlOf s w) l.imm.toNat may = .ok e →
        tileCheck d e l.ty (Cpy.pad l) w.scratch = none →
        (r.2.2 = true → followTrap (b.lane 1 ++ b.lane 0) (b.lane 2) (b.lane 3) (b.lane 4) w m = none) →
        let fo : Option (BitVec 64 × Word × Word × Word) :=
          if r.2.2 then some (b.lane 1 ++ b.lane 0, b.lane 2, b.lane 3, b.lane 4) else none
        let energy := 8 * ((tileBytes d e l.ty + 63) / 64)
        (Cpy.wg l = false →
          Taken r.1 s fid f m w l.d.toNat false (.copy d e l.ty (Cpy.st l) (Cpy.pad l) fo none) energy) ∧
        (Cpy.wg l = true → w.colls = [] → ∀ h, freeHandle w = some h → queueFull s (groupOf s w.core) false = false →
          ∃ t v, exec r.1 s = .next t ∧ Answered s t fid f m l.d.toNat (BitVec.ofNat 32 h) energy ∧
            Queued s t f w h (.copy d e l.ty (Cpy.st l) (Cpy.pad l) none (some slot.copies)) ∧ tget t.wgs f.wg = some v ∧
            v.colls.map (fun (c : Collective) => (c.k, c.handle, c.joined, c.pending)) =
              [(slot.copies, some h, [f.slot], [s.ids])]))) ∧
    ((Instr.runs l).wellFormed = true → Readable s fid f m (pairSrcs l.a ++ [srcAll (.sel l.b) Ty.i32]) [l.d.toNat] →
      addrPairOk (windowOf s f) l.a = true →
      atomOpen s fid = false →
      let entry : Addr := opdLow s fid f m (.sel (l.a + 1#7)) ++ opdLow s fid f m (.sel l.a)
      (entry.toNat % 64 ≠ 0 → ∃ t, exec (.runs l) s = .next t ∧ Answered s t fid f m l.d.toNat 0x80000001#32 64 ∧
        t.cmds = s.cmds ∧ t.wgs = s.wgs) ∧
      (∀ (p k : Nat), entry.toNat % 64 = 0 → translate s w.ctx (xlOf s w) false .read (entry - 64#64) = .ok (.dev p k) →
        poisoned s p = false →
        let n := readNat s.mem p 64
        let ok := runnerHeaderOk n (match launchOf s w with | some x => x.lr.det | none => false)
        (ok = false → ∃ t, exec (.runs l) s = .next t ∧ Answered s t fid f m l.d.toNat 0x80000001#32 64 ∧ t.cmds = s.cmds) ∧
        (ok = true → Taken (.runs l) s fid f m w l.d.toNat true
          (.program entry (headerOf entry n).priv (srcVec s fid f m (srcAll (.sel l.b) Ty.i32))) 64))) ∧
    ((Instr.coll l).wellFormed = true → Readable s fid f m [srcLanes (.sel l.a) Ty.i32 0x3F#32] [l.d.toNat] → l.a.toNat < 64 →
      let v := srcVec s fid f m (srcLanes (.sel l.a) Ty.i32 0x3F#32)
      let n := (v.lane 0).toNat
      let rank := (v.lane 1).toNat
      let count := (v.lane 2).toNat
      let grp : Addr := v.lane 5 ++ v.lane 4
      atomOpen s fid = false →
      let bad := n < 2 ∨ 256 < n ∨ n ≤ rank ∨ count = 0 ∨ 2 ^ 24 < count ∨ grp.toNat % 64 ≠ 0
      ∀ e, objCheck s w.ctx (xlOf s w) l.imm.toNat (fun e => e.rd) = .ok e →
        (bad → ∃ u : State, exec (.coll l) s = .next (u.raise fid (trapOf 0x02 m)) ∧ u = { s with objs := u.objs, tlb := u.tlb }) ∧
        (¬ bad → e.ndim = 1 → e.fmt = l.ty → collElems l.mode.toNat n rank count ≤ e.ext.getD 0 0 →
          Taken (.coll l) s fid f m w l.d.toNat false (.coll l.mode.toNat l.ty n rank count (v.lane 3).toNat grp e)
            (8 * ((count * elemSize l.ty * collSends l.mode.toNat n rank + 63) / 64))))

namespace Sys2Proof.Machine

/-- A matrix command as a fibre issues it. -/
def mxIssued (fid : Nat) (f : Fibre) (m : LaneMask) (op : Nat) (l : LForm) (a a2 b c : LaneVec) : MxCmd :=
  { op := op, f := l, a := a, a2 := a2, b := b, c := c, mask := m, wg := f.wg, fib := some fid, cmd := none, handle := none,
    swap := false, departed := false, rows := 0, pages := [], seen := [] }

end Sys2Proof.Machine

/-- The matrix instructions take effect in a fibre that can read their operands. With operands that pass, with the tile and
bank granted and with room in the core's queue, MLD, MXM, MHAD, MRD, MST and MQRY enter the queue and hold their fibre; MZ and
MSW enter it and retire at once, MSW inverting the banks' names. MQRY of the configuration answers without the queue. An
operand that fails is an illegal operand, and a tile or bank beyond the grant the matrix fault with cause 1 or 2 (R265, R271,
R273, R274, R277, R279, R280, R281, R282, R283, R284, R285, R286, R287). Where the spec is silent it states the model's choice
(log entry 43). -/
def Obligations.MatrixCommands : Prop :=
  ∀ (l : LForm) (s : State) (fid : Nat) (f : Fibre) (m : LaneMask) (w : Workgroup) (core : Core), Issuing s fid f m →
    MemFree s fid f w → tget s.cores w.core = some core →
    let v (o : BitVec 7) := srcVec s fid f m (src (.sel o) Ty.i32)
    let fty := if l.ty = Ty.f32 then Ty.f32 else Ty.i32
    let z := LaneVec.splat 0#32
    let abc := [src (.sel l.a) Ty.i32, src (.sel l.b) Ty.i32, src (.sel l.c) Ty.i32]
    let bc := [src (.sel l.b) Ty.i32, src (.sel l.c) Ty.i32]
    ∀ (r : Instr × List Src × List Nat × MxCmd),
      r ∈ [(Instr.mld l, abc, [], mxIssued fid f m 0 l (v l.a) (v l.a) (v l.b) (v l.c)),
        (Instr.mxm l, abc, [], mxIssued fid f m 2 l (v l.a) (v l.a) (v l.b) (v l.c)),
        (Instr.mhad l, abc, [], mxIssued fid f m 3 l (v l.a) (v l.a) (v l.b) (v l.c)),
        (Instr.msw l, [], [], mxIssued fid f m 1 l z z z z),
        (Instr.mz l, [src (.sel l.a) Ty.i32], [], mxIssued fid f m 4 l (v l.a) (v l.a) (v l.a) (v l.a)),
        (Instr.mrd l, [src (.sel l.a) Ty.i32, src (.sel l.b) fty, src (.sel l.c) fty], [l.d.toNat, l.d.toNat + 1],
          mxIssued fid f m 5 l (v l.a) (v l.a) (srcVec s fid f m (src (.sel l.b) fty)) (srcVec s fid f m (src (.sel l.c) fty))),
        (Instr.mst l, (if Mx.sp l then [src (.sel l.a) Ty.i32, src (.const 0#32) Ty.i32] else pairSrcs l.a) ++ bc, [],
          mxIssued fid f m 6 l (v l.a) (if Mx.sp l then srcVec s fid f m (src (.const 0#32) Ty.i32) else v (l.a + 1#7)) (v l.b)
            (v l.c)),
        (Instr.mqry l, [], [l.d.toNat], mxIssued fid f m 7 l z z z z)] →
      r.1.wellFormed = true → Readable s fid f m r.2.1 r.2.2.1 →
      (r.2.2.2.op = 6 → Mx.sp l = false → addrPairOk (windowOf s f) l.a = true) →
      let c := r.2.2.2
      (c.operandsOk = false → exec r.1 s = .next (s.raise fid (trapOf 0x02 m))) ∧
      (∀ k, c.operandsOk = true → c.grantCause w = some k → exec r.1 s = .next (s.raise fid (trapCause 0x52 k m))) ∧
      (c.operandsOk = true → c.grantCause w = none → ¬ (c.op = 7 ∧ Mx.what l = 3) → core.mq.length < 16 →
        ∃ t, exec r.1 s = .next t ∧ t = { s with ids := t.ids, cores := t.cores, fibs := t.fibs, wgs := t.wgs } ∧
          (coreOf t w.core).mq = core.mq ++ [(s.ids, { c with swap := w.swap })] ∧
          (c.op ≠ 1 → c.op ≠ 4 → tget t.fibs fid = some { f with hold := .matrix s.ids, heldSince := s.tick } ∧ t.wgs = s.wgs) ∧
          (c.op = 1 ∨ c.op = 4 → ∃ g u, tget t.fibs fid = some g ∧ g.energy = f.energy + 4#64 ∧ g.hold = .none ∧
            tget t.wgs f.wg = some u ∧ u = { w with swap := if c.op = 1 then !w.swap else w.swap })) ∧
      (c.operandsOk = true → c.grantCause w = none → ¬ (c.op = 7 ∧ Mx.what l = 3) → 16 ≤ core.mq.length →
        ∃ t, exec r.1 s = .next t ∧ t.cur.stalled = true ∧ t.cores = s.cores) ∧
      (c.op = 7 → Mx.what l = 3 → ∃ t, exec r.1 s = .next t ∧ t.cores = s.cores ∧
        ∀ j < 32, m.getLsbD j = true → regLane t fid l.d.toNat j = BitVec.ofNat 32
          ((if w.swap then 128 else 0) + w.banks.length % 4 * 32 + w.tiles.length % 32))

namespace Sys2Proof.Machine

/-- What an MXM adds to one element of its tile: row `m` of its input against column `n` of its bank, block by block, in units
of the tile's exponent, each block's part rounded down (R269). -/
def mxTerm (c : MxCmd) (w : Workgroup) (m n : Nat) : Int :=
  let x := c.row w.spad m
  (mxSum (chunksOf 32 2048 (codeInts (Mx.T c.f) x.codes)) (chunksOf 32 2048 (bankColumn (c.bankOf w) n)) x.scales
    (bankScales (c.bankOf w) n) (tileExp (c.tileOf w))).1

/-- A tile of zeros with an exponent, fresh (R271, R284). -/
def zeroTile (exp : BitVec 10) : Tile := { elems := [], word := exp ++ 0#2 ++ 1#1 ++ 0#19 }

end Sys2Proof.Machine

/-- The events of the matrix queue. A command that is not at the head, or has departed, does not depart; an MXM of a bank that
is not valid, and an MRD or MST of a poisoned tile, fail then with the matrix fault of cause 3 and 6; a command that passes is
marked departed. On completion MZ leaves a tile of zeros with its exponent in the state word; MXM adds each row's products to
its rows of the tile, wrapping to 32 bits, and no other row changes; MQRY writes the state word that it names (R269, R271,
R273, R274, R279, R282, R284, R287). Under conditions on the state and the operands alone it concludes that exec answers a
next state with the effect named for matrixQueueDepart and matrixCommandComplete. Where the spec is silent it states the
model's choice (log entry 43). -/
def Obligations.MatrixEvents : Prop :=
  ∀ (s : State) (k id : Nat) (core : Core) (c : MxCmd) (w : Workgroup) (fid : Nat) (f : Fibre), tget s.cores k = some core →
    tget core.mq id = some c → tget s.wgs c.wg = some w → c.fib = some fid → tget s.fibs fid = some f →
    ctxTakes s w.ctx = true →
    ((core.mq.head? ≠ some (id, c) ∨ c.departed = true) →
      exec (.matrixQueueDepart k id) s = .next s) ∧
    (core.mq.head? = some (id, c) → c.departed = false →
      (c.op = 2 → bankValid (c.bankOf w) = false → ∃ u, exec (.matrixQueueDepart k id) s =
        .next (u.raise fid (trapCause 0x52 3 c.mask)) ∧ (coreOf u k).mq = tdel core.mq id) ∧
      (c.op = 5 ∨ c.op = 6 → tilePoison (c.tileOf w) = true → ∃ u, exec (.matrixQueueDepart k id) s =
        .next (u.raise fid (trapCause 0x52 6 c.mask)) ∧ (coreOf u k).mq = tdel core.mq id) ∧
      (c.op = 4 ∨ c.op = 7 → exec (.matrixQueueDepart k id) s =
        .next (s.setCore k { core with mq := tset core.mq id { c with departed := true, seen := [], pages := [] } }))) ∧
    (c.departed = true →
      (c.op = 4 → Mx.tile c.f < w.tiles.length → ∃ t v, exec (.matrixCommandComplete k id) s = .next t ∧
        t = { s with wgs := t.wgs, cores := t.cores } ∧ (coreOf t k).mq = tdel core.mq id ∧ tget t.wgs c.wg = some v ∧
        v = { w with tiles := w.tiles.set (Mx.tile c.f) (zeroTile (BitVec.ofNat 10 (c.low c.a))) }) ∧
      (c.op = 2 → Mx.tile c.f < w.tiles.length → c.rows = 0 → c.row0 + c.m ≤ 64 →
        ∃ t v, exec (.matrixCommandComplete k id) s = .next t ∧ t = { s with wgs := t.wgs, cores := t.cores } ∧
          (coreOf t k).mq = tdel core.mq id ∧ tget t.wgs c.wg = some v ∧ v = { w with tiles := v.tiles } ∧
          (∀ r < 64, ∀ n < 64, tileElem (c.tileOf v) r n =
            if c.row0 ≤ r ∧ r < c.row0 + c.m then
              BitVec.ofInt 32 ((tileElem (c.tileOf w) r n).toInt + mxTerm c w (r - c.row0) n)
            else tileElem (c.tileOf w) r n) ∧
          tileHad (c.tileOf v) = Mx.had c.f ∧ tileFresh (c.tileOf v) = false) ∧
      (c.op = 7 → c.f.d.toNat < windowOf s f → ∃ t, exec (.matrixCommandComplete k id) s = .next t ∧ t.wgs = s.wgs ∧ t.mem = s.mem ∧
        ∀ j < 32, c.mask.getLsbD j = true → regLane t fid c.f.d.toNat j =
          match Mx.what c.f with
          | 0 => (c.tileOf w).word
          | 1 => (c.bankOf w).word
          | 2 => 0#32
          | _ => BitVec.ofNat 32 ((if w.swap then 128 else 0) + w.banks.length % 4 * 32 + w.tiles.length % 32)))

/-! ### Runners -/

namespace Sys2Proof.Machine

/-- A runner executes for command `rid` of workgroup `w`, outside redundant mode, with no line of memory asked for. -/
abbrev RunnerOf (s : State) (rid : Nat) (r : Runner) (c : Cmd) (w : Workgroup) : Prop :=
  Running s rid r ∧ tget s.cmds rid = some c ∧ tget s.wgs c.wg = some w ∧ c.held = [] ∧ w.red = none ∧ gatherOf s rid = none

/-- The agent of a runner's accesses. -/
def ctxOfRunner (s : State) (rid : Nat) (c : Cmd) (w : Workgroup) : RunCtx :=
  { cid := rid, wid := c.wg, ctx := w.ctx, xl := xlOf s w, held := [] }

/-- The runner with a register written, at its next instruction. -/
def Runner.onWith (r : Runner) (d : Nat) (x : Word) : Runner := { r with regs := r.regs.set d x, pc := r.pc + 8#64 }

/-- The runner at its next instruction. -/
def Runner.on (r : Runner) : Runner := { r with pc := r.pc + 8#64 }

/-- The word of a runner's operand. -/
def runOpd (s : State) (r : Runner) (a : BitVec 7) : Word := runnerWord s r (src (.sel a) Ty.i32)

/-- A runner may read an operand (R82, R174). -/
abbrev RunOk (r : Runner) (a : BitVec 7) : Prop := opdOk true r.regs.length (src (.sel a) Ty.i32) = true

/-- The command of a runner ends with a cause. -/
def Ends (i : Instr) (s : State) (rid : Nat) (cause : BitVec 8) : Prop := exec i s = .next (s.cmdFault rid cause)

/-- The command of a runner ends on an object that fails its check with kind `k`: a poisoned entry is recorded (R115, R180). -/
def NoObject (i : Instr) (s : State) (rid k idx : Nat) : Prop :=
  exec i s = .next (s.runnerAccessFault rid { kind := k, va := 0#64, acc := 0, obj := idx, lane := 0, replayable := false })

/-- The lines `ls` have been written, or stand in flight, and the runner goes on. -/
def Wrote (s t : State) (rid : Nat) (r : Runner) (x : RunCtx) (ls : List StoreLine) : Prop :=
  t.mem = (s.performLines x ls).mem ∧ t.flights = (s.performLines x ls).flights ∧ tget t.runners rid = some r.on

end Sys2Proof.Machine

/-- XMOV, XTIL, XGTH, XSCT, XRED and XFIL take effect in a runner whose operands pass. XMOV of a word reads or writes four
bytes of device memory, or of the scratchpad, at the base plus its offset; a misaligned one ends the command with cause 3, one
beyond the allocation, or before its start, with cause 4, one on poison in the scratchpad with cause 0x16. XMOV of a block
moves up to 2^24 bytes under the checks of size, alignment and allocation; a single line is written at once, several stay in
flight, each written in its own time. XFIL repeats its word. XTIL, XGTH and XSCT move the rows that R167 and R176 give once
the object, the descriptor and the index list have passed; an object that is not there, or a poisoned entry, ends the command.
XRED adds each element to memory, an element of one line at a time (R174, R175, R176, R179, R180, R181). Where the spec is
silent it states the model's choice (log entry 44). -/
def Obligations.RunnerMoves : Prop :=
  ∀ (l : LForm) (s : State) (rid : Nat) (r : Runner) (c : Cmd) (w : Workgroup), RunnerOf s rid r c w →
    let x := ctxOfRunner s rid c w
    let val (a : BitVec 7) := (runOpd s r a).toNat
    -- XMOV of a word
    ((Instr.xmov l).wellFormed = true →
      (l.mode.toNat ≤ 1 → runnerPairOk r l.a = true →
        let va : Nat := wordAddr (runnerPair r l.a) l.imm.toInt
        let place (acc : Acc) : Except Nat Place :=
          if 2 ^ 64 ≤ va then .error 3 else translateBy s (runWalker s rid) w.ctx (xlOf s w) false acc (BitVec.ofNat 64 va)
        (l.mode = 0#3 → l.d.toNat < r.regs.length →
          (va % 4 ≠ 0 → Ends (.xmov l) s rid 3#8) ∧
          (∀ p k, va % 4 = 0 → place .read = .ok (.dev p k) → poisoned s p = false →
            exec (.xmov l) s = .next ((s.holdRun x .read [(va, 4)]).setRunner rid (r.onWith l.d.toNat (readWord s.mem p))))) ∧
        (l.mode = 1#3 → RunOk r l.c →
          (va % 4 ≠ 0 → Ends (.xmov l) s rid 3#8) ∧
          (∀ p k, va % 4 = 0 → p % 4 = 0 → place .write = .ok (.dev p k) →
            writeLands s p (byteMask (p % 64) 4) = true →
            ∃ t, exec (.xmov l) s = .next t ∧ tget t.runners rid = some r.on ∧
              (∀ a, readByte t.mem a = if p ≤ a ∧ a < p + 4 then BitVec.ofNat 8 (val l.c / 256 ^ (a - p)) else readByte s.mem a)))) ∧
      (l.mode = 2#3 ∨ l.mode = 3#3 → RunOk r l.a → (l.mode = 3#3 → RunOk r l.c) → (l.mode = 2#3 → l.d.toNat < r.regs.length) →
        let sum : Int := (val l.a : Int) + l.imm.toInt
        let o := sum.toNat
        (sum % 4 ≠ 0 → Ends (.xmov l) s rid 3#8) ∧
        (sum % 4 = 0 → sum < 0 ∨ w.scratch < o + 4 → Ends (.xmov l) s rid 4#8) ∧
        (sum % 4 = 0 → 0 ≤ sum → o + 4 ≤ w.scratch → l.mode = 2#3 → spadBad w o 4 = true → Ends (.xmov l) s rid 0x16#8) ∧
        (sum % 4 = 0 → 0 ≤ sum → o + 4 ≤ w.scratch → l.mode = 2#3 → spadBad w o 4 = false →
          exec (.xmov l) s = .next ((s.spadMend c.wg [(o, 4)]).setRunner rid (r.onWith l.d.toNat (readWord w.spad o)))) ∧
        (sum % 4 = 0 → 0 ≤ sum → o + 4 ≤ w.scratch → l.mode = 3#3 →
          ∃ t v, exec (.xmov l) s = .next t ∧ tget t.runners rid = some r.on ∧ t.mem = s.mem ∧ tget t.wgs c.wg = some v ∧
            (∀ a, readByte v.spad a = if o ≤ a ∧ a < o + 4 then BitVec.ofNat 8 (val l.c / 256 ^ (a - o)) else readByte w.spad a))) ∧
      -- XMOV of a block
      (4 ≤ l.mode.toNat → l.mode.toNat ≤ 6 → RunOk r l.c →
        (if l.mode.toNat ≤ 5 then runnerPairOk r l.a = true else RunOk r l.a) →
        (if l.mode = 5#3 then RunOk r l.b else runnerPairOk r l.b = true) →
        let n := val l.c
        let a := if l.mode.toNat ≤ 5 then runnerPair r l.a else val l.a
        let b := if l.mode = 5#3 then val l.b else runnerPair r l.b
        (2 ^ 24 < n → Ends (.xmov l) s rid 2#8) ∧
        (n ≤ 2 ^ 24 → a % 16 ≠ 0 ∨ b % 16 ≠ 0 ∨ n % 16 ≠ 0 → Ends (.xmov l) s rid 3#8) ∧
        (n ≤ 2 ^ 24 → a % 16 = 0 → b % 16 = 0 → n % 16 = 0 →
          (l.mode = 5#3 → 0 < n → w.scratch < b + n → Ends (.xmov l) s rid 4#8) ∧
          (l.mode = 5#3 → 0 < n → b + n ≤ w.scratch → w.spadPoison = [] → ∀ bs, runRead s x 0 [(a, n)] = .ok [bs] → bs.length = n →
            ∃ t v, exec (.xmov l) s = .next t ∧ tget t.runners rid = some r.on ∧ t.mem = s.mem ∧ tget t.wgs c.wg = some v ∧
              (∀ k, readByte v.spad k = if b ≤ k ∧ k < b + n then bs.getD (k - b) 0#8 else readByte w.spad k)) ∧
          (l.mode = 4#3 → 0 < n → ∀ bs ls, runRead s x 0 [(a, n)] = .ok [bs] → runLines s x 0 [(b, bs)] = .ok ls →
            ∃ t, exec (.xmov l) s = .next t ∧ Wrote s t rid r x ls) ∧
          (l.mode = 6#3 → 0 < n → a + n ≤ w.scratch → spadBad w a n = false →
            ∀ ls, runLines s x 0 [(b, readBytes w.spad a n)] = .ok ls →
            ∃ t, exec (.xmov l) s = .next t ∧ Wrote s t rid r x ls)))) ∧
    -- XFIL
    ((Instr.xfil l).wellFormed = true → RunOk r l.b → RunOk r l.c →
      let n := val l.c
      let byte (k : Nat) : Byte := BitVec.ofNat 8 (val l.b / 256 ^ (k % 4))
      (l.mode.getLsbD 0 = true → RunOk r l.a →
        let a := val l.a
        (a % 4 ≠ 0 ∨ n % 4 ≠ 0 → Ends (.xfil l) s rid 3#8) ∧
        (a % 4 = 0 → n % 4 = 0 → 0 < n → w.scratch < a + n → Ends (.xfil l) s rid 4#8) ∧
        (a % 4 = 0 → n % 4 = 0 → 0 < n → a + n ≤ w.scratch →
          ∃ t v, exec (.xfil l) s = .next t ∧ tget t.runners rid = some r.on ∧ t.mem = s.mem ∧ tget t.wgs c.wg = some v ∧
            (∀ k, readByte v.spad k = if a ≤ k ∧ k < a + n then byte (k - a) else readByte w.spad k))) ∧
      (l.mode.getLsbD 0 = false → runnerPairOk r l.a = true →
        (runnerPair r l.a % 4 ≠ 0 ∨ n % 4 ≠ 0 → Ends (.xfil l) s rid 3#8) ∧
        (runnerPair r l.a % 4 = 0 → n % 4 = 0 → 0 < n →
          ∀ ls, runLines s x 0 [(runnerPair r l.a, (List.range n).map byte)] = .ok ls →
            ∃ t, exec (.xfil l) s = .next t ∧ Wrote s t rid r x ls))) ∧
    -- XTIL
    ((Instr.xtil l).wellFormed = true → runnerRange r l.a 13 = true →
      let d := copyDesc (fun k => (r.regs.getD (l.a.toNat + k) 0#32).toNat)
      let ob := objCheck s w.ctx (xlOf s w) l.imm.toNat (fun e => if Cpy.st l then e.wr else e.rd)
      (∀ k, ob = .error k → NoObject (.xtil l) s rid k l.imm.toNat) ∧
      (∀ e, ob = .ok e → (∀ b, tileCheck d e l.ty (Cpy.pad l) w.scratch = some b →
          Ends (.xtil l) s rid (match b with | .operand => 2#8 | .object => 0x15#8 | .bounds => 4#8)) ∧
        (tileCheck d e l.ty (Cpy.pad l) w.scratch = none →
          let h := s.holdObj w.ctx (xlOf s w) e
          let ms := tileMoves d e l.ty
          ∀ u, (if Cpy.st l then h.saveRows x e.index ms else h.loadRows x e.index (Cpy.pad l) ms) = .ok u →
            ∃ t, exec (.xtil l) s = .next t ∧ t.mem = u.mem ∧ t.wgs = u.wgs ∧ tget t.runners rid = some r.on))) ∧
    -- XGTH and XSCT
    (∀ g ∈ [(Instr.xgth l, false), (Instr.xsct l, true)], g.1.wellFormed = true → RunOk r l.a → RunOk r l.c →
      runnerPairOk r l.b = true →
      let ob := objCheck s w.ctx (xlOf s w) l.imm.toNat (fun e => if g.2 then e.wr else e.rd)
      let n := val l.c
      let a := val l.a
      let ia := runnerPair r l.b
      let sc := l.mode.getLsbD 0
      (∀ k, ob = .error k → NoObject g.1 s rid k l.imm.toNat) ∧
      (∀ e, ob = .ok e →
        let pitch := (gatherRow e l.ty).2
        let size := n * pitch + (if sc then n * ((e.ext.getD 0 0 + 31) / 32) else 0)
        (n = 0 ∨ 4096 < n → Ends g.1 s rid 2#8) ∧
        (0 < n → n ≤ 4096 → e.fmt ≠ l.ty → Ends g.1 s rid 0x15#8) ∧
        (0 < n → n ≤ 4096 → e.fmt = l.ty → (sc = true → e.scale ≠ 0#64) → ia % 4 ≠ 0 → Ends g.1 s rid 3#8) ∧
        (0 < n → n ≤ 4096 → e.fmt = l.ty → (sc = true → e.scale ≠ 0#64) → ia % 4 = 0 → a % (if isPacked4 l.ty then 32 else 16) = 0 →
          ∀ bs, runRead s x 0 [(ia, 4 * n)] = .ok [bs] →
            let idx := (List.range n).map (fun k => leValue ((bs.drop (4 * k)).take 4))
            ((∃ j ∈ idx, objRows e ≤ j) → Ends g.1 s rid 0x15#8) ∧
            ((∀ j ∈ idx, j < objRows e) → 0 < size → w.scratch < a + size → Ends g.1 s rid 4#8) ∧
            ((∀ j ∈ idx, j < objRows e) → a + size ≤ w.scratch →
              let h := (s.holdObj w.ctx (xlOf s w) e).holdRun x .read [(ia, 4 * n)]
              let ms := gatherMoves e l.ty a idx sc
              ∀ u, (if g.2 then h.saveRows x e.index ms else h.loadRows x e.index true ms) = .ok u →
                ∃ t, exec g.1 s = .next t ∧ t.mem = u.mem ∧ t.wgs = u.wgs ∧ tget t.runners rid = some r.on)))) ∧
    -- XRED
    ((Instr.xred l).wellFormed = true → RunOk r l.a → RunOk r l.c → runnerPairOk r l.b = true → r.lines = [] →
      let n := val l.c
      let a := val l.a
      let va := runnerPair r l.b
      (2 ^ 22 < n → Ends (.xred l) s rid 2#8) ∧
      (n ≤ 2 ^ 22 → a % 4 ≠ 0 ∨ va % 4 ≠ 0 → Ends (.xred l) s rid 3#8) ∧
      (n ≤ 2 ^ 22 → a % 4 = 0 → va % 4 = 0 → 0 < n → w.scratch < a + 4 * n → Ends (.xred l) s rid 4#8) ∧
      (∀ p k, n = 1 → a % 4 = 0 → va % 4 = 0 → p % 4 = 0 → a + 4 ≤ w.scratch → spadBad w a 4 = false →
        translateBy s (runWalker s rid) w.ctx (xlOf s w) false .readWrite (BitVec.ofNat 64 va) = .ok (.dev p k) →
        translateBy s (runWalker s rid) w.ctx (xlOf s w) false .read (BitVec.ofNat 64 va) = .ok (.dev p k) → poisoned s p = false →
        ∃ t, exec (.xred l) s = .next t ∧ tget t.runners rid = some r.on ∧
          (∀ b, readByte t.mem b = readByte (writeBytes s.mem p (leBytes
            (reduceNode l.ty 0 l.mode.toNat 0 (readWord s.mem p) (readWord w.spad a)).1.toNat 4)) b)))

/-- XSIG, XWT, XMXM, XHS and XEND take effect in a runner whose operands pass. XSIG settles the counted barrier that it names
once the runner's writes to peers are acknowledged, and waits before; XWT goes on with GEN in d where it is not g, and else
blocks; a barrier beyond the grant ends the command with cause 5. XMXM queues a matrix command that passes every check, and
one that fails ends its command with cause 0x0A. XHS.new opens the lowest free handle or gives 0x80000000; XHS.pub fills a
handle that the runner opened, and one it did not open ends the command with cause 6. XEND frees the runner, and handles that
it opened and did not publish take cause 7 (R161, R165, R174, R176, R181, R289). Where the spec is silent it states the
model's choice (log entries 43, 44). -/
def Obligations.RunnerControl : Prop :=
  ∀ (l : LForm) (s : State) (rid : Nat) (r : Runner) (c : Cmd) (w : Workgroup), RunnerOf s rid r c w →
    let val (a : BitVec 7) := (runOpd s r a).toNat
    let quiet := ∀ e ∈ s.fibs, e.2.wg = c.wg → ∀ h len m, e.2.hold ≠ .handle h len m
    ((Instr.xsig l).wellFormed = true → RunOk r l.a → RunOk r l.b →
      let b := val l.a
      let n := val l.b
      let init := l.mode.getLsbD 0
      let old := w.cbars.getD b { gen := 0#16, count := 0#16, target := 0#16 }
      let new := if init then settled { old with target := BitVec.ofNat 16 n } old.count.toNat else settled old (old.count.toNat + n)
      (w.cbars.length ≤ b → Ends (.xsig l) s rid 5#8) ∧
      (b < w.cbars.length → (if init then 65536 ≤ n else n = 0) → Ends (.xsig l) s rid 2#8) ∧
      (b < w.cbars.length → (if init then n < 65536 else n ≠ 0) → putsPending s rid = true →
        exec (.xsig l) s = .next { s with cur := { s.cur with stalled := true } }) ∧
      (b < w.cbars.length → (if init then n < 65536 else n ≠ 0) → putsPending s rid = false → cbarUnwaited (s.setRunner rid r.on) c.wg b →
        exec (.xsig l) s = .next ((s.setRunner rid r.on).setWg c.wg { w with cbars := w.cbars.set b new }))) ∧
    ((Instr.xwt l).wellFormed = true → RunOk r l.a → RunOk r l.b → l.d.toNat < r.regs.length →
      let b := val l.a
      let g := (runOpd s r l.b).extractLsb' 0 16
      (w.cbars.length ≤ b → Ends (.xwt l) s rid 5#8) ∧
      (b < w.cbars.length → (cbarOf w b).gen = g →
        exec (.xwt l) s = .next (s.setRunner rid { r with xwt := some (l.d.toNat * 64 + b, g), since := s.tick })) ∧
      (b < w.cbars.length → (cbarOf w b).gen ≠ g →
        exec (.xwt l) s = .next (s.setRunner rid (r.onWith l.d.toNat ((cbarOf w b).gen.setWidth 32))))) ∧
    ((Instr.xmxm l).wellFormed = true → runnerPairOk r l.a = true → runnerRange r l.b 3 = true →
      let word : BitVec 64 := r.regs.getD (l.a.toNat + 1) 0#32 ++ r.regs.getD l.a.toNat 0#32
      let reg (k : Nat) := r.regs.getD (l.b.toNat + k) 0#32
      (followInstr word = none → Ends (.xmxm l) s rid 0x0A#8) ∧
      (∀ op g, followInstr word = some (op, g) →
        let x : MxCmd := { followCmd op g (reg 0) (reg 1) (reg 2) c.wg with swap := w.swap }
        (mxmPasses x w = false → Ends (.xmxm l) s rid 0x0A#8) ∧
        (∀ core, mxmPasses x w = true → tget s.cores w.core = some core → core.mq.length < 16 → op ≠ 1 →
          exec (.xmxm l) s = .next (({ s.spadMend c.wg (x.rowRanges ++ x.scaleRanges) with ids := s.ids + 1 }.setCore w.core { core with
            mq := core.mq ++ [(s.ids, { x with seen := rangeBytes w.spad x.checkRanges })] }).setRunner rid r.on)) ∧
        (∀ core, mxmPasses x w = true → tget s.cores w.core = some core → 16 ≤ core.mq.length →
          exec (.xmxm l) s = .next { s with cur := { s.cur with stalled := true } }))) ∧
    ((Instr.xhs l).wellFormed = true → l.mode.getLsbD 0 = false → l.d.toNat < r.regs.length →
      (freeHandle w = none → exec (.xhs l) s = .next (s.setRunner rid (r.onWith l.d.toNat 0x80000000#32))) ∧
      (∀ h, freeHandle w = some h → exec (.xhs l) s = .next ((s.setWg c.wg { w with
        handles := w.handles.set h { st := .filling, cause := 0#8, cmd := none, owner := some rid } }).setRunner rid
          { r.onWith l.d.toNat (BitVec.ofNat 32 h) with opened := r.opened ++ [h] }))) ∧
    ((Instr.xhs l).wellFormed = true → l.mode.getLsbD 0 = true → RunOk r l.a →
      let h := val l.a
      let x := handleAt w h
      (64 ≤ h ∨ x.st ≠ .filling ∨ x.owner ≠ some rid → Ends (.xhs l) s rid 6#8) ∧
      (h < 64 → x.st = .filling → x.owner = some rid → putsPending s rid = true →
        exec (.xhs l) s = .next { s with cur := { s.cur with stalled := true } }) ∧
      (h < 64 → x.st = .filling → x.owner = some rid → putsPending s rid = false → quiet →
        exec (.xhs l) s = .next ((s.setWg c.wg { w with
          handles := w.handles.set h { st := .full, cause := 0#8, cmd := none, owner := none } }).setRunner rid
            { r.on with opened := r.opened.filter (fun k => decide (k ≠ h)) }))) ∧
    ((Instr.xend l).wellFormed = true →
      (putsPending s rid = true → exec (.xend l) s = .next { s with cur := { s.cur with stalled := true } }) ∧
      (putsPending s rid = false → quiet →
        ∃ t v, exec (.xend l) s = .next t ∧ t.runners = tdel s.runners rid ∧ t.mem = s.mem ∧
          tget t.cmds rid = some { c with stage := .landed, landedAt := s.tick, sgc := none } ∧ tget t.wgs c.wg = some v ∧
          (∀ h < w.handles.length, handleAt v h =
            if h ∈ r.opened then { st := .error, cause := 7#8, cmd := none, owner := none } else handleAt w h)))

/-- The events of the runner groups. RUNNER_DISPATCH starts the next program of a group on its lowest idle runner, at its
entry with its arguments; without one it changes nothing. FOLLOW_ON_COMMAND enters the matrix queue; HANDLE_FULL fills the
handle of a completed command and forgets the command; DRAIN_SETTLE frees a draining handle; COLL_WAIT_END ends a broadcast or
gather whose arrival word has reached EXPECT; XWT_WATCHDOG_TIMEOUT ends a command that has waited as long as the watchdog
allows, with cause 0x0D; RUNNER_GROUP_MERGE hands the commands of a group with fewer than three runners to its target. In
redundant mode CHECKPOINT, REDUNDANT_COMPARE, RUNNER_SGC_COMPARE and MISMATCH_TIMEOUT go on where the twins agree and are a
mismatch where they differ (R154, R155, R161, R163, R172, R178, R181, R303, R304, R305). Under conditions on the state and the
operands alone it concludes that exec answers a next state with the effect named for runnerDispatch, handleFull, drainSettle,
collWaitEnd, followOnCommand, checkpoint, redundantCompare, runnerSgcCompare, mismatchTimeout, runnerGroupMerge and
xwtWatchdogTimeout. Where the spec is silent it states the model's choice (log entries 34, 41, 44, 45). -/
def Obligations.CommandEvents : Prop :=
  ∀ (s : State),
    (∀ (g k i p : Nat) (c : Cmd) (w : Workgroup) (entry : Addr) (args : LaneVec), resumable s g = none → idleRunner s g = some k →
      nextCmd s g = some (i, c) → tget s.cmds i = some c → tget s.wgs c.wg = some w → c.kind = .program entry p args →
      tget s.runners i = none →
      exec (.runnerDispatch g) s = .next ((s.setCmd i { c with stage := .running k, served := k }).setRunner i
        { grp := c.grp, wg := c.wg, cmd := i, regs := (List.range p).map (fun j => if j < 32 then args.lane j else 0#32),
          pc := entry, opened := [], lines := [], xwt := none, since := s.tick, frozen := [] })) ∧
    (∀ g, resumable s g = none → idleRunner s g = none ∨ nextCmd s g = none → exec (.runnerDispatch g) s = .next s) ∧
    (∀ (i op : Nat) (c : Cmd) (w : Workgroup) (core : Core) (word : BitVec 64) (a b x : Word) (f : LForm),
      tget s.cmds i = some c → tget s.wgs c.wg = some w → cmdHalted s i = false → followDue s i = some (word, a, b, x) →
      followInstr word = some (op, f) → op ≠ 1 → tget s.cores w.core = some core → core.mq.length < 16 →
      exec (.followOnCommand i) s = .next (({ s with ids := s.ids + 1 }.setCore w.core { core with
        mq := core.mq ++ [(s.ids, { followCmd op f a b x c.wg with handle := some c.handle, cmd := some i, swap := w.swap })]
        }).setCmd i { c with stage := .accepted })) ∧
    (∀ (i : Nat) (c : Cmd) (w : Workgroup), tget s.cmds i = some c → tget s.wgs c.wg = some w → cmdHalted s i = false →
      (cmdComplete s i = false → exec (.handleFull i) s = .next s) ∧
      (cmdComplete s i = true → cmdColl s c = none → (handleAt w c.handle).st = .filling → (handleAt w c.handle).cmd = some i →
        (∀ e ∈ s.fibs, e.2.wg = c.wg → ∀ h len m, e.2.hold ≠ .handle h len m) →
        exec (.handleFull i) s = .next ({ s with cmds := tdel s.cmds i }.setWg c.wg { w with
          handles := w.handles.set c.handle { handleAt w c.handle with st := .full } }))) ∧
    (∀ (wg h : Nat) (w : Workgroup), tget s.wgs wg = some w → wgHalted s wg = false →
      (drainReady s wg h = false → exec (.drainSettle wg h) s = .next s) ∧
      (drainReady s wg h = true → (∀ e ∈ s.fibs, e.2.wg = wg → ∀ h' len m, e.2.hold ≠ .handle h' len m) →
        ∃ t v, exec (.drainSettle wg h) s = .next t ∧ tget t.wgs wg = some v ∧ t.mem = s.mem ∧
          v.handles = w.handles.set h Handle.unused ∧ (∀ e ∈ t.cmds, ¬ (e.2.wg = wg ∧ e.2.handle = h)) ∧
          v.colls = w.colls.filter (fun (x : Collective) => decide (x.handle ≠ some h)))) ∧
    (∀ (i n rank count expect op : Nat) (t : BitVec 4) (c : Cmd) (w : Workgroup) (grp : Addr) (e : ObjEntry) (gs v : List Byte),
      tget s.cmds i = some c → tget s.wgs c.wg = some w → cmdHalted s i = false → c.held = [] →
      c.kind = .coll op t n rank count expect grp e → c.stage = .waiting → op = 0 ∨ op = 3 → gatherPending s i = false →
      putsPending s i = false → runRead s (ctxOfRunner s i c w) 0 [(grp.toNat, 16 * n)] = .ok [gs] →
      runRead s (ctxOfRunner s i c w) 0 [(((groupEntries n gs).getD rank (0, 0)).2, 4)] = .ok [v] →
      let ahead := (BitVec.ofNat 32 (leValue v) - BitVec.ofNat 32 expect).toInt
      (c.cancelled = true → exec (.collWaitEnd i) s = .next s) ∧
      (c.cancelled = false → ahead < 0 → exec (.collWaitEnd i) s = .next (s.dropGather i)) ∧
      (c.cancelled = false → 0 ≤ ahead → ∃ u, exec (.collWaitEnd i) s = .next u ∧
        tget u.cmds i = some { c with stage := .landed, landedAt := s.tick, sgc := none } ∧
        u.mem = s.mem)) ∧
    (∀ (i : Nat) (r : Runner) (w : Workgroup) (x : Nat × BitVec 16), tget s.runners i = some r → tget s.wgs r.wg = some w →
      r.xwt = some x → ctxPlaceable s w.ctx = true →
      exec (.xwtWatchdogTimeout i) s = .next (if r.since + wdtOf s w ≤ s.tick then s.cmdFault r.cmd 0x0D#8 else s)) ∧
    (∀ (die g : Nat),
      (s.launches ≠ [] ∨ (groupRec s (4 * die + g)).servedBy ≠ 4 * die + g ∨ 3 ≤ groupActive s (4 * die + g) →
        exec (.runnerGroupMerge die g) s = .next s) ∧
      (∀ k, s.launches = [] → (groupRec s (4 * die + g)).servedBy = 4 * die + g → groupActive s (4 * die + g) < 3 → 4 * die + g < 16 →
        mergeTarget s die g = some k → k ≠ 4 * die + g →
        ∃ t, exec (.runnerGroupMerge die g) s = .next t ∧ (groupRec t (4 * die + g)).servedBy = k ∧
          (∀ e ∈ t.cmds, e.2.grp ≠ 4 * die + g))) ∧
    (∀ (wg : Nat) (x : Pair), pairOf s wg = some x →
      (wgTakes s wg = true → pairQuiet s x = true → pairMerging s x = false →
        wgExited s x.p = false → atCheckpoint s x.p (x.r.ck + 1) = true → atCheckpoint s x.t (x.r.ck + 1) = true →
        exec (.checkpoint wg) s = .next (if x.r.sg = x.twinSg then s.passCheckpoint x else s.mismatch x)) ∧
      (∀ (i j : Nat) (fl y : Flight), wgHalted s wg = false → pairMerging s x = false → comparable s x = some (i, fl, j, y) →
        (flightOps fl ≠ flightOps y → exec (.redundantCompare wg) s = .next (s.mismatch x)) ∧
        (flightOps fl = flightOps y → fl.fib % 256 = y.fib % 256 → x.r.log[x.r.rerun]? = none →
          ∃ u : State, exec (.redundantCompare wg) s = .next (u.armFlight i) ∧ tget u.flights j = some { y with stage := .mirror } ∧
            (i ≠ j → tget u.flights i = some { fl with stage := .request }) ∧ u.mem = s.mem)) ∧
      (wgHalted s wg = false → pairMerging s x = false → sgcHandle s x = none → exec (.runnerSgcCompare wg) s = .next s) ∧
      (∀ h, wgHalted s wg = false → pairMerging s x = false → sgcHandle s x = some h → handleSgc s x.p h ≠ handleSgc s x.t h →
        exec (.runnerSgcCompare wg) s = .next (s.mismatch x)) ∧
      (∀ h, wgHalted s wg = false → pairMerging s x = false → sgcHandle s x = some h → handleSgc s x.p h = handleSgc s x.t h →
        (∀ e, x.r.log[x.r.rerun]? = some e → e = sgcEntry h (handleSgc s x.p h) →
          exec (.runnerSgcCompare wg) s = .next ({ s with
            cmds := s.cmds.map (fun (y : Nat × Cmd) =>
              (y.1, if (y.2.wg = x.p ∨ y.2.wg = x.t) ∧ y.2.handle = h ∧ y.2.sgc.isSome = true then afterSgc y.2 else y.2)) }.modWg
            x.p (fun (v : Workgroup) => { v with red := v.red.map (fun (r : Redundant) => { r with rerun := r.rerun + 1 }) }))) ∧
        (x.r.log[x.r.rerun]? = none → ∃ u : State, exec (.runnerSgcCompare wg) s = .next u ∧
          (∀ i c, tget u.cmds i = some c → (c.wg = x.p ∨ c.wg = x.t) → c.handle = h → c.sgc = none))) ∧
      (pairMerging s x = false → ctxTakes s x.pw.ctx = true → 
        let late := ∃ i, (i = x.p ∨ i = x.t) ∧ ∃ k, waitsAlone s x i = some k ∧ k + wdtOf s x.pw ≤ s.tick
        (late → exec (.mismatchTimeout wg) s = .next (s.mismatch x)) ∧
        (¬ late → exec (.mismatchTimeout wg) s = .next s)))

/-- The events of fibres and workgroups. TRAP_ENTRY takes a pending trap once nothing earlier of the fibre is outstanding, and
first asks for what its entry reads in host memory or at a peer. FAIRNESS_BURST begins a burst of 32 at the next program
counter above the rover, or else the lowest, of the ready threads that are not at the lowest one. ISSUE_LIMIT_SWITCH passes
the slot to the next ready fibre after 2,048 consecutive issues, and the fibre that gives it up loses its latches and its
shadow count. GROUP_TAKE gives a free place of a pool launch the threads of a group's records. WORKGROUP_START grants a
workgroup its scratchpad, cleared registers, barriers, handles and tiles; WORKGROUP_END removes one whose fibres have exited
and asks for the boundary of its stores; LAUNCH_COMPLETE completes a launch with nothing left; WATCHDOG_EXPIRY ends the
context with status 2 (R157, R184, R207, R214, R222, R305, R341, R342, R358, R378, R381, R386). Under conditions on the state
and the operands alone it concludes that exec answers a next state with the effect named for trapEntry, fairnessBurst,
issueLimitSwitch, workgroupEnd, workgroupStart, groupTake, watchdogExpiry and launchComplete. Where the spec is silent it
states the model's choice (log entries 28, 39, 40). -/
def Obligations.FibreEvents : Prop :=
  ∀ (s : State),
    (∀ (fid : Nat), trapReady s fid = none → exec (.trapEntry fid) s = .next s) ∧
    (∀ (fid : Nat) (f : Fibre) (t : Trap), tget s.fibs fid = some f → f.trap = some t → fibFlights s fid = [] →
      twinFib s fid = none →
      (trapAtHand s fid = true → exec (.trapEntry fid) s = .next (s.takeTrap fid t)) ∧
      (trapAtHand s fid = false → exec (.trapEntry fid) s = .next (s.fetchTrap fid t))) ∧
    (∀ (fid : Nat) (f : Fibre), tget s.fibs fid = some f →
      (f.ft < fairLim s f → exec (.fairnessBurst fid) s = .next s) ∧
      (∀ p q, fairLim s f ≤ f.ft → f.burst = none → heldRun s f = none → f.ready = true → lowestPc (readyThreads f) = some p →
        lowestPc ((readyThreads f).filter (fun x => decide (x.2 ≠ p ∧ f.rv.toNat < x.2.toNat))) = some q →
        exec (.fairnessBurst fid) s = .next (s.setFib fid { f with rv := q, burst := some { set := runAt f q, left := 32 } })) ∧
      (∀ p q, fairLim s f ≤ f.ft → f.burst = none → heldRun s f = none → f.ready = true → lowestPc (readyThreads f) = some p →
        lowestPc ((readyThreads f).filter (fun x => decide (x.2 ≠ p ∧ f.rv.toNat < x.2.toNat))) = none →
        lowestPc ((readyThreads f).filter (fun x => decide (x.2 ≠ p))) = some q →
        exec (.fairnessBurst fid) s = .next (s.setFib fid { f with rv := q, burst := some { set := runAt f q, left := 32 } }))) ∧
    (∀ (k i : Nat) (x : Slot) (f : Fibre), tget s.slots k = some x → tget s.fibs (fibId k x.cur) = some f → heldRun s f = none →
      (x.consec < 2048 → exec (.issueLimitSwitch k) s = .next s) ∧
      (2048 ≤ x.consec → nextReady s k x.cur = some i →
        exec (.issueLimitSwitch k) s = .next ((s.setFib (fibId k x.cur) { f with
          l0 := { f.l0 with valid := false }, l1 := { f.l1 with valid := false }, shadow := 0 }).setSlot k
            { x with cur := i, consec := 0 }))) ∧
    (∀ (fid : Nat) (f : Fibre) (w : Workgroup) (l : Launch) (ps : List Parked) (idle : Bool) (bs : List (List Byte)),
      tget s.fibs fid = some f → tget s.wgs f.wg = some w → tget s.launches w.lid = some l → l.lr.pool = true → f.exited = true →
      w.ending = false → f.hold = .none → ctxPlaceable s w.ctx = true → fibFlights s fid = [] →
      idle = (s.fibs.filter (fun e => match wgOf s e.2 with | some x => x.lid == w.lid | none => false)).all (fun e => e.2.exited) →
      pickGroup l s.tick idle = some ps → ps.length = bs.length → ps.length ≤ 32 → groupLines s f w l ps = [] →
      l.hdr.priv ≤ f.regs.length + (coreOf s w.core).regFree.getD (fibSched fid) 0 →
      (∀ (j : Nat) (p : Parked) (b : List Byte), ps[j]? = some p → bs[j]? = some b →
        readGot s f.got w.ctx l.xl false .read (l.lr.auxa.toNat + p.idx * recordSize l) (recordSize l) = .ok b) →
      ∃ t g, exec (.groupTake fid) s = .next t ∧ tget t.fibs fid = some g ∧ t.mem = s.mem ∧ g.threads.length = 32 ∧ g.regs.length = l.hdr.priv ∧
        (∀ (j : Nat) (th : Thread) (b : List Byte), g.threads[j]? = some th → bs[j]? = some b →
          th.st = 0#4 ∧ th.pc = BitVec.ofNat 64 (leValue b) ∧ th.rstate = BitVec.ofNat 64 (leValue b / 2 ^ 64)) ∧
        (∀ (j : Nat) (th : Thread), bs.length ≤ j → g.threads[j]? = some th → th.st = 6#4)) ∧
    (∀ (lid core w : Nat) (l : Launch) (ps : List (Nat × Nat)) (gr : CoreGrant), tget s.launches lid = some l → l.lr.rdn = false →
      (startable s l core = false → exec (.workgroupStart lid core) s = .next s) ∧
      (startable s l core = true → (∀ k ∈ s.launches, ¬ (goesBefore s k.2 l = true ∧ startable s k.2 core = true)) →
        nextWg l core = some w → placesOn s l core = some ps → launchGrant s l core = some gr →
        ∃ t g, exec (.workgroupStart lid core) s = .next t ∧ tget t.wgs s.ids = some g ∧ t.mem = s.mem ∧
          g.w = w ∧ g.core = core ∧ g.lid = lid ∧ g.held = gr ∧ g.scratch = l.hdr.scratch ∧ g.spad = [] ∧
          g.bars = List.replicate 16 { gen := 0#16, arr := 0, req := 0 } ∧ g.handles = List.replicate 64 Handle.unused ∧
          g.cbars.length = l.lr.cbars ∧ g.tiles.length = l.lr.tiles ∧ g.banks.length = l.lr.banks ∧
          g.slots = ps.map (fun p => slotId core p.1 p.2))) ∧
    (∀ (wid : Nat) (w : Workgroup), tget s.wgs wid = some w →
      (wgMayEnd s wid = false → exec (.workgroupEnd wid) s = .next s) ∧
      (wgMayEnd s wid = true → ∃ t, exec (.workgroupEnd wid) s = .next t ∧ tget t.wgs wid = none ∧ t.mem = s.mem)) ∧
    (∀ (lid : Nat) (l : Launch), tget s.launches lid = some l →
      exec (.launchComplete lid) s = .next (if launchOver s lid l then (s.completeLaunch lid 0 0 0).leaveContext l.ctx else s)) ∧
    (∀ (wid kind obj k : Nat) (w : Workgroup) (l : Launch), tget s.wgs wid = some w → tget s.launches w.lid = some l →
      watchStart s wid kind obj w = some k →
      (s.tick < k + l.lr.wdt → exec (.watchdogExpiry wid kind obj) s = .next s) ∧
      (k + l.lr.wdt ≤ s.tick → kind ≤ 3 → ctxPlaceable s w.ctx = true →
        ((∃ (i : Nat) (v : Workgroup) (kd x : Nat), (i, v) ∈ s.wgs ∧ v.lid = w.lid ∧ (kd, x) ∈ watchObjects s i v ∧
            watchDue s i kd x v = true ∧ watchKey s i kd x v < watchKey s wid kind obj w) →
          exec (.watchdogExpiry wid kind obj) s = .next s) ∧
        ((∀ (i : Nat) (v : Workgroup) (kd x : Nat), (i, v) ∈ s.wgs → v.lid = w.lid → (kd, x) ∈ watchObjects s i v →
            watchDue s i kd x v = true → ¬ watchKey s i kd x v < watchKey s wid kind obj w) →
          ∃ u : State, exec (.watchdogExpiry wid kind obj) s = .next (u.endContext w.ctx 2 (some (w.lid, w.w))) ∧
            (∀ v, writeVirtual s w.ctx l.xl false l.lr.wda.toNat (watchRecord s wid kind obj w) = .ok v → u = v) ∧
            (writeVirtual s w.ctx l.xl false l.lr.wda.toNat (watchRecord s wid kind obj w) = .error 6 →
              u.faultQ ≠ s.faultQ))))

/-! ### Packets, contexts, the link and the device's own events -/

namespace Sys2Proof.Machine

/-- The packet events with the types that each serves. -/
def packetRows (q : QueueRef) (p : Packet) : List (Instr × (Nat → Bool)) :=
  [(.nopPacket q p, fun t => t == 0 || decide (6 ≤ t)), (.launch q p, fun t => t == 1), (.chain q p, fun t => t == 2),
   (.inval q p, fun t => t == 3), (.signal q p, fun t => t == 4), (.waitv q p, fun t => t == 5)]

/-- A packet has begun under the next number, with what it is. -/
def State.begun (s : State) (q : QueueRef) (p : Packet) (d : Nat) (b : Option Nat) (k : PktKind) : State :=
  { s with ids := s.ids + 1 }.beginPkt q b (newPkt s.ids k p d b)

/-- The first failing row of R376 in front of the records of a pool and the code of a measured kernel; 0 for none. -/
def launchRow (s : State) (c : CtxKey) (p : Packet) (x : LaunchRead) : Nat :=
  checkCode x.recN x.hdrN (headerOf (recKhdr x.recN + 64#64) x.hdrN) (recordOf p.ptr x.recN x.g) p.ind x.map (coreTable s c.fn)

end Sys2Proof.Machine

/-- The packet events. A packet that the queue cannot begin yet leaves it as reading it did; one whose bytes are read and that
is misused sets ERR to its code of R370 and HALT, and HEAD stands; a poisoned context-table entry is queue error 0x04. A
packet that begins moves HEAD or its block's position past it and takes a number. A NOP completes at once. A CHAIN holds its
block. A LAUNCH that passes the launch check is accepted, with the next LSEQ, the workgroups of its record and the memory that
it fetches from, its count latched into the record first; one that fails completes with status 1 and the code of its first
failing row. An INVAL removes the translations, and with OBJ the object entries, that it names, and its completion waits for
the work under them. A SIGNAL writes ARG as a release at .sys; a poisoned word or a fault is a queue error. A WAITV completes
when its word has reached ARG, and is read again while it has not. A doorbell writes TAIL, or is queue error 0x05 (R120, R368,
R370, R371, R372, R373, R376, R378). Under conditions on the state and the operands alone it concludes that exec answers a
next state with the effect named for nopPacket, launch, chain, inval, signal, waitv, dbell, invalComplete and waitvRecheck.
Where the spec is silent it states the model's choice (log entries 9, 38). -/
def Obligations.PacketEvents : Prop :=
  ∀ (s : State) (q : QueueRef) (p : Packet),
    (∀ g ∈ packetRows q p,
      (∀ u, readPacket s q p g.2 = .wait u → exec g.1 s = .next u) ∧
      (nextAddr s q = none → exec g.1 s = .next s) ∧
      (∀ (va d : Nat) (b : Option Nat), nextAddr s q = some (va, d, b) → g.2 p.ty.toNat = true →
        entryPoisoned s (queueCtx s q) = true → exec g.1 s = .next ((s.queueFault q
          { kind := 6, va := 0#64, acc := 0, obj := 0, lane := 0, replayable := false }).queueError q b 4)) ∧
      (∀ (va d : Nat) (b : Option Nat) (bs : List (List Byte)) (code : Nat), nextAddr s q = some (va, d, b) → g.2 p.ty.toNat = true →
        entryPoisoned s (queueCtx s q) = false →
        let u := s.readEntry (queueCtx s q)
        runRead u (queueRun u q (ctxOf u (queueCtx s q)).force) 0 [(va % 2 ^ 64, 16)] = .ok bs → packetOf (leValue bs.flatten) = p →
        p.bar = false → misuse q p d = some code → exec g.1 s = .next (u.queueError q b code))) ∧
    (∀ u d b, readPacket s q p (fun t => t == 0 || decide (6 ≤ t)) = .ready u d b →
      exec (.nopPacket q p) s = .next ((u.begun q p d b (.signal none)).completePkt q u.ids)) ∧
    (∀ u d b, readPacket s q p (fun t => t == 2) = .ready u d b →
      exec (.chain q p) s = .next (u.begun q p d b (.chain p.ptr (p.arg.toNat % 2 ^ 16 + 1) 0))) ∧
    (∀ u d b, readPacket s q p (fun t => t == 1) = .ready u d b →
      let c := queueCtx u q
      let xl := writtenXl (ctxOf u c)
      let r := queueRun u q xl
      ∀ (n g : Nat) (x : LaunchRead), readCount u q r p.ptr p.ind = .ok (n, g) →
        let v := if p.ind then u.latchCount q c xl p.ptr g else u
        readLaunch v r p.ptr n g = .ok x →
        let w := v.begun q p d b (.launch v.ids)
        let h := headerOf (recKhdr x.recN + 64#64) x.hdrN
        let rc := recordOf p.ptr x.recN x.g
        let failed (k : Nat) := (w.writeCompletion c xl p.ptr rc.cpla 0 k 1 0).completePkt q v.ids
        (launchRow v c p x ≠ 0 → exec (.launch q p) s = .next (failed (launchRow v c p x))) ∧
        (∀ (bs code : List (List Byte)), launchRow v c p x = 0 → runRead v r 0 (poolRanges x.hdrN h rc) = .ok bs →
          ((∃ y ∈ bs, poolRecordOk (leValue y) = false) → exec (.launch q p) s = .next (failed 10)) ∧
          ((∀ y ∈ bs, poolRecordOk (leValue y) = true) → runRead v r 0 (measuredRanges v c x) = .ok code →
            exec (.launch q p) s = .next (w.acceptLaunch q v.ids c xl p.ptr x (bs.map leValue) code.flatten) ∧
            (rc.pool = false → wgCount h rc ≠ 0 →
              ∃ t, exec (.launch q p) s = .next t ∧ t.mem = w.mem ∧ t.lseq = w.lseq + 1 ∧
                t.launches = tset w.launches w.ids
                  { ctx := c, qr := q, pkt := v.ids, part := partOf w c.fn,
                    lr := if recSeedsrc x.recN then { rc with seed := Config.random w.free } else rc, hdr := h, lseq := w.lseq,
                    total := wgCount h rc, next := 0, ahead := [], ended := 0, units := [],
                    map := if rc.pmapa = 0#64 then [] else x.map, remap := coreTable w c.fn, parked := [], live := 0, xl := xl,
                    code := codeNow w, codeSys := []
                    sysHidden := (w.launches.map (fun (e : Nat × Launch) => if e.2.ctx.fn = c.fn then e.2.sysWrote else [])).flatten })))) ∧
    (∀ u d b, readPacket s q p (fun t => t == 3) = .ready u d b →
      let va := p.ptr.toNat
      let n := p.arg.toNat
      ∃ (t : State) (w : Inval), exec (.inval q p) s = .next t ∧ t.invals = tset u.invals u.ids w ∧ w.qr = q ∧ w.pkt = u.ids ∧
        t.tlb = u.tlb.filter (fun e => !(invalEntry u q p.alla va n e)) ∧
        t.objs = (if p.obj then u.objs.filter (fun e => !(invalCtx u q p.alla e.1)) else u.objs) ∧
        (∀ i fl, (i, fl) ∈ u.flights → (i ∈ w.flights ↔ ∃ y, (i, y) ∈ u.flights ∧ invalCtx u q p.alla y.ctx = true ∧
          flightHits (invalRanges u q p.alla va n) y = true))) ∧
    (∀ (id : Nat) (x : Inval), tget s.invals id = some x →
      (invalOver s x = false → exec (.invalComplete id) s = .next s) ∧
      (invalOver s x = true → exec (.invalComplete id) s = .next ({ s with invals := tdel s.invals id }.completePkt x.qr x.pkt))) ∧
    (∀ u d b, readPacket s q p (fun t => t == 4) = .ready u d b →
      let c := queueCtx u q
      let xl := (ctxOf u c).force
      (∀ k, translate u c xl false .write p.ptr = .error k → exec (.signal q p) s = .next
        ((u.queueFault q { kind := k, va := p.ptr, acc := 1, obj := 0, lane := 0, replayable := false }).queueError q b 4)) ∧
      (∀ a k, translate u c xl false .write p.ptr = .ok (.dev a k) →
        (poisoned u a = true → exec (.signal q p) s = .next ((u.poisonedWord q p.ptr a).queueError q b 6)) ∧
        (poisoned u a = false → exec (.signal q p) s = .next ((((u.begun q p d b (.signal none)).sliceWriteNat a 4 p.arg.toNat).setRel a
          (some (queueRel (u.begun q p d b (.signal none)) q 9))).completePkt q u.ids)))) ∧
    (∀ u d b, readPacket s q p (fun t => t == 5) = .ready u d b →
      (∀ v code, readWaitv u q p.ptr p.arg = .bad v code → exec (.waitv q p) s = .next (v.queueError q b code)) ∧
      (∀ v, readWaitv u q p.ptr p.arg = .need v → exec (.waitv q p) s = .next v) ∧
      (∀ v, readWaitv u q p.ptr p.arg = .unmet v → exec (.waitv q p) s = .next (v.begun q p d b (.waitv p.ptr p.arg))) ∧
      (∀ v, readWaitv u q p.ptr p.arg = .met v →
        exec (.waitv q p) s = .next ((v.begun q p d b (.waitv p.ptr p.arg)).completePkt q v.ids))) ∧
    (∀ (x : Pkt) (va : Addr) (arg : Word), (queueOf s q).pkts = [x] → x.kind = .waitv va arg →
      (∀ v, readWaitv s q va arg = .met v → exec (.waitvRecheck q) s = .next (v.completePkt q x.id)) ∧
      (∀ v, readWaitv s q va arg = .unmet v → exec (.waitvRecheck q) s = .next v) ∧
      (∀ v, readWaitv s q va arg = .need v → exec (.waitvRecheck q) s = .next v) ∧
      (∀ v code, readWaitv s q va arg = .bad v code → exec (.waitvRecheck q) s = .next (v.packetError q x code))) ∧
    (∀ tail : Word, q.q < 64 → (fnRec s q.fn).isSome = true → s.boot = .up →
      let head : Word := BitVec.ofNat 32 (descField s q 415 384)
      let old : Word := BitVec.ofNat 32 (descField s q 447 416)
      let bad := 2 ^ queueLogn s q < (tail - head).toNat ∨ (tail - head).toNat < (old - head).toNat
      (bad → exec (.dbell q tail) s = .next ((s.setDesc q 367 360 5).setDesc q 355 355 1)) ∧
      (¬ bad → exec (.dbell q tail) s = .next (s.setDesc q 447 416 tail.toNat)))

/-- Pre-emption. PREEMPT stops a resident context for something of higher priority unless a watchdog expiry of it is due,
QUANTUM_EXPIRY for something of equal priority once the quantum is over; both change nothing else than its residency and the
boundaries asked of its cores. After 10 µs a line of a peer that has not come is given up, and its threads stand at the
instruction again; a ticketed add with lanes done is kept, and an ENQ or DEQ that may hold a reservation goes on. The context
is halted once everything has settled and no store of it is buffered, the snapshots of its cores discarded; it is saved, with
its workgroups in order, into its save area, and one whose area is missing, too small or not its enclave's ends with status 3.
RESTORE puts its workgroups back, leaves it saved with RSTAT 1 while they find no room, and completes its launches with status
6 when they never can. The host's request ends a context (R382, R395, R396, R397, R399, R400, R465). Under conditions on the
state and the operands alone it concludes that exec answers a next state with the effect named for preempt, quantumExpiry,
preemptPeerTimeout, contextHalted, contextSave, restore and hostEndContext. Where the spec is silent it states the model's
choice (log entries 10, 40). -/
def Obligations.PreemptionEvents : Prop :=
  ∀ (s : State) (c : CtxKey),
    (∀ r ∈ [(Instr.preempt c, ctxOverdue s c = false ∧ ∃ k ∈ wantedBy s c, ctxPrio s c < k),
            (Instr.quantumExpiry c, ctxOverdue s c = false ∧ ctxQuant s c ≠ 0 ∧ (∃ k, residentSince s c = some k ∧ k + 1900 * ctxQuant s c ≤ s.tick) ∧
              ctxPrio s c ∈ wantedBy s c)],
      (residentSince s c = none ∨ ¬ r.2 → exec r.1 s = .next s) ∧
      ((residentSince s c).isSome = true → r.2 → ∃ t, exec r.1 s = .next t ∧ (ctxOf t c).res = .stopping s.tick ∧ t.mem = s.mem ∧
        t.fibs = s.fibs ∧ t.wgs = s.wgs ∧ t.flights = s.flights ∧ (∀ k, k ≠ c → ctxOf t k = ctxOf s k))) ∧
    (∀ (i : Nat) (fl : Flight), tget s.flights i = some fl →
      (ctxStopping s fl.ctx = none → exec (.preemptPeerTimeout i) s = .next s) ∧
      (∀ k, ctxStopping s fl.ctx = some k → s.tick < k + 19000 → exec (.preemptPeerTimeout i) s = .next s) ∧
      (mayReserve fl = true → exec (.preemptPeerTimeout i) s = .next s) ∧
      (∀ k, ctxStopping s fl.ctx = some k → k + 19000 ≤ s.tick → (∃ ln ∈ fl.lines, ∃ p o, ln.place = .peer p o) →
        fl.kind ≠ .relStore → fl.kind ≠ .putLines → mayReserve fl = false →
        (keptFlight fl = false → ∃ t, exec (.preemptPeerTimeout i) s = .next t ∧ tget t.flights i = none ∧ t.mem = s.mem) ∧
        (keptFlight fl = true → ∃ t, exec (.preemptPeerTimeout i) s = .next t ∧ t.mem = s.mem ∧
          tget t.flights i = some { fl with stage := .waiting, waiters := 0, retry := 0 })) ∧
      (∀ k f, ctxStopping s fl.ctx = some k → k + 19000 ≤ s.tick → (∃ ln ∈ fl.lines, ∃ p o, ln.place = .peer p o) →
        fl.kind ≠ .relStore → fl.kind ≠ .putLines → mayReserve fl = false → keptFlight fl = false → fl.split = false →
        tget s.fibs fl.fib = some f → f.hold = .flight i → f.splits = [] →
        ∃ t g, exec (.preemptPeerTimeout i) s = .next t ∧ tget t.flights i = none ∧ t.mem = s.mem ∧ tget t.fibs fl.fib = some g ∧
          g.hold = .none ∧ g.regs = f.regs ∧
          (∀ (l : Nat) (th : Thread), g.threads[l]? = some th → (fl.mask &&& liveMask (leaveHold f) &&& ~~~ fl.done).getLsbD l = true →
            th.st = 0#4 ∧ th.pc = fl.pc))) ∧
    (ctxStopping s c = none ∨ ctxSettled s c = false → exec (.contextHalted c) s = .next s) ∧
    ((ctxStopping s c).isSome = true → ctxSettled s c = true → ctxBuffered s c = [] →
      ∃ t, exec (.contextHalted c) s = .next t ∧ (ctxOf t c).res = .halted s.tick ∧ t.mem = s.mem ∧
        (∀ k ∈ ctxCores s c, (coreOf t k).snap = []) ∧ (∀ e ∈ t.podWait, ∀ fl, tget s.flights e.2 = some fl → fl.ctx ≠ c)) ∧
    (∀ tick, (ctxOf s c).res = .halted tick →
      let x := ctxOf s c
      let xs := savedWgs s c
      let size := 64 + (xs.map SavedWg.size).sum
      (xs = [] → exec (.contextSave c) s = .next (s.unload c xs tick)) ∧
      (xs ≠ [] → x.page = none → exec (.contextSave c) s = .next (s.failSave c 0)) ∧
      (∀ pg, xs ≠ [] → x.page = some pg →
        (pg.magic = false ∨ pg.savesz < size ∨ saveOwned s c pg.savea.toNat size = false →
          exec (.contextSave c) s = .next (s.failSave c pg.savea.toNat)) ∧
        (∀ u v, pg.magic = true → size ≤ pg.savesz → saveOwned s c pg.savea.toNat size = true →
          writeVirtual s c x.force true pg.savea.toNat (leBytes (saveHeader s c tick xs) 64) = .ok u →
          u.writeFree c x.force (pg.savea.toNat + 64) (size - 64) = .ok v →
          ∃ t, exec (.contextSave c) s = .next t ∧ (ctxOf t c).res = .saved tick false ∧ (ctxOf t c).saved = xs ∧ t.mem = v.mem))) ∧
    ((∀ tick, (ctxOf s c).res ≠ .halted tick) → exec (.contextSave c) s = .next s) ∧
    ((∀ tick r, (ctxOf s c).res ≠ .saved tick r) → exec (.restore c) s = .next s) ∧
    (∀ tick refused, (ctxOf s c).res = .saved tick refused →
      let x := ctxOf s c
      let u := s.modCtx c (fun y => { y with page := readPage s c })
      let hopeless := ∃ y ∈ x.saved, (coreTable s c.fn).length ≤ y.wg.lcore ∨ fitsEmptySaved s y = false
      (hopeless → ∃ t, exec (.restore c) s = .next t ∧ (ctxOf t c).res = .idle ∧ (ctxOf t c).saved = []) ∧
      (∀ v, ¬ hopeless → x.saved ≠ [] → headerAdmits u c x.saved = true → u.putAll (s.tick - tick) x.saved = some v →
        let w := (v.writeRstat c 2).modCtx c (fun y => { y with res := .resident s.tick, saved := [] })
        exec (.restore c) s = .next (((ctxCores w c).foldl (fun (a : State) k => a.refresh k) w).wakeRestored c)) ∧
      (¬ hopeless → x.saved ≠ [] → headerAdmits u c x.saved = false ∨ u.putAll (s.tick - tick) x.saved = none →
        (refused = true → exec (.restore c) s = .next s) ∧
        (refused = false → exec (.restore c) s = .next ((u.writeRstat c 1).modCtx c (fun y =>
          { y with res := .saved tick true, page := x.page }))))) ∧
    (exec (.hostEndContext c) s = .next (s.endContext c 5 none)) ∧
    (∃ t, exec (.hostEndContext c) s = .next t ∧ (ctxOf t c).res = .idle ∧ (ctxOf t c).saved = [])

namespace Sys2Proof.Machine

/-- `n` bytes from an address lie in one line that is not poisoned. -/
abbrev SoundPiece (s : State) (d n : Nat) : Prop := 0 < n ∧ d / 64 = (d + n - 1) / 64 ∧ poisoned s d = false

/-- The stream of a request with the request waiting in its window. -/
def queued (s : State) (r : PeerReq) : InStream :=
  { inStream s r.src r.stream with window := (inStream s r.src r.stream).window ++ [r] }

/-- A lane's unit retires with its records (R22, R28, R404). -/
def State.laneDown (s : State) (u : Word) (rs : List (Nat × List Byte)) : State :=
  let t := s.setWear { wearOf s u with st := 2 }
  { t with nvPending := t.nvPending ++ rs ++ [(0x14, leBytes u.toNat 4 ++ leBytes 2 4)] }

end Sys2Proof.Machine

/-- The events of the host link and the peer fabric. A host access reads or writes device memory of its function's window; one
to an enclave's region, or after a class-F record, is aborted, and one that no window holds is unsupported; poison is returned
as poisoned, and a poisoned write poisons its lines. Completions and timeouts of accesses to host memory fill the line or
fault with kind 8, and an atomic's gives its lane the old value. A request of a peer that was performed before changes
nothing, one ahead of its turn waits in the window, and one whose turn it is is performed and answered: poison with kind 6,
any failure of its translation with kind 7. A retransmission goes by the relay in use, or its requests end where no path is
left; a relay is passed on. A lane that fails takes its port's spare and retrains, or fails the link; retraining brings the
link back. Configuration requests are answered with retry until boot has ended, and management requests never read device
memory (R22, R102, R137, R310, R311, R312, R313, R314, R332, R431, R432, R448). Under conditions on the state and the operands
alone it concludes that exec answers a next state with the effect named for hostRead, hostWrite, hostCompletion,
completionTimeout, linkError, peerRequest, flitRetransmit, relayForward, laneFailure, retrainComplete, managementRequest and
configurationRequest. Where the spec is silent it states the model's choice (log entries 29, 46). -/
def Obligations.LinkEvents : Prop :=
  ∀ (s : State),
    (∀ fn a n,
      (∀ ab, hostAccess s fn a n = .refuse ab →
        exec (.hostRead fn a n) s = .next ((if ab then s.reportAer fn 4 else s).send (.refuse fn ab))) ∧
      (∀ d, hostAccess s fn a n = .at d →
        ((∃ l ∈ touched d n, poisoned s l = true) → exec (.hostRead fn a n) s = .next (s.send (.completion fn [] true))) ∧
        ((∀ l ∈ touched d n, poisoned s l = false) →
          exec (.hostRead fn a n) s = .next (s.send (.completion fn ((List.range n).map (fun i => readByte s.mem (d + i))) false))))) ∧
    (∀ (fn a : Nat) (data : List Byte) (bad : Bool),
      (∀ ab, hostAccess s fn a data.length = .refuse ab →
        exec (.hostWrite fn a data bad) s = .next (if ab then s.reportAer fn 4 else s)) ∧
      (∀ d, hostAccess s fn a data.length = .at d → SoundPiece s d data.length →
        (bad = false → ∃ t, exec (.hostWrite fn a data bad) s = .next t ∧ t.fibs = s.fibs ∧
          (∀ k, readByte t.mem k = if d ≤ k ∧ k < d + data.length then data.getD (k - d) 0#8 else readByte s.mem k)) ∧
        (bad = true → ∃ t, exec (.hostWrite fn a data bad) s = .next t ∧ lineBase d ∈ t.poisonLines))) ∧
    (∀ (i n : Nat) (fl : Flight) (ln : LineReq) (x : BitVec 512) (old : List Word) (o : Nat), tget s.flights i = some fl →
      (∀ sub ty m, fl.kind ≠ .atom sub ty m) → fl.lines[n]? = some ln → ln.place = .sys o → ln.data = none →
      exec (.hostCompletion i n x old .ok) s = .next ((s.fillLine i n x).flightArrived i) ∧
      exec (.hostCompletion i n x old .poisoned) s = .next ((s.reportAer fl.ctx.fn 2).failAny i 8 n) ∧
      exec (.hostCompletion i n x old .unsupported) s = .next (s.failAny i 8 n) ∧
      exec (.hostCompletion i n x old .abort) s = .next (s.failAny i 8 n)) ∧
    (∀ (i n : Nat) (fl : Flight) (ln : LineReq) (y : LaneReq) (x : BitVec 512) (o : Word) (sub : Nat) (ty : BitVec 4) (m a b : Nat),
      tget s.flights i = some fl → fl.kind = .atom sub ty m → laneReq fl n = some y → y.place = .sys a → y.ret = none →
      fl.lines[lineOfLane fl n]? = some ln → ln.place = .sys b → ln.data = none → lanesReady (setRet n o fl) = false →
      ∃ t, exec (.hostCompletion i n x [o] .ok) s = .next t ∧ t = { s with flights := t.flights } ∧ tget t.flights i =
        some { setRet n o fl with flags := fl.flags ||| (atomNew sub ty m y.u o y.x y.y).2 }) ∧
    (∀ (i : Nat) (fl : Flight), tget s.flights i = some fl →
      (hostLine fl = none → exec (.completionTimeout i) s = .next s) ∧
      (∀ n, hostLine fl = some n → exec (.completionTimeout i) s = .next ((s.reportAer fl.ctx.fn 3).failAny i 8 n))) ∧
    (∀ e, exec (.linkError e) s = .next ((s.setAer 0 (linkErrorBit e)).send (.errorMsg false false))) ∧
    (∀ (r : PeerReq),
      let x := inStream s r.src r.stream
      (256 ≤ (r.seq - x.next).toNat ∨ (∃ y ∈ x.window, y.seq = r.seq) → exec (.peerRequest r) s = .next s) ∧
      ((r.seq - x.next).toNat < 256 → (∀ y ∈ x.window, y.seq ≠ r.seq) → r.seq ≠ x.next → (∀ y ∈ x.window, y.seq ≠ x.next) →
        exec (.peerRequest r) s = .next (s.setStream (queued s r))) ∧
      (r.seq = x.next → x.window = [] → (∀ key, r.body ≠ .wake key ∧ r.body ≠ .leave key) →
        let bad (k : Nat) := ∃ t, exec (.peerRequest r) s = .next t ∧ t.mem = s.mem ∧
          t.replies = s.replies ++ [{ replyTo r with fault := some k }] ∧ (inStream t r.src r.stream).next = x.next + 1#16
        (apertureOf s r = none → bad 7) ∧
        (∀ c, apertureOf s r = some c → guestPlace s r c = none → bad 7) ∧
        (∀ c d k, apertureOf s r = some c → guestPlace s r c = some (d, k) → r.body = .read →
          (poisoned s d = true → bad 6) ∧
          (poisoned s d = false → ∃ t, exec (.peerRequest r) s = .next t ∧ t.mem = s.mem ∧ (inStream t r.src r.stream).next = x.next + 1#16 ∧
            t.replies = s.replies ++ [{ replyTo r with
              data := readLine s.mem (lineBase d), rels := (tget s.lineRel (lineBase d)).toList.map (fun e => (0, e)) }])) ∧
        (∀ c d k m y rel, apertureOf s r = some c → guestPlace s r c = some (d, k) → r.body = .write m y rel →
          (writeLands s d m = false → bad 6) ∧
          (writeLands s d m = true → ∃ t, exec (.peerRequest r) s = .next t ∧ t.replies = s.replies ++ [replyTo r] ∧
            (inStream t r.src r.stream).next = x.next + 1#16 ∧
            (∀ a, readByte t.mem a = if a / 64 = d / 64 ∧ m.getLsbD (a % 64) = true then lineByte y (a % 64) else readByte s.mem a))))) ∧
    (∀ p n,
      (pathTo s p = true → exec (.flitRetransmit p n) s = .next { s with sent := s.sent.map (fun (x : PeerSent) =>
        if x.peer = p ∧ x.seq.toNat = n then { x with relay := relayTo s p } else x) }) ∧
      (pathTo s p = false → exec (.flitRetransmit p n) s = .next (s.losePeer p))) ∧
    (∀ (dst : Nat) (r : PeerReq),
      (linkUp s dst = true → linkUp s r.src = true → dst ≠ s.self →
        exec (.relayForward dst r) s = .next { s with relays := s.relays ++ [(dst, r)] }) ∧
      (linkUp s dst = false ∨ linkUp s r.src = false ∨ dst = s.self → exec (.relayForward dst r) s = .next s)) ∧
    (∀ port lane,
      let up := lanesUp s port
      let u := laneUnit port lane
      let spare := laneUnit port 8
      let v := s.errorRecord (port / 4) 5 0 port lane 0 u none 0#8
      (15 ≤ port ∨ lane ∉ up → exec (.laneFailure port lane) s = .next s) ∧
      (port < 15 → lane ∈ up → (wearOf v spare).st = 1 → exec (.laneFailure port lane) s = .next
        ((({ v with laneUp := kset v.laneUp port (up.map (fun k => if k = lane then 8 else k)) }.setWear { wearOf v spare with st := 0 }).laneDown u
          [(0x13, leBytes spare.toNat 4 ++ leBytes u.toNat 4 ++ leBytes 2 4)]).portState port 1).routeAgain) ∧
      (port < 15 → lane ∈ up → (wearOf v spare).st ≠ 1 → exec (.laneFailure port lane) s = .next
        (({ v with laneUp := kset v.laneUp port (up.filter (fun k => decide (k ≠ lane))) }.laneDown u []).portState port 2).routeAgain)) ∧
    (∀ port,
      let down := ∃ r ∈ s.fabric, r.port.toNat = port ∧ r.pop = true ∧ r.self = false ∧ r.link = 1
      (down → exec (.retrainComplete port) s = .next
        (((s.portState port 0).errorRecord (port / 4) 5 0 port 8 0 (laneUnit port 8) none 0#8).routeAgain)) ∧
      (¬ down → exec (.retrainComplete port) s = .next s)) ∧
    (∀ fn off,
      (s.boot = .held → exec (.configurationRequest fn off) s = .next (s.send (.config fn true 0#64))) ∧
      (s.boot = .up → (fnRec s fn).isSome = true →
        exec (.configurationRequest fn off) s = .next (s.send (.config fn false (Config.configSpace fn off)))) ∧
      (s.boot ≠ .held → fnRec s fn = none → exec (.configurationRequest fn off) s = .next (s.send (.refuse fn false)))) ∧
    (∀ a, exec (.managementRequest (.readMemory a)) s = .next (s.send (.mgmt [])) ∧
      exec (.managementRequest (.writeMemory a)) s = .next (s.send (.mgmt []))) ∧
    (exec (.managementRequest .power) s = .next (s.send (.mgmt (leBytes s.power 4)))) ∧
    (exec (.managementRequest .measurement) s = .next (s.send (.mgmt (fwdig s ++ cfgdig s ++ loghead s)))) ∧
    (∀ r, (∀ img, r ≠ .firmware img) → ∃ bs, exec (.managementRequest r) s = .next (s.send (.mgmt bs))) ∧
    (∀ img, imageOk img = true → exec (.managementRequest (.firmware img)) s = .next ((s.storeImage img).send (.mgmt [0#8])))

namespace Sys2Proof.Machine

/-- The command at the head of a function's ring has been taken. -/
def State.dbgTaken (s : State) (fn : Nat) : State :=
  let f := fnOf s fn
  s.modFn fn (fun (g : Fn) => { g with dbgst := dbgstOf (cmdHead f + 1) (hltTail f) (repTail f) })

/-- The debug commands that need a right, with their operation codes and the rights (R441, R455). -/
def dbgRows (fn : Nat) (c : DbgCmd) : List (Instr × Nat × Nat) :=
  [(.debugHalt fn c, 0x10, 0), (.dbgResume fn c, 0x11, 0), (.dbgStep fn c, 0x12, 0), (.dbgSetbp fn c, 0x20, 3), (.dbgClrbp fn c, 0x21, 3),
   (.dbgSetwp fn c, 0x22, 3), (.dbgClrwp fn c, 0x23, 3), (.dbgRdreg fn c, 0x30, 1), (.dbgWrreg fn c, 0x31, 2), (.dbgRdmem fn c, 0x32, 1),
   (.dbgWrmem fn c, 0x33, 2), (.dbgTrace fn c, 0x40, 4)]

/-- The command is taken from its ring and has this effect, and what its rings have room for is posted. -/
def Takes (i : Instr) (s : State) (fn : Nat) (t : State) : Prop := exec i s = .next (t.dbgFlush fn)

/-- A breakpoint command names nothing that it does not use. -/
abbrev PlainTarget (c : DbgCmd) : Prop := c.core = 0#10 ∧ c.sched = 0#2 ∧ c.slot = 0#4 ∧ c.fib = 0#2 ∧ c.scope = 0#2

end Sys2Proof.Machine

/-- Debugging. A command takes effect as the next of its function's ring and of its own operation code only; one that the
session's capability does not admit is answered with the status of its denial. OPEN opens a session under a live capability of
the function, CLOSE ends it. HALT asks the fibres of its scope to halt and is answered when they have; RESUME lets them go on;
STEP lets one halted fibre issue one run. SETBP, CLRBP, SETWP and CLRWP set and clear the numbered points of a context. RDREG
and WRREG move a register of a halted fibre, RDMEM and WRMEM a checked range of memory, through the debug buffer. TRACE arms
the session's trace, which starts and stops by its conditions. A capability is granted by the PF or delegated by a holder, and
is void, with those derived from it, when it is revoked or expires. Register writes set the fields of the function's register
block (R439, R440, R441, R443, R445, R446, R455, R456, R457, R458, R459). Under conditions on the state and the operands alone
it concludes that exec answers a next state with the effect named for registerWrite, traceStart, traceStop, haltReportPost,
grantCapability, revocation and capabilityExpiry. Where the spec is silent it states the model's choice (log entry 36). -/
def Obligations.DebugEvents : Prop :=
  ∀ (s : State) (fn : Nat) (c : DbgCmd),
    let u := s.dbgTaken fn
    let k := dbgCtx fn c
    (∀ r ∈ (Instr.dbgOpen fn c, 1, 0) :: (Instr.dbgClose fn c, 2, 0) :: dbgRows fn c,
      dbgHead s fn ≠ some c ∨ c.op ≠ BitVec.ofNat 8 r.2.1 → exec r.1 s = .next s) ∧
    (∀ r ∈ dbgRows fn c, dbgHead s fn = some c → c.op = BitVec.ofNat 8 r.2.1 → ∀ st, dbgDenied u fn c r.2.2 = some st →
      Takes r.1 s fn (u.dbgAnswer fn c st 0 0)) ∧
    (dbgHead s fn = some c →
      (c.op = 1#8 →
        ((sessionCap u fn).isSome = true → Takes (.dbgOpen fn c) s fn (u.dbgAnswer fn c 3 0 0)) ∧
        (sessionCap u fn = none → (∀ p ∈ u.caps, ¬ (p.capid.toNat = c.arg0.toNat ∧ p.hfn = fn ∧ capLive u p = true)) →
          Takes (.dbgOpen fn c) s fn (u.dbgAnswer fn c 1 0 0)) ∧
        (∀ p, (fnOf u fn).session = none → u.caps = [p] → p.capid.toNat = c.arg0.toNat → p.hfn = fn → capLive u p = true →
          Takes (.dbgOpen fn c) s fn ((u.modFn fn (fun (g : Fn) => { g with session := some p.capid })).dbgAnswer fn c 0 0 0))) ∧
      (c.op = 2#8 →
        (sessionCap u fn = none → Takes (.dbgClose fn c) s fn (u.dbgAnswer fn c 1 0 0)) ∧
        ((sessionCap u fn).isSome = true → Takes (.dbgClose fn c) s fn ((u.endSession fn).dbgReply fn 3 0 c.ctxid c.tag 0 0))) ∧
      (c.op = 0x10#8 → dbgDenied u fn c 0 = none →
        (dbgTargets u fn c c.scope.toNat = [] → Takes (.debugHalt fn c) s fn (u.dbgAnswer fn c 2 0 0)) ∧
        (∀ i f, dbgTargets u fn c c.scope.toNat = [i] → tget u.fibs i = some f → f.halted = none → f.hold ≠ .none →
          f.threads.any (fun x => x.st == 0#4) = true →
          Takes (.debugHalt fn c) s fn { u.setFib i { f with haltReq := true } with
            dbgPend := u.dbgPend ++ [{ ctx := k, tag := c.tag, fibs := [i] }] })) ∧
      (c.op = 0x11#8 → dbgDenied u fn c 0 = none →
        (dbgTargets u fn c c.scope.toNat = [] → Takes (.dbgResume fn c) s fn (u.dbgAnswer fn c 2 0 0)) ∧
        (∀ i f, dbgTargets u fn c c.scope.toNat = [i] → tget u.fibs i = some f → f.halted.isSome = true →
          Takes (.dbgResume fn c) s fn ((u.setFib i { f with halted := none, skipBp := true }).dbgAnswer fn c 0 0 0))) ∧
      (∀ (i : Nat) (l : List Nat) (f : Fibre), dbgTargets u fn c 0 = i :: l → tget u.fibs i = some f →
        (c.op = 0x12#8 → dbgDenied u fn c 0 = none → c.scope = 0#2 →
          (f.halted = none → Takes (.dbgStep fn c) s fn (u.dbgAnswer fn c 6 0 0)) ∧
          (f.halted.isSome = true → Takes (.dbgStep fn c) s fn
            { u.setFib i { f with halted := none, skipBp := true, stepping := some c.tag } with
              dbgPend := u.dbgPend ++ [{ ctx := k, tag := c.tag, fibs := [i] }] })) ∧
        (c.op = 0x30#8 → dbgDenied u fn c 1 = none → f.halted.isSome = true →
          (67 < c.arg0.toNat ∨ (c.arg0.toNat < 64 ∧ f.regs.length + (sharedOf u f).length ≤ c.arg0.toNat) →
            Takes (.dbgRdreg fn c) s fn (u.dbgAnswer fn c 3 0 0)) ∧
          (c.arg0.toNat < f.regs.length → c.arg0.toNat < 64 →
            Takes (.dbgRdreg fn c) s fn (u.dbgPut fn c (vecBytes (regVal f (sharedOf u f) c.arg0.toNat)) 0)) ∧
          (c.arg0 = 67#64 → Takes (.dbgRdreg fn c) s fn (u.dbgAnswer fn c 0 0 f.fpst.toNat))) ∧
        (c.op = 0x31#8 → dbgDenied u fn c 2 = none → f.halted.isSome = true →
          (∀ bs, c.arg0.toNat < f.regs.length → c.arg0.toNat < 64 → fnRead u fn (dbgData u fn c) 128 = some bs →
            Takes (.dbgWrreg fn c) s fn ((u.writePlace i c.arg0.toNat (BitVec.allOnes 32) (vecOfBytes bs) false).dbgAnswer fn c 0 0 0)) ∧
          (c.arg0 = 67#64 →
            Takes (.dbgWrreg fn c) s fn ((u.setFib i { f with fpst := c.arg1.setWidth 32 &&& 0x1F#32 }).dbgAnswer fn c 0 0 0)))) ∧
      (∀ r ∈ [(Instr.dbgSetbp fn c, 0x20), (Instr.dbgClrbp fn c, 0x21)], c.op = BitVec.ofNat 8 r.2 → dbgDenied u fn c 3 = none →
        8 ≤ c.arg1.toNat ∨ ¬ PlainTarget c → Takes r.1 s fn (u.dbgAnswer fn c 3 0 0)) ∧
      (c.op = 0x20#8 → dbgDenied u fn c 3 = none → PlainTarget c → c.arg1.toNat < 8 →
        Takes (.dbgSetbp fn c) s fn ((u.modCtx k (fun (x : Ctx) => { x with
          breaks := x.breaks.filter (fun b => decide (b.n ≠ c.arg1.toNat)) ++
            [{ n := c.arg1.toNat, va := c.arg0, len := 0, access := 0, lanes := c.lanes }] })).dbgAnswer fn c 0 0 0)) ∧
      (c.op = 0x21#8 → dbgDenied u fn c 3 = none → PlainTarget c → c.arg1.toNat < 8 →
        Takes (.dbgClrbp fn c) s fn ((u.modCtx k (fun (x : Ctx) => { x with
          breaks := x.breaks.filter (fun b => decide (b.n ≠ c.arg1.toNat)) })).dbgAnswer fn c 0 0 0)) ∧
      (c.op = 0x22#8 → dbgDenied u fn c 3 = none → PlainTarget c →
        let len := (c.arg1.extractLsb' 32 32).toNat
        let kind := (c.arg1.extractLsb' 2 2).toNat
        (len = 0 ∨ 2 ^ 31 < len ∨ kind = 0 → Takes (.dbgSetwp fn c) s fn (u.dbgAnswer fn c 3 0 0)) ∧
        (0 < len → len ≤ 2 ^ 31 → kind ≠ 0 →
          Takes (.dbgSetwp fn c) s fn ((u.modCtx k (fun (x : Ctx) => { x with
            watches := x.watches.filter (fun b => decide (b.n ≠ (c.arg1.extractLsb' 0 2).toNat)) ++
              [{ n := (c.arg1.extractLsb' 0 2).toNat, va := c.arg0, len := len,
                 access := kind + 4 * (if c.arg1.getLsbD 4 then 1 else 0), lanes := 0#32 }] })).dbgAnswer fn c 0 0 0))) ∧
      (c.op = 0x23#8 → dbgDenied u fn c 3 = none → PlainTarget c → c.arg1.toNat < 4 →
        Takes (.dbgClrwp fn c) s fn ((u.modCtx k (fun (x : Ctx) => { x with
          watches := x.watches.filter (fun b => decide (b.n ≠ c.arg1.toNat)) })).dbgAnswer fn c 0 0 0)) ∧
      (∀ r ∈ [(Instr.dbgRdmem fn c, 0x32, 1, Acc.read), (Instr.dbgWrmem fn c, 0x33, 2, Acc.write)], c.op = BitVec.ofNat 8 r.2.1 →
        dbgDenied u fn c r.2.2.1 = none →
        (4096 < c.arg1.toNat → Takes r.1 s fn (u.dbgAnswer fn c 3 0 0)) ∧
        (∀ va e, c.arg1.toNat ≤ 4096 → dbgPlaces u k r.2.2.2 c.arg0.toNat c.arg1.toNat = .error (va, e) →
          Takes r.1 s fn (u.dbgAnswer fn c 7 e va))) ∧
      (∀ ps, c.op = 0x32#8 → dbgDenied u fn c 1 = none → c.arg1.toNat ≤ 4096 →
        dbgPlaces u k .read c.arg0.toNat c.arg1.toNat = .ok ps →
        Takes (.dbgRdmem fn c) s fn (u.dbgPut fn c (ps.map (fun (x : Nat × Nat × Nat) => readBytes u.mem x.2.1 x.2.2)).flatten 0)) ∧
      (∀ v d n bs, c.op = 0x33#8 → dbgDenied u fn c 2 = none → c.arg1.toNat ≤ 4096 →
        dbgPlaces u k .write c.arg0.toNat c.arg1.toNat = .ok [(v, d, n)] → fnRead u fn (dbgData u fn c) c.arg1.toNat = some bs →
        Takes (.dbgWrmem fn c) s fn ((u.sliceWrite d (bytesLine (d % 64) (bs.take n)) (byteMask (d % 64) n)).dbgAnswer fn c 0 0 0)) ∧
      (c.op = 0x40#8 → dbgDenied u fn c 4 = none →
        (10 < c.sub.toNat → Takes (.dbgTrace fn c) s fn (u.dbgAnswer fn c 3 0 0)) ∧
        (c.sub.toNat ≤ 10 → dbgTargets u fn c c.scope.toNat ≠ [] → ∃ t : Trace, t.start = c.arg0 ∧ t.stop = c.arg1 ∧ t.ctx = k ∧
          t.rate = c.sub.toNat ∧ t.out = 0 ∧ t.drop = 0 ∧ t.ended = none ∧
          t.began = (if c.arg0.toNat < 2 ^ 62 then some s.tick else none) ∧
          Takes (.dbgTrace fn c) s fn ((u.modFn fn (fun (g : Fn) => { g with trace := some t })).dbgAnswer fn c 0 0 0)))) ∧
    (exec (.haltReportPost fn) s = .next ((s.dbgSettle fn).dbgPost fn)) ∧
    ((fnOf s fn).trace = none → exec (.traceStart fn) s = .next s ∧ exec (.traceStop fn) s = .next s) ∧
    (∀ t, (fnOf s fn).trace = some t →
      exec (.traceStart fn) s = .next (s.modFn fn (fun (g : Fn) => { g with trace := some (t.cue s.tick .time) })) ∧
      (∀ y, (t.cue s.tick .time).ended = some y → y < s.tick → exec (.traceStop fn) s = .next ((s.stopTrace fn).dbgFlush fn)) ∧
      ((t.cue s.tick .time).ended = none → exec (.traceStop fn) s = .next s)) ∧
    (∀ (p : Capability),
      let q : Capability := { p with gfn := fn, parent := if fn = 0 then 0#32 else p.parent }
      let ok := (if fn = 0 then (fnRec s p.hfn).isSome else mayDelegate s fn q) = true ∧ p.capid ≠ 0#32 ∧ p.capid ∉ s.capids ∧
        coversClosed s q = false
      (ok → exec (.grantCapability fn p) s = .next ({ s with caps := s.caps ++ [q], capids := s.capids ++ [p.capid] }.reply fn .done)) ∧
      (¬ ok → exec (.grantCapability fn p) s = .next (s.reply fn .refused))) ∧
    (∀ id, (∀ p ∈ s.caps, p.capid ≠ id) →
      exec (.revocation fn id) s = .next (s.reply fn .refused) ∧ exec (.capabilityExpiry id) s = .next s) ∧
    (∀ p id, s.caps.find? (fun y => decide (y.capid = id)) = some p →
      (fn ≠ 0 → fn ≠ p.gfn → exec (.revocation fn id) s = .next (s.reply fn .refused)) ∧
      (fn = 0 ∨ fn = p.gfn → exec (.revocation fn id) s = .next ((s.voidCaps (derived s.caps s.caps.length [id])).reply fn .done)) ∧
      (capLive s p = true → exec (.capabilityExpiry id) s = .next s) ∧
      (capLive s p = false → exec (.capabilityExpiry id) s = .next (s.voidCaps [id]))) ∧
    (∀ (x : BitVec 64), s.boot = .up → (fnRec s fn).isSome = true →
      exec (.registerWrite fn 0x8 x) s = .next (s.modFn fn (fun (g : Fn) => { g with qtab := keepBits x 39 6 })) ∧
      exec (.registerWrite fn 0x10 x) s = .next (s.modFn fn (fun (g : Fn) => { g with ctxtab := keepBits x 39 6 })) ∧
      exec (.registerWrite fn 0x3020 x) s = .next (s.modFn fn (fun (g : Fn) => { g with dbgdb := keepBits x 15 0 })) ∧
      (∀ n, n < 64 → exec (.registerWrite fn (0x1000 + 8 * n) x) s = exec (.dbell { fn := fn, q := n } (x.extractLsb' 0 32)) s) ∧
      exec (.registerWrite fn 0 x) s = .next s)

namespace Sys2Proof.Machine

/-- A request is answered and changes nothing else. -/
def Answers (i : Instr) (s : State) (fn : Nat) (a : Answer) : Prop := exec i s = .next (s.reply fn a)

/-- A request is done: the state that it brings about, with its answer. -/
def Does (i : Instr) (s : State) (fn : Nat) (t : State) : Prop := exec i s = .next (t.reply fn .done)

end Sys2Proof.Machine

/-- The requests to the policy core and the security block. Each is answered: refused where its arguments or its sender do not
admit it, busy where contexts that it concerns are resident, with a range error beyond its range, and else done with its
effect. SET_TARGET is of the PF alone, from 8,760 to 131,400 hours; PLIM from 1,200 to 2,400 W; SHARE up to 256 and MAXLVL up
to 3. FABSET writes the fabric map, FABPART a partition's tenant, FABAP an aperture; PRESET clears a partition's cores; a
partition, a binding and a window are assigned while no context of theirs is resident. ENCREATE makes an enclave of zeroed
regions, ENCDESTROY ends it with its regions zeroed, a context is bound to an enclave of its own function, ENCIMPORT writes
only what verifies, and ENCEXPORT seals. ATTEST returns a signed report of a context of the function's own. Configuration
records and firmware images are stored once they verify (R308, R309, R362, R363, R364, R406, R407, R411, R412, R419, R433,
R435). Under conditions on the state and the operands alone it concludes that exec answers a next state with the effect named
for fabset, fabpart, fabap, preset, partitionAssign, setTarget, setShare, setLbcap, setPlim, setMaxlvl, encreate, encdestroy,
enclaveBind, encimport, encexport, attest, configRecordWrite and firmwareUpdate. Where the spec is silent it states the
model's choice (log entries 7, 25, 26, 48). -/
def Obligations.AdminRequests : Prop :=
  ∀ (s : State),
    (∀ fn h,
      (fn ≠ 0 → Answers (.setTarget fn h) s fn .refused) ∧
      (fn = 0 → h < 8760 ∨ 131400 < h → Answers (.setTarget fn h) s fn .rangeError) ∧
      (fn = 0 → 8760 ≤ h → h ≤ 131400 → Does (.setTarget fn h) s fn
        { s with target := h, nvPending := s.nvPending ++ [(0x16, leBytes s.target 4 ++ leBytes h 4 ++ leBytes fn 4)] })) ∧
    (∀ w, (w < 1200 ∨ 2400 < w → Answers (.setPlim w) s 0 .rangeError) ∧
      (1200 ≤ w → w ≤ 2400 → Does (.setPlim w) s 0 { s with plim := w })) ∧
    (∀ p v,
      (256 < v → Answers (.setShare p v) s 0 .rangeError) ∧ (3 < v → Answers (.setMaxlvl p v) s 0 .rangeError) ∧
      (v ≤ 256 → tget s.parts p = none → Answers (.setShare p v) s 0 .refused) ∧
      (v ≤ 3 → tget s.parts p = none → Answers (.setMaxlvl p v) s 0 .refused) ∧
      (∀ w : Word, tget s.parts p = none → Answers (.setLbcap p w) s 0 .refused) ∧
      (∀ x : Part, tget s.parts p = some x →
        (v ≤ 256 → Does (.setShare p v) s 0 { s with parts := tset s.parts p { x with share := v } }) ∧
        (v ≤ 3 → Does (.setMaxlvl p v) s 0 { s with parts := tset s.parts p { x with maxlvl := v } }) ∧
        (∀ w : Word, Does (.setLbcap p w) s 0 { s with parts := tset s.parts p { x with lbcap := w } }))) ∧
    (∀ (self : Nat) (map : List FabEntry),
      (anyResident s (fun _ => true) = true → Answers (.fabset self map) s 0 .busy) ∧
      (anyResident s (fun _ => true) = false → fabMapOk self map = false → Answers (.fabset self map) s 0 .refused) ∧
      (anyResident s (fun _ => true) = false → fabMapOk self map = true → ∃ rows : List FabRow,
        Does (.fabset self map) s 0 { s with self := self, fabric := rows } ∧ rows.length = 16 ∧
        (∀ (p : Nat) (e : FabEntry) (r : FabRow), p ≠ self → map[p]? = some e → e.pop = true → rows[p]? = some r →
          r.pop = true ∧ r.self = false ∧ r.en = e.en ∧ r.port = e.port ∧
          r.link = (if (lanesUp s e.port.toNat).length < 8 then 2 else 0)) ∧
        (∀ (p : Nat) (r : FabRow), map[p]? = none → rows[p]? = some r → r.pop = false ∧ r.link = 3) ∧
        (∀ (p : Nat) (r : FabRow), rows[p]? = some r → (r.self = true ↔ p = self)))) ∧
    (∀ p ftid mask,
      (tget s.parts p = none → Answers (.fabpart p ftid mask) s 0 .refused) ∧
      (∀ x : Part, tget s.parts p = some x →
        (anyResident s (fun c => partOf s c.fn == p) = true → Answers (.fabpart p ftid mask) s 0 .busy) ∧
        (anyResident s (fun c => partOf s c.fn == p) = false →
          Does (.fabpart p ftid mask) s 0 { s with parts := tset s.parts p { x with ftid := ftid, fmask := mask } }))) ∧
    (∀ src ftid ctxid target,
      let ok := ftid ≠ 0#16 ∧ (partRec s target.fn).ftid = ftid ∧ (fnRec s target.fn).isSome = true
      (¬ ok → Answers (.fabap src ftid ctxid target) s 0 .refused) ∧
      (ok → Does (.fabap src ftid ctxid target) s 0 { s with
        apertures := s.apertures.filter (fun (x : Aperture) => decide (¬ (x.src = src ∧ x.ftid = ftid ∧ x.ctxid = ctxid))) ++
          [({ src := src, ftid := ftid, ctxid := ctxid, target := target } : Aperture)] })) ∧
    (∀ p,
      (tget s.parts p = none → Answers (.preset p) s 0 .refused) ∧
      (∀ x : Part, tget s.parts p = some x →
        (anyBusy s (fun fn => partOf s fn == p) = true → Answers (.preset p) s 0 .busy) ∧
        (anyBusy s (fun fn => partOf s fn == p) = false → (∀ d < 4, rowDue s d 0 = none ∧ rowDue s d 1 = none) →
          Does (.preset p) s 0 (x.cores.foldl (fun (a : State) c => a.modCore c Core.clear) s)))) ∧
    (∀ p cores,
      let cs := (cores.map (fun (c : BitVec 10) => c.toNat)).mergeSort (· ≤ ·)
      let ok := p < 16 ∧ wholeClusters s cs = true ∧ (∀ e ∈ s.parts, e.1 ≠ p → ∀ c ∈ e.2.cores, c ∉ cs)
      (¬ ok → Answers (.partitionAssign (.partition p cores)) s 0 .refused) ∧
      (ok → anyResident s (fun c => partOf s c.fn == p) = true → Answers (.partitionAssign (.partition p cores)) s 0 .busy) ∧
      (ok → anyResident s (fun c => partOf s c.fn == p) = false →
        let x : Part :=
          { cores := cs, remap := cs, lifebud := 0#32, share := 256, lbcap := 0xFFFFFFFF#32, maxlvl := 3, ftid := 0#16, fmask := 0#16 }
        Does (.partitionAssign (.partition p cores)) s 0 { s with parts := tset s.parts p x })) ∧
    (∀ fn p,
      (64 < fn ∨ tget s.parts p = none → Answers (.partitionAssign (.bind fn p)) s 0 .refused) ∧
      (∀ f, fn ≤ 64 → (tget s.parts p).isSome = true → fnRec s fn = some f →
        (anyResident s (fun c => c.fn == fn) = true → Answers (.partitionAssign (.bind fn p)) s 0 .busy) ∧
        (anyResident s (fun c => c.fn == fn) = false →
          Does (.partitionAssign (.bind fn p)) s 0 { s with fns := tset s.fns fn { f with part := p } }))) ∧
    (∀ fn base gb f, fnRec s fn = some f →
      let ok := fn ≤ 64 ∧ base % 4096 = 0 ∧ base + gb * 2 ^ 30 ≤ s.memsz.toNat * 2 ^ 30 ∧ windowTaken s fn base gb = false
      (¬ ok → Answers (.partitionAssign (.window fn base gb)) s 0 .refused) ∧
      (ok → anyResident s (fun c => c.fn == fn) = true → Answers (.partitionAssign (.window fn base gb)) s 0 .busy) ∧
      (ok → anyResident s (fun c => c.fn == fn) = false →
        Does (.partitionAssign (.window fn base gb)) s 0 { s with fns := tset s.fns fn { f with base := base, gb := gb } })) ∧
    (∀ slot fn rs dbg,
      let ok := slot ≠ 0 ∧ slot ≤ 255 ∧ enclaveOf s slot = none ∧ (fnRec s fn).isSome = true ∧ regionsOk s fn rs = true
      (¬ ok → Answers (.encreate slot fn rs dbg) s 0 .refused) ∧
      (ok → ∃ t e, exec (.encreate slot fn rs dbg) s = .next t ∧ t.enclaves = s.enclaves ++ [e] ∧ e.slot = slot ∧ e.fn = fn ∧
        e.regions = rs ∧ e.debugok = dbg ∧ e.measure = List.replicate 48 0#8 ∧
        (∀ a, readByte t.mem a = if inRegions rs a then 0#8 else readByte s.mem a))) ∧
    (∀ slot,
      (enclaveOf s slot = none → Answers (.encdestroy slot) s 0 .refused) ∧
      (∀ e, enclaveOf s slot = some e → ∃ t, exec (.encdestroy slot) s = .next t ∧ (∀ x ∈ t.enclaves, x.slot ≠ slot) ∧
        (∀ a, readByte t.mem a = if inRegions e.regions a then 0#8 else readByte s.mem a))) ∧
    (∀ (c : CtxKey) slot,
      (enclaveOf s slot = none → Answers (.enclaveBind c slot) s 0 .refused) ∧
      (∀ e, enclaveOf s slot = some e →
        (e.fn ≠ c.fn → Answers (.enclaveBind c slot) s 0 .refused) ∧
        (e.fn = c.fn → Does (.enclaveBind c slot) s 0 (s.modCtx c (fun (x : Ctx) =>
          { x with encl := BitVec.ofNat 32 (slot + (if e.debugok then 256 else 0)) }))))) ∧
    (∀ slot fn src len dst e, enclaveOf s slot = some e →
      let ok := e.fn = fn ∧ sealOver ≤ len ∧ plainRange s fn src len = true ∧ ownedRange s fn dst (len - sealOver) e = true
      (¬ ok → Answers (.encimport slot fn src len dst) s fn .refused) ∧
      (∀ blob, ok → fnRead s fn src len = some blob →
        (Config.openPage e.tkey (e.measure ++ blob) = none → Answers (.encimport slot fn src len dst) s fn .refused) ∧
        (∀ plain, Config.openPage e.tkey (e.measure ++ blob) = some plain →
          Does (.encimport slot fn src len dst) s fn (s.fnWrite fn dst (fixLen (len - sealOver) plain))))) ∧
    (∀ slot fn src len dst key e, enclaveOf s slot = some e →
      let ok := e.fn = fn ∧ ownedRange s fn src len e = true ∧ plainRange s fn dst (len + sealOver) = true
      (¬ ok → Answers (.encexport slot fn src len dst key) s fn .refused) ∧
      (∀ plain, ok → fnRead s fn src len = some plain → ∃ (u : State) (bs : List Byte), bs.length = len + sealOver ∧ u.mem = s.mem ∧
        Does (.encexport slot fn src len dst key) s fn (u.fnWrite fn dst bs))) ∧
    (∀ fn nonce (c : CtxKey),
      (fn ≠ 0 → c.fn ≠ fn → Answers (.attest fn nonce c) s fn .refused) ∧
      (fn = 0 ∨ c.fn = fn → let b := reportBody s fn nonce c
        exec (.attest fn nonce c) s = .next (s.send (.answer fn .done (b ++ fixLen 16608 (Config.sign b)))))) ∧
    (∀ r, (configOk r = true → r.ty < 16 → Does (.configRecordWrite r) s 0 { s with nvConfig := s.nvConfig ++ [r] }) ∧
      (configOk r = false ∨ 16 ≤ r.ty → Answers (.configRecordWrite r) s 0 .refused)) ∧
    (∀ img, (imageOk img = false → Answers (.firmwareUpdate img) s 0 .refused) ∧
      (imageOk img = true → Does (.firmwareUpdate img) s 0
        { s with nvImages := tset s.nvImages (2 * img.which + (1 - s.nvActive.getD img.which 0)) img,
                 nvActive := s.nvActive.set img.which (1 - s.nvActive.getD img.which 0) }))

namespace Sys2Proof.Machine

/-- What a core's boost is after an event that changes it. -/
def boostOf (s : State) (core : Nat) : Option Boost := (coreOf s core).boost

end Sys2Proof.Machine

/-- The events of failing memory, fault rings, error banks, wear, life, power and reset. FRAME_RETIRE counts a correctable
error and retires the frame at the threshold or at an uncorrectable one. A fault record is posted at the tail of its ring
while there is room; REPLAY lets frozen work go on. An error entry is freed, its VALID bit alone cleared, and a bank's dropped
count cleared by the host. A class-F error contains the device. A unit that fails retires or has its spare decided on, and a
decided spare is called up when the rules permit it; a spare that fails is retired and never called up. A stress sample adds
to the sums of a powered unit; the accrual falls due every 2^32 ticks. A boost ends at its duration; the power and thermal
limits suspend boosts and the resume conditions take them up again. Log records are written in order, and a WEARCK every 2^40
ticks. A remap exchanges two logical cores of one cluster while no launch has work on them. A device reset keeps the
non-volatile memory; a VF's reset ends its contexts; a loss of power loses everything volatile (R28, R101, R116, R117, R379,
R401, R405, R411, R414, R417, R420, R430, R432). Under conditions on the state and the operands alone it concludes that exec
answers a next state with the effect named for unitFailure, fatalError, frameRetire, faultRecordPost, faultReplay,
faultCancel, errorEntryFree, errorBankClr, stressSample, accrual, spareCallup, remapChange, boostEnd, powerWindow,
boostResume, thermalLimit, wearck, logRecordWrite, deviceReset, recoveryImageLoad, functionLevelReset, orderlyShutdown,
powerLoss and junctionBelowTjmax. Where the spec is silent it states the model's choice (log entries 8, 20, 21, 24, 27). -/
def Obligations.LifeEvents : Prop :=
  ∀ (s : State),
    (∀ frame,
      let base := frame / 4096 * 4096
      (poolBase s ≤ frame ∨ framePoisoned s frame = true → ∀ b, exec (.frameRetire frame b) s = .next s) ∧
      (frame < poolBase s → framePoisoned s frame = false →
        exec (.frameRetire frame true) s = .next
          (((s.poisonLine frame).errorRecord (dieOf frame) 0x20 1 frame 0 0 0#32 none 0#8).retireFrame base) ∧
        ((tget s.correctable base).getD 0 + 1 < s.ceframe → ∃ t, exec (.frameRetire frame false) s = .next t ∧
          tget t.correctable base = some ((tget s.correctable base).getD 0 + 1) ∧ t.mem = s.mem ∧ t.retired = s.retired))) ∧
    (∀ c : CtxKey,
      (firstFault s c = none ∨ ringFull (ctxOf s c) = true → exec (.faultRecordPost c) s = .next s) ∧
      (∀ r, firstFault s c = some r → ringFull (ctxOf s c) = false → ∃ t, exec (.faultRecordPost c) s = .next t ∧
        t.faultQ = dropFault c s.faultQ ∧
        (ctxOf t c).fqtail = BitVec.ofNat 12 (((ctxOf s c).fqtail.toNat % 2 ^ (ctxOf s c).fqlogn.toNat + 1) % 2 ^ (ctxOf s c).fqlogn.toNat)) ∧
      exec (.faultReplay c) s = .next (s.replayFaults c) ∧
      exec (.faultCancel c) s = .next (s.cancelFaults c)) ∧
    (∀ (bank i : Nat) (b : ErrBank), s.errs[bank]? = some b →
      exec (.errorEntryFree bank i) s = .next { s with errs := s.errs.set bank { b with
        entries := tmod b.entries i (fun (r : ErrRec) => { r with valid := false }) } } ∧
      exec (.errorBankClr bank) s = .next { s with errs := s.errs.set bank { b with drop := 0 } }) ∧
    (∀ src loc,
      (s.contained = true ∨ (src ≠ 0x30#16 ∧ src ≠ 0x31#16) → exec (.fatalError src loc) s = .next s) ∧
      (s.contained = false → src = 0x30#16 ∨ src = 0x31#16 → ∃ t, exec (.fatalError src loc) s = .next t ∧ t.contained = true)) ∧
    (∀ u,
      (unitExists u = false ∨ (wearOf s u).st = 2 → exec (.unitFailure u) s = .next s) ∧
      (unitExists u = true → (wearOf s u).st = 1 → exec (.unitFailure u) s = .next (s.spareFails u) ∧
        ((∀ x ∈ s.swaps, x.up ≠ u) → exec (.unitFailure u) s = .next { s.retireUnit u 2 0 with swaps := s.swaps })) ∧
      (∀ g, unitExists u = true → (wearOf s u).st = 0 → unitKind u ≤ 2 → (∀ y ∈ s.swaps, y.up ∉ unitGroup u) → gatedOf s u = some g →
        exec (.unitFailure u) s = .next { s with swaps := s.swaps ++ [{ up := g, down := u, reason := 2 }] }) ∧
      (unitExists u = true → (wearOf s u).st = 0 → unitKind u = 3 ∨ unitKind u = 4 →
        exec (.unitFailure u) s = .next (s.retireUnit u 2 0))) ∧
    (∀ u,
      (s.swaps.find? (fun x => decide (x.up = u)) = none → exec (.spareCallup u) s = .next s) ∧
      (∀ x, s.swaps.find? (fun y => decide (y.up = u)) = some x →
        (callupOk s x.down = false ∨ (wearOf s u).st ≠ 1 → exec (.spareCallup u) s = .next s) ∧
        (callupOk s x.down = true → (wearOf s u).st = 1 → ∃ t, exec (.spareCallup u) s = .next t ∧ x ∉ t.swaps ∧ t.mem = s.mem))) ∧
    (∀ x : StressInput,
      (x.gated = true ∨ (wearOf s x.unit).st ≠ 0 ∨ unitExists x.unit = false → exec (.stressSample [x]) s = .next s) ∧
      (x.gated = false → (wearOf s x.unit).st = 0 → unitExists x.unit = true →
        let d := stressOf s.life.consts x.mv x.milliK x.act
        ∃ t, exec (.stressSample [x]) s = .next t ∧ t.mem = s.mem ∧ (wearOf t x.unit).bti = (wearOf s x.unit).bti + d.1 ∧
          (wearOf t x.unit).hci = (wearOf s x.unit).hci + d.2.1 ∧ (wearOf t x.unit).em = (wearOf s x.unit).em + d.2.2)) ∧
    ((s.tick < s.accrualAt → exec .accrual s = .next s) ∧
      (s.accrualAt ≤ s.tick → ∃ t, exec .accrual s = .next t ∧ t.accrualAt = s.accrualAt + 2 ^ 32 ∧
        (∀ w ∈ t.wear, w.last = (0, 0, 0) ∧ w.boostEx = (0, 0, 0)) ∧
        ((∀ w ∈ s.wear, w.st = 0 → unitKind w.unit = 5 → ¬ 1 ≤ wearScore s w.unit) → t.mem = s.mem))) ∧
    (∀ core b, boostOf s core = some b →
      (s.tick < b.start + b.dur → exec (.boostEnd core) s = .next s) ∧
      (b.start + b.dur ≤ s.tick → (tget s.cores core).isSome = true →
        ∃ t, exec (.boostEnd core) s = .next t ∧ boostOf t core = none ∧ t.mem = s.mem)) ∧
    (∀ watts,
      let ok := if watts * 100 < 95 * s.plim then s.powerOk + 1 else 0
      (watts ≤ s.plim → exec (.powerWindow watts) s = .next { s with power := watts, powerOk := ok, throttled := s.throttled && !s.hot.isEmpty }) ∧
      (s.plim < watts → lastBoost s = none →
        exec (.powerWindow watts) s = .next { s with power := watts, powerOk := ok, throttled := true }) ∧
      (∀ core b, s.plim < watts → lastBoost s = some core → boostOf s core = some b →
        ∃ t b', exec (.powerWindow watts) s = .next t ∧ t.power = watts ∧ boostOf t core = some b' ∧ b'.byPower = true ∧
          b'.susp = some (b.susp.getD s.tick))) ∧
    ((s.powerOk < 10 → exec .boostResume s = .next s) ∧
      (10 ≤ s.powerOk → ∃ t, exec .boostResume s = .next t ∧ t.mem = s.mem ∧
        (∀ core b, boostOf s core = some b → coreDie core ∉ s.hot → ∃ b', boostOf t core = some b' ∧ b'.susp = none ∧
          b'.byPower = false))) ∧
    (∀ die mk,
      (mk ≤ s.life.tjmax * 1000 + 273150 → exec (.thermalLimit die mk) s = .next s) ∧
      (s.life.tjmax * 1000 + 273150 < mk → ∃ t, exec (.thermalLimit die mk) s = .next t ∧ die ∈ t.hot ∧ t.mem = s.mem ∧
        ((s.life.tjmax + 10) * 1000 + 273150 < mk → t.throttled = true) ∧
        (∀ core b, boostOf s core = some b → ∃ b', boostOf t core = some b' ∧
          (coreDie core = die → b'.susp = some (b.susp.getD s.tick)) ∧ (coreDie core ≠ die → b' = b))) ∧
      (die ∉ s.hot ∨ (s.life.tjmax - 5) * 1000 + 273150 < mk → exec (.junctionBelowTjmax die mk) s = .next s) ∧
      (die ∈ s.hot → mk ≤ (s.life.tjmax - 5) * 1000 + 273150 → ∃ t, exec (.junctionBelowTjmax die mk) s = .next t ∧ die ∉ t.hot ∧
        (∀ core b, boostOf s core = some b → ∃ b', boostOf t core = some b' ∧
          (coreDie core = die → b.byPower = false → b'.susp = none) ∧ (coreDie core ≠ die ∨ b.byPower = true → b' = b)))) ∧
    ((s.nvPending = [] → exec .logRecordWrite s = .next s) ∧
      (∀ ty pl l, s.nvPending = (ty, pl) :: l → nvWraps s (nvNeed s.nvPending) = false →
        let r : NvRec := { tick := s.tick, seq := s.nvSeq, ty := ty, payload := pl, digest := nextDigest s.nvLog }
        let log := nvRoom s.life.area (80 + pl.length) s.nvLog ++ [r]
        exec .logRecordWrite s = .next { s with nvPending := l, nvSeq := s.nvSeq + 1, nvLog := log }) ∧
      (s.wearckAt ≤ s.tick → exec .wearck s = .next { s.drainLog.putWearck with wearckAt := s.wearckAt + 2 ^ 40 }) ∧
      (s.tick < s.wearckAt → s.nvPending = [] → exec .wearck s = .next s)) ∧
    (∀ (p l : Nat) (phys : BitVec 10) (x : Part) (old : Nat), tget s.parts p = some x → x.remap[l]? = some old →
      let k := x.remap.idxOf phys.toNat
      let ok := phys.toNat / 16 = old / 16 ∧ phys.toNat ∈ x.remap ∧ remapFree s p l = true ∧ remapFree s p k = true
      (¬ ok → exec (.remapChange p l phys) s = .next s) ∧
      (ok → exec (.remapChange p l phys) s = .next
        { s with parts := tset s.parts p { x with remap := (x.remap.set l phys.toNat).set k old } })) ∧
    (∃ t, exec .deviceReset s = .next t ∧ t = s.deviceReset ∧ t.nvConfig = s.nvConfig ∧ t.nvImages = s.nvImages ∧
      t.wgs = [] ∧ t.fibs = [] ∧ t.launches = [] ∧ t.enclaves = [] ∧ (t.boot = .up ∨ t.boot = .recovery)) ∧
    (∀ img,
      (s.boot ≠ .recovery → exec (.recoveryImageLoad img) s = .next s) ∧
      (s.boot = .recovery → imageOk img = false → Answers (.recoveryImageLoad img) s 0 .refused) ∧
      (s.boot = .recovery → imageOk img = true → Does (.recoveryImageLoad img) s 0 (s.storeImage img))) ∧
    (exec (.functionLevelReset 0) s = exec .deviceReset s) ∧
    (∀ fn, fn ≠ 0 →
      (fnRec s fn = none → exec (.functionLevelReset fn) s = .next s) ∧
      (∀ f, fnRec s fn = some f → ∃ t, exec (.functionLevelReset fn) s = .next t ∧
        tget t.fns fn = some { Fn.reset with part := f.part, base := f.base, gb := f.gb } ∧
        (∀ e ∈ t.ctxs, e.1.fn ≠ fn) ∧ (∀ e ∈ t.queues, e.1.fn ≠ fn))) ∧
    (exec .orderlyShutdown s = .next { s.parkLog with boot := .held }) ∧
    (∃ t, exec .powerLoss s = .next t ∧ t.boot = .held ∧ t.mem = [] ∧ t.nvLog = s.nvLog ∧ t.nvConfig = s.nvConfig ∧
      t.nvImages = s.nvImages ∧ t.wgs = [] ∧ t.fibs = [] ∧ t.ctxs = [] ∧ t.launches = [])

/-! ### Encodings, steps and reset -/

/-- Decoding and encoding agree: a well-formed instruction's bytes, whatever follows them, decode to it and take their own
length; and the bytes that decode to an instruction are those that it encodes to (R64, R67, R70, R71). -/
def Obligations.DecodeEncodeAll : Prop :=
  (∀ (i : Instr) (bs rest : List Byte), i.wellFormed = true → encodeBytes i = some bs → decode (bs ++ rest) = .ok (i, bs.length)) ∧
  (∀ (i : Instr) (bs : List Byte) (n : Nat), decode bs = .ok (i, n) → i.wellFormed = true ∧ encodeBytes i = some (bs.take n))

/-- Words that the spec works out decode to the instructions that they stand for: IADDI, EXIT, TRAP 5 and RTE (R67, R70, R71).
-/
def Obligations.DecodeSpecWords : Prop :=
  decode (leBytes 0xE8A6 2) = .ok (.iaddi { s := 29#5, d := 5#6 }, 2) ∧
  decode (leBytes 0x001E 2) = .ok (.exitC { s := 0#5, d := 0#6 }, 2) ∧
  decode (leBytes 0x611 4) = .ok (.rteW { y := false, k := false, d := 0#6, a := 0#7, b := 0#7 }, 4) ∧
  decode (leBytes 0x0005000000000603 8) = .ok (.trap
    { y := false, k := false, d := 0#6, a := 0#7, b := 0#7, c := 0#7, ty := 0#4, mode := 0#3, imm := 5#16 }, 8)

/-- A step runs the instruction that is fetched. When the move of a step is the issue of a fibre, and the bytes at the run's
address decode to `i`, the step is `exec i` with the fibre's active lanes, followed by the fibre's accounts and the passing of
time; bytes that decode to none take the illegal-instruction trap. A runner's issue is `exec` of its own instruction, and an
entry of the input list is `exec` of its event. Which move comes is the model's choice (log entry 3) (R64, R65, R88, R340). -/
def Obligations.StepRunsDecoded : Prop :=
  ∀ (s : State),
    (∀ (i : Instr) (rest : List Input), s.inbox = .event i :: rest → isEvent i = true →
      ∀ t, exec i { s with inbox := rest } = .next t → step s = .next (s.settleStep t)) ∧
    (∀ (u : Upset) (rest : List Input), s.inbox = .upset u :: rest → step s = .next (s.settleStep ({ s with inbox := rest }.upset u))) ∧
    (∀ (n : Nat) (rest : List Input), s.inbox = .choose n :: rest ∨ (s.inbox = [] ∧ rest = [] ∧ n = Config.choice s.steps) →
      let u : State := { s with inbox := rest }
      let ms := candidates u
      (ms = [] → step s = .next (s.settleStep u)) ∧
      (∀ (fid : Nat) (f : Fibre) (l : Launch) (pc : Addr) (m : LaneMask) (bs : List Byte),
        ms[n % ms.length]? = some (.issue fid) → tget u.fibs fid = some f → selectRun u f = some (pc, m) →
        fibLaunch u f = some l → breakHit u f pc m = false →
        let v := ((u.takeSlot f).setFib fid (switchTo f m)).issuing (.fib fid) m pc
        fetchBytes v l (privOf f) pc.toNat 2 = .ok (bs.take 2) → bs ≠ [] →
        fetchBytes v l (privOf f) pc.toNat (lengthOf (bs.headD 0#8)) = .ok bs →
        (∀ i k t, decode bs = .ok (i, k) → exec i v = .next t →
          step s = .next (s.settleStep (t.afterFibre fid f pc m (setsShadow i)))) ∧
        (∀ e, decode bs = .error e →
          step s = .next (s.settleStep ((v.raise fid (trapOf 0x01 m)).afterFibre fid f pc m false)))) ∧
      (∀ (rid : Nat) (r : Runner) (c : RunCtx) (w : Workgroup) (l : Launch) (bs : List Byte),
        ms[n % ms.length]? = some (.runner rid) → tget u.runners rid = some r → runCtx u rid = some c → tget u.wgs r.wg = some w →
        launchOf u w = some l →
        let v := u.issuing (.runner rid) 1#32 r.pc
        fetchBytes v l false r.pc.toNat 2 = .ok (bs.take 2) → bs ≠ [] →
        fetchBytes v l false r.pc.toNat (lengthOf (bs.headD 0#8)) = .ok bs →
        (∀ i k t, decode bs = .ok (i, k) → exec i v = .next t → step s = .next (s.settleStep t)) ∧
        (∀ e, decode bs = .error e → step s = .next (s.settleStep (v.runnerFault rid 0x01#8)))))

/-- Every step goes on: no program, input or state makes the device stop. A bad operand, a fault of memory, an undefined
encoding and a privileged access are traps, stalls, answers or records, and so is every event (R88, R358, R386). -/
def Obligations.StepAlwaysNext : Prop := ∀ s : State, ∃ t, step s = .next t

/-- Every step keeps the canonical form of device memory: its listed bytes stand in rising order of address and none is the
byte that an unlisted address reads as. The form is the model's own (log entry 4). -/
def Obligations.StepKeepsMemory : Prop := ∀ s t : State, s.memWf = true → step s = .next t → t.memWf = true

/-- What reset leaves: the tick 0, 752 GB of addressable memory, no context, launch, workgroup, fibre or command, empty error
banks, partitions of full share without budget, TARGET 87,600 hours, PLIM 2,400 W, CEFRAME 16, the first launch number 1,
an unpopulated fabric map, and a function block of zeros. Memory lists nothing: that an unwritten byte reads 0 is the model's choice
(log entry 4), and so is the state of the device that has just booted (log entry 5) (R98, R308, R366, R378, R406, R407, R411,
R421, R423, R430). -/
def Obligations.ResetState : Prop :=
  let s := State.reset
  s.tick = 0 ∧ s.memsz = 752#10 ∧ s.memWf = true ∧ (∀ a, readByte s.mem a = 0#8) ∧
  s.ctxs = [] ∧ s.launches = [] ∧ s.wgs = [] ∧ s.fibs = [] ∧ s.cmds = [] ∧ s.flights = [] ∧ s.tlb = [] ∧ s.faultQ = [] ∧
  s.poisonLines = [] ∧ s.poisonFrames = [] ∧ s.enclaves = [] ∧ s.caps = [] ∧ s.contained = false ∧
  (∀ b ∈ s.errs, b.entries = [] ∧ b.drop = 0) ∧ s.errs.length = 5 ∧
  (∀ e ∈ s.parts, e.2.share = 256 ∧ e.2.lbcap = 0xFFFFFFFF#32 ∧ e.2.maxlvl = 3 ∧ e.2.lifebud = 0#32 ∧ e.2.ftid = 0#16) ∧
  s.target = 87600 ∧ s.plim = 2400 ∧ s.ceframe = 16 ∧ s.lseq = 1 ∧ s.self = 0 ∧
  s.fabric.length = 16 ∧ (∀ r ∈ s.fabric, r.pop = false ∧ r.link = 3) ∧
  (∀ e ∈ s.fns, e.2.qtab = 0#64 ∧ e.2.ctxtab = 0#64 ∧ e.2.dbgst = 0#64 ∧ e.2.session = none)
end

