-- ==== Sys2Proof/Laws/Memory.lean ====
section
/-!
SUPPORT. Laws of the byte memories: what a byte reads as after a write, and that every operation on a memory keeps its
canonical form.
-/
namespace Sys2Proof.Machine

/-! ### Tables -/

@[simp] theorem tget_tset_same {α : Type} (t : Tbl α) (k : Nat) (v : α) : tget (tset t k v) k = some v := by
  induction t with
  | nil => simp [tset, tget]
  | cons e r ih =>
    obtain ⟨k', v'⟩ := e
    by_cases h : k' = k <;> simp [tset, tget, h, ih]

theorem tget_tset_other {α : Type} (t : Tbl α) {k j : Nat} (v : α) (h : j ≠ k) :
    tget (tset t k v) j = tget t j := by
  induction t with
  | nil => simp [tset, tget, Ne.symm h]
  | cons e r ih =>
    obtain ⟨k', v'⟩ := e
    by_cases hk : k' = k
    · subst hk; simp [tset, tget, Ne.symm h]
    · have e : tset ((k', v') :: r) k v = (k', v') :: tset r k v := by simp [tset, hk]
      rw [e]; simp [tget, ih]

theorem tget_tset {α : Type} (t : Tbl α) (k j : Nat) (v : α) :
    tget (tset t k v) j = if j = k then some v else tget t j := by
  by_cases h : j = k
  · subst h; simp
  · simp [tget_tset_other t v h, h]

theorem tget_tmod {α : Type} (t : Tbl α) (k j : Nat) (f : α → α) :
    tget (tmod t k f) j = if j = k then (tget t k).map f else tget t j := by
  unfold tmod
  by_cases h : j = k
  · subst h; cases hg : tget t j <;> simp [hg]
  · cases hg : tget t k <;> simp [tget_tset_other _ _ h, h]

theorem tget_tmod_other {α : Type} (t : Tbl α) {k j : Nat} (f : α → α) (h : j ≠ k) :
    tget (tmod t k f) j = tget t j := by
  simp [tget_tmod, h]

theorem tget_filter_key {α : Type} (t : Tbl α) (p : Nat → Bool) (j : Nat) :
    tget (t.filter (fun e => p e.1)) j = if p j then tget t j else none := by
  induction t with
  | nil => simp [tget]
  | cons e r ih =>
    obtain ⟨k, v⟩ := e
    by_cases hp : p k
    · by_cases hk : k = j
      · subst hk; simp [hp, tget]
      · simp [hp, tget, hk, ih]
    · by_cases hk : k = j
      · subst hk; simp [hp, ih]
      · simp [hp, tget, hk, ih]

theorem tget_tdel {α : Type} (t : Tbl α) (k j : Nat) :
    tget (tdel t k) j = if j = k then none else tget t j := by
  have h := tget_filter_key t (fun x => x != k) j
  unfold tdel
  by_cases hj : j = k <;> simp_all

theorem tget_append {α : Type} (t u : Tbl α) (j : Nat) :
    tget (t ++ u) j = (tget t j).or (tget u j) := by
  induction t with
  | nil => simp [tget]
  | cons e r ih =>
    obtain ⟨k, v⟩ := e
    by_cases hk : k = j <;> simp [tget, hk, ih]

/-! ### Bytes after a write -/

theorem tget_cellsOf (a : Nat) (bs : List Byte) (j : Nat) :
    tget (cellsOf a bs) j = if a ≤ j ∧ j < a + bs.length ∧ bs.getD (j - a) 0#8 ≠ 0#8
      then some (bs.getD (j - a) 0#8) else none := by
  induction bs generalizing a with
  | nil => simp [cellsOf, tget]
  | cons b r ih =>
    have step : (cellsOf a (b :: r)) = if b = 0#8 then cellsOf (a + 1) r else (a, b) :: cellsOf (a + 1) r := rfl
    rw [step]
    by_cases hj : a = j
    · subst hj
      by_cases hb : b = 0#8
      · simp [hb, ih]
      · simp [hb, tget]
    · by_cases hlt : a < j
      · have e : j - a = (j - (a + 1)) + 1 := by omega
        have c1 : (a ≤ j ∧ j < a + (r.length + 1)) ↔ (a + 1 ≤ j ∧ j < a + 1 + r.length) := by omega
        by_cases hb : b = 0#8 <;>
          simp only [hb, if_true, if_false, tget, hj, ih, e, List.getD_cons_succ, List.length_cons, ← and_assoc, c1]
      · have n1 : ¬ (a + 1 ≤ j) := by omega
        have n2 : ¬ (a ≤ j) := by omega
        by_cases hb : b = 0#8 <;> simp [hb, tget, hj, ih, n1, n2]

/-- A byte after a write: the written byte inside, the byte as before outside. -/
theorem readByte_writeBytes (m : Bytes) (a : Nat) (bs : List Byte) (j : Nat) :
    readByte (writeBytes m a bs) j =
      if a ≤ j ∧ j < a + bs.length then bs.getD (j - a) 0#8 else readByte m j := by
  have h1 := tget_filter_key m (fun x => decide (x < a)) j
  have h2 := tget_filter_key m (fun x => decide (a + bs.length ≤ x)) j
  unfold readByte writeBytes
  simp only [tget_append, tget_cellsOf]
  rw [h1, h2]
  by_cases c : a ≤ j ∧ j < a + bs.length
  · obtain ⟨c1, c2⟩ := c
    have : ¬ j < a := by omega
    have : ¬ a + bs.length ≤ j := by omega
    generalize bs.getD (j - a) 0#8 = b at *
    by_cases z : b = 0#8 <;> simp [*]
  · by_cases d : j < a
    · have : ¬ a + bs.length ≤ j := by omega
      have : ¬ a ≤ j := by omega
      cases hg : tget m j <;> simp [*]
    · have e1 : a + bs.length ≤ j := by omega
      have e2 : ¬ j < a + bs.length := by omega
      simp [*]

@[simp] theorem leBytes_length (x n : Nat) : (leBytes x n).length = n := by
  induction n generalizing x with
  | zero => rfl
  | succ n ih => simp [leBytes, ih]

theorem readByte_writeNat_outside (m : Bytes) (a n x j : Nat) (h : j < a ∨ a + n ≤ j) :
    readByte (writeNat m a n x) j = readByte m j := by
  have : ¬ (a ≤ j ∧ j < a + n) := by omega
  simp [writeNat, readByte_writeBytes, this]

theorem readByte_writeLine_outside (m : Bytes) (a : Nat) (d : BitVec 512) (k : BitVec 64) (j : Nat)
    (h : j < a ∨ a + 64 ≤ j) : readByte (writeLine m a d k) j = readByte m j :=
  readByte_writeNat_outside m a 64 _ j h

theorem leValue_leBytes (x n : Nat) : leValue (leBytes x n) = x % 256 ^ n := by
  induction n generalizing x with
  | zero => simp [leBytes, leValue, Nat.mod_one]
  | succ n ih =>
    simp only [leBytes, leValue, ih, BitVec.toNat_ofNat]
    have e : (256 : Nat) ^ (n + 1) = 256 * 256 ^ n := Nat.pow_succ'
    rw [e, Nat.mod_mul]

@[simp] theorem readBytes_length (m : Bytes) (a n : Nat) : (readBytes m a n).length = n := by simp [readBytes]

/-- Reading a range is reading its bytes. -/
theorem readBytes_eq (m : Bytes) (a n : Nat) :
    readBytes m a n = (List.range n).map (fun i => readByte m (a + i)) := by
  unfold readBytes
  apply List.map_congr_left
  intro i hi
  have hi := List.mem_range.mp hi
  have h := tget_filter_key m (fun x => decide (a ≤ x ∧ x < a + n)) (a + i)
  unfold readByte cellsIn
  rw [h]
  have c : a ≤ a + i ∧ a + i < a + n := by omega
  simp [c]

/-- Reading what has just been written. -/
theorem readBytes_writeBytes (m : Bytes) (a : Nat) (bs : List Byte) :
    readBytes (writeBytes m a bs) a bs.length = bs := by
  rw [readBytes_eq]
  apply List.ext_getElem
  · simp
  · intro i h1 h2
    simp [readByte_writeBytes, h2, List.getD_eq_getElem?_getD]

theorem readNat_writeNat (m : Bytes) (a n x : Nat) : readNat (writeNat m a n x) a n = x % 256 ^ n := by
  have h := readBytes_writeBytes m a (leBytes x n)
  simp only [leBytes_length] at h
  simp [readNat, writeNat, h, leValue_leBytes]

/-! ### The canonical form -/

/-- The canonical form in two parts: addresses rise, and no listed byte is zero. -/
theorem bytesWf_iff (m : Bytes) :
    bytesWf m = true ↔ m.Pairwise (fun c d => c.1 < d.1) ∧ ∀ c ∈ m, c.2 ≠ 0#8 := by
  induction m with
  | nil => simp [bytesWf]
  | cons c r ih =>
    cases r with
    | nil => simp [bytesWf]
    | cons d r =>
      rw [bytesWf, Bool.and_eq_true, Bool.and_eq_true, ih]
      simp only [List.pairwise_cons, List.mem_cons, decide_eq_true_eq, bne_iff_ne, ne_eq, forall_eq_or_imp]
      constructor
      · rintro ⟨⟨h0, h1⟩, ⟨h2, h3⟩, h4, h5⟩
        exact ⟨⟨⟨h1, fun x hx => Nat.lt_trans h1 (h2 x hx)⟩, h2, h3⟩, h0, h4, h5⟩
      · rintro ⟨⟨⟨h1, _⟩, h2, h3⟩, h0, h4, h5⟩
        exact ⟨⟨h0, h1⟩, ⟨h2, h3⟩, h4, h5⟩

theorem bytesWf_filter (m : Bytes) (p : Host.Cell → Bool) (h : bytesWf m = true) : bytesWf (m.filter p) = true := by
  rw [bytesWf_iff] at *
  exact ⟨h.1.filter p, fun c hc => h.2 c (List.mem_filter.mp hc).1⟩

theorem cellsOf_mem (a : Nat) (bs : List Byte) :
    ∀ c ∈ cellsOf a bs, a ≤ c.1 ∧ c.1 < a + bs.length ∧ c.2 ≠ 0#8 := by
  induction bs generalizing a with
  | nil => simp [cellsOf]
  | cons b r ih =>
    intro c hc
    have h := ih (a + 1) c
    simp only [cellsOf] at hc
    simp only [List.length_cons]
    split at hc
    · have := h hc; exact ⟨by omega, by omega, this.2.2⟩
    · rename_i hb
      rcases List.mem_cons.mp hc with rfl | hc
      · exact ⟨Nat.le_refl _, by simp, hb⟩
      · have := h hc; exact ⟨by omega, by omega, this.2.2⟩

theorem bytesWf_cellsOf (a : Nat) (bs : List Byte) : bytesWf (cellsOf a bs) = true := by
  rw [bytesWf_iff]
  refine ⟨?_, fun c hc => (cellsOf_mem a bs c hc).2.2⟩
  induction bs generalizing a with
  | nil => simp [cellsOf]
  | cons b r ih =>
    simp only [cellsOf]
    split
    · exact ih (a + 1)
    · refine List.pairwise_cons.mpr ⟨fun c hc => ?_, ih (a + 1)⟩
      have := (cellsOf_mem (a + 1) r c hc).1
      show a < c.1
      omega

/-- A write keeps the canonical form. -/
theorem bytesWf_writeBytes (m : Bytes) (a : Nat) (bs : List Byte) (h : bytesWf m = true) :
    bytesWf (writeBytes m a bs) = true := by
  have hc := (bytesWf_iff _).mp (bytesWf_cellsOf a bs)
  have hm := (bytesWf_iff m).mp h
  rw [bytesWf_iff]
  unfold writeBytes
  constructor
  · refine List.pairwise_append.mpr ⟨hm.1.filter _, List.pairwise_append.mpr ⟨hc.1, hm.1.filter _, ?_⟩, ?_⟩
    · intro c hc d hd
      have h1 := cellsOf_mem a bs c hc
      have h2 := (List.mem_filter.mp hd).2
      simp at h2
      omega
    · intro c hc d hd
      have h1 := (List.mem_filter.mp hc).2
      simp at h1
      rcases List.mem_append.mp hd with hd | hd
      · have h2 := cellsOf_mem a bs d hd; omega
      · have h2 := (List.mem_filter.mp hd).2
        simp at h2
        omega
  · intro c hcm
    rcases List.mem_append.mp hcm with x | x
    · exact hm.2 c (List.mem_filter.mp x).1
    · rcases List.mem_append.mp x with x | x
      · exact hc.2 c x
      · exact hm.2 c (List.mem_filter.mp x).1

theorem bytesWf_writeNat (m : Bytes) (a n x : Nat) (h : bytesWf m = true) : bytesWf (writeNat m a n x) = true :=
  bytesWf_writeBytes m a _ h

theorem bytesWf_writeLine (m : Bytes) (a : Nat) (d : BitVec 512) (k : BitVec 64) (h : bytesWf m = true) :
    bytesWf (writeLine m a d k) = true :=
  bytesWf_writeNat m a 64 _ h

/-- What is noted of the code that launches see leaves memory alone. -/
@[simp] theorem State.noteCode_mem (s : State) (as : List Nat) : (s.noteCode as).mem = s.mem := by
  unfold State.noteCode; split <;> rfl

/-- A write at a home slice writes the named bytes of its line. -/
@[simp] theorem State.sliceWrite_mem (s : State) (a : Nat) (d : BitVec 512) (k : BitVec 64) :
    (s.sliceWrite a d k).mem = writeLine s.mem (lineBase a) d k := by
  simp [State.sliceWrite, State.clearRel]

@[simp] theorem State.putMem_mem (s : State) (a : Nat) (bs : List Byte) :
    (s.putMem a bs).mem = writeBytes s.mem a bs := rfl

/-- Writes at a home slice keep the canonical form of device memory. -/
theorem State.sliceWrite_memWf (s : State) (a : Nat) (d : BitVec 512) (k : BitVec 64) (h : bytesWf s.mem = true) :
    bytesWf (s.sliceWrite a d k).mem = true := by
  simpa using bytesWf_writeLine s.mem (lineBase a) d k h

theorem State.putMem_memWf (s : State) (a : Nat) (bs : List Byte) (h : bytesWf s.mem = true) :
    bytesWf (s.putMem a bs).mem = true :=
  bytesWf_writeBytes s.mem a bs h

theorem State.sliceWriteNat_memWf (s : State) (a n x : Nat) (h : bytesWf s.mem = true) :
    bytesWf (s.sliceWriteNat a n x).mem = true :=
  s.sliceWrite_memWf a _ _ h

/-- The memory of the reset state has the canonical form. -/
theorem State.reset_memWf : bytesWf State.reset.mem = true := rfl

/-- Two memories in canonical form that read alike are the same data. -/
theorem bytesWf_ext (m n : Bytes) (hm : bytesWf m = true) (hn : bytesWf n = true)
    (h : ∀ a, readByte m a = readByte n a) : m = n := by
  rw [bytesWf_iff] at hm hn
  have look : ∀ (m : Bytes), m.Pairwise (fun c d => c.1 < d.1) → (∀ c ∈ m, c.2 ≠ 0#8) → ∀ c : Host.Cell,
      c ∈ m ↔ (c.2 ≠ 0#8 ∧ readByte m c.1 = c.2) := by
    intro m hp hz c
    induction m with
    | nil =>
      simp only [List.not_mem_nil, readByte, tget, false_iff, not_and]
      exact fun h1 h2 => h1 h2.symm
    | cons e r ih =>
      obtain ⟨k, v⟩ := e
      have hp' := List.pairwise_cons.mp hp
      have ih := ih hp'.2 (fun c hc => hz c (List.mem_cons_of_mem _ hc))
      have hv := hz (k, v) (by simp)
      by_cases hk : k = c.1
      · have nr : c ∉ r := fun hc => by have := hp'.1 c hc; simp at this; omega
        have : readByte ((k, v) :: r) c.1 = v := by simp [readByte, tget, hk]
        rw [this]
        constructor
        · intro hc
          rcases List.mem_cons.mp hc with rfl | hc
          · exact ⟨hv, rfl⟩
          · exact absurd hc nr
        · rintro ⟨_, h2⟩
          have : c = (k, v) := by rw [hk, h2]
          simp [this]
      · have : readByte ((k, v) :: r) c.1 = readByte r c.1 := by simp [readByte, tget, hk]
        rw [this, ← ih]
        constructor
        · intro hc
          rcases List.mem_cons.mp hc with rfl | hc
          · exact absurd rfl hk
          · exact hc
        · exact List.mem_cons_of_mem _
  have mem : ∀ c, c ∈ m ↔ c ∈ n := fun c => by rw [look m hm.1 hm.2, look n hn.1 hn.2, h]
  have nodup : ∀ l : Bytes, l.Pairwise (fun c d => c.1 < d.1) → l.Nodup := fun l hl =>
    hl.imp (fun hlt heq => by subst heq; exact Nat.lt_irrefl _ hlt)
  have perm : m.Perm n := (List.perm_ext_iff_of_nodup (nodup m hm.1) (nodup n hn.1)).mpr mem
  exact perm.eq_of_pairwise (fun a b _ _ hab hba => absurd hba (Nat.lt_asymm hab)) hm.1 hn.1

end Sys2Proof.Machine
end

