-- ==== Sys2Proof/Laws/State.lean ====
section
/-!
SUPPORT. What each plain update of the state leaves: for each update one law for the field that it changes and one for
all the fields that it keeps.
-/
namespace Sys2Proof.Machine

@[simp] theorem State.setFib_fibs (s : State) (i : Nat) (x : Fibre) :
    (s.setFib i x).fibs = tset s.fibs i x := rfl

@[simp] theorem State.setFib_keeps (s : State) (i : Nat) (x : Fibre) :
    (s.setFib i x).tick = s.tick ∧ (s.setFib i x).steps = s.steps ∧ (s.setFib i x).free = s.free ∧
    (s.setFib i x).ids = s.ids ∧ (s.setFib i x).inbox = s.inbox ∧ (s.setFib i x).cur = s.cur ∧
    (s.setFib i x).boot = s.boot ∧ (s.setFib i x).nvImages = s.nvImages ∧ (s.setFib i x).nvActive = s.nvActive ∧
    (s.setFib i x).running = s.running ∧ (s.setFib i x).nvConfig = s.nvConfig ∧ (s.setFib i x).logbrk = s.logbrk ∧
    (s.setFib i x).contained = s.contained ∧ (s.setFib i x).memsz = s.memsz ∧ (s.setFib i x).mem = s.mem ∧
    (s.setFib i x).lineRel = s.lineRel ∧ (s.setFib i x).poisonLines = s.poisonLines ∧
    (s.setFib i x).poisonFrames = s.poisonFrames ∧ (s.setFib i x).retired = s.retired ∧
    (s.setFib i x).poolUsed = s.poolUsed ∧ (s.setFib i x).poolRemap = s.poolRemap ∧
    (s.setFib i x).correctable = s.correctable ∧ (s.setFib i x).withdrawn = s.withdrawn ∧
    (s.setFib i x).slices = s.slices ∧ (s.setFib i x).self = s.self ∧ (s.setFib i x).fabric = s.fabric ∧
    (s.setFib i x).apertures = s.apertures ∧ (s.setFib i x).streams = s.streams ∧ (s.setFib i x).sent = s.sent ∧
    (s.setFib i x).incoming = s.incoming ∧ (s.setFib i x).replies = s.replies ∧ (s.setFib i x).relays = s.relays ∧
    (s.setFib i x).laneUp = s.laneUp ∧ (s.setFib i x).hostOut = s.hostOut ∧ (s.setFib i x).power = s.power ∧
    (s.setFib i x).errs = s.errs ∧ (s.setFib i x).faultQ = s.faultQ ∧ (s.setFib i x).fns = s.fns ∧
    (s.setFib i x).parts = s.parts ∧ (s.setFib i x).ctxs = s.ctxs ∧ (s.setFib i x).tlb = s.tlb ∧
    (s.setFib i x).objs = s.objs ∧ (s.setFib i x).queues = s.queues ∧ (s.setFib i x).invals = s.invals ∧
    (s.setFib i x).launches = s.launches ∧ (s.setFib i x).lseq = s.lseq ∧ (s.setFib i x).cores = s.cores ∧
    (s.setFib i x).wgs = s.wgs ∧ (s.setFib i x).slots = s.slots ∧ (s.setFib i x).flights = s.flights ∧
    (s.setFib i x).podWait = s.podWait ∧ (s.setFib i x).groups = s.groups ∧ (s.setFib i x).cmds = s.cmds ∧
    (s.setFib i x).runners = s.runners ∧ (s.setFib i x).checkpoints = s.checkpoints ∧ (s.setFib i x).wear = s.wear ∧
    (s.setFib i x).accrued = s.accrued ∧ (s.setFib i x).swaps = s.swaps ∧ (s.setFib i x).spared = s.spared ∧
    (s.setFib i x).target = s.target ∧ (s.setFib i x).elapsed = s.elapsed ∧ (s.setFib i x).plim = s.plim ∧
    (s.setFib i x).throttled = s.throttled ∧ (s.setFib i x).powerOk = s.powerOk ∧ (s.setFib i x).hot = s.hot ∧
    (s.setFib i x).life = s.life ∧ (s.setFib i x).boostSeq = s.boostSeq ∧ (s.setFib i x).accrualAt = s.accrualAt ∧
    (s.setFib i x).wearckAt = s.wearckAt ∧ (s.setFib i x).nvLog = s.nvLog ∧ (s.setFib i x).nvPending = s.nvPending ∧
    (s.setFib i x).nvSeq = s.nvSeq ∧ (s.setFib i x).enclaves = s.enclaves ∧ (s.setFib i x).caps = s.caps ∧
    (s.setFib i x).capids = s.capids ∧ (s.setFib i x).ceframe = s.ceframe ∧ (s.setFib i x).dbgOut = s.dbgOut ∧
    (s.setFib i x).dbgPend = s.dbgPend ∧
    (s.setFib i x).unseen = s.unseen := by
  and_intros <;> rfl

@[simp] theorem State.modFib_fibs (s : State) (i : Nat) (g : Fibre → Fibre) :
    (s.modFib i g).fibs = tmod s.fibs i g := rfl

@[simp] theorem State.modFib_keeps (s : State) (i : Nat) (g : Fibre → Fibre) :
    (s.modFib i g).tick = s.tick ∧ (s.modFib i g).steps = s.steps ∧ (s.modFib i g).free = s.free ∧
    (s.modFib i g).ids = s.ids ∧ (s.modFib i g).inbox = s.inbox ∧ (s.modFib i g).cur = s.cur ∧
    (s.modFib i g).boot = s.boot ∧ (s.modFib i g).nvImages = s.nvImages ∧ (s.modFib i g).nvActive = s.nvActive ∧
    (s.modFib i g).running = s.running ∧ (s.modFib i g).nvConfig = s.nvConfig ∧ (s.modFib i g).logbrk = s.logbrk ∧
    (s.modFib i g).contained = s.contained ∧ (s.modFib i g).memsz = s.memsz ∧ (s.modFib i g).mem = s.mem ∧
    (s.modFib i g).lineRel = s.lineRel ∧ (s.modFib i g).poisonLines = s.poisonLines ∧
    (s.modFib i g).poisonFrames = s.poisonFrames ∧ (s.modFib i g).retired = s.retired ∧
    (s.modFib i g).poolUsed = s.poolUsed ∧ (s.modFib i g).poolRemap = s.poolRemap ∧
    (s.modFib i g).correctable = s.correctable ∧ (s.modFib i g).withdrawn = s.withdrawn ∧
    (s.modFib i g).slices = s.slices ∧ (s.modFib i g).self = s.self ∧ (s.modFib i g).fabric = s.fabric ∧
    (s.modFib i g).apertures = s.apertures ∧ (s.modFib i g).streams = s.streams ∧ (s.modFib i g).sent = s.sent ∧
    (s.modFib i g).incoming = s.incoming ∧ (s.modFib i g).replies = s.replies ∧ (s.modFib i g).relays = s.relays ∧
    (s.modFib i g).laneUp = s.laneUp ∧ (s.modFib i g).hostOut = s.hostOut ∧ (s.modFib i g).power = s.power ∧
    (s.modFib i g).errs = s.errs ∧ (s.modFib i g).faultQ = s.faultQ ∧ (s.modFib i g).fns = s.fns ∧
    (s.modFib i g).parts = s.parts ∧ (s.modFib i g).ctxs = s.ctxs ∧ (s.modFib i g).tlb = s.tlb ∧
    (s.modFib i g).objs = s.objs ∧ (s.modFib i g).queues = s.queues ∧ (s.modFib i g).invals = s.invals ∧
    (s.modFib i g).launches = s.launches ∧ (s.modFib i g).lseq = s.lseq ∧ (s.modFib i g).cores = s.cores ∧
    (s.modFib i g).wgs = s.wgs ∧ (s.modFib i g).slots = s.slots ∧ (s.modFib i g).flights = s.flights ∧
    (s.modFib i g).podWait = s.podWait ∧ (s.modFib i g).groups = s.groups ∧ (s.modFib i g).cmds = s.cmds ∧
    (s.modFib i g).runners = s.runners ∧ (s.modFib i g).checkpoints = s.checkpoints ∧ (s.modFib i g).wear = s.wear ∧
    (s.modFib i g).accrued = s.accrued ∧ (s.modFib i g).swaps = s.swaps ∧ (s.modFib i g).spared = s.spared ∧
    (s.modFib i g).target = s.target ∧ (s.modFib i g).elapsed = s.elapsed ∧ (s.modFib i g).plim = s.plim ∧
    (s.modFib i g).throttled = s.throttled ∧ (s.modFib i g).powerOk = s.powerOk ∧ (s.modFib i g).hot = s.hot ∧
    (s.modFib i g).life = s.life ∧ (s.modFib i g).boostSeq = s.boostSeq ∧ (s.modFib i g).accrualAt = s.accrualAt ∧
    (s.modFib i g).wearckAt = s.wearckAt ∧ (s.modFib i g).nvLog = s.nvLog ∧ (s.modFib i g).nvPending = s.nvPending ∧
    (s.modFib i g).nvSeq = s.nvSeq ∧ (s.modFib i g).enclaves = s.enclaves ∧ (s.modFib i g).caps = s.caps ∧
    (s.modFib i g).capids = s.capids ∧ (s.modFib i g).ceframe = s.ceframe ∧ (s.modFib i g).dbgOut = s.dbgOut ∧
    (s.modFib i g).dbgPend = s.dbgPend ∧
    (s.modFib i g).unseen = s.unseen := by
  and_intros <;> rfl

@[simp] theorem State.setSlot_slots (s : State) (i : Nat) (x : Slot) :
    (s.setSlot i x).slots = tset s.slots i x := rfl

@[simp] theorem State.setSlot_keeps (s : State) (i : Nat) (x : Slot) :
    (s.setSlot i x).tick = s.tick ∧ (s.setSlot i x).steps = s.steps ∧ (s.setSlot i x).free = s.free ∧
    (s.setSlot i x).ids = s.ids ∧ (s.setSlot i x).inbox = s.inbox ∧ (s.setSlot i x).cur = s.cur ∧
    (s.setSlot i x).boot = s.boot ∧ (s.setSlot i x).nvImages = s.nvImages ∧ (s.setSlot i x).nvActive = s.nvActive ∧
    (s.setSlot i x).running = s.running ∧ (s.setSlot i x).nvConfig = s.nvConfig ∧
    (s.setSlot i x).logbrk = s.logbrk ∧ (s.setSlot i x).contained = s.contained ∧ (s.setSlot i x).memsz = s.memsz ∧
    (s.setSlot i x).mem = s.mem ∧ (s.setSlot i x).lineRel = s.lineRel ∧
    (s.setSlot i x).poisonLines = s.poisonLines ∧ (s.setSlot i x).poisonFrames = s.poisonFrames ∧
    (s.setSlot i x).retired = s.retired ∧ (s.setSlot i x).poolUsed = s.poolUsed ∧
    (s.setSlot i x).poolRemap = s.poolRemap ∧ (s.setSlot i x).correctable = s.correctable ∧
    (s.setSlot i x).withdrawn = s.withdrawn ∧ (s.setSlot i x).slices = s.slices ∧ (s.setSlot i x).self = s.self ∧
    (s.setSlot i x).fabric = s.fabric ∧ (s.setSlot i x).apertures = s.apertures ∧
    (s.setSlot i x).streams = s.streams ∧ (s.setSlot i x).sent = s.sent ∧ (s.setSlot i x).incoming = s.incoming ∧
    (s.setSlot i x).replies = s.replies ∧ (s.setSlot i x).relays = s.relays ∧ (s.setSlot i x).laneUp = s.laneUp ∧
    (s.setSlot i x).hostOut = s.hostOut ∧ (s.setSlot i x).power = s.power ∧ (s.setSlot i x).errs = s.errs ∧
    (s.setSlot i x).faultQ = s.faultQ ∧ (s.setSlot i x).fns = s.fns ∧ (s.setSlot i x).parts = s.parts ∧
    (s.setSlot i x).ctxs = s.ctxs ∧ (s.setSlot i x).tlb = s.tlb ∧ (s.setSlot i x).objs = s.objs ∧
    (s.setSlot i x).queues = s.queues ∧ (s.setSlot i x).invals = s.invals ∧ (s.setSlot i x).launches = s.launches ∧
    (s.setSlot i x).lseq = s.lseq ∧ (s.setSlot i x).cores = s.cores ∧ (s.setSlot i x).wgs = s.wgs ∧
    (s.setSlot i x).fibs = s.fibs ∧ (s.setSlot i x).flights = s.flights ∧ (s.setSlot i x).podWait = s.podWait ∧
    (s.setSlot i x).groups = s.groups ∧ (s.setSlot i x).cmds = s.cmds ∧ (s.setSlot i x).runners = s.runners ∧
    (s.setSlot i x).checkpoints = s.checkpoints ∧ (s.setSlot i x).wear = s.wear ∧
    (s.setSlot i x).accrued = s.accrued ∧ (s.setSlot i x).swaps = s.swaps ∧ (s.setSlot i x).spared = s.spared ∧
    (s.setSlot i x).target = s.target ∧ (s.setSlot i x).elapsed = s.elapsed ∧ (s.setSlot i x).plim = s.plim ∧
    (s.setSlot i x).throttled = s.throttled ∧ (s.setSlot i x).powerOk = s.powerOk ∧ (s.setSlot i x).hot = s.hot ∧
    (s.setSlot i x).life = s.life ∧ (s.setSlot i x).boostSeq = s.boostSeq ∧
    (s.setSlot i x).accrualAt = s.accrualAt ∧ (s.setSlot i x).wearckAt = s.wearckAt ∧
    (s.setSlot i x).nvLog = s.nvLog ∧ (s.setSlot i x).nvPending = s.nvPending ∧ (s.setSlot i x).nvSeq = s.nvSeq ∧
    (s.setSlot i x).enclaves = s.enclaves ∧ (s.setSlot i x).caps = s.caps ∧ (s.setSlot i x).capids = s.capids ∧
    (s.setSlot i x).ceframe = s.ceframe ∧ (s.setSlot i x).dbgOut = s.dbgOut ∧ (s.setSlot i x).dbgPend = s.dbgPend ∧
    (s.setSlot i x).unseen = s.unseen := by
  and_intros <;> rfl

@[simp] theorem State.modSlot_slots (s : State) (i : Nat) (g : Slot → Slot) :
    (s.modSlot i g).slots = tmod s.slots i g := rfl

@[simp] theorem State.modSlot_keeps (s : State) (i : Nat) (g : Slot → Slot) :
    (s.modSlot i g).tick = s.tick ∧ (s.modSlot i g).steps = s.steps ∧ (s.modSlot i g).free = s.free ∧
    (s.modSlot i g).ids = s.ids ∧ (s.modSlot i g).inbox = s.inbox ∧ (s.modSlot i g).cur = s.cur ∧
    (s.modSlot i g).boot = s.boot ∧ (s.modSlot i g).nvImages = s.nvImages ∧ (s.modSlot i g).nvActive = s.nvActive ∧
    (s.modSlot i g).running = s.running ∧ (s.modSlot i g).nvConfig = s.nvConfig ∧
    (s.modSlot i g).logbrk = s.logbrk ∧ (s.modSlot i g).contained = s.contained ∧ (s.modSlot i g).memsz = s.memsz ∧
    (s.modSlot i g).mem = s.mem ∧ (s.modSlot i g).lineRel = s.lineRel ∧
    (s.modSlot i g).poisonLines = s.poisonLines ∧ (s.modSlot i g).poisonFrames = s.poisonFrames ∧
    (s.modSlot i g).retired = s.retired ∧ (s.modSlot i g).poolUsed = s.poolUsed ∧
    (s.modSlot i g).poolRemap = s.poolRemap ∧ (s.modSlot i g).correctable = s.correctable ∧
    (s.modSlot i g).withdrawn = s.withdrawn ∧ (s.modSlot i g).slices = s.slices ∧ (s.modSlot i g).self = s.self ∧
    (s.modSlot i g).fabric = s.fabric ∧ (s.modSlot i g).apertures = s.apertures ∧
    (s.modSlot i g).streams = s.streams ∧ (s.modSlot i g).sent = s.sent ∧ (s.modSlot i g).incoming = s.incoming ∧
    (s.modSlot i g).replies = s.replies ∧ (s.modSlot i g).relays = s.relays ∧ (s.modSlot i g).laneUp = s.laneUp ∧
    (s.modSlot i g).hostOut = s.hostOut ∧ (s.modSlot i g).power = s.power ∧ (s.modSlot i g).errs = s.errs ∧
    (s.modSlot i g).faultQ = s.faultQ ∧ (s.modSlot i g).fns = s.fns ∧ (s.modSlot i g).parts = s.parts ∧
    (s.modSlot i g).ctxs = s.ctxs ∧ (s.modSlot i g).tlb = s.tlb ∧ (s.modSlot i g).objs = s.objs ∧
    (s.modSlot i g).queues = s.queues ∧ (s.modSlot i g).invals = s.invals ∧ (s.modSlot i g).launches = s.launches ∧
    (s.modSlot i g).lseq = s.lseq ∧ (s.modSlot i g).cores = s.cores ∧ (s.modSlot i g).wgs = s.wgs ∧
    (s.modSlot i g).fibs = s.fibs ∧ (s.modSlot i g).flights = s.flights ∧ (s.modSlot i g).podWait = s.podWait ∧
    (s.modSlot i g).groups = s.groups ∧ (s.modSlot i g).cmds = s.cmds ∧ (s.modSlot i g).runners = s.runners ∧
    (s.modSlot i g).checkpoints = s.checkpoints ∧ (s.modSlot i g).wear = s.wear ∧
    (s.modSlot i g).accrued = s.accrued ∧ (s.modSlot i g).swaps = s.swaps ∧ (s.modSlot i g).spared = s.spared ∧
    (s.modSlot i g).target = s.target ∧ (s.modSlot i g).elapsed = s.elapsed ∧ (s.modSlot i g).plim = s.plim ∧
    (s.modSlot i g).throttled = s.throttled ∧ (s.modSlot i g).powerOk = s.powerOk ∧ (s.modSlot i g).hot = s.hot ∧
    (s.modSlot i g).life = s.life ∧ (s.modSlot i g).boostSeq = s.boostSeq ∧
    (s.modSlot i g).accrualAt = s.accrualAt ∧ (s.modSlot i g).wearckAt = s.wearckAt ∧
    (s.modSlot i g).nvLog = s.nvLog ∧ (s.modSlot i g).nvPending = s.nvPending ∧ (s.modSlot i g).nvSeq = s.nvSeq ∧
    (s.modSlot i g).enclaves = s.enclaves ∧ (s.modSlot i g).caps = s.caps ∧ (s.modSlot i g).capids = s.capids ∧
    (s.modSlot i g).ceframe = s.ceframe ∧ (s.modSlot i g).dbgOut = s.dbgOut ∧ (s.modSlot i g).dbgPend = s.dbgPend ∧
    (s.modSlot i g).unseen = s.unseen := by
  and_intros <;> rfl

@[simp] theorem State.setWg_wgs (s : State) (i : Nat) (x : Workgroup) :
    (s.setWg i x).wgs = tset s.wgs i x := rfl

@[simp] theorem State.setWg_keeps (s : State) (i : Nat) (x : Workgroup) :
    (s.setWg i x).tick = s.tick ∧ (s.setWg i x).steps = s.steps ∧ (s.setWg i x).free = s.free ∧
    (s.setWg i x).ids = s.ids ∧ (s.setWg i x).inbox = s.inbox ∧ (s.setWg i x).cur = s.cur ∧
    (s.setWg i x).boot = s.boot ∧ (s.setWg i x).nvImages = s.nvImages ∧ (s.setWg i x).nvActive = s.nvActive ∧
    (s.setWg i x).running = s.running ∧ (s.setWg i x).nvConfig = s.nvConfig ∧ (s.setWg i x).logbrk = s.logbrk ∧
    (s.setWg i x).contained = s.contained ∧ (s.setWg i x).memsz = s.memsz ∧ (s.setWg i x).mem = s.mem ∧
    (s.setWg i x).lineRel = s.lineRel ∧ (s.setWg i x).poisonLines = s.poisonLines ∧
    (s.setWg i x).poisonFrames = s.poisonFrames ∧ (s.setWg i x).retired = s.retired ∧
    (s.setWg i x).poolUsed = s.poolUsed ∧ (s.setWg i x).poolRemap = s.poolRemap ∧
    (s.setWg i x).correctable = s.correctable ∧ (s.setWg i x).withdrawn = s.withdrawn ∧
    (s.setWg i x).slices = s.slices ∧ (s.setWg i x).self = s.self ∧ (s.setWg i x).fabric = s.fabric ∧
    (s.setWg i x).apertures = s.apertures ∧ (s.setWg i x).streams = s.streams ∧ (s.setWg i x).sent = s.sent ∧
    (s.setWg i x).incoming = s.incoming ∧ (s.setWg i x).replies = s.replies ∧ (s.setWg i x).relays = s.relays ∧
    (s.setWg i x).laneUp = s.laneUp ∧ (s.setWg i x).hostOut = s.hostOut ∧ (s.setWg i x).power = s.power ∧
    (s.setWg i x).errs = s.errs ∧ (s.setWg i x).faultQ = s.faultQ ∧ (s.setWg i x).fns = s.fns ∧
    (s.setWg i x).parts = s.parts ∧ (s.setWg i x).ctxs = s.ctxs ∧ (s.setWg i x).tlb = s.tlb ∧
    (s.setWg i x).objs = s.objs ∧ (s.setWg i x).queues = s.queues ∧ (s.setWg i x).invals = s.invals ∧
    (s.setWg i x).launches = s.launches ∧ (s.setWg i x).lseq = s.lseq ∧ (s.setWg i x).cores = s.cores ∧
    (s.setWg i x).slots = s.slots ∧ (s.setWg i x).fibs = s.fibs ∧ (s.setWg i x).flights = s.flights ∧
    (s.setWg i x).podWait = s.podWait ∧ (s.setWg i x).groups = s.groups ∧ (s.setWg i x).cmds = s.cmds ∧
    (s.setWg i x).runners = s.runners ∧ (s.setWg i x).checkpoints = s.checkpoints ∧ (s.setWg i x).wear = s.wear ∧
    (s.setWg i x).accrued = s.accrued ∧ (s.setWg i x).swaps = s.swaps ∧ (s.setWg i x).spared = s.spared ∧
    (s.setWg i x).target = s.target ∧ (s.setWg i x).elapsed = s.elapsed ∧ (s.setWg i x).plim = s.plim ∧
    (s.setWg i x).throttled = s.throttled ∧ (s.setWg i x).powerOk = s.powerOk ∧ (s.setWg i x).hot = s.hot ∧
    (s.setWg i x).life = s.life ∧ (s.setWg i x).boostSeq = s.boostSeq ∧ (s.setWg i x).accrualAt = s.accrualAt ∧
    (s.setWg i x).wearckAt = s.wearckAt ∧ (s.setWg i x).nvLog = s.nvLog ∧ (s.setWg i x).nvPending = s.nvPending ∧
    (s.setWg i x).nvSeq = s.nvSeq ∧ (s.setWg i x).enclaves = s.enclaves ∧ (s.setWg i x).caps = s.caps ∧
    (s.setWg i x).capids = s.capids ∧ (s.setWg i x).ceframe = s.ceframe ∧ (s.setWg i x).dbgOut = s.dbgOut ∧
    (s.setWg i x).dbgPend = s.dbgPend ∧
    (s.setWg i x).unseen = s.unseen := by
  and_intros <;> rfl

@[simp] theorem State.modWg_wgs (s : State) (i : Nat) (g : Workgroup → Workgroup) :
    (s.modWg i g).wgs = tmod s.wgs i g := rfl

@[simp] theorem State.modWg_keeps (s : State) (i : Nat) (g : Workgroup → Workgroup) :
    (s.modWg i g).tick = s.tick ∧ (s.modWg i g).steps = s.steps ∧ (s.modWg i g).free = s.free ∧
    (s.modWg i g).ids = s.ids ∧ (s.modWg i g).inbox = s.inbox ∧ (s.modWg i g).cur = s.cur ∧
    (s.modWg i g).boot = s.boot ∧ (s.modWg i g).nvImages = s.nvImages ∧ (s.modWg i g).nvActive = s.nvActive ∧
    (s.modWg i g).running = s.running ∧ (s.modWg i g).nvConfig = s.nvConfig ∧ (s.modWg i g).logbrk = s.logbrk ∧
    (s.modWg i g).contained = s.contained ∧ (s.modWg i g).memsz = s.memsz ∧ (s.modWg i g).mem = s.mem ∧
    (s.modWg i g).lineRel = s.lineRel ∧ (s.modWg i g).poisonLines = s.poisonLines ∧
    (s.modWg i g).poisonFrames = s.poisonFrames ∧ (s.modWg i g).retired = s.retired ∧
    (s.modWg i g).poolUsed = s.poolUsed ∧ (s.modWg i g).poolRemap = s.poolRemap ∧
    (s.modWg i g).correctable = s.correctable ∧ (s.modWg i g).withdrawn = s.withdrawn ∧
    (s.modWg i g).slices = s.slices ∧ (s.modWg i g).self = s.self ∧ (s.modWg i g).fabric = s.fabric ∧
    (s.modWg i g).apertures = s.apertures ∧ (s.modWg i g).streams = s.streams ∧ (s.modWg i g).sent = s.sent ∧
    (s.modWg i g).incoming = s.incoming ∧ (s.modWg i g).replies = s.replies ∧ (s.modWg i g).relays = s.relays ∧
    (s.modWg i g).laneUp = s.laneUp ∧ (s.modWg i g).hostOut = s.hostOut ∧ (s.modWg i g).power = s.power ∧
    (s.modWg i g).errs = s.errs ∧ (s.modWg i g).faultQ = s.faultQ ∧ (s.modWg i g).fns = s.fns ∧
    (s.modWg i g).parts = s.parts ∧ (s.modWg i g).ctxs = s.ctxs ∧ (s.modWg i g).tlb = s.tlb ∧
    (s.modWg i g).objs = s.objs ∧ (s.modWg i g).queues = s.queues ∧ (s.modWg i g).invals = s.invals ∧
    (s.modWg i g).launches = s.launches ∧ (s.modWg i g).lseq = s.lseq ∧ (s.modWg i g).cores = s.cores ∧
    (s.modWg i g).slots = s.slots ∧ (s.modWg i g).fibs = s.fibs ∧ (s.modWg i g).flights = s.flights ∧
    (s.modWg i g).podWait = s.podWait ∧ (s.modWg i g).groups = s.groups ∧ (s.modWg i g).cmds = s.cmds ∧
    (s.modWg i g).runners = s.runners ∧ (s.modWg i g).checkpoints = s.checkpoints ∧ (s.modWg i g).wear = s.wear ∧
    (s.modWg i g).accrued = s.accrued ∧ (s.modWg i g).swaps = s.swaps ∧ (s.modWg i g).spared = s.spared ∧
    (s.modWg i g).target = s.target ∧ (s.modWg i g).elapsed = s.elapsed ∧ (s.modWg i g).plim = s.plim ∧
    (s.modWg i g).throttled = s.throttled ∧ (s.modWg i g).powerOk = s.powerOk ∧ (s.modWg i g).hot = s.hot ∧
    (s.modWg i g).life = s.life ∧ (s.modWg i g).boostSeq = s.boostSeq ∧ (s.modWg i g).accrualAt = s.accrualAt ∧
    (s.modWg i g).wearckAt = s.wearckAt ∧ (s.modWg i g).nvLog = s.nvLog ∧ (s.modWg i g).nvPending = s.nvPending ∧
    (s.modWg i g).nvSeq = s.nvSeq ∧ (s.modWg i g).enclaves = s.enclaves ∧ (s.modWg i g).caps = s.caps ∧
    (s.modWg i g).capids = s.capids ∧ (s.modWg i g).ceframe = s.ceframe ∧ (s.modWg i g).dbgOut = s.dbgOut ∧
    (s.modWg i g).dbgPend = s.dbgPend ∧
    (s.modWg i g).unseen = s.unseen := by
  and_intros <;> rfl

@[simp] theorem State.setCore_cores (s : State) (i : Nat) (x : Core) :
    (s.setCore i x).cores = tset s.cores i x := rfl

@[simp] theorem State.setCore_keeps (s : State) (i : Nat) (x : Core) :
    (s.setCore i x).tick = s.tick ∧ (s.setCore i x).steps = s.steps ∧ (s.setCore i x).free = s.free ∧
    (s.setCore i x).ids = s.ids ∧ (s.setCore i x).inbox = s.inbox ∧ (s.setCore i x).cur = s.cur ∧
    (s.setCore i x).boot = s.boot ∧ (s.setCore i x).nvImages = s.nvImages ∧ (s.setCore i x).nvActive = s.nvActive ∧
    (s.setCore i x).running = s.running ∧ (s.setCore i x).nvConfig = s.nvConfig ∧
    (s.setCore i x).logbrk = s.logbrk ∧ (s.setCore i x).contained = s.contained ∧ (s.setCore i x).memsz = s.memsz ∧
    (s.setCore i x).mem = s.mem ∧ (s.setCore i x).lineRel = s.lineRel ∧
    (s.setCore i x).poisonLines = s.poisonLines ∧ (s.setCore i x).poisonFrames = s.poisonFrames ∧
    (s.setCore i x).retired = s.retired ∧ (s.setCore i x).poolUsed = s.poolUsed ∧
    (s.setCore i x).poolRemap = s.poolRemap ∧ (s.setCore i x).correctable = s.correctable ∧
    (s.setCore i x).withdrawn = s.withdrawn ∧ (s.setCore i x).slices = s.slices ∧ (s.setCore i x).self = s.self ∧
    (s.setCore i x).fabric = s.fabric ∧ (s.setCore i x).apertures = s.apertures ∧
    (s.setCore i x).streams = s.streams ∧ (s.setCore i x).sent = s.sent ∧ (s.setCore i x).incoming = s.incoming ∧
    (s.setCore i x).replies = s.replies ∧ (s.setCore i x).relays = s.relays ∧ (s.setCore i x).laneUp = s.laneUp ∧
    (s.setCore i x).hostOut = s.hostOut ∧ (s.setCore i x).power = s.power ∧ (s.setCore i x).errs = s.errs ∧
    (s.setCore i x).faultQ = s.faultQ ∧ (s.setCore i x).fns = s.fns ∧ (s.setCore i x).parts = s.parts ∧
    (s.setCore i x).ctxs = s.ctxs ∧ (s.setCore i x).tlb = s.tlb ∧ (s.setCore i x).objs = s.objs ∧
    (s.setCore i x).queues = s.queues ∧ (s.setCore i x).invals = s.invals ∧ (s.setCore i x).launches = s.launches ∧
    (s.setCore i x).lseq = s.lseq ∧ (s.setCore i x).wgs = s.wgs ∧ (s.setCore i x).slots = s.slots ∧
    (s.setCore i x).fibs = s.fibs ∧ (s.setCore i x).flights = s.flights ∧ (s.setCore i x).podWait = s.podWait ∧
    (s.setCore i x).groups = s.groups ∧ (s.setCore i x).cmds = s.cmds ∧ (s.setCore i x).runners = s.runners ∧
    (s.setCore i x).checkpoints = s.checkpoints ∧ (s.setCore i x).wear = s.wear ∧
    (s.setCore i x).accrued = s.accrued ∧ (s.setCore i x).swaps = s.swaps ∧ (s.setCore i x).spared = s.spared ∧
    (s.setCore i x).target = s.target ∧ (s.setCore i x).elapsed = s.elapsed ∧ (s.setCore i x).plim = s.plim ∧
    (s.setCore i x).throttled = s.throttled ∧ (s.setCore i x).powerOk = s.powerOk ∧ (s.setCore i x).hot = s.hot ∧
    (s.setCore i x).life = s.life ∧ (s.setCore i x).boostSeq = s.boostSeq ∧
    (s.setCore i x).accrualAt = s.accrualAt ∧ (s.setCore i x).wearckAt = s.wearckAt ∧
    (s.setCore i x).nvLog = s.nvLog ∧ (s.setCore i x).nvPending = s.nvPending ∧ (s.setCore i x).nvSeq = s.nvSeq ∧
    (s.setCore i x).enclaves = s.enclaves ∧ (s.setCore i x).caps = s.caps ∧ (s.setCore i x).capids = s.capids ∧
    (s.setCore i x).ceframe = s.ceframe ∧ (s.setCore i x).dbgOut = s.dbgOut ∧ (s.setCore i x).dbgPend = s.dbgPend ∧
    (s.setCore i x).unseen = s.unseen := by
  and_intros <;> rfl

@[simp] theorem State.modCore_cores (s : State) (i : Nat) (g : Core → Core) :
    (s.modCore i g).cores = tmod s.cores i g := rfl

@[simp] theorem State.modCore_keeps (s : State) (i : Nat) (g : Core → Core) :
    (s.modCore i g).tick = s.tick ∧ (s.modCore i g).steps = s.steps ∧ (s.modCore i g).free = s.free ∧
    (s.modCore i g).ids = s.ids ∧ (s.modCore i g).inbox = s.inbox ∧ (s.modCore i g).cur = s.cur ∧
    (s.modCore i g).boot = s.boot ∧ (s.modCore i g).nvImages = s.nvImages ∧ (s.modCore i g).nvActive = s.nvActive ∧
    (s.modCore i g).running = s.running ∧ (s.modCore i g).nvConfig = s.nvConfig ∧
    (s.modCore i g).logbrk = s.logbrk ∧ (s.modCore i g).contained = s.contained ∧ (s.modCore i g).memsz = s.memsz ∧
    (s.modCore i g).mem = s.mem ∧ (s.modCore i g).lineRel = s.lineRel ∧
    (s.modCore i g).poisonLines = s.poisonLines ∧ (s.modCore i g).poisonFrames = s.poisonFrames ∧
    (s.modCore i g).retired = s.retired ∧ (s.modCore i g).poolUsed = s.poolUsed ∧
    (s.modCore i g).poolRemap = s.poolRemap ∧ (s.modCore i g).correctable = s.correctable ∧
    (s.modCore i g).withdrawn = s.withdrawn ∧ (s.modCore i g).slices = s.slices ∧ (s.modCore i g).self = s.self ∧
    (s.modCore i g).fabric = s.fabric ∧ (s.modCore i g).apertures = s.apertures ∧
    (s.modCore i g).streams = s.streams ∧ (s.modCore i g).sent = s.sent ∧ (s.modCore i g).incoming = s.incoming ∧
    (s.modCore i g).replies = s.replies ∧ (s.modCore i g).relays = s.relays ∧ (s.modCore i g).laneUp = s.laneUp ∧
    (s.modCore i g).hostOut = s.hostOut ∧ (s.modCore i g).power = s.power ∧ (s.modCore i g).errs = s.errs ∧
    (s.modCore i g).faultQ = s.faultQ ∧ (s.modCore i g).fns = s.fns ∧ (s.modCore i g).parts = s.parts ∧
    (s.modCore i g).ctxs = s.ctxs ∧ (s.modCore i g).tlb = s.tlb ∧ (s.modCore i g).objs = s.objs ∧
    (s.modCore i g).queues = s.queues ∧ (s.modCore i g).invals = s.invals ∧ (s.modCore i g).launches = s.launches ∧
    (s.modCore i g).lseq = s.lseq ∧ (s.modCore i g).wgs = s.wgs ∧ (s.modCore i g).slots = s.slots ∧
    (s.modCore i g).fibs = s.fibs ∧ (s.modCore i g).flights = s.flights ∧ (s.modCore i g).podWait = s.podWait ∧
    (s.modCore i g).groups = s.groups ∧ (s.modCore i g).cmds = s.cmds ∧ (s.modCore i g).runners = s.runners ∧
    (s.modCore i g).checkpoints = s.checkpoints ∧ (s.modCore i g).wear = s.wear ∧
    (s.modCore i g).accrued = s.accrued ∧ (s.modCore i g).swaps = s.swaps ∧ (s.modCore i g).spared = s.spared ∧
    (s.modCore i g).target = s.target ∧ (s.modCore i g).elapsed = s.elapsed ∧ (s.modCore i g).plim = s.plim ∧
    (s.modCore i g).throttled = s.throttled ∧ (s.modCore i g).powerOk = s.powerOk ∧ (s.modCore i g).hot = s.hot ∧
    (s.modCore i g).life = s.life ∧ (s.modCore i g).boostSeq = s.boostSeq ∧
    (s.modCore i g).accrualAt = s.accrualAt ∧ (s.modCore i g).wearckAt = s.wearckAt ∧
    (s.modCore i g).nvLog = s.nvLog ∧ (s.modCore i g).nvPending = s.nvPending ∧ (s.modCore i g).nvSeq = s.nvSeq ∧
    (s.modCore i g).enclaves = s.enclaves ∧ (s.modCore i g).caps = s.caps ∧ (s.modCore i g).capids = s.capids ∧
    (s.modCore i g).ceframe = s.ceframe ∧ (s.modCore i g).dbgOut = s.dbgOut ∧ (s.modCore i g).dbgPend = s.dbgPend ∧
    (s.modCore i g).unseen = s.unseen := by
  and_intros <;> rfl

@[simp] theorem State.setFlight_flights (s : State) (i : Nat) (x : Flight) :
    (s.setFlight i x).flights = tset s.flights i x := rfl

@[simp] theorem State.setFlight_keeps (s : State) (i : Nat) (x : Flight) :
    (s.setFlight i x).tick = s.tick ∧ (s.setFlight i x).steps = s.steps ∧ (s.setFlight i x).free = s.free ∧
    (s.setFlight i x).ids = s.ids ∧ (s.setFlight i x).inbox = s.inbox ∧ (s.setFlight i x).cur = s.cur ∧
    (s.setFlight i x).boot = s.boot ∧ (s.setFlight i x).nvImages = s.nvImages ∧
    (s.setFlight i x).nvActive = s.nvActive ∧ (s.setFlight i x).running = s.running ∧
    (s.setFlight i x).nvConfig = s.nvConfig ∧ (s.setFlight i x).logbrk = s.logbrk ∧
    (s.setFlight i x).contained = s.contained ∧ (s.setFlight i x).memsz = s.memsz ∧ (s.setFlight i x).mem = s.mem ∧
    (s.setFlight i x).lineRel = s.lineRel ∧ (s.setFlight i x).poisonLines = s.poisonLines ∧
    (s.setFlight i x).poisonFrames = s.poisonFrames ∧ (s.setFlight i x).retired = s.retired ∧
    (s.setFlight i x).poolUsed = s.poolUsed ∧ (s.setFlight i x).poolRemap = s.poolRemap ∧
    (s.setFlight i x).correctable = s.correctable ∧ (s.setFlight i x).withdrawn = s.withdrawn ∧
    (s.setFlight i x).slices = s.slices ∧ (s.setFlight i x).self = s.self ∧ (s.setFlight i x).fabric = s.fabric ∧
    (s.setFlight i x).apertures = s.apertures ∧ (s.setFlight i x).streams = s.streams ∧
    (s.setFlight i x).sent = s.sent ∧ (s.setFlight i x).incoming = s.incoming ∧
    (s.setFlight i x).replies = s.replies ∧ (s.setFlight i x).relays = s.relays ∧
    (s.setFlight i x).laneUp = s.laneUp ∧ (s.setFlight i x).hostOut = s.hostOut ∧
    (s.setFlight i x).power = s.power ∧ (s.setFlight i x).errs = s.errs ∧ (s.setFlight i x).faultQ = s.faultQ ∧
    (s.setFlight i x).fns = s.fns ∧ (s.setFlight i x).parts = s.parts ∧ (s.setFlight i x).ctxs = s.ctxs ∧
    (s.setFlight i x).tlb = s.tlb ∧ (s.setFlight i x).objs = s.objs ∧ (s.setFlight i x).queues = s.queues ∧
    (s.setFlight i x).invals = s.invals ∧ (s.setFlight i x).launches = s.launches ∧
    (s.setFlight i x).lseq = s.lseq ∧ (s.setFlight i x).cores = s.cores ∧ (s.setFlight i x).wgs = s.wgs ∧
    (s.setFlight i x).slots = s.slots ∧ (s.setFlight i x).fibs = s.fibs ∧ (s.setFlight i x).podWait = s.podWait ∧
    (s.setFlight i x).groups = s.groups ∧ (s.setFlight i x).cmds = s.cmds ∧ (s.setFlight i x).runners = s.runners ∧
    (s.setFlight i x).checkpoints = s.checkpoints ∧ (s.setFlight i x).wear = s.wear ∧
    (s.setFlight i x).accrued = s.accrued ∧ (s.setFlight i x).swaps = s.swaps ∧
    (s.setFlight i x).spared = s.spared ∧ (s.setFlight i x).target = s.target ∧
    (s.setFlight i x).elapsed = s.elapsed ∧ (s.setFlight i x).plim = s.plim ∧
    (s.setFlight i x).throttled = s.throttled ∧ (s.setFlight i x).powerOk = s.powerOk ∧
    (s.setFlight i x).hot = s.hot ∧ (s.setFlight i x).life = s.life ∧ (s.setFlight i x).boostSeq = s.boostSeq ∧
    (s.setFlight i x).accrualAt = s.accrualAt ∧ (s.setFlight i x).wearckAt = s.wearckAt ∧
    (s.setFlight i x).nvLog = s.nvLog ∧ (s.setFlight i x).nvPending = s.nvPending ∧
    (s.setFlight i x).nvSeq = s.nvSeq ∧ (s.setFlight i x).enclaves = s.enclaves ∧ (s.setFlight i x).caps = s.caps ∧
    (s.setFlight i x).capids = s.capids ∧ (s.setFlight i x).ceframe = s.ceframe ∧
    (s.setFlight i x).dbgOut = s.dbgOut ∧ (s.setFlight i x).dbgPend = s.dbgPend ∧
    (s.setFlight i x).unseen = s.unseen := by
  and_intros <;> rfl

@[simp] theorem State.modFlight_flights (s : State) (i : Nat) (g : Flight → Flight) :
    (s.modFlight i g).flights = tmod s.flights i g := rfl

@[simp] theorem State.modFlight_keeps (s : State) (i : Nat) (g : Flight → Flight) :
    (s.modFlight i g).tick = s.tick ∧ (s.modFlight i g).steps = s.steps ∧ (s.modFlight i g).free = s.free ∧
    (s.modFlight i g).ids = s.ids ∧ (s.modFlight i g).inbox = s.inbox ∧ (s.modFlight i g).cur = s.cur ∧
    (s.modFlight i g).boot = s.boot ∧ (s.modFlight i g).nvImages = s.nvImages ∧
    (s.modFlight i g).nvActive = s.nvActive ∧ (s.modFlight i g).running = s.running ∧
    (s.modFlight i g).nvConfig = s.nvConfig ∧ (s.modFlight i g).logbrk = s.logbrk ∧
    (s.modFlight i g).contained = s.contained ∧ (s.modFlight i g).memsz = s.memsz ∧ (s.modFlight i g).mem = s.mem ∧
    (s.modFlight i g).lineRel = s.lineRel ∧ (s.modFlight i g).poisonLines = s.poisonLines ∧
    (s.modFlight i g).poisonFrames = s.poisonFrames ∧ (s.modFlight i g).retired = s.retired ∧
    (s.modFlight i g).poolUsed = s.poolUsed ∧ (s.modFlight i g).poolRemap = s.poolRemap ∧
    (s.modFlight i g).correctable = s.correctable ∧ (s.modFlight i g).withdrawn = s.withdrawn ∧
    (s.modFlight i g).slices = s.slices ∧ (s.modFlight i g).self = s.self ∧ (s.modFlight i g).fabric = s.fabric ∧
    (s.modFlight i g).apertures = s.apertures ∧ (s.modFlight i g).streams = s.streams ∧
    (s.modFlight i g).sent = s.sent ∧ (s.modFlight i g).incoming = s.incoming ∧
    (s.modFlight i g).replies = s.replies ∧ (s.modFlight i g).relays = s.relays ∧
    (s.modFlight i g).laneUp = s.laneUp ∧ (s.modFlight i g).hostOut = s.hostOut ∧
    (s.modFlight i g).power = s.power ∧ (s.modFlight i g).errs = s.errs ∧ (s.modFlight i g).faultQ = s.faultQ ∧
    (s.modFlight i g).fns = s.fns ∧ (s.modFlight i g).parts = s.parts ∧ (s.modFlight i g).ctxs = s.ctxs ∧
    (s.modFlight i g).tlb = s.tlb ∧ (s.modFlight i g).objs = s.objs ∧ (s.modFlight i g).queues = s.queues ∧
    (s.modFlight i g).invals = s.invals ∧ (s.modFlight i g).launches = s.launches ∧
    (s.modFlight i g).lseq = s.lseq ∧ (s.modFlight i g).cores = s.cores ∧ (s.modFlight i g).wgs = s.wgs ∧
    (s.modFlight i g).slots = s.slots ∧ (s.modFlight i g).fibs = s.fibs ∧ (s.modFlight i g).podWait = s.podWait ∧
    (s.modFlight i g).groups = s.groups ∧ (s.modFlight i g).cmds = s.cmds ∧ (s.modFlight i g).runners = s.runners ∧
    (s.modFlight i g).checkpoints = s.checkpoints ∧ (s.modFlight i g).wear = s.wear ∧
    (s.modFlight i g).accrued = s.accrued ∧ (s.modFlight i g).swaps = s.swaps ∧
    (s.modFlight i g).spared = s.spared ∧ (s.modFlight i g).target = s.target ∧
    (s.modFlight i g).elapsed = s.elapsed ∧ (s.modFlight i g).plim = s.plim ∧
    (s.modFlight i g).throttled = s.throttled ∧ (s.modFlight i g).powerOk = s.powerOk ∧
    (s.modFlight i g).hot = s.hot ∧ (s.modFlight i g).life = s.life ∧ (s.modFlight i g).boostSeq = s.boostSeq ∧
    (s.modFlight i g).accrualAt = s.accrualAt ∧ (s.modFlight i g).wearckAt = s.wearckAt ∧
    (s.modFlight i g).nvLog = s.nvLog ∧ (s.modFlight i g).nvPending = s.nvPending ∧
    (s.modFlight i g).nvSeq = s.nvSeq ∧ (s.modFlight i g).enclaves = s.enclaves ∧ (s.modFlight i g).caps = s.caps ∧
    (s.modFlight i g).capids = s.capids ∧ (s.modFlight i g).ceframe = s.ceframe ∧
    (s.modFlight i g).dbgOut = s.dbgOut ∧ (s.modFlight i g).dbgPend = s.dbgPend ∧
    (s.modFlight i g).unseen = s.unseen := by
  and_intros <;> rfl

@[simp] theorem State.dropFlight_flights (s : State) (i : Nat) :
    (s.dropFlight i).flights = tdel s.flights i := rfl

@[simp] theorem State.dropFlight_keeps (s : State) (i : Nat) :
    (s.dropFlight i).tick = s.tick ∧ (s.dropFlight i).steps = s.steps ∧ (s.dropFlight i).free = s.free ∧
    (s.dropFlight i).ids = s.ids ∧ (s.dropFlight i).inbox = s.inbox ∧ (s.dropFlight i).cur = s.cur ∧
    (s.dropFlight i).boot = s.boot ∧ (s.dropFlight i).nvImages = s.nvImages ∧
    (s.dropFlight i).nvActive = s.nvActive ∧ (s.dropFlight i).running = s.running ∧
    (s.dropFlight i).nvConfig = s.nvConfig ∧ (s.dropFlight i).logbrk = s.logbrk ∧
    (s.dropFlight i).contained = s.contained ∧ (s.dropFlight i).memsz = s.memsz ∧ (s.dropFlight i).mem = s.mem ∧
    (s.dropFlight i).lineRel = s.lineRel ∧ (s.dropFlight i).poisonLines = s.poisonLines ∧
    (s.dropFlight i).poisonFrames = s.poisonFrames ∧ (s.dropFlight i).retired = s.retired ∧
    (s.dropFlight i).poolUsed = s.poolUsed ∧ (s.dropFlight i).poolRemap = s.poolRemap ∧
    (s.dropFlight i).correctable = s.correctable ∧ (s.dropFlight i).withdrawn = s.withdrawn ∧
    (s.dropFlight i).slices = s.slices ∧ (s.dropFlight i).self = s.self ∧ (s.dropFlight i).fabric = s.fabric ∧
    (s.dropFlight i).apertures = s.apertures ∧ (s.dropFlight i).streams = s.streams ∧
    (s.dropFlight i).sent = s.sent ∧ (s.dropFlight i).incoming = s.incoming ∧ (s.dropFlight i).replies = s.replies ∧
    (s.dropFlight i).relays = s.relays ∧ (s.dropFlight i).laneUp = s.laneUp ∧ (s.dropFlight i).hostOut = s.hostOut ∧
    (s.dropFlight i).power = s.power ∧ (s.dropFlight i).errs = s.errs ∧ (s.dropFlight i).faultQ = s.faultQ ∧
    (s.dropFlight i).fns = s.fns ∧ (s.dropFlight i).parts = s.parts ∧ (s.dropFlight i).ctxs = s.ctxs ∧
    (s.dropFlight i).tlb = s.tlb ∧ (s.dropFlight i).objs = s.objs ∧ (s.dropFlight i).queues = s.queues ∧
    (s.dropFlight i).invals = s.invals ∧ (s.dropFlight i).launches = s.launches ∧ (s.dropFlight i).lseq = s.lseq ∧
    (s.dropFlight i).cores = s.cores ∧ (s.dropFlight i).wgs = s.wgs ∧ (s.dropFlight i).slots = s.slots ∧
    (s.dropFlight i).fibs = s.fibs ∧ (s.dropFlight i).podWait = s.podWait ∧ (s.dropFlight i).groups = s.groups ∧
    (s.dropFlight i).cmds = s.cmds ∧ (s.dropFlight i).runners = s.runners ∧
    (s.dropFlight i).checkpoints = s.checkpoints ∧ (s.dropFlight i).wear = s.wear ∧
    (s.dropFlight i).accrued = s.accrued ∧ (s.dropFlight i).swaps = s.swaps ∧ (s.dropFlight i).spared = s.spared ∧
    (s.dropFlight i).target = s.target ∧ (s.dropFlight i).elapsed = s.elapsed ∧ (s.dropFlight i).plim = s.plim ∧
    (s.dropFlight i).throttled = s.throttled ∧ (s.dropFlight i).powerOk = s.powerOk ∧ (s.dropFlight i).hot = s.hot ∧
    (s.dropFlight i).life = s.life ∧ (s.dropFlight i).boostSeq = s.boostSeq ∧
    (s.dropFlight i).accrualAt = s.accrualAt ∧ (s.dropFlight i).wearckAt = s.wearckAt ∧
    (s.dropFlight i).nvLog = s.nvLog ∧ (s.dropFlight i).nvPending = s.nvPending ∧ (s.dropFlight i).nvSeq = s.nvSeq ∧
    (s.dropFlight i).enclaves = s.enclaves ∧ (s.dropFlight i).caps = s.caps ∧ (s.dropFlight i).capids = s.capids ∧
    (s.dropFlight i).ceframe = s.ceframe ∧ (s.dropFlight i).dbgOut = s.dbgOut ∧
    (s.dropFlight i).dbgPend = s.dbgPend ∧
    (s.dropFlight i).unseen = s.unseen := by
  and_intros <;> rfl

@[simp] theorem State.setRunner_runners (s : State) (i : Nat) (x : Runner) :
    (s.setRunner i x).runners = tset s.runners i x := rfl

@[simp] theorem State.setRunner_keeps (s : State) (i : Nat) (x : Runner) :
    (s.setRunner i x).tick = s.tick ∧ (s.setRunner i x).steps = s.steps ∧ (s.setRunner i x).free = s.free ∧
    (s.setRunner i x).ids = s.ids ∧ (s.setRunner i x).inbox = s.inbox ∧ (s.setRunner i x).cur = s.cur ∧
    (s.setRunner i x).boot = s.boot ∧ (s.setRunner i x).nvImages = s.nvImages ∧
    (s.setRunner i x).nvActive = s.nvActive ∧ (s.setRunner i x).running = s.running ∧
    (s.setRunner i x).nvConfig = s.nvConfig ∧ (s.setRunner i x).logbrk = s.logbrk ∧
    (s.setRunner i x).contained = s.contained ∧ (s.setRunner i x).memsz = s.memsz ∧ (s.setRunner i x).mem = s.mem ∧
    (s.setRunner i x).lineRel = s.lineRel ∧ (s.setRunner i x).poisonLines = s.poisonLines ∧
    (s.setRunner i x).poisonFrames = s.poisonFrames ∧ (s.setRunner i x).retired = s.retired ∧
    (s.setRunner i x).poolUsed = s.poolUsed ∧ (s.setRunner i x).poolRemap = s.poolRemap ∧
    (s.setRunner i x).correctable = s.correctable ∧ (s.setRunner i x).withdrawn = s.withdrawn ∧
    (s.setRunner i x).slices = s.slices ∧ (s.setRunner i x).self = s.self ∧ (s.setRunner i x).fabric = s.fabric ∧
    (s.setRunner i x).apertures = s.apertures ∧ (s.setRunner i x).streams = s.streams ∧
    (s.setRunner i x).sent = s.sent ∧ (s.setRunner i x).incoming = s.incoming ∧
    (s.setRunner i x).replies = s.replies ∧ (s.setRunner i x).relays = s.relays ∧
    (s.setRunner i x).laneUp = s.laneUp ∧ (s.setRunner i x).hostOut = s.hostOut ∧
    (s.setRunner i x).power = s.power ∧ (s.setRunner i x).errs = s.errs ∧ (s.setRunner i x).faultQ = s.faultQ ∧
    (s.setRunner i x).fns = s.fns ∧ (s.setRunner i x).parts = s.parts ∧ (s.setRunner i x).ctxs = s.ctxs ∧
    (s.setRunner i x).tlb = s.tlb ∧ (s.setRunner i x).objs = s.objs ∧ (s.setRunner i x).queues = s.queues ∧
    (s.setRunner i x).invals = s.invals ∧ (s.setRunner i x).launches = s.launches ∧
    (s.setRunner i x).lseq = s.lseq ∧ (s.setRunner i x).cores = s.cores ∧ (s.setRunner i x).wgs = s.wgs ∧
    (s.setRunner i x).slots = s.slots ∧ (s.setRunner i x).fibs = s.fibs ∧ (s.setRunner i x).flights = s.flights ∧
    (s.setRunner i x).podWait = s.podWait ∧ (s.setRunner i x).groups = s.groups ∧ (s.setRunner i x).cmds = s.cmds ∧
    (s.setRunner i x).checkpoints = s.checkpoints ∧ (s.setRunner i x).wear = s.wear ∧
    (s.setRunner i x).accrued = s.accrued ∧ (s.setRunner i x).swaps = s.swaps ∧
    (s.setRunner i x).spared = s.spared ∧ (s.setRunner i x).target = s.target ∧
    (s.setRunner i x).elapsed = s.elapsed ∧ (s.setRunner i x).plim = s.plim ∧
    (s.setRunner i x).throttled = s.throttled ∧ (s.setRunner i x).powerOk = s.powerOk ∧
    (s.setRunner i x).hot = s.hot ∧ (s.setRunner i x).life = s.life ∧ (s.setRunner i x).boostSeq = s.boostSeq ∧
    (s.setRunner i x).accrualAt = s.accrualAt ∧ (s.setRunner i x).wearckAt = s.wearckAt ∧
    (s.setRunner i x).nvLog = s.nvLog ∧ (s.setRunner i x).nvPending = s.nvPending ∧
    (s.setRunner i x).nvSeq = s.nvSeq ∧ (s.setRunner i x).enclaves = s.enclaves ∧ (s.setRunner i x).caps = s.caps ∧
    (s.setRunner i x).capids = s.capids ∧ (s.setRunner i x).ceframe = s.ceframe ∧
    (s.setRunner i x).dbgOut = s.dbgOut ∧ (s.setRunner i x).dbgPend = s.dbgPend ∧
    (s.setRunner i x).unseen = s.unseen := by
  and_intros <;> rfl

@[simp] theorem State.modRunner_runners (s : State) (i : Nat) (g : Runner → Runner) :
    (s.modRunner i g).runners = tmod s.runners i g := rfl

@[simp] theorem State.modRunner_keeps (s : State) (i : Nat) (g : Runner → Runner) :
    (s.modRunner i g).tick = s.tick ∧ (s.modRunner i g).steps = s.steps ∧ (s.modRunner i g).free = s.free ∧
    (s.modRunner i g).ids = s.ids ∧ (s.modRunner i g).inbox = s.inbox ∧ (s.modRunner i g).cur = s.cur ∧
    (s.modRunner i g).boot = s.boot ∧ (s.modRunner i g).nvImages = s.nvImages ∧
    (s.modRunner i g).nvActive = s.nvActive ∧ (s.modRunner i g).running = s.running ∧
    (s.modRunner i g).nvConfig = s.nvConfig ∧ (s.modRunner i g).logbrk = s.logbrk ∧
    (s.modRunner i g).contained = s.contained ∧ (s.modRunner i g).memsz = s.memsz ∧ (s.modRunner i g).mem = s.mem ∧
    (s.modRunner i g).lineRel = s.lineRel ∧ (s.modRunner i g).poisonLines = s.poisonLines ∧
    (s.modRunner i g).poisonFrames = s.poisonFrames ∧ (s.modRunner i g).retired = s.retired ∧
    (s.modRunner i g).poolUsed = s.poolUsed ∧ (s.modRunner i g).poolRemap = s.poolRemap ∧
    (s.modRunner i g).correctable = s.correctable ∧ (s.modRunner i g).withdrawn = s.withdrawn ∧
    (s.modRunner i g).slices = s.slices ∧ (s.modRunner i g).self = s.self ∧ (s.modRunner i g).fabric = s.fabric ∧
    (s.modRunner i g).apertures = s.apertures ∧ (s.modRunner i g).streams = s.streams ∧
    (s.modRunner i g).sent = s.sent ∧ (s.modRunner i g).incoming = s.incoming ∧
    (s.modRunner i g).replies = s.replies ∧ (s.modRunner i g).relays = s.relays ∧
    (s.modRunner i g).laneUp = s.laneUp ∧ (s.modRunner i g).hostOut = s.hostOut ∧
    (s.modRunner i g).power = s.power ∧ (s.modRunner i g).errs = s.errs ∧ (s.modRunner i g).faultQ = s.faultQ ∧
    (s.modRunner i g).fns = s.fns ∧ (s.modRunner i g).parts = s.parts ∧ (s.modRunner i g).ctxs = s.ctxs ∧
    (s.modRunner i g).tlb = s.tlb ∧ (s.modRunner i g).objs = s.objs ∧ (s.modRunner i g).queues = s.queues ∧
    (s.modRunner i g).invals = s.invals ∧ (s.modRunner i g).launches = s.launches ∧
    (s.modRunner i g).lseq = s.lseq ∧ (s.modRunner i g).cores = s.cores ∧ (s.modRunner i g).wgs = s.wgs ∧
    (s.modRunner i g).slots = s.slots ∧ (s.modRunner i g).fibs = s.fibs ∧ (s.modRunner i g).flights = s.flights ∧
    (s.modRunner i g).podWait = s.podWait ∧ (s.modRunner i g).groups = s.groups ∧ (s.modRunner i g).cmds = s.cmds ∧
    (s.modRunner i g).checkpoints = s.checkpoints ∧ (s.modRunner i g).wear = s.wear ∧
    (s.modRunner i g).accrued = s.accrued ∧ (s.modRunner i g).swaps = s.swaps ∧
    (s.modRunner i g).spared = s.spared ∧ (s.modRunner i g).target = s.target ∧
    (s.modRunner i g).elapsed = s.elapsed ∧ (s.modRunner i g).plim = s.plim ∧
    (s.modRunner i g).throttled = s.throttled ∧ (s.modRunner i g).powerOk = s.powerOk ∧
    (s.modRunner i g).hot = s.hot ∧ (s.modRunner i g).life = s.life ∧ (s.modRunner i g).boostSeq = s.boostSeq ∧
    (s.modRunner i g).accrualAt = s.accrualAt ∧ (s.modRunner i g).wearckAt = s.wearckAt ∧
    (s.modRunner i g).nvLog = s.nvLog ∧ (s.modRunner i g).nvPending = s.nvPending ∧
    (s.modRunner i g).nvSeq = s.nvSeq ∧ (s.modRunner i g).enclaves = s.enclaves ∧ (s.modRunner i g).caps = s.caps ∧
    (s.modRunner i g).capids = s.capids ∧ (s.modRunner i g).ceframe = s.ceframe ∧
    (s.modRunner i g).dbgOut = s.dbgOut ∧ (s.modRunner i g).dbgPend = s.dbgPend ∧
    (s.modRunner i g).unseen = s.unseen := by
  and_intros <;> rfl

@[simp] theorem State.setCmd_cmds (s : State) (i : Nat) (x : Cmd) :
    (s.setCmd i x).cmds = tset s.cmds i x := rfl

@[simp] theorem State.setCmd_keeps (s : State) (i : Nat) (x : Cmd) :
    (s.setCmd i x).tick = s.tick ∧ (s.setCmd i x).steps = s.steps ∧ (s.setCmd i x).free = s.free ∧
    (s.setCmd i x).ids = s.ids ∧ (s.setCmd i x).inbox = s.inbox ∧ (s.setCmd i x).cur = s.cur ∧
    (s.setCmd i x).boot = s.boot ∧ (s.setCmd i x).nvImages = s.nvImages ∧ (s.setCmd i x).nvActive = s.nvActive ∧
    (s.setCmd i x).running = s.running ∧ (s.setCmd i x).nvConfig = s.nvConfig ∧ (s.setCmd i x).logbrk = s.logbrk ∧
    (s.setCmd i x).contained = s.contained ∧ (s.setCmd i x).memsz = s.memsz ∧ (s.setCmd i x).mem = s.mem ∧
    (s.setCmd i x).lineRel = s.lineRel ∧ (s.setCmd i x).poisonLines = s.poisonLines ∧
    (s.setCmd i x).poisonFrames = s.poisonFrames ∧ (s.setCmd i x).retired = s.retired ∧
    (s.setCmd i x).poolUsed = s.poolUsed ∧ (s.setCmd i x).poolRemap = s.poolRemap ∧
    (s.setCmd i x).correctable = s.correctable ∧ (s.setCmd i x).withdrawn = s.withdrawn ∧
    (s.setCmd i x).slices = s.slices ∧ (s.setCmd i x).self = s.self ∧ (s.setCmd i x).fabric = s.fabric ∧
    (s.setCmd i x).apertures = s.apertures ∧ (s.setCmd i x).streams = s.streams ∧ (s.setCmd i x).sent = s.sent ∧
    (s.setCmd i x).incoming = s.incoming ∧ (s.setCmd i x).replies = s.replies ∧ (s.setCmd i x).relays = s.relays ∧
    (s.setCmd i x).laneUp = s.laneUp ∧ (s.setCmd i x).hostOut = s.hostOut ∧ (s.setCmd i x).power = s.power ∧
    (s.setCmd i x).errs = s.errs ∧ (s.setCmd i x).faultQ = s.faultQ ∧ (s.setCmd i x).fns = s.fns ∧
    (s.setCmd i x).parts = s.parts ∧ (s.setCmd i x).ctxs = s.ctxs ∧ (s.setCmd i x).tlb = s.tlb ∧
    (s.setCmd i x).objs = s.objs ∧ (s.setCmd i x).queues = s.queues ∧ (s.setCmd i x).invals = s.invals ∧
    (s.setCmd i x).launches = s.launches ∧ (s.setCmd i x).lseq = s.lseq ∧ (s.setCmd i x).cores = s.cores ∧
    (s.setCmd i x).wgs = s.wgs ∧ (s.setCmd i x).slots = s.slots ∧ (s.setCmd i x).fibs = s.fibs ∧
    (s.setCmd i x).flights = s.flights ∧ (s.setCmd i x).podWait = s.podWait ∧ (s.setCmd i x).groups = s.groups ∧
    (s.setCmd i x).runners = s.runners ∧ (s.setCmd i x).checkpoints = s.checkpoints ∧ (s.setCmd i x).wear = s.wear ∧
    (s.setCmd i x).accrued = s.accrued ∧ (s.setCmd i x).swaps = s.swaps ∧ (s.setCmd i x).spared = s.spared ∧
    (s.setCmd i x).target = s.target ∧ (s.setCmd i x).elapsed = s.elapsed ∧ (s.setCmd i x).plim = s.plim ∧
    (s.setCmd i x).throttled = s.throttled ∧ (s.setCmd i x).powerOk = s.powerOk ∧ (s.setCmd i x).hot = s.hot ∧
    (s.setCmd i x).life = s.life ∧ (s.setCmd i x).boostSeq = s.boostSeq ∧ (s.setCmd i x).accrualAt = s.accrualAt ∧
    (s.setCmd i x).wearckAt = s.wearckAt ∧ (s.setCmd i x).nvLog = s.nvLog ∧ (s.setCmd i x).nvPending = s.nvPending ∧
    (s.setCmd i x).nvSeq = s.nvSeq ∧ (s.setCmd i x).enclaves = s.enclaves ∧ (s.setCmd i x).caps = s.caps ∧
    (s.setCmd i x).capids = s.capids ∧ (s.setCmd i x).ceframe = s.ceframe ∧ (s.setCmd i x).dbgOut = s.dbgOut ∧
    (s.setCmd i x).dbgPend = s.dbgPend ∧
    (s.setCmd i x).unseen = s.unseen := by
  and_intros <;> rfl

@[simp] theorem State.modCmd_cmds (s : State) (i : Nat) (g : Cmd → Cmd) :
    (s.modCmd i g).cmds = tmod s.cmds i g := rfl

@[simp] theorem State.modCmd_keeps (s : State) (i : Nat) (g : Cmd → Cmd) :
    (s.modCmd i g).tick = s.tick ∧ (s.modCmd i g).steps = s.steps ∧ (s.modCmd i g).free = s.free ∧
    (s.modCmd i g).ids = s.ids ∧ (s.modCmd i g).inbox = s.inbox ∧ (s.modCmd i g).cur = s.cur ∧
    (s.modCmd i g).boot = s.boot ∧ (s.modCmd i g).nvImages = s.nvImages ∧ (s.modCmd i g).nvActive = s.nvActive ∧
    (s.modCmd i g).running = s.running ∧ (s.modCmd i g).nvConfig = s.nvConfig ∧ (s.modCmd i g).logbrk = s.logbrk ∧
    (s.modCmd i g).contained = s.contained ∧ (s.modCmd i g).memsz = s.memsz ∧ (s.modCmd i g).mem = s.mem ∧
    (s.modCmd i g).lineRel = s.lineRel ∧ (s.modCmd i g).poisonLines = s.poisonLines ∧
    (s.modCmd i g).poisonFrames = s.poisonFrames ∧ (s.modCmd i g).retired = s.retired ∧
    (s.modCmd i g).poolUsed = s.poolUsed ∧ (s.modCmd i g).poolRemap = s.poolRemap ∧
    (s.modCmd i g).correctable = s.correctable ∧ (s.modCmd i g).withdrawn = s.withdrawn ∧
    (s.modCmd i g).slices = s.slices ∧ (s.modCmd i g).self = s.self ∧ (s.modCmd i g).fabric = s.fabric ∧
    (s.modCmd i g).apertures = s.apertures ∧ (s.modCmd i g).streams = s.streams ∧ (s.modCmd i g).sent = s.sent ∧
    (s.modCmd i g).incoming = s.incoming ∧ (s.modCmd i g).replies = s.replies ∧ (s.modCmd i g).relays = s.relays ∧
    (s.modCmd i g).laneUp = s.laneUp ∧ (s.modCmd i g).hostOut = s.hostOut ∧ (s.modCmd i g).power = s.power ∧
    (s.modCmd i g).errs = s.errs ∧ (s.modCmd i g).faultQ = s.faultQ ∧ (s.modCmd i g).fns = s.fns ∧
    (s.modCmd i g).parts = s.parts ∧ (s.modCmd i g).ctxs = s.ctxs ∧ (s.modCmd i g).tlb = s.tlb ∧
    (s.modCmd i g).objs = s.objs ∧ (s.modCmd i g).queues = s.queues ∧ (s.modCmd i g).invals = s.invals ∧
    (s.modCmd i g).launches = s.launches ∧ (s.modCmd i g).lseq = s.lseq ∧ (s.modCmd i g).cores = s.cores ∧
    (s.modCmd i g).wgs = s.wgs ∧ (s.modCmd i g).slots = s.slots ∧ (s.modCmd i g).fibs = s.fibs ∧
    (s.modCmd i g).flights = s.flights ∧ (s.modCmd i g).podWait = s.podWait ∧ (s.modCmd i g).groups = s.groups ∧
    (s.modCmd i g).runners = s.runners ∧ (s.modCmd i g).checkpoints = s.checkpoints ∧ (s.modCmd i g).wear = s.wear ∧
    (s.modCmd i g).accrued = s.accrued ∧ (s.modCmd i g).swaps = s.swaps ∧ (s.modCmd i g).spared = s.spared ∧
    (s.modCmd i g).target = s.target ∧ (s.modCmd i g).elapsed = s.elapsed ∧ (s.modCmd i g).plim = s.plim ∧
    (s.modCmd i g).throttled = s.throttled ∧ (s.modCmd i g).powerOk = s.powerOk ∧ (s.modCmd i g).hot = s.hot ∧
    (s.modCmd i g).life = s.life ∧ (s.modCmd i g).boostSeq = s.boostSeq ∧ (s.modCmd i g).accrualAt = s.accrualAt ∧
    (s.modCmd i g).wearckAt = s.wearckAt ∧ (s.modCmd i g).nvLog = s.nvLog ∧ (s.modCmd i g).nvPending = s.nvPending ∧
    (s.modCmd i g).nvSeq = s.nvSeq ∧ (s.modCmd i g).enclaves = s.enclaves ∧ (s.modCmd i g).caps = s.caps ∧
    (s.modCmd i g).capids = s.capids ∧ (s.modCmd i g).ceframe = s.ceframe ∧ (s.modCmd i g).dbgOut = s.dbgOut ∧
    (s.modCmd i g).dbgPend = s.dbgPend ∧
    (s.modCmd i g).unseen = s.unseen := by
  and_intros <;> rfl

@[simp] theorem State.modLaunch_launches (s : State) (i : Nat) (g : Launch → Launch) :
    (s.modLaunch i g).launches = tmod s.launches i g := rfl

@[simp] theorem State.modLaunch_keeps (s : State) (i : Nat) (g : Launch → Launch) :
    (s.modLaunch i g).tick = s.tick ∧ (s.modLaunch i g).steps = s.steps ∧ (s.modLaunch i g).free = s.free ∧
    (s.modLaunch i g).ids = s.ids ∧ (s.modLaunch i g).inbox = s.inbox ∧ (s.modLaunch i g).cur = s.cur ∧
    (s.modLaunch i g).boot = s.boot ∧ (s.modLaunch i g).nvImages = s.nvImages ∧
    (s.modLaunch i g).nvActive = s.nvActive ∧ (s.modLaunch i g).running = s.running ∧
    (s.modLaunch i g).nvConfig = s.nvConfig ∧ (s.modLaunch i g).logbrk = s.logbrk ∧
    (s.modLaunch i g).contained = s.contained ∧ (s.modLaunch i g).memsz = s.memsz ∧ (s.modLaunch i g).mem = s.mem ∧
    (s.modLaunch i g).lineRel = s.lineRel ∧ (s.modLaunch i g).poisonLines = s.poisonLines ∧
    (s.modLaunch i g).poisonFrames = s.poisonFrames ∧ (s.modLaunch i g).retired = s.retired ∧
    (s.modLaunch i g).poolUsed = s.poolUsed ∧ (s.modLaunch i g).poolRemap = s.poolRemap ∧
    (s.modLaunch i g).correctable = s.correctable ∧ (s.modLaunch i g).withdrawn = s.withdrawn ∧
    (s.modLaunch i g).slices = s.slices ∧ (s.modLaunch i g).self = s.self ∧ (s.modLaunch i g).fabric = s.fabric ∧
    (s.modLaunch i g).apertures = s.apertures ∧ (s.modLaunch i g).streams = s.streams ∧
    (s.modLaunch i g).sent = s.sent ∧ (s.modLaunch i g).incoming = s.incoming ∧
    (s.modLaunch i g).replies = s.replies ∧ (s.modLaunch i g).relays = s.relays ∧
    (s.modLaunch i g).laneUp = s.laneUp ∧ (s.modLaunch i g).hostOut = s.hostOut ∧
    (s.modLaunch i g).power = s.power ∧ (s.modLaunch i g).errs = s.errs ∧ (s.modLaunch i g).faultQ = s.faultQ ∧
    (s.modLaunch i g).fns = s.fns ∧ (s.modLaunch i g).parts = s.parts ∧ (s.modLaunch i g).ctxs = s.ctxs ∧
    (s.modLaunch i g).tlb = s.tlb ∧ (s.modLaunch i g).objs = s.objs ∧ (s.modLaunch i g).queues = s.queues ∧
    (s.modLaunch i g).invals = s.invals ∧ (s.modLaunch i g).lseq = s.lseq ∧ (s.modLaunch i g).cores = s.cores ∧
    (s.modLaunch i g).wgs = s.wgs ∧ (s.modLaunch i g).slots = s.slots ∧ (s.modLaunch i g).fibs = s.fibs ∧
    (s.modLaunch i g).flights = s.flights ∧ (s.modLaunch i g).podWait = s.podWait ∧
    (s.modLaunch i g).groups = s.groups ∧ (s.modLaunch i g).cmds = s.cmds ∧ (s.modLaunch i g).runners = s.runners ∧
    (s.modLaunch i g).checkpoints = s.checkpoints ∧ (s.modLaunch i g).wear = s.wear ∧
    (s.modLaunch i g).accrued = s.accrued ∧ (s.modLaunch i g).swaps = s.swaps ∧
    (s.modLaunch i g).spared = s.spared ∧ (s.modLaunch i g).target = s.target ∧
    (s.modLaunch i g).elapsed = s.elapsed ∧ (s.modLaunch i g).plim = s.plim ∧
    (s.modLaunch i g).throttled = s.throttled ∧ (s.modLaunch i g).powerOk = s.powerOk ∧
    (s.modLaunch i g).hot = s.hot ∧ (s.modLaunch i g).life = s.life ∧ (s.modLaunch i g).boostSeq = s.boostSeq ∧
    (s.modLaunch i g).accrualAt = s.accrualAt ∧ (s.modLaunch i g).wearckAt = s.wearckAt ∧
    (s.modLaunch i g).nvLog = s.nvLog ∧ (s.modLaunch i g).nvPending = s.nvPending ∧
    (s.modLaunch i g).nvSeq = s.nvSeq ∧ (s.modLaunch i g).enclaves = s.enclaves ∧ (s.modLaunch i g).caps = s.caps ∧
    (s.modLaunch i g).capids = s.capids ∧ (s.modLaunch i g).ceframe = s.ceframe ∧
    (s.modLaunch i g).dbgOut = s.dbgOut ∧ (s.modLaunch i g).dbgPend = s.dbgPend ∧
    (s.modLaunch i g).unseen = s.unseen := by
  and_intros <;> rfl

@[simp] theorem State.setQueue_queues (s : State) (q : QueueRef) (x : Queue) :
    (s.setQueue q x).queues = kset s.queues q x := rfl

@[simp] theorem State.setQueue_keeps (s : State) (q : QueueRef) (x : Queue) :
    (s.setQueue q x).tick = s.tick ∧ (s.setQueue q x).steps = s.steps ∧ (s.setQueue q x).free = s.free ∧
    (s.setQueue q x).ids = s.ids ∧ (s.setQueue q x).inbox = s.inbox ∧ (s.setQueue q x).cur = s.cur ∧
    (s.setQueue q x).boot = s.boot ∧ (s.setQueue q x).nvImages = s.nvImages ∧
    (s.setQueue q x).nvActive = s.nvActive ∧ (s.setQueue q x).running = s.running ∧
    (s.setQueue q x).nvConfig = s.nvConfig ∧ (s.setQueue q x).logbrk = s.logbrk ∧
    (s.setQueue q x).contained = s.contained ∧ (s.setQueue q x).memsz = s.memsz ∧ (s.setQueue q x).mem = s.mem ∧
    (s.setQueue q x).lineRel = s.lineRel ∧ (s.setQueue q x).poisonLines = s.poisonLines ∧
    (s.setQueue q x).poisonFrames = s.poisonFrames ∧ (s.setQueue q x).retired = s.retired ∧
    (s.setQueue q x).poolUsed = s.poolUsed ∧ (s.setQueue q x).poolRemap = s.poolRemap ∧
    (s.setQueue q x).correctable = s.correctable ∧ (s.setQueue q x).withdrawn = s.withdrawn ∧
    (s.setQueue q x).slices = s.slices ∧ (s.setQueue q x).self = s.self ∧ (s.setQueue q x).fabric = s.fabric ∧
    (s.setQueue q x).apertures = s.apertures ∧ (s.setQueue q x).streams = s.streams ∧
    (s.setQueue q x).sent = s.sent ∧ (s.setQueue q x).incoming = s.incoming ∧ (s.setQueue q x).replies = s.replies ∧
    (s.setQueue q x).relays = s.relays ∧ (s.setQueue q x).laneUp = s.laneUp ∧ (s.setQueue q x).hostOut = s.hostOut ∧
    (s.setQueue q x).power = s.power ∧ (s.setQueue q x).errs = s.errs ∧ (s.setQueue q x).faultQ = s.faultQ ∧
    (s.setQueue q x).fns = s.fns ∧ (s.setQueue q x).parts = s.parts ∧ (s.setQueue q x).ctxs = s.ctxs ∧
    (s.setQueue q x).tlb = s.tlb ∧ (s.setQueue q x).objs = s.objs ∧ (s.setQueue q x).invals = s.invals ∧
    (s.setQueue q x).launches = s.launches ∧ (s.setQueue q x).lseq = s.lseq ∧ (s.setQueue q x).cores = s.cores ∧
    (s.setQueue q x).wgs = s.wgs ∧ (s.setQueue q x).slots = s.slots ∧ (s.setQueue q x).fibs = s.fibs ∧
    (s.setQueue q x).flights = s.flights ∧ (s.setQueue q x).podWait = s.podWait ∧
    (s.setQueue q x).groups = s.groups ∧ (s.setQueue q x).cmds = s.cmds ∧ (s.setQueue q x).runners = s.runners ∧
    (s.setQueue q x).checkpoints = s.checkpoints ∧ (s.setQueue q x).wear = s.wear ∧
    (s.setQueue q x).accrued = s.accrued ∧ (s.setQueue q x).swaps = s.swaps ∧ (s.setQueue q x).spared = s.spared ∧
    (s.setQueue q x).target = s.target ∧ (s.setQueue q x).elapsed = s.elapsed ∧ (s.setQueue q x).plim = s.plim ∧
    (s.setQueue q x).throttled = s.throttled ∧ (s.setQueue q x).powerOk = s.powerOk ∧ (s.setQueue q x).hot = s.hot ∧
    (s.setQueue q x).life = s.life ∧ (s.setQueue q x).boostSeq = s.boostSeq ∧
    (s.setQueue q x).accrualAt = s.accrualAt ∧ (s.setQueue q x).wearckAt = s.wearckAt ∧
    (s.setQueue q x).nvLog = s.nvLog ∧ (s.setQueue q x).nvPending = s.nvPending ∧ (s.setQueue q x).nvSeq = s.nvSeq ∧
    (s.setQueue q x).enclaves = s.enclaves ∧ (s.setQueue q x).caps = s.caps ∧ (s.setQueue q x).capids = s.capids ∧
    (s.setQueue q x).ceframe = s.ceframe ∧ (s.setQueue q x).dbgOut = s.dbgOut ∧
    (s.setQueue q x).dbgPend = s.dbgPend ∧
    (s.setQueue q x).unseen = s.unseen := by
  and_intros <;> rfl

@[simp] theorem State.setCtx_ctxs (s : State) (c : CtxKey) (x : Ctx) :
    (s.setCtx c x).ctxs = kset s.ctxs c x := rfl

@[simp] theorem State.setCtx_keeps (s : State) (c : CtxKey) (x : Ctx) :
    (s.setCtx c x).tick = s.tick ∧ (s.setCtx c x).steps = s.steps ∧ (s.setCtx c x).free = s.free ∧
    (s.setCtx c x).ids = s.ids ∧ (s.setCtx c x).inbox = s.inbox ∧ (s.setCtx c x).cur = s.cur ∧
    (s.setCtx c x).boot = s.boot ∧ (s.setCtx c x).nvImages = s.nvImages ∧ (s.setCtx c x).nvActive = s.nvActive ∧
    (s.setCtx c x).running = s.running ∧ (s.setCtx c x).nvConfig = s.nvConfig ∧ (s.setCtx c x).logbrk = s.logbrk ∧
    (s.setCtx c x).contained = s.contained ∧ (s.setCtx c x).memsz = s.memsz ∧ (s.setCtx c x).mem = s.mem ∧
    (s.setCtx c x).lineRel = s.lineRel ∧ (s.setCtx c x).poisonLines = s.poisonLines ∧
    (s.setCtx c x).poisonFrames = s.poisonFrames ∧ (s.setCtx c x).retired = s.retired ∧
    (s.setCtx c x).poolUsed = s.poolUsed ∧ (s.setCtx c x).poolRemap = s.poolRemap ∧
    (s.setCtx c x).correctable = s.correctable ∧ (s.setCtx c x).withdrawn = s.withdrawn ∧
    (s.setCtx c x).slices = s.slices ∧ (s.setCtx c x).self = s.self ∧ (s.setCtx c x).fabric = s.fabric ∧
    (s.setCtx c x).apertures = s.apertures ∧ (s.setCtx c x).streams = s.streams ∧ (s.setCtx c x).sent = s.sent ∧
    (s.setCtx c x).incoming = s.incoming ∧ (s.setCtx c x).replies = s.replies ∧ (s.setCtx c x).relays = s.relays ∧
    (s.setCtx c x).laneUp = s.laneUp ∧ (s.setCtx c x).hostOut = s.hostOut ∧ (s.setCtx c x).power = s.power ∧
    (s.setCtx c x).errs = s.errs ∧ (s.setCtx c x).faultQ = s.faultQ ∧ (s.setCtx c x).fns = s.fns ∧
    (s.setCtx c x).parts = s.parts ∧ (s.setCtx c x).tlb = s.tlb ∧ (s.setCtx c x).objs = s.objs ∧
    (s.setCtx c x).queues = s.queues ∧ (s.setCtx c x).invals = s.invals ∧ (s.setCtx c x).launches = s.launches ∧
    (s.setCtx c x).lseq = s.lseq ∧ (s.setCtx c x).cores = s.cores ∧ (s.setCtx c x).wgs = s.wgs ∧
    (s.setCtx c x).slots = s.slots ∧ (s.setCtx c x).fibs = s.fibs ∧ (s.setCtx c x).flights = s.flights ∧
    (s.setCtx c x).podWait = s.podWait ∧ (s.setCtx c x).groups = s.groups ∧ (s.setCtx c x).cmds = s.cmds ∧
    (s.setCtx c x).runners = s.runners ∧ (s.setCtx c x).checkpoints = s.checkpoints ∧ (s.setCtx c x).wear = s.wear ∧
    (s.setCtx c x).accrued = s.accrued ∧ (s.setCtx c x).swaps = s.swaps ∧ (s.setCtx c x).spared = s.spared ∧
    (s.setCtx c x).target = s.target ∧ (s.setCtx c x).elapsed = s.elapsed ∧ (s.setCtx c x).plim = s.plim ∧
    (s.setCtx c x).throttled = s.throttled ∧ (s.setCtx c x).powerOk = s.powerOk ∧ (s.setCtx c x).hot = s.hot ∧
    (s.setCtx c x).life = s.life ∧ (s.setCtx c x).boostSeq = s.boostSeq ∧ (s.setCtx c x).accrualAt = s.accrualAt ∧
    (s.setCtx c x).wearckAt = s.wearckAt ∧ (s.setCtx c x).nvLog = s.nvLog ∧ (s.setCtx c x).nvPending = s.nvPending ∧
    (s.setCtx c x).nvSeq = s.nvSeq ∧ (s.setCtx c x).enclaves = s.enclaves ∧ (s.setCtx c x).caps = s.caps ∧
    (s.setCtx c x).capids = s.capids ∧ (s.setCtx c x).ceframe = s.ceframe ∧ (s.setCtx c x).dbgOut = s.dbgOut ∧
    (s.setCtx c x).dbgPend = s.dbgPend ∧
    (s.setCtx c x).unseen = s.unseen := by
  and_intros <;> rfl

@[simp] theorem State.modCtx_ctxs (s : State) (c : CtxKey) (g : Ctx → Ctx) :
    (s.modCtx c g).ctxs = kset s.ctxs c (g (ctxOf s c)) := rfl

@[simp] theorem State.modCtx_keeps (s : State) (c : CtxKey) (g : Ctx → Ctx) :
    (s.modCtx c g).tick = s.tick ∧ (s.modCtx c g).steps = s.steps ∧ (s.modCtx c g).free = s.free ∧
    (s.modCtx c g).ids = s.ids ∧ (s.modCtx c g).inbox = s.inbox ∧ (s.modCtx c g).cur = s.cur ∧
    (s.modCtx c g).boot = s.boot ∧ (s.modCtx c g).nvImages = s.nvImages ∧ (s.modCtx c g).nvActive = s.nvActive ∧
    (s.modCtx c g).running = s.running ∧ (s.modCtx c g).nvConfig = s.nvConfig ∧ (s.modCtx c g).logbrk = s.logbrk ∧
    (s.modCtx c g).contained = s.contained ∧ (s.modCtx c g).memsz = s.memsz ∧ (s.modCtx c g).mem = s.mem ∧
    (s.modCtx c g).lineRel = s.lineRel ∧ (s.modCtx c g).poisonLines = s.poisonLines ∧
    (s.modCtx c g).poisonFrames = s.poisonFrames ∧ (s.modCtx c g).retired = s.retired ∧
    (s.modCtx c g).poolUsed = s.poolUsed ∧ (s.modCtx c g).poolRemap = s.poolRemap ∧
    (s.modCtx c g).correctable = s.correctable ∧ (s.modCtx c g).withdrawn = s.withdrawn ∧
    (s.modCtx c g).slices = s.slices ∧ (s.modCtx c g).self = s.self ∧ (s.modCtx c g).fabric = s.fabric ∧
    (s.modCtx c g).apertures = s.apertures ∧ (s.modCtx c g).streams = s.streams ∧ (s.modCtx c g).sent = s.sent ∧
    (s.modCtx c g).incoming = s.incoming ∧ (s.modCtx c g).replies = s.replies ∧ (s.modCtx c g).relays = s.relays ∧
    (s.modCtx c g).laneUp = s.laneUp ∧ (s.modCtx c g).hostOut = s.hostOut ∧ (s.modCtx c g).power = s.power ∧
    (s.modCtx c g).errs = s.errs ∧ (s.modCtx c g).faultQ = s.faultQ ∧ (s.modCtx c g).fns = s.fns ∧
    (s.modCtx c g).parts = s.parts ∧ (s.modCtx c g).tlb = s.tlb ∧ (s.modCtx c g).objs = s.objs ∧
    (s.modCtx c g).queues = s.queues ∧ (s.modCtx c g).invals = s.invals ∧ (s.modCtx c g).launches = s.launches ∧
    (s.modCtx c g).lseq = s.lseq ∧ (s.modCtx c g).cores = s.cores ∧ (s.modCtx c g).wgs = s.wgs ∧
    (s.modCtx c g).slots = s.slots ∧ (s.modCtx c g).fibs = s.fibs ∧ (s.modCtx c g).flights = s.flights ∧
    (s.modCtx c g).podWait = s.podWait ∧ (s.modCtx c g).groups = s.groups ∧ (s.modCtx c g).cmds = s.cmds ∧
    (s.modCtx c g).runners = s.runners ∧ (s.modCtx c g).checkpoints = s.checkpoints ∧ (s.modCtx c g).wear = s.wear ∧
    (s.modCtx c g).accrued = s.accrued ∧ (s.modCtx c g).swaps = s.swaps ∧ (s.modCtx c g).spared = s.spared ∧
    (s.modCtx c g).target = s.target ∧ (s.modCtx c g).elapsed = s.elapsed ∧ (s.modCtx c g).plim = s.plim ∧
    (s.modCtx c g).throttled = s.throttled ∧ (s.modCtx c g).powerOk = s.powerOk ∧ (s.modCtx c g).hot = s.hot ∧
    (s.modCtx c g).life = s.life ∧ (s.modCtx c g).boostSeq = s.boostSeq ∧ (s.modCtx c g).accrualAt = s.accrualAt ∧
    (s.modCtx c g).wearckAt = s.wearckAt ∧ (s.modCtx c g).nvLog = s.nvLog ∧ (s.modCtx c g).nvPending = s.nvPending ∧
    (s.modCtx c g).nvSeq = s.nvSeq ∧ (s.modCtx c g).enclaves = s.enclaves ∧ (s.modCtx c g).caps = s.caps ∧
    (s.modCtx c g).capids = s.capids ∧ (s.modCtx c g).ceframe = s.ceframe ∧ (s.modCtx c g).dbgOut = s.dbgOut ∧
    (s.modCtx c g).dbgPend = s.dbgPend ∧
    (s.modCtx c g).unseen = s.unseen := by
  and_intros <;> rfl

@[simp] theorem State.refresh_cores (s : State) (i : Nat) :
    (s.refresh i).cores = tmod s.cores i (fun c => { c with snap := [] }) := rfl

@[simp] theorem State.refresh_keeps (s : State) (i : Nat) :
    (s.refresh i).tick = s.tick ∧ (s.refresh i).steps = s.steps ∧ (s.refresh i).free = s.free ∧
    (s.refresh i).ids = s.ids ∧ (s.refresh i).inbox = s.inbox ∧ (s.refresh i).cur = s.cur ∧
    (s.refresh i).boot = s.boot ∧ (s.refresh i).nvImages = s.nvImages ∧ (s.refresh i).nvActive = s.nvActive ∧
    (s.refresh i).running = s.running ∧ (s.refresh i).nvConfig = s.nvConfig ∧ (s.refresh i).logbrk = s.logbrk ∧
    (s.refresh i).contained = s.contained ∧ (s.refresh i).memsz = s.memsz ∧ (s.refresh i).mem = s.mem ∧
    (s.refresh i).lineRel = s.lineRel ∧ (s.refresh i).poisonLines = s.poisonLines ∧
    (s.refresh i).poisonFrames = s.poisonFrames ∧ (s.refresh i).retired = s.retired ∧
    (s.refresh i).poolUsed = s.poolUsed ∧ (s.refresh i).poolRemap = s.poolRemap ∧
    (s.refresh i).correctable = s.correctable ∧ (s.refresh i).withdrawn = s.withdrawn ∧
    (s.refresh i).slices = s.slices ∧ (s.refresh i).self = s.self ∧ (s.refresh i).fabric = s.fabric ∧
    (s.refresh i).apertures = s.apertures ∧ (s.refresh i).streams = s.streams ∧ (s.refresh i).sent = s.sent ∧
    (s.refresh i).incoming = s.incoming ∧ (s.refresh i).replies = s.replies ∧ (s.refresh i).relays = s.relays ∧
    (s.refresh i).laneUp = s.laneUp ∧ (s.refresh i).hostOut = s.hostOut ∧ (s.refresh i).power = s.power ∧
    (s.refresh i).errs = s.errs ∧ (s.refresh i).faultQ = s.faultQ ∧ (s.refresh i).fns = s.fns ∧
    (s.refresh i).parts = s.parts ∧ (s.refresh i).ctxs = s.ctxs ∧ (s.refresh i).tlb = s.tlb ∧
    (s.refresh i).objs = s.objs ∧ (s.refresh i).queues = s.queues ∧ (s.refresh i).invals = s.invals ∧
    (s.refresh i).launches = s.launches ∧ (s.refresh i).lseq = s.lseq ∧ (s.refresh i).wgs = s.wgs ∧
    (s.refresh i).slots = s.slots ∧ (s.refresh i).fibs = s.fibs ∧ (s.refresh i).flights = s.flights ∧
    (s.refresh i).podWait = s.podWait ∧ (s.refresh i).groups = s.groups ∧ (s.refresh i).cmds = s.cmds ∧
    (s.refresh i).runners = s.runners ∧ (s.refresh i).checkpoints = s.checkpoints ∧ (s.refresh i).wear = s.wear ∧
    (s.refresh i).accrued = s.accrued ∧ (s.refresh i).swaps = s.swaps ∧ (s.refresh i).spared = s.spared ∧
    (s.refresh i).target = s.target ∧ (s.refresh i).elapsed = s.elapsed ∧ (s.refresh i).plim = s.plim ∧
    (s.refresh i).throttled = s.throttled ∧ (s.refresh i).powerOk = s.powerOk ∧ (s.refresh i).hot = s.hot ∧
    (s.refresh i).life = s.life ∧ (s.refresh i).boostSeq = s.boostSeq ∧ (s.refresh i).accrualAt = s.accrualAt ∧
    (s.refresh i).wearckAt = s.wearckAt ∧ (s.refresh i).nvLog = s.nvLog ∧ (s.refresh i).nvPending = s.nvPending ∧
    (s.refresh i).nvSeq = s.nvSeq ∧ (s.refresh i).enclaves = s.enclaves ∧ (s.refresh i).caps = s.caps ∧
    (s.refresh i).capids = s.capids ∧ (s.refresh i).ceframe = s.ceframe ∧ (s.refresh i).dbgOut = s.dbgOut ∧
    (s.refresh i).dbgPend = s.dbgPend ∧
    (s.refresh i).unseen = s.unseen := by
  and_intros <;> rfl

@[simp] theorem State.clearRel_lineRel (s : State) (a : Nat) :
    (s.clearRel a).lineRel = tdel s.lineRel (lineBase a) := rfl

@[simp] theorem State.clearRel_keeps (s : State) (a : Nat) :
    (s.clearRel a).tick = s.tick ∧ (s.clearRel a).steps = s.steps ∧ (s.clearRel a).free = s.free ∧
    (s.clearRel a).ids = s.ids ∧ (s.clearRel a).inbox = s.inbox ∧ (s.clearRel a).cur = s.cur ∧
    (s.clearRel a).boot = s.boot ∧ (s.clearRel a).nvImages = s.nvImages ∧ (s.clearRel a).nvActive = s.nvActive ∧
    (s.clearRel a).running = s.running ∧ (s.clearRel a).nvConfig = s.nvConfig ∧ (s.clearRel a).logbrk = s.logbrk ∧
    (s.clearRel a).contained = s.contained ∧ (s.clearRel a).memsz = s.memsz ∧ (s.clearRel a).mem = s.mem ∧
    (s.clearRel a).poisonLines = s.poisonLines ∧ (s.clearRel a).poisonFrames = s.poisonFrames ∧
    (s.clearRel a).retired = s.retired ∧ (s.clearRel a).poolUsed = s.poolUsed ∧
    (s.clearRel a).poolRemap = s.poolRemap ∧ (s.clearRel a).correctable = s.correctable ∧
    (s.clearRel a).withdrawn = s.withdrawn ∧ (s.clearRel a).slices = s.slices ∧ (s.clearRel a).self = s.self ∧
    (s.clearRel a).fabric = s.fabric ∧ (s.clearRel a).apertures = s.apertures ∧ (s.clearRel a).streams = s.streams ∧
    (s.clearRel a).sent = s.sent ∧ (s.clearRel a).incoming = s.incoming ∧ (s.clearRel a).replies = s.replies ∧
    (s.clearRel a).relays = s.relays ∧ (s.clearRel a).laneUp = s.laneUp ∧ (s.clearRel a).hostOut = s.hostOut ∧
    (s.clearRel a).power = s.power ∧ (s.clearRel a).errs = s.errs ∧ (s.clearRel a).faultQ = s.faultQ ∧
    (s.clearRel a).fns = s.fns ∧ (s.clearRel a).parts = s.parts ∧ (s.clearRel a).ctxs = s.ctxs ∧
    (s.clearRel a).tlb = s.tlb ∧ (s.clearRel a).objs = s.objs ∧ (s.clearRel a).queues = s.queues ∧
    (s.clearRel a).invals = s.invals ∧ (s.clearRel a).launches = s.launches ∧ (s.clearRel a).lseq = s.lseq ∧
    (s.clearRel a).cores = s.cores ∧ (s.clearRel a).wgs = s.wgs ∧ (s.clearRel a).slots = s.slots ∧
    (s.clearRel a).fibs = s.fibs ∧ (s.clearRel a).flights = s.flights ∧ (s.clearRel a).podWait = s.podWait ∧
    (s.clearRel a).groups = s.groups ∧ (s.clearRel a).cmds = s.cmds ∧ (s.clearRel a).runners = s.runners ∧
    (s.clearRel a).checkpoints = s.checkpoints ∧ (s.clearRel a).wear = s.wear ∧ (s.clearRel a).accrued = s.accrued ∧
    (s.clearRel a).swaps = s.swaps ∧ (s.clearRel a).spared = s.spared ∧ (s.clearRel a).target = s.target ∧
    (s.clearRel a).elapsed = s.elapsed ∧ (s.clearRel a).plim = s.plim ∧ (s.clearRel a).throttled = s.throttled ∧
    (s.clearRel a).powerOk = s.powerOk ∧ (s.clearRel a).hot = s.hot ∧ (s.clearRel a).life = s.life ∧
    (s.clearRel a).boostSeq = s.boostSeq ∧ (s.clearRel a).accrualAt = s.accrualAt ∧
    (s.clearRel a).wearckAt = s.wearckAt ∧ (s.clearRel a).nvLog = s.nvLog ∧ (s.clearRel a).nvPending = s.nvPending ∧
    (s.clearRel a).nvSeq = s.nvSeq ∧ (s.clearRel a).enclaves = s.enclaves ∧ (s.clearRel a).caps = s.caps ∧
    (s.clearRel a).capids = s.capids ∧ (s.clearRel a).ceframe = s.ceframe ∧ (s.clearRel a).dbgOut = s.dbgOut ∧
    (s.clearRel a).dbgPend = s.dbgPend ∧
    (s.clearRel a).unseen = s.unseen := by
  and_intros <;> rfl

@[simp] theorem State.postFault_faultQ (s : State) (c : CtxKey) (r : FaultRec) :
    (s.postFault c r).faultQ = s.faultQ ++ [(c, r)] := rfl

@[simp] theorem State.postFault_keeps (s : State) (c : CtxKey) (r : FaultRec) :
    (s.postFault c r).tick = s.tick ∧ (s.postFault c r).steps = s.steps ∧ (s.postFault c r).free = s.free ∧
    (s.postFault c r).ids = s.ids ∧ (s.postFault c r).inbox = s.inbox ∧ (s.postFault c r).cur = s.cur ∧
    (s.postFault c r).boot = s.boot ∧ (s.postFault c r).nvImages = s.nvImages ∧
    (s.postFault c r).nvActive = s.nvActive ∧ (s.postFault c r).running = s.running ∧
    (s.postFault c r).nvConfig = s.nvConfig ∧ (s.postFault c r).logbrk = s.logbrk ∧
    (s.postFault c r).contained = s.contained ∧ (s.postFault c r).memsz = s.memsz ∧ (s.postFault c r).mem = s.mem ∧
    (s.postFault c r).lineRel = s.lineRel ∧ (s.postFault c r).poisonLines = s.poisonLines ∧
    (s.postFault c r).poisonFrames = s.poisonFrames ∧ (s.postFault c r).retired = s.retired ∧
    (s.postFault c r).poolUsed = s.poolUsed ∧ (s.postFault c r).poolRemap = s.poolRemap ∧
    (s.postFault c r).correctable = s.correctable ∧ (s.postFault c r).withdrawn = s.withdrawn ∧
    (s.postFault c r).slices = s.slices ∧ (s.postFault c r).self = s.self ∧ (s.postFault c r).fabric = s.fabric ∧
    (s.postFault c r).apertures = s.apertures ∧ (s.postFault c r).streams = s.streams ∧
    (s.postFault c r).sent = s.sent ∧ (s.postFault c r).incoming = s.incoming ∧
    (s.postFault c r).replies = s.replies ∧ (s.postFault c r).relays = s.relays ∧
    (s.postFault c r).laneUp = s.laneUp ∧ (s.postFault c r).hostOut = s.hostOut ∧
    (s.postFault c r).power = s.power ∧ (s.postFault c r).errs = s.errs ∧ (s.postFault c r).fns = s.fns ∧
    (s.postFault c r).parts = s.parts ∧ (s.postFault c r).ctxs = s.ctxs ∧ (s.postFault c r).tlb = s.tlb ∧
    (s.postFault c r).objs = s.objs ∧ (s.postFault c r).queues = s.queues ∧ (s.postFault c r).invals = s.invals ∧
    (s.postFault c r).launches = s.launches ∧ (s.postFault c r).lseq = s.lseq ∧ (s.postFault c r).cores = s.cores ∧
    (s.postFault c r).wgs = s.wgs ∧ (s.postFault c r).slots = s.slots ∧ (s.postFault c r).fibs = s.fibs ∧
    (s.postFault c r).flights = s.flights ∧ (s.postFault c r).podWait = s.podWait ∧
    (s.postFault c r).groups = s.groups ∧ (s.postFault c r).cmds = s.cmds ∧ (s.postFault c r).runners = s.runners ∧
    (s.postFault c r).checkpoints = s.checkpoints ∧ (s.postFault c r).wear = s.wear ∧
    (s.postFault c r).accrued = s.accrued ∧ (s.postFault c r).swaps = s.swaps ∧
    (s.postFault c r).spared = s.spared ∧ (s.postFault c r).target = s.target ∧
    (s.postFault c r).elapsed = s.elapsed ∧ (s.postFault c r).plim = s.plim ∧
    (s.postFault c r).throttled = s.throttled ∧ (s.postFault c r).powerOk = s.powerOk ∧
    (s.postFault c r).hot = s.hot ∧ (s.postFault c r).life = s.life ∧ (s.postFault c r).boostSeq = s.boostSeq ∧
    (s.postFault c r).accrualAt = s.accrualAt ∧ (s.postFault c r).wearckAt = s.wearckAt ∧
    (s.postFault c r).nvLog = s.nvLog ∧ (s.postFault c r).nvPending = s.nvPending ∧
    (s.postFault c r).nvSeq = s.nvSeq ∧ (s.postFault c r).enclaves = s.enclaves ∧ (s.postFault c r).caps = s.caps ∧
    (s.postFault c r).capids = s.capids ∧ (s.postFault c r).ceframe = s.ceframe ∧
    (s.postFault c r).dbgOut = s.dbgOut ∧ (s.postFault c r).dbgPend = s.dbgPend ∧
    (s.postFault c r).unseen = s.unseen := by
  and_intros <;> rfl

@[simp] theorem State.setAer_fns (s : State) (fn n : Nat) :
    (s.setAer fn n).fns =
      match fnRec s fn with
      | some f => tset s.fns fn { f with aer := f.aer ||| aerBit n }
      | none => s.fns := by
  simp only [State.setAer, State.modFn]; cases fnRec s fn <;> rfl

@[simp] theorem State.setAer_keeps (s : State) (fn n : Nat) :
    (s.setAer fn n).tick = s.tick ∧ (s.setAer fn n).steps = s.steps ∧ (s.setAer fn n).free = s.free ∧
    (s.setAer fn n).ids = s.ids ∧ (s.setAer fn n).inbox = s.inbox ∧ (s.setAer fn n).cur = s.cur ∧
    (s.setAer fn n).boot = s.boot ∧ (s.setAer fn n).nvImages = s.nvImages ∧ (s.setAer fn n).nvActive = s.nvActive ∧
    (s.setAer fn n).running = s.running ∧ (s.setAer fn n).nvConfig = s.nvConfig ∧
    (s.setAer fn n).logbrk = s.logbrk ∧ (s.setAer fn n).contained = s.contained ∧ (s.setAer fn n).memsz = s.memsz ∧
    (s.setAer fn n).mem = s.mem ∧ (s.setAer fn n).lineRel = s.lineRel ∧
    (s.setAer fn n).poisonLines = s.poisonLines ∧ (s.setAer fn n).poisonFrames = s.poisonFrames ∧
    (s.setAer fn n).retired = s.retired ∧ (s.setAer fn n).poolUsed = s.poolUsed ∧
    (s.setAer fn n).poolRemap = s.poolRemap ∧ (s.setAer fn n).correctable = s.correctable ∧
    (s.setAer fn n).withdrawn = s.withdrawn ∧ (s.setAer fn n).slices = s.slices ∧ (s.setAer fn n).self = s.self ∧
    (s.setAer fn n).fabric = s.fabric ∧ (s.setAer fn n).apertures = s.apertures ∧
    (s.setAer fn n).streams = s.streams ∧ (s.setAer fn n).sent = s.sent ∧ (s.setAer fn n).incoming = s.incoming ∧
    (s.setAer fn n).replies = s.replies ∧ (s.setAer fn n).relays = s.relays ∧ (s.setAer fn n).laneUp = s.laneUp ∧
    (s.setAer fn n).hostOut = s.hostOut ∧ (s.setAer fn n).power = s.power ∧ (s.setAer fn n).errs = s.errs ∧
    (s.setAer fn n).faultQ = s.faultQ ∧ (s.setAer fn n).parts = s.parts ∧ (s.setAer fn n).ctxs = s.ctxs ∧
    (s.setAer fn n).tlb = s.tlb ∧ (s.setAer fn n).objs = s.objs ∧ (s.setAer fn n).queues = s.queues ∧
    (s.setAer fn n).invals = s.invals ∧ (s.setAer fn n).launches = s.launches ∧ (s.setAer fn n).lseq = s.lseq ∧
    (s.setAer fn n).cores = s.cores ∧ (s.setAer fn n).wgs = s.wgs ∧ (s.setAer fn n).slots = s.slots ∧
    (s.setAer fn n).fibs = s.fibs ∧ (s.setAer fn n).flights = s.flights ∧ (s.setAer fn n).podWait = s.podWait ∧
    (s.setAer fn n).groups = s.groups ∧ (s.setAer fn n).cmds = s.cmds ∧ (s.setAer fn n).runners = s.runners ∧
    (s.setAer fn n).checkpoints = s.checkpoints ∧ (s.setAer fn n).wear = s.wear ∧
    (s.setAer fn n).accrued = s.accrued ∧ (s.setAer fn n).swaps = s.swaps ∧ (s.setAer fn n).spared = s.spared ∧
    (s.setAer fn n).target = s.target ∧ (s.setAer fn n).elapsed = s.elapsed ∧ (s.setAer fn n).plim = s.plim ∧
    (s.setAer fn n).throttled = s.throttled ∧ (s.setAer fn n).powerOk = s.powerOk ∧ (s.setAer fn n).hot = s.hot ∧
    (s.setAer fn n).life = s.life ∧ (s.setAer fn n).boostSeq = s.boostSeq ∧
    (s.setAer fn n).accrualAt = s.accrualAt ∧ (s.setAer fn n).wearckAt = s.wearckAt ∧
    (s.setAer fn n).nvLog = s.nvLog ∧ (s.setAer fn n).nvPending = s.nvPending ∧ (s.setAer fn n).nvSeq = s.nvSeq ∧
    (s.setAer fn n).enclaves = s.enclaves ∧ (s.setAer fn n).caps = s.caps ∧ (s.setAer fn n).capids = s.capids ∧
    (s.setAer fn n).ceframe = s.ceframe ∧ (s.setAer fn n).dbgOut = s.dbgOut ∧ (s.setAer fn n).dbgPend = s.dbgPend ∧
    (s.setAer fn n).unseen = s.unseen := by
  simp only [State.setAer, State.modFn]; split <;> (and_intros <;> rfl)

@[simp] theorem State.nvRecord_nvPending (s : State) (ty : Nat) (p : List Byte) :
    (s.nvRecord ty p).nvPending = s.nvPending ++ [(ty, p)] := rfl

@[simp] theorem State.nvRecord_keeps (s : State) (ty : Nat) (p : List Byte) :
    (s.nvRecord ty p).tick = s.tick ∧ (s.nvRecord ty p).steps = s.steps ∧ (s.nvRecord ty p).free = s.free ∧
    (s.nvRecord ty p).ids = s.ids ∧ (s.nvRecord ty p).inbox = s.inbox ∧ (s.nvRecord ty p).cur = s.cur ∧
    (s.nvRecord ty p).boot = s.boot ∧ (s.nvRecord ty p).nvImages = s.nvImages ∧
    (s.nvRecord ty p).nvActive = s.nvActive ∧ (s.nvRecord ty p).running = s.running ∧
    (s.nvRecord ty p).nvConfig = s.nvConfig ∧ (s.nvRecord ty p).logbrk = s.logbrk ∧
    (s.nvRecord ty p).contained = s.contained ∧ (s.nvRecord ty p).memsz = s.memsz ∧ (s.nvRecord ty p).mem = s.mem ∧
    (s.nvRecord ty p).lineRel = s.lineRel ∧ (s.nvRecord ty p).poisonLines = s.poisonLines ∧
    (s.nvRecord ty p).poisonFrames = s.poisonFrames ∧ (s.nvRecord ty p).retired = s.retired ∧
    (s.nvRecord ty p).poolUsed = s.poolUsed ∧ (s.nvRecord ty p).poolRemap = s.poolRemap ∧
    (s.nvRecord ty p).correctable = s.correctable ∧ (s.nvRecord ty p).withdrawn = s.withdrawn ∧
    (s.nvRecord ty p).slices = s.slices ∧ (s.nvRecord ty p).self = s.self ∧ (s.nvRecord ty p).fabric = s.fabric ∧
    (s.nvRecord ty p).apertures = s.apertures ∧ (s.nvRecord ty p).streams = s.streams ∧
    (s.nvRecord ty p).sent = s.sent ∧ (s.nvRecord ty p).incoming = s.incoming ∧
    (s.nvRecord ty p).replies = s.replies ∧ (s.nvRecord ty p).relays = s.relays ∧
    (s.nvRecord ty p).laneUp = s.laneUp ∧ (s.nvRecord ty p).hostOut = s.hostOut ∧
    (s.nvRecord ty p).power = s.power ∧ (s.nvRecord ty p).errs = s.errs ∧ (s.nvRecord ty p).faultQ = s.faultQ ∧
    (s.nvRecord ty p).fns = s.fns ∧ (s.nvRecord ty p).parts = s.parts ∧ (s.nvRecord ty p).ctxs = s.ctxs ∧
    (s.nvRecord ty p).tlb = s.tlb ∧ (s.nvRecord ty p).objs = s.objs ∧ (s.nvRecord ty p).queues = s.queues ∧
    (s.nvRecord ty p).invals = s.invals ∧ (s.nvRecord ty p).launches = s.launches ∧
    (s.nvRecord ty p).lseq = s.lseq ∧ (s.nvRecord ty p).cores = s.cores ∧ (s.nvRecord ty p).wgs = s.wgs ∧
    (s.nvRecord ty p).slots = s.slots ∧ (s.nvRecord ty p).fibs = s.fibs ∧ (s.nvRecord ty p).flights = s.flights ∧
    (s.nvRecord ty p).podWait = s.podWait ∧ (s.nvRecord ty p).groups = s.groups ∧ (s.nvRecord ty p).cmds = s.cmds ∧
    (s.nvRecord ty p).runners = s.runners ∧ (s.nvRecord ty p).checkpoints = s.checkpoints ∧
    (s.nvRecord ty p).wear = s.wear ∧ (s.nvRecord ty p).accrued = s.accrued ∧ (s.nvRecord ty p).swaps = s.swaps ∧
    (s.nvRecord ty p).spared = s.spared ∧ (s.nvRecord ty p).target = s.target ∧
    (s.nvRecord ty p).elapsed = s.elapsed ∧ (s.nvRecord ty p).plim = s.plim ∧
    (s.nvRecord ty p).throttled = s.throttled ∧ (s.nvRecord ty p).powerOk = s.powerOk ∧
    (s.nvRecord ty p).hot = s.hot ∧ (s.nvRecord ty p).life = s.life ∧ (s.nvRecord ty p).boostSeq = s.boostSeq ∧
    (s.nvRecord ty p).accrualAt = s.accrualAt ∧ (s.nvRecord ty p).wearckAt = s.wearckAt ∧
    (s.nvRecord ty p).nvLog = s.nvLog ∧ (s.nvRecord ty p).nvSeq = s.nvSeq ∧
    (s.nvRecord ty p).enclaves = s.enclaves ∧ (s.nvRecord ty p).caps = s.caps ∧
    (s.nvRecord ty p).capids = s.capids ∧ (s.nvRecord ty p).ceframe = s.ceframe ∧
    (s.nvRecord ty p).dbgOut = s.dbgOut ∧ (s.nvRecord ty p).dbgPend = s.dbgPend ∧
    (s.nvRecord ty p).unseen = s.unseen := by
  and_intros <;> rfl

end Sys2Proof.Machine
end

