-- ==== Sys2Proof/Laws/Operands.lean ====
section
/-!
SUPPORT. Laws of operands and of vector instructions: what an issue does once its operands can be read, what a register
reads as after a write, and what a vector instruction leaves.
-/
namespace Sys2Proof.Machine

/-! ### Lane vectors and masks -/

theorem LaneVec.lane_of (f : Nat → Word) (l : Nat) (h : l < 32) : (LaneVec.of f).lane l = f l := by
  unfold LaneVec.lane LaneVec.of
  rw [List.getD_eq_getElem?_getD, Vector.getElem?_toList, Vector.getElem?_eq_getElem h]
  simp

theorem LaneVec.lane_splat (w : Word) (l : Nat) (h : l < 32) : (LaneVec.splat w).lane l = w :=
  LaneVec.lane_of _ l h

theorem blend_lane (m : LaneMask) (a b : LaneVec) (l : Nat) (h : l < 32) :
    (blend m a b).lane l = if m.getLsbD l then a.lane l else b.lane l :=
  LaneVec.lane_of _ l h

theorem mem_lanesOf (m : LaneMask) (l : Nat) : l ∈ lanesOf m ↔ l < 32 ∧ m.getLsbD l = true := by
  simp [lanesOf]

/-! ### Issue -/

/-- Once its operands can be read, an instruction goes on with its sources as they stand. -/
theorem fibreIssue_ready {s : State} {fid : Nat} {f : Fibre} {m : LaneMask} {y : Bool} {xs : List Src} {ds : List Nat}
    {shape : Bool} {k : State → FIn → Out} (hf : tget s.fibs fid = some f) (hr : Readable s fid f m xs ds)
    (hs : shape = true) :
    fibreIssue s fid m y xs ds shape k = k s { fid := fid, f := f, m := m, src := xs.map (srcVec s fid f m) } := by
  obtain ⟨h1, h2, h3, h4, h5, h6, h7, h8⟩ := hr
  unfold fibreIssue
  rw [hf]
  have e1 : xs.all (opdOk false (windowOf s f)) = true := List.all_eq_true.mpr h1
  have e2 : ds.all (fun d => decide (d < windowOf s f)) = true := by simpa using h2
  have e3 : xs.any (latchLost f) = false := by
    rw [List.any_eq_false]
    intro x hx
    unfold latchLost
    cases hxo : x.o with
    | const w => simp
    | sel n =>
      have a := h3 x hx
      have b := h4 x hx
      rw [hxo] at a b
      simp only [Bool.or_eq_true, Bool.and_eq_true, beq_iff_eq, Bool.not_eq_true']
      rintro (⟨e, v⟩ | ⟨e, v⟩)
      · have : n = 64#7 := BitVec.eq_of_toNat_eq e
        rw [a (by rw [this])] at v; cases v
      · have : n = 65#7 := BitVec.eq_of_toNat_eq e
        rw [b (by rw [this])] at v; cases v
  simp only [e1, e2, hs, e3, h5, h6, CheckRead.clean, Bool.not_true, Bool.or_self, Bool.false_eq_true, if_false,
    bne_self_eq_false]
  have e7 : (xs.any (fun x => x.o == .sel 78#7) && (redKey s f.wg).isSome) = false := by
    cases hq : xs.any (fun x => x.o == .sel 78#7) with
    | false => rfl
    | true =>
      obtain ⟨x, hx, hxo⟩ := List.any_eq_true.mp hq
      rw [h7 x hx (by simpa using hxo)]; rfl
  have e9 : s.scrubSources fid f m xs ⟨0#32, 0#32, []⟩ = s := rfl
  rw [h8, e7]
  simp only [e9, Bool.not_false, if_true]
  rfl

/-! ### Registers after a write -/

theorem regPlace_lt (f : Fibre) (i : Nat) (h : i < 64) : (regPlace f i < 64 ↔ i < f.regs.length) := by
  unfold regPlace; split <;> omega

theorem regPlace_inj (f : Fibre) {i j : Nat} (hi : i < 64) (hj : j < 64) (h : regPlace f i = regPlace f j) : i = j := by
  unfold regPlace at h; split at h <;> split at h <;> omega

/-- The register of a place, in a state. -/
def placeAt (s : State) (fid p : Nat) : Reg :=
  match tget s.fibs fid with
  | none => Reg.plain (LaneVec.splat 0#32)
  | some f => placeReg f (sharedOf s f) p

/-- The places that a fibre has. -/
def hasPlace (s : State) (f : Fibre) (p : Nat) : Prop :=
  if p < 64 then p < f.regs.length else p - 64 < (sharedOf s f).length

theorem regPlace_has (s : State) (f : Fibre) (i : Nat) (h : i < 64) (hw : i < windowOf s f) :
    hasPlace s f (regPlace f i) := by
  unfold hasPlace regPlace windowOf at *
  by_cases h1 : i < f.regs.length
  · simp [h1, h]
  · have h2 : ¬ 64 + (i - f.regs.length) < 64 := by omega
    simp only [h1, h2, if_false]
    omega

theorem writePlace_fibs_other (s : State) (fid p : Nat) (m : LaneMask) (v : LaneVec) (sh : Bool) (j : Nat) (h : j ≠ fid) :
    tget (s.writePlace fid p m v sh).fibs j = tget s.fibs j := by
  unfold State.writePlace
  split
  · simp [tget_tmod_other _ _ h]
  · split <;> simp

/-- A write of a place changes that register alone. -/
theorem writePlace_fibre {s : State} {fid : Nat} {f : Fibre} (p : Nat) (m : LaneMask) (v : LaneVec) (sh : Bool)
    (hf : tget s.fibs fid = some f) :
    ∃ rg, tget (s.writePlace fid p m v sh).fibs fid = some { f with regs := rg } ∧ rg.length = f.regs.length := by
  unfold State.writePlace
  split
  · refine ⟨f.regs.modify p (fun r => r.write m v sh), ?_, by simp⟩
    simp [tget_tmod, hf]
  · refine ⟨f.regs, ?_, rfl⟩
    simp [hf]

theorem writePlace_rest (s : State) (fid p : Nat) (m : LaneMask) (v : LaneVec) (sh : Bool) :
    s.writePlace fid p m v sh = { s with fibs := (s.writePlace fid p m v sh).fibs,
                                         slots := (s.writePlace fid p m v sh).slots } := by
  unfold State.writePlace
  split
  · rfl
  · split <;> rfl

theorem writePlace_slots {s : State} {fid : Nat} {f : Fibre} (p : Nat) (m : LaneMask) (v : LaneVec) (sh : Bool)
    (hf : tget s.fibs fid = some f) (j : Nat) :
    tget (s.writePlace fid p m v sh).slots j = (tget s.slots j).map (fun x =>
      if j = f.slot ∧ 64 ≤ p then { x with shared := x.shared.modify (p - 64) (fun r => r.write m v sh) } else x) := by
  unfold State.writePlace
  split
  · rename_i h
    have : ¬ (64 ≤ p) := by omega
    simp [this]
  · rename_i h
    have : 64 ≤ p := by omega
    simp only [hf, State.modSlot_slots, tget_tmod, this, and_true]
    split
    · rename_i e; subst e; simp
    · cases tget s.slots j <;> rfl

theorem writePlace_shared {s : State} {fid : Nat} {f : Fibre} (p : Nat) (m : LaneMask) (v : LaneVec) (sh : Bool)
    (hf : tget s.fibs fid = some f) (g : Fibre) (hg : g.slot = f.slot) :
    sharedOf (s.writePlace fid p m v sh) g =
      if 64 ≤ p then (sharedOf s f).modify (p - 64) (fun r => r.write m v sh) else sharedOf s f := by
  unfold sharedOf
  rw [hg, writePlace_slots p m v sh hf]
  cases tget s.slots f.slot with
  | none => by_cases h : 64 ≤ p <;> simp [h]
  | some x => by_cases h : 64 ≤ p <;> simp [h]

/-- The register of a place after a write. -/
theorem writePlace_at {s : State} {fid : Nat} {f : Fibre} (p q : Nat) (m : LaneMask) (v : LaneVec) (sh : Bool)
    (hf : tget s.fibs fid = some f) (hp : hasPlace s f p) :
    placeAt (s.writePlace fid p m v sh) fid q =
      if q = p then (placeAt s fid p).write m v sh else placeAt s fid q := by
  obtain ⟨rg, hg, hl⟩ := writePlace_fibre p m v sh hf
  unfold placeAt
  rw [hg, hf]
  simp only
  have hsh := writePlace_shared p m v sh hf { f with regs := rg } rfl
  unfold placeReg
  rw [hsh]
  by_cases h : p < 64
  · have hr : rg = f.regs.modify p (fun r => r.write m v sh) := by
      have : (s.writePlace fid p m v sh) = s.modFib fid (fun f =>
          { f with regs := f.regs.modify p (fun r => r.write m v sh) }) := by unfold State.writePlace; simp [h]
      rw [this] at hg
      simp [tget_tmod, hf] at hg
      exact hg.symm ▸ rfl
    have n : ¬ 64 ≤ p := by omega
    simp only [hr, n, if_false]
    simp only [hasPlace, h, if_true] at hp
    by_cases e : q = p
    · subst e
      simp [h, List.getElem?_eq_getElem hp]
    · by_cases hq : q < 64
      · simp [hq, e, Ne.symm e]
      · simp [hq, e]
  · have n : 64 ≤ p := by omega
    have hr : rg = f.regs := by
      have : (s.writePlace fid p m v sh).fibs = s.fibs := by
        unfold State.writePlace
        simp [h, hf]
      rw [this, hf] at hg
      simp at hg
      exact (congrArg Fibre.regs hg).symm
    subst hr
    simp only [hasPlace, h, if_false] at hp
    simp only [n, if_true]
    by_cases e : q = p
    · subst e
      simp [h, List.getElem?_eq_getElem hp]
    · by_cases hq : q < 64
      · simp [hq, e]
      · have : ¬ (p - 64 = q - 64) := by omega
        simp [hq, e, this]

theorem regAt_eq {s : State} {fid : Nat} {f : Fibre} (hf : tget s.fibs fid = some f) (i : Nat) :
    regAt s fid i = placeAt s fid (regPlace f i) := by
  simp [regAt, placeAt, hf]

theorem Reg.write_lane (r : Reg) (m : LaneMask) (v : LaneVec) (sh : Bool) (l : Nat) (h : l < 32) :
    (r.write m v sh).val.lane l = if m.getLsbD l then v.lane l else r.val.lane l :=
  blend_lane m v r.val l h

theorem Reg.write_tag (r : Reg) (m : LaneMask) (v : LaneVec) (sh : Bool) (l : Nat) (h : l < 32) :
    (r.write m v sh).tag.getLsbD l = if m.getLsbD l then sh else r.tag.getLsbD l := by
  unfold Reg.write
  cases sh with
  | true => rw [if_pos rfl, BitVec.getLsbD_or]; cases m.getLsbD l <;> simp
  | false =>
    rw [if_neg Bool.false_ne_true, BitVec.getLsbD_and, BitVec.getLsbD_not]
    cases m.getLsbD l <;> simp [h]

/-! ### The effect of a vector instruction -/

/-- The part of a vector instruction's effect that changes the fibre itself. -/
def vecFibre (f : Fibre) (m : LaneMask) (o : VOut) (shadow : Bool) (len weight : Nat) : Fibre :=
  addEnergy (advance (setRoundStates (orFlags (latchResult f m o.r shadow) o.fl) o.rs) m len) (weight * popMask m)

/-- What that part keeps and what it changes. -/
theorem vecFibre_shape (f : Fibre) (m : LaneMask) (o : VOut) (sh : Bool) (len weight : Nat) :
    vecFibre f m o sh len weight =
      { f with
        l0 := (vecFibre f m o sh len weight).l0, l1 := f.l0, fpst := f.fpst ||| o.fl.setWidth 32,
        energy := f.energy + BitVec.ofNat 64 (weight * popMask m),
        threads := (vecFibre f m o sh len weight).threads } := by
  simp only [vecFibre, addEnergy, advance, modThreads, setRoundStates, orFlags, latchResult]

theorem vecFibre_latch (f : Fibre) (m : LaneMask) (o : VOut) (sh : Bool) (len weight : Nat) :
    (vecFibre f m o sh len weight).l0 =
      { reg := { val := blend m o.r (LaneVec.splat 0#32), tag := if sh then m else 0#32, flips := [] }, valid := true } := by
  simp only [vecFibre, addEnergy, advance, modThreads, setRoundStates, orFlags, latchResult]

theorem vecFibre_threads (f : Fibre) (m : LaneMask) (o : VOut) (sh : Bool) (len weight i : Nat) :
    (vecFibre f m o sh len weight).threads[i]? = (f.threads[i]?).map (fun (t : Thread) =>
      { t with pc := if m.getLsbD i then t.pc + BitVec.ofNat 64 len else t.pc, rstate := o.rs.getD i t.rstate }) := by
  simp only [vecFibre, addEnergy, advance, modThreads, setRoundStates, orFlags, latchResult, List.getElem?_map,
    List.getElem?_zipIdx, Option.map_map]
  cases f.threads[i]? with
  | none => rfl
  | some t => by_cases h : m.getLsbD i <;> simp [h]

/-- The state after the register writes of a vector instruction. -/
def vecWrites (s : State) (i : FIn) (k : Bool) (d : Nat) (o : VOut) : State :=
  let shadow := i.f.shadow != 0
  let s := if k then s else s.writePlace i.fid (regPlace i.f d) i.m o.r shadow
  match o.r2 with
  | some r2 => if k then s else s.writePlace i.fid (regPlace i.f (d + 1)) i.m r2 shadow
  | none => s

theorem vecEffect_eq (s : State) (i : FIn) (k : Bool) (d len weight : Nat) (o : VOut) :
    s.vecEffect i k d len weight o = (vecWrites s i k d o).modFib i.fid (fun f =>
      vecFibre f i.m o (i.f.shadow != 0) len weight) := rfl

/-- The register numbers that a vector instruction writes, with their words. -/
def vecDests (k : Bool) (d : Nat) (o : VOut) : List (Nat × (Nat → Word)) :=
  if k then []
  else match o.r2 with
    | some r2 => [(d, o.r.lane), (d + 1, r2.lane)]
    | none => [(d, o.r.lane)]

/-- Nothing but fibres and shared windows differs, transitively. -/
theorem OnlyFibres.refl (s : State) (fid slot : Nat) : OnlyFibres s s fid slot :=
  ⟨rfl, fun _ _ => rfl, fun _ _ => rfl, fun x h => ⟨x.shared, h⟩, fun _ => rfl⟩

theorem OnlyFibres.trans {s t u : State} {fid slot : Nat} (h : OnlyFibres s t fid slot) (g : OnlyFibres t u fid slot) :
    OnlyFibres s u fid slot := by
  refine ⟨?_, fun j hj => (g.others j hj).trans (h.others j hj), fun j hj => (g.slots j hj).trans (h.slots j hj), ?_,
    fun a => (g.bytes a).trans (h.bytes a)⟩
  · rw [g.rest, h.rest]
  · intro x hx
    obtain ⟨sh, h1⟩ := h.slot x hx
    obtain ⟨sh', h2⟩ := g.slot _ h1
    exact ⟨sh', h2⟩

theorem writePlace_only {s : State} {fid : Nat} {f : Fibre} (p : Nat) (m : LaneMask) (v : LaneVec) (sh : Bool)
    (hf : tget s.fibs fid = some f) : OnlyFibres s (s.writePlace fid p m v sh) fid f.slot := by
  refine ⟨writePlace_rest s fid p m v sh, fun j hj => writePlace_fibs_other s fid p m v sh j hj, ?_, ?_, ?_⟩
  · intro j hj
    rw [writePlace_slots p m v sh hf]
    simp [hj]
  · intro x hx
    rw [writePlace_slots p m v sh hf, hx]
    by_cases h : 64 ≤ p
    · exact ⟨_, by simp [h]; rfl⟩
    · exact ⟨x.shared, by simp [h]⟩
  · intro a
    rw [writePlace_rest]

theorem modFib_only (s : State) (fid slot : Nat) (g : Fibre → Fibre) : OnlyFibres s (s.modFib fid g) fid slot :=
  ⟨rfl, fun _ hj => by simp [tget_tmod_other _ _ hj], fun _ _ => rfl, fun x h => ⟨x.shared, h⟩, fun _ => rfl⟩

/-- What the register writes of a vector instruction leave. -/
theorem vecWrites_spec {s : State} {i : FIn} {k : Bool} {d : Nat} {o : VOut} (hf : tget s.fibs i.fid = some i.f)
    (hd : ∀ p ∈ vecDests k d o, p.1 < 64 ∧ p.1 < windowOf s i.f) :
    (∃ rg, tget (vecWrites s i k d o).fibs i.fid = some { i.f with regs := rg } ∧ rg.length = i.f.regs.length) ∧
    OnlyFibres s (vecWrites s i k d o) i.fid i.f.slot ∧
    (∀ j < 64, placeAt (vecWrites s i k d o) i.fid (regPlace i.f j) =
      if k then placeAt s i.fid (regPlace i.f j)
      else if j = d then (placeAt s i.fid (regPlace i.f j)).write i.m o.r (i.f.shadow != 0)
      else match o.r2 with
        | some r2 => if j = d + 1 then (placeAt s i.fid (regPlace i.f j)).write i.m r2 (i.f.shadow != 0)
            else placeAt s i.fid (regPlace i.f j)
        | none => placeAt s i.fid (regPlace i.f j)) := by
  unfold vecWrites vecDests at *
  cases k with
  | true =>
    simp only [if_true]
    refine ⟨⟨i.f.regs, ?_, rfl⟩, ?_, ?_⟩
    · cases o.r2 <;> simp [hf]
    · cases o.r2 <;> exact OnlyFibres.refl _ _ _
    · intro j _; cases o.r2 <;> rfl
  | false =>
    simp only [Bool.false_eq_true, if_false] at *
    cases hr2 : o.r2 with
    | none =>
      rw [hr2] at hd
      have hd1 := hd _ (List.mem_singleton.mpr rfl)
      refine ⟨writePlace_fibre _ _ _ _ hf, writePlace_only _ _ _ _ hf, ?_⟩
      intro j hj
      rw [writePlace_at _ _ _ _ _ hf (regPlace_has s i.f d hd1.1 hd1.2)]
      by_cases e : j = d
      · subst e; simp
      · have : ¬ regPlace i.f j = regPlace i.f d := fun h => e (regPlace_inj i.f hj hd1.1 h)
        simp [e, this]
    | some r2 =>
      rw [hr2] at hd
      have hd1 := hd (d, o.r.lane) (by simp)
      have hd2 := hd (d + 1, r2.lane) (by simp)
      simp only at hd1 hd2
      obtain ⟨rg, hg, hl⟩ := writePlace_fibre (regPlace i.f d) i.m o.r (i.f.shadow != 0) hf
      obtain ⟨rg2, hg2, hl2⟩ := writePlace_fibre (regPlace i.f (d + 1)) i.m r2 (i.f.shadow != 0) hg
      refine ⟨⟨rg2, hg2, hl2.trans hl⟩, (writePlace_only _ _ _ _ hf).trans (by have := writePlace_only (regPlace i.f (d + 1)) i.m r2 (i.f.shadow != 0) hg; exact this), ?_⟩
      intro j hj
      have hp2 : hasPlace (s.writePlace i.fid (regPlace i.f d) i.m o.r (i.f.shadow != 0)) { i.f with regs := rg }
          (regPlace i.f (d + 1)) := by
        have := regPlace_has s i.f (d + 1) hd2.1 hd2.2
        unfold hasPlace at *
        rw [writePlace_shared _ _ _ _ hf { i.f with regs := rg } rfl]
        simp only [hl]
        split <;> split at this <;> simp_all
        split <;> simp_all
      rw [writePlace_at _ _ _ _ _ hg hp2, writePlace_at _ _ _ _ _ hf (regPlace_has s i.f d hd1.1 hd1.2),
        writePlace_at _ _ _ _ _ hf (regPlace_has s i.f d hd1.1 hd1.2)]
      have inj := fun a b (ha : a < 64) (hb : b < 64) => @regPlace_inj i.f a b ha hb
      by_cases e : j = d
      · subst e
        have : ¬ regPlace i.f j = regPlace i.f (j + 1) := fun h => by have := inj _ _ hj hd2.1 h; omega
        simp [this]
      · have n1 : ¬ regPlace i.f j = regPlace i.f d := fun h => e (inj _ _ hj hd1.1 h)
        by_cases e2 : j = d + 1
        · subst e2
          have : ¬ regPlace i.f (d + 1) = regPlace i.f d := fun h => by have := inj _ _ hd2.1 hd1.1 h; omega
          simp [this]
        · have n2 : ¬ regPlace i.f j = regPlace i.f (d + 1) := fun h => e2 (inj _ _ hj hd2.1 h)
          simp [e, e2, n1, n2]

/-- What a vector instruction leaves once it has taken effect. -/
theorem vecEffect_done {s : State} {i : FIn} {k : Bool} {d len weight : Nat} {o : VOut}
    (hf : tget s.fibs i.fid = some i.f) (hd : ∀ p ∈ vecDests k d o, p.1 < 64 ∧ p.1 < windowOf s i.f) :
    VecDone s (s.vecEffect i k d len weight o) i.fid i.f i.m (vecDests k d o) o.r.lane o.fl
      (fun l st => o.rs.getD l st) len weight := by
  obtain ⟨⟨rg, hg, hl⟩, honly, hregs⟩ := vecWrites_spec hf hd
  have hg' : tget (s.vecEffect i k d len weight o).fibs i.fid =
      some (vecFibre { i.f with regs := rg } i.m o (i.f.shadow != 0) len weight) := by
    rw [vecEffect_eq]; simp only [State.modFib_fibs, tget_tmod, hg, if_true, Option.map_some]
  have hshape := vecFibre_shape { i.f with regs := rg } i.m o (i.f.shadow != 0) len weight
  have hlatch := vecFibre_latch { i.f with regs := rg } i.m o (i.f.shadow != 0) len weight
  have hthr := vecFibre_threads { i.f with regs := rg } i.m o (i.f.shadow != 0) len weight
  have hslots : (s.vecEffect i k d len weight o).slots = (vecWrites s i k d o).slots := by
    rw [vecEffect_eq]; simp only [State.modFib_keeps]
  generalize vecFibre { i.f with regs := rg } i.m o (i.f.shadow != 0) len weight = g at hg' hshape hlatch hthr
  have hgr : g.regs = rg := by rw [hshape]
  have hgs : g.slot = i.f.slot := by rw [hshape]
  have hat : ∀ j < 64, regAt (s.vecEffect i k d len weight o) i.fid j =
      placeAt (vecWrites s i k d o) i.fid (regPlace i.f j) := by
    intro j _
    rw [regAt_eq hg']
    have hp : regPlace g j = regPlace i.f j := by unfold regPlace; rw [hgr, hl]
    have hsh : sharedOf (s.vecEffect i k d len weight o) g = sharedOf (vecWrites s i k d o) { i.f with regs := rg } := by
      unfold sharedOf; rw [hslots, hgs]
    rw [hp]
    unfold placeAt
    rw [hg', hg]
    simp only [placeReg, hsh, hgr]
  have hcase : ∀ p ∈ vecDests k d o, ∃ v : LaneVec, p.2 = v.lane ∧
      regAt (s.vecEffect i k d len weight o) i.fid p.1 = (regAt s i.fid p.1).write i.m v (i.f.shadow != 0) := by
    intro p hp
    have h64 := (hd p hp).1
    rw [hat _ h64, hregs _ h64, regAt_eq hf]
    unfold vecDests at hp
    cases k with
    | true => simp at hp
    | false =>
      simp only [Bool.false_eq_true, if_false] at hp ⊢
      cases hr2 : o.r2 with
      | none =>
        rw [hr2] at hp
        have e := List.mem_singleton.mp hp
        subst e
        exact ⟨o.r, rfl, by simp⟩
      | some r2 =>
        rw [hr2] at hp
        simp only [List.mem_cons, List.not_mem_nil, or_false] at hp
        rcases hp with e | e <;> subst e
        · exact ⟨o.r, rfl, by simp⟩
        · exact ⟨r2, rfl, by simp⟩
  refine ⟨?_, ?_, ?_, ?_, ?_, ?_⟩
  · intro p hp l hl
    obtain ⟨v, e, h⟩ := hcase p hp
    unfold regLane
    rw [h, Reg.write_lane _ _ _ _ _ hl, e]
  · intro p hp l hl
    obtain ⟨v, e, h⟩ := hcase p hp
    have e0 : (i.f.shadow != 0) = decide (i.f.shadow ≠ 0) := by by_cases z : i.f.shadow = 0 <;> simp [z]
    rw [h, Reg.write_tag _ _ _ _ _ hl, e0]
  · intro p hp
    obtain ⟨v, e, h⟩ := hcase p hp
    rw [h]; rfl
  · intro j hj hn
    rw [hat j hj, hregs j hj, regAt_eq hf]
    unfold vecDests at hn
    cases k with
    | true => rfl
    | false =>
      simp only [Bool.false_eq_true, if_false] at hn ⊢
      cases hr2 : o.r2 with
      | none => rw [hr2] at hn; simp at hn; simp [Ne.symm hn]
      | some r2 => rw [hr2] at hn; simp at hn; simp [Ne.symm hn.1, Ne.symm hn.2]
  · refine ⟨g, hg', ?_, by rw [hgr, hl], by rw [hlatch], by rw [hlatch], ?_, ?_, hthr⟩
    · rw [hshape]
    · rw [hlatch]; by_cases z : i.f.shadow = 0 <;> simp [z]
    · intro l hl
      rw [hlatch]
      simp only
      rw [blend_lane _ _ _ _ hl, LaneVec.lane_splat _ _ hl]
  · rw [vecEffect_eq]
    exact honly.trans (modFib_only _ _ _ _)

end Sys2Proof.Machine
end

