-- ==== Sys2Proof/Laws/Control.lean ====
section
/-!
SUPPORT. Laws of control instructions: what an instruction that is no vector instruction reads, what changing the threads
of a fibre comes to, and branch offsets.
-/
namespace Sys2Proof.Machine

/-- Once its operands can be read, a control, synchronisation or system instruction goes on with its sources. -/
theorem fibreOp_ready {s : State} {fid : Nat} {f : Fibre} {m : LaneMask} {y : Bool} {xs : List Src} {ds : List Nat}
    {k : State → FIn → Out} (hi : Issuing s fid f m) (hr : Readable s fid f m xs ds) :
    fibreOp y xs ds s k = k s { fid := fid, f := f, m := m, src := xs.map (srcVec s fid f m) } := by
  obtain ⟨ha, hm, hf⟩ := hi
  unfold fibreOp onFibre
  rw [ha]; simp only [hm]
  exact fibreIssue_ready hf hr rfl

/-- An instruction without sources and destinations can be read at its first issue. -/
theorem readable_nil (s : State) (fid : Nat) (f : Fibre) (m : LaneMask) (h : keptFor s f m = none) :
    Readable s fid f m [] [] := by
  refine ⟨by simp, by simp, by simp, by simp, ?_, ?_, by simp, h⟩
  · simp [regsPending]
  · rfl

/-- Changing a fibre that is there sets it. -/
theorem modFib_eq {s : State} {fid : Nat} {f : Fibre} (hf : tget s.fibs fid = some f) (g : Fibre → Fibre) :
    s.modFib fid g = s.setFib fid (g f) := by
  unfold State.modFib State.setFib tmod; rw [hf]

/-- Of two entries set under one key the later stands. -/
theorem tset_tset {α : Type} (t : Tbl α) (k : Nat) (a b : α) : tset (tset t k a) k b = tset t k b := by
  induction t with
  | nil => simp [tset]
  | cons e r ih =>
    obtain ⟨k', v⟩ := e
    by_cases h : k' = k
    · simp [tset, h]
    · simp [tset, h, ih]

/-- Of two settings of a fibre the later stands. -/
theorem setFib_setFib (s : State) (fid : Nat) (a b : Fibre) : (s.setFib fid a).setFib fid b = s.setFib fid b := by
  simp [State.setFib, tset_tset]

/-- The active threads and the energy of a fibre. -/
theorem threadsDo_eq {s : State} (i : FIn) (hf : tget s.fibs i.fid = some i.f) (g : Nat → Thread → Thread) :
    s.threadsDo i g = s.withThreads i.fid i.f i.m g := by
  unfold State.threadsDo State.withThreads
  rw [modFib_eq hf]; rfl

/-- A map over a list with its places depends on what stands at each place alone. -/
theorem map_zip_congr {α : Type} (l : List Thread) (f g : Thread × Nat → α) (h : ∀ t j, l[j]? = some t → f (t, j) = g (t, j)) :
    l.zipIdx.map f = l.zipIdx.map g := by
  apply List.map_congr_left
  rintro ⟨t, j⟩ hm
  have := List.mem_zipIdx_iff_getElem?.mp hm
  exact h t j this

/-- What becomes of inactive threads does not matter. -/
theorem withThreads_congr (s : State) (fid : Nat) (f : Fibre) (m : LaneMask) (g h : Nat → Thread → Thread)
    (e : ∀ j t, m.getLsbD j = true → f.threads[j]? = some t → g j t = h j t) :
    s.withThreads fid f m g = s.withThreads fid f m h := by
  unfold State.withThreads
  congr 2
  apply map_zip_congr
  intro t j hj
  by_cases hm : m.getLsbD j = true
  · simp [hm, e j t hm hj]
  · simp [hm]

/-- A branch offset in bytes is twice the signed offset in halfwords (R84). -/
theorem branchBytes_eq {n : Nat} (x : BitVec n) (h : n ≤ 62) : branchBytes x = BitVec.ofInt 64 (2 * x.toInt) := by
  unfold branchBytes
  apply BitVec.eq_of_toInt_eq
  have h1 := BitVec.toInt_lt (x := x)
  have h2 := BitVec.le_toInt x
  rw [BitVec.toInt_mul]
  rw [BitVec.toInt_signExtend, BitVec.toInt_ofInt]
  rw [Int.mul_comm]
  rw [Nat.min_eq_right (by omega)]
  simp

end Sys2Proof.Machine
end

