-- ==== Sys2Proof/Laws/Numbers.lean ====
section
/-!
SUPPORT. The integer functions of the model against the rules' own words: values and results of the six integer types.
-/
namespace Sys2Proof.Machine

/-- The six integer types. -/
theorem intTypes_cases (ty : BitVec 4) (h : tyIn ty intTypes = true) :
    ty = 0#4 ∨ ty = 1#4 ∨ ty = 2#4 ∨ ty = 4#4 ∨ ty = 5#4 ∨ ty = 6#4 := by
  revert ty; decide

theorem intVal_eq (ty : BitVec 4) (h : tyIn ty intTypes = true) (w : Word) : intVal ty w = intOf ty w.toNat := by
  rcases intTypes_cases ty h with rfl | rfl | rfl | rfl | rfl | rfl
  all_goals simp [intVal, intOf, signedType, intWidth, typeBits, isSigned, tyIn, BitVec.toInt_eq_toNat_cond,
    BitVec.toNat_setWidth]
  all_goals try (split <;> split <;> omega)

theorem intMin_eq (ty : BitVec 4) (h : tyIn ty intTypes = true) :
    intMin ty = if signedType ty then -(2 ^ (intWidth ty - 1)) else 0 := by
  rcases intTypes_cases ty h with rfl | rfl | rfl | rfl | rfl | rfl <;> decide

theorem intMax_eq (ty : BitVec 4) (h : tyIn ty intTypes = true) :
    intMax ty = if signedType ty then 2 ^ (intWidth ty - 1) - 1 else 2 ^ intWidth ty - 1 := by
  rcases intTypes_cases ty h with rfl | rfl | rfl | rfl | rfl | rfl <;> decide

theorem wrapInt_eq (ty : BitVec 4) (h : tyIn ty intTypes = true) (r : Int) :
    wrapInt ty r = if signedType ty then (BitVec.ofInt (intWidth ty) r).toInt else (BitVec.ofInt (intWidth ty) r).toNat := by
  rcases intTypes_cases ty h with rfl | rfl | rfl | rfl | rfl | rfl
  all_goals simp [wrapInt, intOf, signedType, intWidth, typeBits, isSigned, tyIn, BitVec.toInt_eq_toNat_cond,
    BitVec.toNat_ofInt]
  all_goals try (split <;> split <;> omega)
  all_goals omega

theorem intWord_eq (ty : BitVec 4) (h : tyIn ty intTypes = true) (sat : Bool) (r : Int) :
    intWord ty sat r = intResult ty sat r := by
  cases sat with
  | false =>
    simp only [intWord, intResult, wordOfInt, wrapInt_eq ty h, Bool.false_eq_true, if_false]
    split
    · rfl
    · apply BitVec.eq_of_toNat_eq
      simp only [BitVec.toNat_setWidth, BitVec.toNat_ofInt]
      omega
  | true =>
    simp only [intWord, intResult, wordOfInt, satInt, intMin_eq ty h, intMax_eq ty h, if_true]
    have hle : (if signedType ty = true then -(2 ^ (intWidth ty - 1)) else (0 : Int)) ≤
        (if signedType ty = true then 2 ^ (intWidth ty - 1) - 1 else (2 : Int) ^ intWidth ty - 1) := by
      rcases intTypes_cases ty h with rfl | rfl | rfl | rfl | rfl | rfl <;> decide
    revert hle
    generalize (if signedType ty = true then -(2 ^ (intWidth ty - 1)) else (0 : Int)) = lo
    generalize (if signedType ty = true then 2 ^ (intWidth ty - 1) - 1 else (2 : Int) ^ intWidth ty - 1) = hi
    intro hle
    congr 1
    split
    · omega
    · split <;> omega

end Sys2Proof.Machine
end

