-- ==== Sys2Proof/Laws/Rows.lean ====
section
/-!
SUPPORT. Laws of lane-wise instructions: what `roundLanes` and `lanewise` give in each lane, and that an instruction whose
meaning is a vector instruction of such a function takes effect as its row says.
-/
namespace Sys2Proof.Machine

/-- Two descriptions of a result that agree in the 32 lanes describe the same effect. -/
theorem VecDone.congr {s t : State} {fid : Nat} {f : Fibre} {m : LaneMask} {ds ds' : List (Nat × (Nat → Word))}
    {la la' : Nat → Word} {fl fl' : BitVec 5} {rs rs' : Nat → BitVec 64 → BitVec 64} {len weight : Nat}
    (h : VecDone s t fid f m ds la fl rs len weight)
    (hds : ds'.map (·.1) = ds.map (·.1))
    (hdl : ∀ p ∈ ds', ∃ q ∈ ds, q.1 = p.1 ∧ ∀ l < 32, m.getLsbD l = true → p.2 l = q.2 l)
    (hla : ∀ l < 32, m.getLsbD l = true → la' l = la l) (hfl : fl' = fl)
    (hrs : ∀ i u, f.threads[i]? = some u → rs' i u.rstate = rs i u.rstate) :
    VecDone s t fid f m ds' la' fl' rs' len weight := by
  subst hfl
  have mem : ∀ i, (∀ p ∈ ds', p.1 ≠ i) → ∀ p ∈ ds, p.1 ≠ i := by
    intro i hi p hp e
    have : p.1 ∈ ds'.map (·.1) := by rw [hds]; exact List.mem_map_of_mem hp
    obtain ⟨q, hq, hqe⟩ := List.mem_map.mp this
    exact hi q hq (hqe.trans e)
  obtain ⟨g, h1, h2, h3, h4, h5, h6, h7, h8⟩ := h.fibre
  refine ⟨?_, ?_, ?_, fun i hi hn => h.kept i hi (mem i hn), ⟨g, h1, h2, h3, h4, h5, h6, ?_, ?_⟩, h.frame⟩
  · intro p hp l hl
    obtain ⟨q, hq, e, hv⟩ := hdl p hp
    have := h.written q hq l hl
    rw [e] at this
    rw [this]
    by_cases hm : m.getLsbD l = true
    · simp [hm, hv l hl hm]
    · simp [hm]
  · intro p hp l hl
    obtain ⟨q, hq, e, _⟩ := hdl p hp
    exact e ▸ h.tagged q hq l hl
  · intro p hp
    obtain ⟨q, hq, e, _⟩ := hdl p hp
    exact e ▸ h.checked q hq
  · intro l hl
    rw [h7 l hl]
    by_cases hm : m.getLsbD l = true
    · simp [hm, hla l hl hm]
    · simp [hm]
  · intro i
    rw [h8 i]
    cases ht : f.threads[i]? with
    | none => rfl
    | some u => simp [hrs i u ht]

/-! ### What a lane-wise function gives -/

theorem foldl_or_congr {α : Type} (l : List α) (f g : α → BitVec 5) (a : BitVec 5) (h : ∀ x ∈ l, f x = g x) :
    l.foldl (fun a x => a ||| f x) a = l.foldl (fun a x => a ||| g x) a := by
  induction l generalizing a with
  | nil => rfl
  | cons x r ih =>
    simp only [List.foldl_cons]
    rw [h x (by simp)]
    exact ih _ (fun y hy => h y (List.mem_cons_of_mem _ hy))

theorem foldl_or_filter {α : Type} (l : List α) (p : α → Bool) (g : α → BitVec 5) (a : BitVec 5) :
    l.foldl (fun a x => a ||| (if p x then g x else 0#5)) a = (l.filter p).foldl (fun a x => a ||| g x) a := by
  induction l generalizing a with
  | nil => rfl
  | cons x r ih =>
    simp only [List.foldl_cons, List.filter_cons]
    cases hp : p x with
    | true => simp [ih]
    | false => simp [ih]

/-- The draws of lane `l` in `roundLanes`. -/
def laneDraws (v : VIn) (mode k l : Nat) : List Nat := if mode == 4 then (draws k (v.state l)).1 else []

theorem range_zipIdx_map {α β : Type} (n : Nat) (f : Nat → α) (g : α × Nat → β) :
    ((List.range n).map f).zipIdx.map g = (List.range n).map (fun l => g (f l, l)) := by
  apply List.ext_getElem
  · simp
  · intro i h1 h2
    simp

theorem roundLanes_lane (v : VIn) (mode k : Nat) (g : Nat → List Nat → Word × Flags5) (l : Nat) (hl : l < 32) :
    (roundLanes v mode k g).r.lane l =
      if v.m.getLsbD l then (g l (laneDraws v mode k l)).1 else 0#32 := by
  unfold roundLanes
  simp only [range_zipIdx_map]
  rw [LaneVec.lane_of _ _ hl, List.getD_eq_getElem?_getD, List.getElem?_map, List.getElem?_range hl]
  simp only [Option.map_some, Option.getD_some, laneDraws]
  split
  · split <;> rfl
  · rfl

theorem roundLanes_flags (v : VIn) (mode k : Nat) (g : Nat → List Nat → Word × Flags5) :
    (roundLanes v mode k g).fl =
      (lanesOf v.m).foldl (fun a l => a ||| (g l (laneDraws v mode k l)).2) Flags5.none := by
  unfold roundLanes allFlags
  simp only [range_zipIdx_map]
  rw [List.foldl_map, lanesOf, ← foldl_or_filter]
  apply foldl_or_congr
  intro l _
  unfold laneDraws
  split
  · split <;> rfl
  · rfl

theorem roundLanes_r2 (v : VIn) (mode k : Nat) (g : Nat → List Nat → Word × Flags5) :
    (roundLanes v mode k g).r2 = none := rfl

theorem roundLanes_rs (v : VIn) (mode k : Nat) (g : Nat → List Nat → Word × Flags5) (f : Fibre) (m : LaneMask)
    (hv : v.rs = roundStates f) (hm : v.m = m) (i : Nat) (u : Thread) (hu : f.threads[i]? = some u) :
    (roundLanes v mode k g).rs.getD i u.rstate =
      if m.getLsbD i then (draws (if mode == 4 then k else 0) u.rstate).2 else u.rstate := by
  unfold roundLanes
  simp only [range_zipIdx_map]
  have hst : v.state i = u.rstate := by
    unfold VIn.state roundStates at *
    rw [hv, List.getD_eq_getElem?_getD, List.getElem?_map, hu]; rfl
  rw [List.getD_eq_getElem?_getD, List.getElem?_map]
  by_cases hi : i < 32
  · rw [List.getElem?_range hi]
    simp only [Option.map_some, Option.getD_some, hst, hm]
    split
    · split <;> rfl
    · rfl
  · have : (List.range 32)[i]? = none := List.getElem?_eq_none (by simp; omega)
    rw [this]
    have hmi : m.getLsbD i = false := BitVec.getLsbD_of_ge _ _ (by omega)
    simp [hmi]

/-! ### Rows -/

/-- The value of a vector function fits a row in a fibre: its result, flags and rounding states. -/
structure RowFits (r : LaneRow) (f : Fibre) (v : VIn) (o : VOut) : Prop where
  r2 : o.r2 = none
  res : ∀ l < 32, v.m.getLsbD l = true → o.r.lane l = (r.res v.m v.src l (r.drawn f l)).1
  fl : o.fl = (lanesOf v.m).foldl (fun a l => a ||| (r.res v.m v.src l (r.drawn f l)).2) Flags5.none
  rs : ∀ i u, f.threads[i]? = some u →
    o.rs.getD i u.rstate = if v.m.getLsbD i then (draws r.n u.rstate).2 else u.rstate

theorem roundLanes_fits (r : LaneRow) (f : Fibre) (v : VIn) (mode k : Nat) (g : Nat → List Nat → Word × Flags5)
    (hv : v.rs = roundStates f) (hn : r.n = if mode == 4 then k else 0)
    (hg : ∀ l < 32, v.m.getLsbD l = true → g l (r.drawn f l) = r.res v.m v.src l (r.drawn f l)) :
    RowFits r f v (roundLanes v mode k g) := by
  have hd : ∀ l, laneDraws v mode k l = r.drawn f l := by
    intro l
    unfold laneDraws LaneRow.drawn VIn.state
    rw [hv, roundStates, hn, List.getD_eq_getElem?_getD, List.getElem?_map]
    cases f.threads[l]? <;> (split <;> simp_all [draws])
  refine ⟨roundLanes_r2 _ _ _ _, ?_, ?_, ?_⟩
  · intro l hl hm
    rw [roundLanes_lane _ _ _ _ _ hl, if_pos hm, hd, hg l hl hm]
  · rw [roundLanes_flags]
    apply foldl_or_congr
    intro l hl
    obtain ⟨h1, h2⟩ := (mem_lanesOf _ _).mp hl
    rw [hd, hg l h1 h2]
  · intro i u hu
    rw [roundLanes_rs v mode k g f v.m hv rfl i u hu, hn]

theorem lanewise_fits (r : LaneRow) (f : Fibre) (v : VIn) (g : Nat → Word) (o : VOut) (ho : lanewise v g = .ok o)
    (hv : v.rs = roundStates f) (hn : r.n = 0)
    (hg : ∀ l < 32, v.m.getLsbD l = true → r.res v.m v.src l [] = (g l, Flags5.none)) :
    RowFits r f v o := by
  unfold lanewise at ho
  injection ho with ho
  subst ho
  have hd : ∀ l, r.drawn f l = [] := by
    intro l; unfold LaneRow.drawn; rw [hn]; cases f.threads[l]? <;> rfl
  refine ⟨rfl, ?_, ?_, ?_⟩
  · intro l hl hm
    rw [LaneVec.lane_of _ _ hl, hd, hg l hl hm]
  · have : ∀ (ls : List Nat) (a : Flags5), (∀ l ∈ ls, l < 32 ∧ v.m.getLsbD l = true) →
        ls.foldl (fun a l => a ||| (r.res v.m v.src l (r.drawn f l)).2) a = a := by
      intro ls
      induction ls with
      | nil => intros; rfl
      | cons l q ih =>
        intro a h
        obtain ⟨h1, h2⟩ := h l (by simp)
        rw [List.foldl_cons, hd, hg l h1 h2, ih _ (fun x hx => h x (List.mem_cons_of_mem _ hx))]
        simp [Flags5.none]
    exact (this _ _ (fun l hl => (mem_lanesOf _ _).mp hl)).symm
  · intro i u hu
    show v.rs.getD i u.rstate = _
    rw [hv, roundStates, List.getD_eq_getElem?_getD, List.getElem?_map, hu, hn]
    simp [draws]

/-- An instruction whose meaning is a vector instruction of a function that fits its row takes effect as the row says. -/
theorem LaneRow.takes_of_vec (r : LaneRow) (op : Nat) (fn : VIn → Except (Nat × LaneMask) VOut) (shape : Bool)
    (hd : r.d < 64) (he : ∀ s, exec r.i s = vec op r.len r.y r.k r.d false r.xs shape r.weight fn s) (hs : shape = true)
    (hfn : ∀ (v : VIn) (f : Fibre), v.src.length = r.xs.length → v.rs = roundStates f → ∃ o, fn v = .ok o ∧ RowFits r f v o) :
    r.Takes := by
  intro s fid f m ⟨ha, hm, hf⟩ hr
  obtain ⟨o, ho, fit⟩ := hfn { m := m, src := r.xs.map (srcVec s fid f m), rs := roundStates f } f (by simp) rfl
  have hcall : exec r.i s = .next (s.vecEffect { fid := fid, f := f, m := m, src := r.xs.map (srcVec s fid f m) }
      r.k r.d r.len r.weight o) := by
    rw [he, vec, ha]
    simp only [hm, Bool.false_eq_true, if_false]
    have hr' : Readable s fid f m r.xs (if r.k = true then [] else [r.d]) := hr
    rw [fibreIssue_ready hf hr' hs]
    simp only [ho]
  refine ⟨_, hcall, ?_⟩
  have hwin : ∀ p ∈ vecDests r.k r.d o, p.1 < 64 ∧ p.1 < windowOf s f := by
    intro p hp
    unfold vecDests at hp
    rw [fit.r2] at hp
    cases hk : r.k with
    | true => simp [hk] at hp
    | false =>
      simp [hk] at hp
      subst hp
      exact ⟨hd, hr.2.1 r.d (by simp [LaneRow.dests, hk])⟩
  have done := vecEffect_done (s := s) (i := { fid := fid, f := f, m := m, src := r.xs.map (srcVec s fid f m) })
    (k := r.k) (d := r.d) (len := r.len) (weight := r.weight) (o := o) hf hwin
  refine done.congr ?_ ?_ ?_ ?_ ?_
  · unfold vecDests LaneRow.dests
    rw [fit.r2]
    cases r.k <;> simp
  · intro p hp
    unfold vecDests LaneRow.dests at *
    rw [fit.r2]
    cases hk : r.k with
    | true => simp [hk] at hp
    | false =>
      simp [hk] at hp
      subst hp
      exact ⟨(r.d, o.r.lane), by simp, rfl, fun l hl hml => (fit.res l hl hml).symm⟩
  · exact fun l hl hml => (fit.res l hl hml).symm
  · exact fit.fl.symm
  · intro i u hu
    exact (fit.rs i u hu).symm

/-- The same for an instruction without flags or draws. (Give `g` in full: the unifier does not find it.) -/
theorem LaneRow.takes_lanewise (r : LaneRow) (op : Nat) (g : VIn → Nat → Word) (hd : r.d < 64) (hn : r.n = 0)
    (he : ∀ s, exec r.i s = vec op r.len r.y r.k r.d false r.xs true r.weight (fun i => lanewise i (g i)) s)
    (hg : ∀ v : VIn, v.src.length = r.xs.length → ∀ l < 32, r.res v.m v.src l [] = (g v l, Flags5.none)) : r.Takes := by
  refine r.takes_of_vec op _ true hd he rfl ?_
  intro v f hl hv
  exact ⟨_, rfl, lanewise_fits r f v (g v) _ rfl hv hn (fun l h _ => hg v hl l h)⟩

/-- The same for an instruction with flags or draws. -/
theorem LaneRow.takes_roundLanes (r : LaneRow) (op mode k : Nat) (g : VIn → Nat → List Nat → Word × Flags5)
    (hd : r.d < 64) (hn : r.n = if mode == 4 then k else 0)
    (he : ∀ s, exec r.i s = vec op r.len r.y r.k r.d false r.xs true r.weight
      (fun i => .ok (roundLanes i mode k (g i))) s)
    (hg : ∀ (v : VIn) (us : List Nat), v.src.length = r.xs.length → ∀ l < 32, v.m.getLsbD l = true →
      g v l us = r.res v.m v.src l us) : r.Takes := by
  refine r.takes_of_vec op _ true hd he rfl ?_
  intro v f hl hv
  exact ⟨_, rfl, roundLanes_fits r f v mode k (g v) hv hn (fun l h hm => hg v _ hl l h hm)⟩

end Sys2Proof.Machine
end

