-- ==== Sys2Proof/Laws/Watch.lean ====
section
/-!
SUPPORT. The watchdog record is written line by line (R449): what that leaves where every line can be written.
-/
namespace Sys2Proof.Machine

/-- A fold that goes on after errors ends as the one that stops at them, where there are none. -/
theorem foldl_of_foldlM {σ α : Type} (f : σ → α → Except Nat σ) (g : σ → α → σ)
    (h : ∀ s x u, f s x = .ok u → g s x = u) : ∀ (l : List α) (s u : σ), l.foldlM f s = .ok u → l.foldl g s = u
  | [], s, u, e => by cases e; rfl
  | x :: l, s, u, e => by
    rw [List.foldlM_cons] at e
    cases k : f s x with
    | error b => rw [k] at e; cases e
    | ok v => rw [k] at e; rw [List.foldl_cons, h s x v k]; exact foldl_of_foldlM f g h l v u e

theorem writeWatchPiece_of_ok {s u : State} {c : CtxKey} {xl : List (BitVec 32)} {va : Nat} {bs : List Byte} {x : Nat × Nat}
    (h : writePiece [] c xl false va bs s x = .ok u) : s.writeWatchPiece c xl va bs x = u := by
  unfold State.writeWatchPiece; rw [h]

/-- Where every line of the watchdog record can be written, it is written as `writeVirtual` writes it. -/
theorem writeWatch_of_ok {s u : State} {c : CtxKey} {xl : List (BitVec 32)} {va : Nat} {bs : List Byte}
    (h : writeVirtual s c xl false va bs = .ok u) : s.writeWatch c xl va bs = u :=
  foldl_of_foldlM _ _ (fun _ _ _ k => writeWatchPiece_of_ok k) _ s u h

end Sys2Proof.Machine
end

