-- ==== Sys2Proof/Tests/Slice0.lean ====
section
/-!
SUPPORT. Tests: the decoding of a word of every instruction, written out from the encoding tables of the spec; the checks of
well-formedness; and, for every statement with hypotheses, a state and operands that meet them.
-/
namespace Sys2Proof.Test

open Sys2Proof Sys2Proof.Machine

/-! ### Words written out from the encodings -/

def c (s d : Nat) : CForm := { s := BitVec.ofNat 5 s, d := BitVec.ofNat 6 d }
def w (d a b : Nat) : WForm := { y := false, k := false, d := BitVec.ofNat 6 d, a := BitVec.ofNat 7 a, b := BitVec.ofNat 7 b }
def l (y k : Bool) (d a b c ty mode imm : Nat) : LForm :=
  { y := y, k := k, d := BitVec.ofNat 6 d, a := BitVec.ofNat 7 a, b := BitVec.ofNat 7 b, c := BitVec.ofNat 7 c,
    ty := BitVec.ofNat 4 ty, mode := BitVec.ofNat 3 mode, imm := BitVec.ofNat 16 imm }

/-- Each word, of a number of bytes, decodes to its instruction and takes those bytes, and the instruction encodes to it. -/
def decodesAll (rows : List (Nat × Nat × Instr)) : Bool :=
  rows.all (fun r => decide (decode (leBytes r.2.1 r.1) = .ok (r.2.2, r.1)) &&
    decide (encodeBytes r.2.2 = some (leBytes r.2.1 r.1)))

/-- The C forms: OP, d and s5 in bits 4:1, 10:5 and 15:11 (R67, R68). -/
theorem test_decode_c_forms : decodesAll
    [(2, 0xE8A0, .movC (c 29 5)),
     (2, 0xE8A2, .moviC (c 29 5)),
     (2, 0xE8A4, .iaddC (c 29 5)),
     (2, 0xE8A6, .iaddi (c 29 5)),
     (2, 0xE8A8, .isubC (c 29 5)),
     (2, 0xE8AA, .andC (c 29 5)),
     (2, 0xE8AC, .orC (c 29 5)),
     (2, 0xE8AE, .xorC (c 29 5)),
     (2, 0xE8B0, .shli (c 29 5)),
     (2, 0xE8B2, .shri (c 29 5)),
     (2, 0xE8B4, .faddC (c 29 5)),
     (2, 0xE8B6, .fsubC (c 29 5)),
     (2, 0xE8B8, .fmulC (c 29 5)),
     (2, 0xE8BA, .braC (c 29 5)),
     (2, 0x1C, .nopC (c 0 0)),
     (2, 0x1E, .exitC (c 0 0)),
     (4, 0x6084001, .iaddW (w 4 2 3)),
     (8, 0x18210003, .iaddL (l false false 4 2 3 0 0 0 0)),
     (4, 0x6084011, .isubW (w 4 2 3)),
     (8, 0x18210013, .isubL (l false false 4 2 3 0 0 0 0))] = true := by
  decide

/-- Integer arithmetic, opcodes 0x00 to 0x0A (R79). -/
theorem test_decode_integer_1 : decodesAll
    [(4, 0x6084001, .iaddW (w 4 2 3)),
     (8, 0x18210003, .iaddL (l false false 4 2 3 0 0 0 0)),
     (4, 0x6084011, .isubW (w 4 2 3)),
     (8, 0x18210013, .isubL (l false false 4 2 3 0 0 0 0)),
     (4, 0x6084021, .imulW (w 4 2 3)),
     (8, 0x18210023, .imulL (l false false 4 2 3 0 0 0 0)),
     (4, 0x6084031, .imulhW (w 4 2 3)),
     (8, 0x18210033, .imulhL (l false false 4 2 3 0 0 0 0)),
     (4, 0x6084041, .idivW (w 4 2 3)),
     (8, 0x18210043, .idivL (l false false 4 2 3 0 0 0 0)),
     (4, 0x6084051, .iremW (w 4 2 3)),
     (8, 0x18210053, .iremL (l false false 4 2 3 0 0 0 0)),
     (4, 0x6084061, .iminW (w 4 2 3)),
     (8, 0x18210063, .iminL (l false false 4 2 3 0 0 0 0)),
     (4, 0x6084071, .imaxW (w 4 2 3)),
     (8, 0x18210073, .imaxL (l false false 4 2 3 0 0 0 0)),
     (4, 0x85081, .iabsW (w 5 2 0)),
     (8, 0x214083, .iabsL (l false false 5 2 0 0 0 0 0)),
     (4, 0x85091, .inegW (w 5 2 0)),
     (8, 0x214093, .inegL (l false false 5 2 0 0 0 0 0))] = true := by
  decide

/-- Integer arithmetic, opcodes 0x00 to 0x0A (R79). -/
theorem test_decode_integer_2 : decodesAll
    [(8, 0x106000302100A3, .lea (l false false 4 2 6 0 0 3 16)),
     (4, 0x850B1, .movW (w 5 2 0)),
     (8, 0x2140B3, .movL (l false false 5 2 0 0 0 0 0)),
     (4, 0x60850C1, .moviW (w 5 2 3)),
     (8, 0x80010000000140C3, .moviL (l false false 5 0 0 0 0 0 32769)),
     (4, 0x6084101, .andW (w 4 2 3)),
     (8, 0x18210103, .andL (l false false 4 2 3 0 0 0 0)),
     (4, 0x6084111, .orW (w 4 2 3)),
     (8, 0x18210113, .orL (l false false 4 2 3 0 0 0 0)),
     (4, 0x6084121, .xorW (w 4 2 3)),
     (8, 0x18210123, .xorL (l false false 4 2 3 0 0 0 0)),
     (4, 0x85131, .notW (w 5 2 0)),
     (8, 0x214133, .notL (l false false 5 2 0 0 0 0 0)),
     (4, 0x6084141, .andnW (w 4 2 3)),
     (8, 0x18210143, .andnL (l false false 4 2 3 0 0 0 0)),
     (4, 0x6084151, .shlW (w 4 2 3)),
     (8, 0x18210153, .shlL (l false false 4 2 3 0 0 0 0)),
     (4, 0x6084161, .shrW (w 4 2 3)),
     (8, 0x18210163, .shrL (l false false 4 2 3 0 0 0 0)),
     (4, 0x6084171, .sarW (w 4 2 3))] = true := by
  decide

/-- Moves, logic, shifts and bit counts, opcodes 0x0B to 0x1B (R79). -/
theorem test_decode_bitwise_1 : decodesAll
    [(4, 0x850B1, .movW (w 5 2 0)),
     (8, 0x2140B3, .movL (l false false 5 2 0 0 0 0 0)),
     (4, 0x60850C1, .moviW (w 5 2 3)),
     (8, 0x80010000000140C3, .moviL (l false false 5 0 0 0 0 0 32769)),
     (4, 0x6084101, .andW (w 4 2 3)),
     (8, 0x18210103, .andL (l false false 4 2 3 0 0 0 0)),
     (4, 0x6084111, .orW (w 4 2 3)),
     (8, 0x18210113, .orL (l false false 4 2 3 0 0 0 0)),
     (4, 0x6084121, .xorW (w 4 2 3)),
     (8, 0x18210123, .xorL (l false false 4 2 3 0 0 0 0)),
     (4, 0x85131, .notW (w 5 2 0)),
     (8, 0x214133, .notL (l false false 5 2 0 0 0 0 0)),
     (4, 0x6084141, .andnW (w 4 2 3)),
     (8, 0x18210143, .andnL (l false false 4 2 3 0 0 0 0)),
     (4, 0x6084151, .shlW (w 4 2 3)),
     (8, 0x18210153, .shlL (l false false 4 2 3 0 0 0 0)),
     (4, 0x6084161, .shrW (w 4 2 3)),
     (8, 0x18210163, .shrL (l false false 4 2 3 0 0 0 0)),
     (4, 0x6084171, .sarW (w 4 2 3)),
     (8, 0x18210173, .sarL (l false false 4 2 3 0 0 0 0))] = true := by
  decide

/-- Moves, logic, shifts and bit counts, opcodes 0x0B to 0x1B (R79). -/
theorem test_decode_bitwise_2 : decodesAll
    [(4, 0x6084181, .rotW (w 4 2 3)),
     (8, 0x18210183, .rotL (l false false 4 2 3 0 0 0 0)),
     (4, 0x85191, .popcW (w 5 2 0)),
     (8, 0x214193, .popcL (l false false 5 2 0 0 0 0 0)),
     (4, 0x851A1, .clzW (w 5 2 0)),
     (8, 0x2141A3, .clzL (l false false 5 2 0 0 0 0 0)),
     (4, 0x851B1, .brevW (w 5 2 0)),
     (8, 0x2141B3, .brevL (l false false 5 2 0 0 0 0 0)),
     (4, 0x6084201, .faddW (w 4 2 3)),
     (8, 0x100018210203, .faddL (l false false 4 2 3 0 8 0 0)),
     (4, 0x6084211, .fsubW (w 4 2 3)),
     (8, 0x100018210213, .fsubL (l false false 4 2 3 0 8 0 0)),
     (4, 0x6084221, .fmulW (w 4 2 3)),
     (8, 0x100018210223, .fmulL (l false false 4 2 3 0 8 0 0)),
     (4, 0x6084231, .fminW (w 4 2 3)),
     (8, 0x100018210233, .fminL (l false false 4 2 3 0 8 0 0)),
     (4, 0x6084241, .fmaxW (w 4 2 3)),
     (8, 0x100018210243, .fmaxL (l false false 4 2 3 0 8 0 0)),
     (4, 0x85251, .frcpW (w 5 2 0)),
     (8, 0x100000214253, .frcpL (l false false 5 2 0 0 8 0 0))] = true := by
  decide

/-- Float arithmetic, opcodes 0x20 to 0x2E (R79). -/
theorem test_decode_float_1 : decodesAll
    [(4, 0x6084201, .faddW (w 4 2 3)),
     (8, 0x100018210203, .faddL (l false false 4 2 3 0 8 0 0)),
     (4, 0x6084211, .fsubW (w 4 2 3)),
     (8, 0x100018210213, .fsubL (l false false 4 2 3 0 8 0 0)),
     (4, 0x6084221, .fmulW (w 4 2 3)),
     (8, 0x100018210223, .fmulL (l false false 4 2 3 0 8 0 0)),
     (4, 0x6084231, .fminW (w 4 2 3)),
     (8, 0x100018210233, .fminL (l false false 4 2 3 0 8 0 0)),
     (4, 0x6084241, .fmaxW (w 4 2 3)),
     (8, 0x100018210243, .fmaxL (l false false 4 2 3 0 8 0 0)),
     (4, 0x85251, .frcpW (w 5 2 0)),
     (8, 0x100000214253, .frcpL (l false false 5 2 0 0 8 0 0)),
     (4, 0x85261, .frsqW (w 5 2 0)),
     (8, 0x100000214263, .frsqL (l false false 5 2 0 0 8 0 0)),
     (4, 0x85271, .fsqrtW (w 5 2 0)),
     (8, 0x100000214273, .fsqrtL (l false false 5 2 0 0 8 0 0)),
     (4, 0x85281, .fexp2W (w 5 2 0)),
     (8, 0x100000214283, .fexp2L (l false false 5 2 0 0 8 0 0)),
     (4, 0x85291, .flog2W (w 5 2 0)),
     (8, 0x100000214293, .flog2L (l false false 5 2 0 0 8 0 0))] = true := by
  decide

/-- Float arithmetic, opcodes 0x20 to 0x2E (R79). -/
theorem test_decode_float_2 : decodesAll
    [(4, 0x852A1, .fsinW (w 5 2 0)),
     (8, 0x1000002142A3, .fsinL (l false false 5 2 0 0 8 0 0)),
     (4, 0x852B1, .fcosW (w 5 2 0)),
     (8, 0x1000002142B3, .fcosL (l false false 5 2 0 0 8 0 0)),
     (4, 0x852C1, .ftanhW (w 5 2 0)),
     (8, 0x1000002142C3, .ftanhL (l false false 5 2 0 0 8 0 0)),
     (4, 0x852D1, .frndW (w 5 2 0)),
     (8, 0x1000002142D3, .frndL (l false false 5 2 0 0 8 0 0)),
     (4, 0x852E1, .fclassW (w 5 2 0)),
     (8, 0x1000002142E3, .fclassL (l false false 5 2 0 0 8 0 0)),
     (4, 0x6084301, .shflSelW (w 4 2 3)),
     (8, 0x18210303, .shflSelL (l false false 4 2 3 0 0 0 0)),
     (4, 0x6084311, .shflLoW (w 4 2 3)),
     (8, 0x18210313, .shflLoL (l false false 4 2 3 0 0 0 0)),
     (4, 0x6084321, .shflHiW (w 4 2 3)),
     (8, 0x18210323, .shflHiL (l false false 4 2 3 0 0 0 0)),
     (4, 0x6084331, .shflXorW (w 4 2 3)),
     (8, 0x18210333, .shflXorL (l false false 4 2 3 0 0 0 0)),
     (4, 0x85341, .voteAnyW (w 5 2 0)),
     (8, 0x214343, .voteAnyL (l false false 5 2 0 0 0 0 0))] = true := by
  decide

/-- Shuffles, votes and matches, opcodes 0x30 to 0x37 (R79). -/
theorem test_decode_cross_lane : decodesAll
    [(4, 0x6084301, .shflSelW (w 4 2 3)),
     (8, 0x18210303, .shflSelL (l false false 4 2 3 0 0 0 0)),
     (4, 0x6084311, .shflLoW (w 4 2 3)),
     (8, 0x18210313, .shflLoL (l false false 4 2 3 0 0 0 0)),
     (4, 0x6084321, .shflHiW (w 4 2 3)),
     (8, 0x18210323, .shflHiL (l false false 4 2 3 0 0 0 0)),
     (4, 0x6084331, .shflXorW (w 4 2 3)),
     (8, 0x18210333, .shflXorL (l false false 4 2 3 0 0 0 0)),
     (4, 0x85341, .voteAnyW (w 5 2 0)),
     (8, 0x214343, .voteAnyL (l false false 5 2 0 0 0 0 0)),
     (4, 0x85351, .voteAllW (w 5 2 0)),
     (8, 0x214353, .voteAllL (l false false 5 2 0 0 0 0 0)),
     (4, 0x85361, .voteMaskW (w 5 2 0)),
     (8, 0x214363, .voteMaskL (l false false 5 2 0 0 0 0 0)),
     (4, 0x85371, .matchW (w 5 2 0)),
     (8, 0x214373, .matchL (l false false 5 2 0 0 0 0 0)),
     (4, 0xFFFFF401, .braW (w 63 127 127)),
     (8, 0xFFFF000808000403, .braL (l false false 0 0 1 2 0 0 65535)),
     (4, 0x6049411, .brzW (w 9 1 3)),
     (8, 0x2000018100413, .brzL (l false false 0 1 3 0 0 0 2))] = true := by
  decide

/-- Control flow, opcodes 0x40 to 0x4A, with the offsets of R84. -/
theorem test_decode_control_1 : decodesAll
    [(4, 0xFFFFF401, .braW (w 63 127 127)),
     (8, 0xFFFF000808000403, .braL (l false false 0 0 1 2 0 0 65535)),
     (4, 0x6049411, .brzW (w 9 1 3)),
     (8, 0x2000018100413, .brzL (l false false 0 1 3 0 0 0 2)),
     (4, 0x44421, .brnzW (w 4 1 0)),
     (8, 0x18100423, .brnzL (l false false 0 1 3 0 0 0 0)),
     (4, 0x80431, .jmpiW (w 0 2 0)),
     (8, 0x200433, .jmpiL (l false false 0 2 0 0 0 0 0)),
     (4, 0x2441, .callW (w 2 0 0)),
     (8, 0x1000020000443, .callL (l false false 0 0 4 0 0 0 1)),
     (4, 0x80451, .calliW (w 0 2 0)),
     (8, 0x200453, .calliL (l false false 0 2 0 0 0 0 0)),
     (4, 0x461, .retW (w 0 0 0)),
     (8, 0x463, .retL (l false false 0 0 0 0 0 0 0)),
     (4, 0x471, .rcvW (w 0 0 0)),
     (8, 0x473, .rcvL (l false false 0 0 0 0 0 0 0)),
     (4, 0x481, .exitW (w 0 0 0)),
     (8, 0x483, .exitL (l false false 0 0 0 0 0 0 0)),
     (4, 0x491, .nopW (w 0 0 0)),
     (8, 0x493, .nopL (l false false 0 0 0 0 0 0 0))] = true := by
  decide

/-- Control flow, opcodes 0x40 to 0x4A, with the offsets of R84. -/
theorem test_decode_control_2 : decodesAll
    [(4, 0x4A1, .yldW (w 0 0 0)),
     (8, 0x4A3, .yldL (l false false 0 0 0 0 0 0 0)),
     (4, 0x6080501, .barArvW (w 0 2 3)),
     (8, 0x18200503, .barArvL (l false false 0 2 3 0 0 0 0)),
     (4, 0x80511, .barWtW (w 0 2 0)),
     (8, 0x200513, .barWtL (l false false 0 2 0 0 0 0 0)),
     (4, 0x6080521, .barMeetW (w 0 2 3)),
     (8, 0x18200523, .barMeetL (l false false 0 2 3 0 0 0 0)),
     (4, 0x80531, .fbarW (w 0 2 0)),
     (8, 0x200533, .fbarL (l false false 0 2 0 0 0 0 0)),
     (4, 0x6080541, .cbarArvW (w 0 2 3)),
     (8, 0x18200543, .cbarArvL (l false false 0 2 3 0 0 0 0)),
     (4, 0x6080551, .cbarWtW (w 0 2 3)),
     (8, 0x18200553, .cbarWtL (l false false 0 2 3 0 0 0 0)),
     (4, 0x80561, .waitW (w 0 2 0)),
     (8, 0x200563, .waitL (l false false 0 2 0 0 0 0 0)),
     (4, 0x85571, .testW (w 5 2 0)),
     (8, 0x214573, .testL (l false false 5 2 0 0 0 0 0)),
     (4, 0x80581, .cnclW (w 0 2 0)),
     (8, 0x200583, .cnclL (l false false 0 2 0 0 0 0 0))] = true := by
  decide

/-- Barriers, handles and ordering, opcodes 0x50 to 0x5A (R79, R85). -/
theorem test_decode_barriers_1 : decodesAll
    [(4, 0x6080501, .barArvW (w 0 2 3)),
     (8, 0x18200503, .barArvL (l false false 0 2 3 0 0 0 0)),
     (4, 0x80511, .barWtW (w 0 2 0)),
     (8, 0x200513, .barWtL (l false false 0 2 0 0 0 0 0)),
     (4, 0x6080521, .barMeetW (w 0 2 3)),
     (8, 0x18200523, .barMeetL (l false false 0 2 3 0 0 0 0)),
     (4, 0x80531, .fbarW (w 0 2 0)),
     (8, 0x200533, .fbarL (l false false 0 2 0 0 0 0 0)),
     (4, 0x6080541, .cbarArvW (w 0 2 3)),
     (8, 0x18200543, .cbarArvL (l false false 0 2 3 0 0 0 0)),
     (4, 0x6080551, .cbarWtW (w 0 2 3)),
     (8, 0x18200553, .cbarWtL (l false false 0 2 3 0 0 0 0)),
     (4, 0x80561, .waitW (w 0 2 0)),
     (8, 0x200563, .waitL (l false false 0 2 0 0 0 0 0)),
     (4, 0x85571, .testW (w 5 2 0)),
     (8, 0x214573, .testL (l false false 5 2 0 0 0 0 0)),
     (4, 0x80581, .cnclW (w 0 2 0)),
     (8, 0x200583, .cnclL (l false false 0 2 0 0 0 0 0)),
     (4, 0x7591, .phaseW (w 7 0 0)),
     (8, 0x1C593, .phaseL (l false false 7 0 0 0 0 0 0))] = true := by
  decide

/-- Barriers, handles and ordering, opcodes 0x50 to 0x5A (R79, R85). -/
theorem test_decode_barriers_2 : decodesAll
    [(4, 0x75A1, .fenceW (w 7 0 0)),
     (8, 0x1C5A3, .fenceL (l false false 7 0 0 0 0 0 0)),
     (8, 0x5000000000603, .trap (l false false 0 0 0 0 0 0 5)),
     (4, 0x611, .rteW (w 0 0 0)),
     (8, 0x613, .rteL (l false false 0 0 0 0 0 0 0)),
     (8, 0x4000000010623, .srd (l false false 4 0 0 0 0 0 4)),
     (8, 0x31000000200633, .swr (l false false 0 2 0 0 0 0 49)),
     (4, 0x6084641, .boostW (w 4 2 3)),
     (8, 0x18210643, .boostL (l false false 4 2 3 0 0 0 0)),
     (4, 0x85651, .allocW (w 5 2 0)),
     (8, 0x214653, .allocL (l false false 5 2 0 0 0 0 0)),
     (4, 0x80661, .freeW (w 0 2 0)),
     (8, 0x200663, .freeL (l false false 0 2 0 0 0 0 0)),
     (4, 0x1D00671, .shdwW (w 0 116 0)),
     (8, 0x7400673, .shdwL (l false false 0 116 0 0 0 0 0)),
     (4, 0x681, .bkptW (w 0 0 0)),
     (8, 0x683, .bkptL (l false false 0 0 0 0 0 0 0)),
     (4, 0x691, .haltW (w 0 0 0)),
     (8, 0x693, .haltL (l false false 0 0 0 0 0 0 0)),
     (8, 0xC10110803, .imad (l false false 4 1 2 3 0 0 0))] = true := by
  decide

/-- The system class, opcodes 0x60 to 0x69 (R79). -/
theorem test_decode_system : decodesAll
    [(8, 0x5000000000603, .trap (l false false 0 0 0 0 0 0 5)),
     (4, 0x611, .rteW (w 0 0 0)),
     (8, 0x613, .rteL (l false false 0 0 0 0 0 0 0)),
     (8, 0x4000000010623, .srd (l false false 4 0 0 0 0 0 4)),
     (8, 0x31000000200633, .swr (l false false 0 2 0 0 0 0 49)),
     (4, 0x6084641, .boostW (w 4 2 3)),
     (8, 0x18210643, .boostL (l false false 4 2 3 0 0 0 0)),
     (4, 0x85651, .allocW (w 5 2 0)),
     (8, 0x214653, .allocL (l false false 5 2 0 0 0 0 0)),
     (4, 0x80661, .freeW (w 0 2 0)),
     (8, 0x200663, .freeL (l false false 0 2 0 0 0 0 0)),
     (4, 0x1D00671, .shdwW (w 0 116 0)),
     (8, 0x7400673, .shdwL (l false false 0 116 0 0 0 0 0)),
     (4, 0x681, .bkptW (w 0 0 0)),
     (8, 0x683, .bkptL (l false false 0 0 0 0 0 0 0)),
     (4, 0x691, .haltW (w 0 0 0)),
     (8, 0x693, .haltL (l false false 0 0 0 0 0 0 0)),
     (8, 0xC10110803, .imad (l false false 4 1 2 3 0 0 0)),
     (8, 0x400210110817, .icmp (l false true 4 1 66 0 0 2 0)),
     (8, 0x10110823, .bfx (l false false 4 1 2 0 0 0 0))] = true := by
  decide

/-- Three-source, compare and reduction instructions, opcodes 0x80 to 0x8A (R79). -/
theorem test_decode_three_sources : decodesAll
    [(8, 0xC10110803, .imad (l false false 4 1 2 3 0 0 0)),
     (8, 0x400210110817, .icmp (l false true 4 1 66 0 0 2 0)),
     (8, 0x10110823, .bfx (l false false 4 1 2 0 0 0 0)),
     (8, 0xC10110833, .bfi (l false false 4 1 2 3 0 0 0)),
     (8, 0xC10110843, .prmb (l false false 4 1 2 3 0 0 0)),
     (8, 0x1234000000010853, .movh (l false false 4 0 0 0 0 0 4660)),
     (8, 0x1000C214863, .sel (l false false 5 66 1 64 0 0 0)),
     (8, 0x100A0810C87F, .ffma (l true true 3 1 65 2 8 0 0)),
     (8, 0xD00010110883, .fcmp (l false false 4 1 2 0 8 6 0)),
     (8, 0x100000108893, .lred (l false false 2 1 0 0 8 0 0)),
     (8, 0x10000010C8A3, .lscan (l false false 3 1 0 0 8 0 0)),
     (8, 0x100000110903, .cvt (l false false 4 1 0 0 8 0 0)),
     (8, 0x8120010110913, .pack (l false false 4 1 2 0 9 0 8)),
     (8, 0x9100000110923, .unpk (l false false 4 1 0 0 8 0 9)),
     (8, 0x8050800110933, .qnt (l false false 4 1 0 66 2 0 8)),
     (8, 0x2100010110943, .dqn (l false false 4 1 2 0 8 0 2)),
     (8, 0x20100030220A03, .ld (l false false 8 2 6 0 8 0 32)),
     (8, 0x72000027A0200A13, .st (l false false 0 2 116 9 0 0 29184)),
     (8, 0x100000210A23, .lds (l false false 4 2 0 0 8 0 0)),
     (8, 0x100018200A33, .sts (l false false 0 2 3 0 8 0 0))] = true := by
  decide

/-- Conversions, opcodes 0x90 to 0x94 (R245). -/
theorem test_decode_conversions : decodesAll
    [(8, 0x100000110903, .cvt (l false false 4 1 0 0 8 0 0)),
     (8, 0x8120010110913, .pack (l false false 4 1 2 0 9 0 8)),
     (8, 0x9100000110923, .unpk (l false false 4 1 0 0 8 0 9)),
     (8, 0x8050800110933, .qnt (l false false 4 1 0 66 2 0 8)),
     (8, 0x2100010110943, .dqn (l false false 4 1 2 0 8 0 2)),
     (8, 0x20100030220A03, .ld (l false false 8 2 6 0 8 0 32)),
     (8, 0x72000027A0200A13, .st (l false false 0 2 116 9 0 0 29184)),
     (8, 0x100000210A23, .lds (l false false 4 2 0 0 8 0 0)),
     (8, 0x100018200A33, .sts (l false false 0 2 3 0 8 0 0)),
     (8, 0x100018210A43, .ldx (l false false 4 2 3 0 8 0 0)),
     (8, 0x101418200A53, .stx (l false false 0 2 3 5 8 0 0)),
     (8, 0x7000000030210A63, .atom (l false false 4 2 6 0 0 0 28672)),
     (8, 0x3000000018210A73, .atoms (l false false 4 2 3 0 0 0 12288)),
     (8, 0x200A83, .pref (l false false 0 2 0 0 0 0 0)),
     (8, 0x7000000030224A93, .enq (l false false 9 2 6 0 0 0 28672)),
     (8, 0x3040000000210AA3, .deq (l false false 4 2 0 0 0 0 12352)),
     (8, 0x3000000018210AB3, .podi (l false false 4 2 3 0 0 0 12288)),
     (8, 0x3000000000210AC3, .podq (l false false 4 2 0 0 0 0 12288)),
     (8, 0x210B03, .cpy (l false false 4 2 0 0 0 0 0)),
     (8, 0x210B13, .cpyx (l false false 4 2 0 0 0 0 0))] = true := by
  decide

/-- Memory and pod instructions, opcodes 0xA0 to 0xAC (R83). -/
theorem test_decode_memory : decodesAll
    [(8, 0x20100030220A03, .ld (l false false 8 2 6 0 8 0 32)),
     (8, 0x72000027A0200A13, .st (l false false 0 2 116 9 0 0 29184)),
     (8, 0x100000210A23, .lds (l false false 4 2 0 0 8 0 0)),
     (8, 0x100018200A33, .sts (l false false 0 2 3 0 8 0 0)),
     (8, 0x100018210A43, .ldx (l false false 4 2 3 0 8 0 0)),
     (8, 0x101418200A53, .stx (l false false 0 2 3 5 8 0 0)),
     (8, 0x7000000030210A63, .atom (l false false 4 2 6 0 0 0 28672)),
     (8, 0x3000000018210A73, .atoms (l false false 4 2 3 0 0 0 12288)),
     (8, 0x200A83, .pref (l false false 0 2 0 0 0 0 0)),
     (8, 0x7000000030224A93, .enq (l false false 9 2 6 0 0 0 28672)),
     (8, 0x3040000000210AA3, .deq (l false false 4 2 0 0 0 0 12352)),
     (8, 0x3000000018210AB3, .podi (l false false 4 2 3 0 0 0 12288)),
     (8, 0x3000000000210AC3, .podq (l false false 4 2 0 0 0 0 12288)),
     (8, 0x210B03, .cpy (l false false 4 2 0 0 0 0 0)),
     (8, 0x210B13, .cpyx (l false false 4 2 0 0 0 0 0)),
     (8, 0x18210B23, .runs (l false false 4 2 3 0 0 0 0)),
     (8, 0x210B33, .coll (l false false 4 2 0 0 0 0 0)),
     (8, 0x2043C70D00C03, .mld (l false false 0 13 14 15 2 0 2)),
     (8, 0xC13, .msw (l false false 0 0 0 0 0 0 0)),
     (8, 0x2002043058A00C23, .mxm (l false false 0 10 11 12 2 0 8194))] = true := by
  decide

/-- Asynchronous commands, opcodes 0xB0 to 0xB3 (R79). -/
theorem test_decode_commands : decodesAll
    [(8, 0x210B03, .cpy (l false false 4 2 0 0 0 0 0)),
     (8, 0x210B13, .cpyx (l false false 4 2 0 0 0 0 0)),
     (8, 0x18210B23, .runs (l false false 4 2 3 0 0 0 0)),
     (8, 0x210B33, .coll (l false false 4 2 0 0 0 0 0)),
     (8, 0x2043C70D00C03, .mld (l false false 0 13 14 15 2 0 2)),
     (8, 0xC13, .msw (l false false 0 0 0 0 0 0 0)),
     (8, 0x2002043058A00C23, .mxm (l false false 0 10 11 12 2 0 8194)),
     (8, 0x2101418200C33, .mhad (l false false 0 2 3 5 8 0 2)),
     (8, 0x2000000006F00C43, .mz (l false false 0 111 0 0 0 0 8192)),
     (8, 0x2000110A17050C53, .mrd (l false false 20 112 66 66 8 0 8192)),
     (8, 0x1C30400C63, .mst (l false false 0 4 6 7 0 0 0)),
     (8, 0x10C73, .mqry (l false false 4 0 0 0 0 0 0)),
     (8, 0x4000000210D03, .xmov (l false false 4 2 0 0 0 0 4)),
     (8, 0x7000000200D13, .xtil (l false false 0 2 0 0 0 0 7)),
     (8, 0x7140410000D23, .xgth (l false false 0 0 2 1 10 0 7)),
     (8, 0x7000C20200D33, .xsct (l false false 0 2 4 3 0 0 7)),
     (8, 0xC20200D43, .xred (l false false 0 2 4 3 0 0 0)),
     (8, 0xC20200D53, .xfil (l false false 0 2 4 3 0 0 0)),
     (8, 0x18200D63, .xsig (l false false 0 2 3 0 0 0 0)),
     (8, 0x18210D73, .xwt (l false false 4 2 3 0 0 0 0))] = true := by
  decide

/-- Matrix instructions, opcodes 0xC0 to 0xC7 (R83, R277). -/
theorem test_decode_matrix : decodesAll
    [(8, 0x2043C70D00C03, .mld (l false false 0 13 14 15 2 0 2)),
     (8, 0xC13, .msw (l false false 0 0 0 0 0 0 0)),
     (8, 0x2002043058A00C23, .mxm (l false false 0 10 11 12 2 0 8194)),
     (8, 0x2101418200C33, .mhad (l false false 0 2 3 5 8 0 2)),
     (8, 0x2000000006F00C43, .mz (l false false 0 111 0 0 0 0 8192)),
     (8, 0x2000110A17050C53, .mrd (l false false 20 112 66 66 8 0 8192)),
     (8, 0x1C30400C63, .mst (l false false 0 4 6 7 0 0 0)),
     (8, 0x10C73, .mqry (l false false 4 0 0 0 0 0 0)),
     (8, 0x4000000210D03, .xmov (l false false 4 2 0 0 0 0 4)),
     (8, 0x7000000200D13, .xtil (l false false 0 2 0 0 0 0 7)),
     (8, 0x7140410000D23, .xgth (l false false 0 0 2 1 10 0 7)),
     (8, 0x7000C20200D33, .xsct (l false false 0 2 4 3 0 0 7)),
     (8, 0xC20200D43, .xred (l false false 0 2 4 3 0 0 0)),
     (8, 0xC20200D53, .xfil (l false false 0 2 4 3 0 0 0)),
     (8, 0x18200D63, .xsig (l false false 0 2 3 0 0 0 0)),
     (8, 0x18210D73, .xwt (l false false 4 2 3 0 0 0 0)),
     (8, 0x20200D83, .xmxm (l false false 0 2 4 0 0 0 0)),
     (8, 0x10D93, .xhs (l false false 4 0 0 0 0 0 0)),
     (8, 0xDA3, .xend (l false false 0 0 0 0 0 0 0))] = true := by
  decide

/-- Runner instructions, opcodes 0xD0 to 0xDA (R82, R174). -/
theorem test_decode_runner : decodesAll
    [(8, 0x4000000210D03, .xmov (l false false 4 2 0 0 0 0 4)),
     (8, 0x7000000200D13, .xtil (l false false 0 2 0 0 0 0 7)),
     (8, 0x7140410000D23, .xgth (l false false 0 0 2 1 10 0 7)),
     (8, 0x7000C20200D33, .xsct (l false false 0 2 4 3 0 0 7)),
     (8, 0xC20200D43, .xred (l false false 0 2 4 3 0 0 0)),
     (8, 0xC20200D53, .xfil (l false false 0 2 4 3 0 0 0)),
     (8, 0x18200D63, .xsig (l false false 0 2 3 0 0 0 0)),
     (8, 0x18210D73, .xwt (l false false 4 2 3 0 0 0 0)),
     (8, 0x20200D83, .xmxm (l false false 0 2 4 0 0 0 0)),
     (8, 0x10D93, .xhs (l false false 4 0 0 0 0 0 0)),
     (8, 0xDA3, .xend (l false false 0 0 0 0 0 0 0))] = true := by
  decide

/-! ### Ill-formed terms, one for each check of R88 step 2 -/

/-- None of the terms is well formed. -/
def allRefused (is : List Instr) : Bool := is.all (fun i => !i.wellFormed)

/-- NOP and EXIT of the C form reserve both fields (R68); a W form marks K on a latching operation only (R73), and meets the
zero rules of its operation (R75). -/
theorem test_ill_formed_short : allRefused
    [.nopC (c 1 0), .nopC (c 0 1), .exitC (c 1 0), .exitC (c 0 1),
     .braW { w 0 0 0 with k := true }, .nopW { w 0 0 0 with k := true }, .retW (w 1 0 0), .yldW (w 0 1 0), .rcvW (w 0 0 1),
     .notW (w 1 2 3), .iabsW (w 1 2 3), .jmpiW (w 1 2 0), .calliW (w 0 2 1), .barWtW (w 1 2 0), .barArvW (w 1 2 3),
     .fbarW (w 0 2 1), .waitW (w 1 2 0), .testW (w 1 2 3), .phaseW (w 10 0 0), .fenceW (w 10 0 0), .rteW (w 1 0 0),
     .freeW (w 1 2 0), .shdwW (w 0 116 1), .allocW (w 1 2 3), .bkptW (w 0 1 0), .haltW (w 0 0 1)] = true := by
  decide

/-- Integer, bitwise and float instructions: the types of R228, R233 and R237, .sat where it is defined, unused fields zero, and
the rounding codes of R43. -/
theorem test_ill_formed_arithmetic : allRefused
    [.iaddL (l false false 1 2 3 0 8 0 0), .iaddL (l false false 1 2 3 0 3 0 0), .iaddL (l false false 1 2 3 4 0 0 0),
     .iaddL (l false false 1 2 3 0 0 1 0), .iaddL (l false false 1 2 3 0 0 0 2), .imulhL (l false false 1 2 3 0 0 0 1),
     .iabsL (l false false 1 2 3 0 0 0 0), .lea (l false false 2 4 3 0 1 0 0), .lea (l false false 2 4 3 1 0 0 0),
     .movL (l false false 1 2 0 0 0 0 1), .moviL (l false false 1 2 0 0 0 0 1), .andL (l false false 1 2 3 0 1 0 0),
     .notL (l false false 1 2 3 0 0 0 0), .shlL (l false false 1 2 3 0 0 0 1), .faddL (l false false 1 2 3 0 0 0 0),
     .faddL (l false false 1 2 3 0 8 5 0), .faddL (l false false 1 2 3 0 8 0 1), .fminL (l false false 1 2 3 0 8 1 0),
     .fsqrtL (l false false 1 2 3 0 8 0 0), .fclassL (l false false 1 2 0 0 15 0 0), .imad (l false false 1 2 3 4 0 0 2),
     .icmp (l false false 1 2 3 0 0 6 0), .icmp (l false false 1 2 3 4 0 0 0), .bfx (l false false 1 2 3 4 0 0 0),
     .bfi (l false false 1 2 3 4 2 0 0), .prmb (l false false 1 2 3 4 1 0 0), .movh (l false false 1 2 3 0 0 0 0),
     .sel (l false false 1 2 3 4 0 0 1), .ffma (l false false 1 2 3 4 8 5 0), .fcmp (l false false 1 2 3 0 8 0 1),
     .lred (l false false 1 2 0 0 8 0 3), .lred (l false false 1 2 0 0 0 0 8), .lscan (l false false 1 2 0 0 0 0 6),
     .lred (l false false 1 2 0 0 8 1 1)] = true := by
  decide

/-- Conversions: the types that R245 lists for each, .sat, headroom, position and high half where they are defined. -/
theorem test_ill_formed_conversions : allRefused
    [.cvt (l false false 1 2 0 0 15 0 8), .cvt (l false false 1 2 0 0 8 0 0x20), .cvt (l false false 1 2 0 0 8 5 0),
     .pack (l false false 1 2 3 0 8 0 8), .pack (l false false 1 2 3 0 9 0 0x88), .pack (l false false 1 2 3 0 2 0 0x28),
     .pack (l false false 1 2 3 4 9 0 8), .unpk (l false false 1 2 0 0 8 0 0x18), .unpk (l false false 1 2 0 0 8 0 0x82),
     .unpk (l false false 1 2 0 0 8 0 0x49), .qnt (l false false 1 2 0 66 8 0 8), .qnt (l false false 1 2 0 66 2 0 0x108),
     .qnt (l false false 1 2 3 66 2 0 8), .dqn (l false false 1 2 3 0 9 0 2), .dqn (l false false 1 2 3 0 8 0 0x802),
     .dqn (l false false 1 2 3 4 8 0 2)] = true := by
  decide

/-- Memory, atomics and pods: sizes and types of R194 and R196, the order and scope of each access, the sub-operations of R132 and
R143, and unused fields zero. -/
theorem test_ill_formed_memory : allRefused
    [.ld (l false false 1 2 3 4 0 0 0), .ld (l false false 1 2 3 0 7 0 0), .ld (l false false 1 2 3 0 2 0 0x10),
     .ld (l false false 1 2 3 0 0 0 0x30), .ld (l false false 1 2 3 0 0 0 0x200), .ld (l false false 1 2 3 0 0 0 0x1000),
     .ld (l false false 1 2 3 0 0 0 0xC00), .ld (l false true 1 2 3 0 0 0 0), .st (l false false 1 2 3 4 0 0 0),
     .st (l false false 0 2 3 4 0 0 0x400), .st (l false false 0 2 3 4 0 0 0x100), .lds (l false false 1 2 3 0 0 0 0x100),
     .sts (l false false 1 2 3 4 0 0 0), .atom (l false false 1 2 3 0 0 0 0xD0), .atom (l false false 1 2 3 0 8 0 0x30),
     .atom (l false false 1 2 3 0 8 5 0), .atom (l false false 1 2 3 4 0 0 0), .atom (l false false 1 2 3 0 0 0 0xA0),
     .atom (l false false 1 2 0 0 0 0 0x2A0), .atom (l false false 1 2 3 0 0 0 0xB0), .atom (l false false 0 2 3 0 0 0 0x1B0),
     .atoms (l false false 1 2 3 0 0 0 0x4000), .pref (l false false 1 2 3 0 0 0 0), .pref (l false false 0 2 3 0 0 0 0x800),
     .enq (l false false 1 2 3 0 0 0 0x2000), .enq (l false false 1 2 3 4 0 0 0x3000), .enq (l false false 1 2 3 0 0 0 0x30C0),
     .deq (l false false 1 2 3 0 0 0 0x3000), .podi (l false false 1 2 3 0 0 0 0x3020), .podi (l false false 1 2 3 0 0 0 0x3010),
     .podq (l false false 1 2 0 0 0 0 0x3050)] = true := by
  decide

/-- Control, handles, system, command, matrix and runner instructions: their zero fields, codes and types. -/
theorem test_ill_formed_rest : allRefused
    [.shflSelL (l false false 1 2 3 4 0 0 5), .voteAnyL (l false false 1 2 3 0 0 0 0), .braL (l false false 1 0 0 0 0 0 0),
     .brzL (l false false 0 2 0 0 1 0 0), .jmpiL (l false false 0 2 0 0 0 0 1), .callL (l false false 0 1 0 0 0 0 0),
     .retL (l false false 0 0 0 0 0 0 1), .barArvL (l false false 0 2 3 0 0 1 0), .cbarArvL (l false false 0 2 3 0 0 2 0),
     .waitL (l false false 0 2 0 0 0 0 0x41), .waitL (l false false 0 0 0 0 0 0 0x80), .waitL (l false false 0 0 0 0 0 0 1),
     .phaseL (l false false 10 0 0 0 0 0 0), .fenceL (l false false 0 0 0 0 0 3 0), .trap (l false false 0 0 0 0 0 0 0x100),
     .srd (l false false 1 0 0 0 0 0 0x1000), .swr (l false false 1 2 0 0 0 0 0x31), .boostL (l false false 1 2 3 4 0 0 0),
     .cpy (l false false 1 2 3 0 0 0 0), .cpy (l false false 1 2 0 0 7 0 0), .cpyx (l false false 1 2 3 0 0 1 0),
     .runs (l false false 1 2 3 4 0 0 0), .coll (l false false 1 2 0 0 2 1 0), .coll (l false false 1 2 0 0 0 4 0),
     .mld (l false false 8 2 0 0 8 0 2), .mld (l false false 0 2 0 0 8 0 0x302), .mld (l false false 0 2 3 0 8 0 2),
     .msw (l false false 0 1 0 0 0 0 0), .mxm (l false false 0 2 0 0 8 4 2), .mhad (l false false 0 2 0 0 2 0 2),
     .mz (l false false 0 2 0 0 0 0 1), .mrd (l false false 4 2 0 0 0 0 0), .mst (l false false 1 2 0 0 8 0 0),
     .mqry (l false false 1 0 0 0 0 0 0x40), .xmov (l false false 1 2 3 0 0 0 0), .xmov (l false false 0 2 3 4 0 7 0),
     .xtil (l false false 0 2 0 0 0 4 0), .xgth (l false false 1 2 4 3 0 0 0), .xred (l false false 0 2 4 3 1 0 0),
     .xfil (l false false 0 2 4 3 0 2 0), .xsig (l false false 0 2 3 0 0 2 0), .xwt (l false false 1 2 3 0 0 1 0),
     .xmxm (l false false 1 2 4 0 0 0 0), .xhs (l false false 1 0 0 0 0 2 0), .xend (l false false 0 0 0 0 0 0 1)] = true := by
  decide

/-! ### States that meet the hypotheses of the statements -/

/-- A device with one workgroup of one fibre of 64 registers on core 0, fibre number 0. -/
def base : State := State.reset.withFetchWord 16 0x001C

/-- The fibre, changed by `g`. -/
def fibre (g : Fibre → Fibre) : Fibre := g (placedFibre (placedLaunch [] 1) 0 0)

/-- The device as it issues an instruction of that fibre in the lanes `m`. -/
def lab (m : LaneMask) (g : Fibre → Fibre := id) : State :=
  { base.issuing (.fib 0) m 0x1000#64 with fibs := [(0, fibre g)] }

/-- Its workgroup and launch, and a core for it. -/
def group : Workgroup := match tget base.wgs 0 with
  | some x => x
  | none => newWg (placedLaunch [] 1) 1 0 0 0 [0] none
def core0 : Core := coreOf base 0

/-- A fibre whose register `i` holds the word `v` in every lane. -/
def withReg (i : Nat) (v : Word) (f : Fibre) : Fibre := { f with regs := f.regs.set i (Reg.plain (LaneVec.splat v)) }

/-- The form that names register 0 and the type `ty` everywhere, with destination 1. -/
def z (ty : Nat) : LForm := l false false 1 0 0 0 ty 0 0

/-- Every row is well formed, and the fibre can read its operands in the lanes `m`. -/
abbrev Meets (m : LaneMask) (g : Fibre → Fibre) (i : Instr) (xs : List Src) (ds : List Nat) : Prop :=
  i.wellFormed = true ∧ Issuing (lab m g) 0 (fibre g) m ∧ Readable (lab m g) 0 (fibre g) m xs ds

theorem issuing_lab (m : LaneMask) (g : Fibre → Fibre) : Issuing (lab m g) 0 (fibre g) m := ⟨rfl, rfl, rfl⟩

/-- The rest of `Meets`, which is decided. -/
def meets (m : LaneMask) (g : Fibre → Fibre) (i : Instr) (xs : List Src) (ds : List Nat) : Bool :=
  i.wellFormed && decide (Readable (lab m g) 0 (fibre g) m xs ds)

theorem meets_of {m : LaneMask} {g : Fibre → Fibre} {i : Instr} {xs : List Src} {ds : List Nat} (h : meets m g i xs ds = true) :
    Meets m g i xs ds := by
  simp only [meets, Bool.and_eq_true, decide_eq_true_eq] at h
  exact ⟨h.1, issuing_lab m g, h.2⟩

/-- Every row of a table is met. -/
def rowsMet (m : LaneMask) (rs : List LaneRow) : Bool := rs.all (fun r => meets m id r.i r.xs r.dests)

theorem rowsMet_of {m : LaneMask} {rs : List LaneRow} (h : rowsMet m rs = true) : ∀ r ∈ rs, Meets m id r.i r.xs r.dests :=
  fun r hr => meets_of (List.all_eq_true.mp h r hr)

theorem hyps_IntegerArithmeticResults : ∀ r ∈ integerRows (c 1 2) (w 1 2 0) (z 0), Meets 0x80000001#32 id r.i r.xs r.dests :=
  rowsMet_of (by decide)

theorem hyps_BitAndMoveResults : ∀ r ∈ bitRows (c 1 2) (w 1 2 0) (z 0), Meets 0x80000001#32 id r.i r.xs r.dests :=
  rowsMet_of (by decide)

theorem hyps_FloatResults : ∀ r ∈ floatRows (c 1 2) (w 1 2 0) (z 8), Meets 0x80000001#32 id r.i r.xs r.dests :=
  rowsMet_of (by decide)

/-- The rows of CVT, UNPK, PACK and DQN.acc, each under a form of its own. -/
theorem hyps_ConversionResults :
    (∀ x ∈ [z 8, { z 8 with imm := 9 }, { z 9 with imm := 8 }, { z 8 with imm := 0x800 }],
      ∀ r ∈ (convertRows x).filter (fun r => r.i.wellFormed), Meets 1#32 id r.i r.xs r.dests) ∧
    [z 8, { z 8 with imm := 9 }, { z 9 with imm := 8 }, { z 8 with imm := 0x800 }].map
      (fun x => ((convertRows x).filter (fun r => r.i.wellFormed)).map (fun r => r.i)) =
      [[.cvt (z 8)], [.cvt { z 8 with imm := 9 }, .unpk { z 8 with imm := 9 }], [.cvt { z 9 with imm := 8 }, .pack { z 9 with imm := 8 }],
       [.dqn { z 8 with imm := 0x800 }]] := by
  refine ⟨?_, by decide⟩
  intro x hx
  simp only [List.mem_cons, List.not_mem_nil, or_false] at hx
  obtain rfl | rfl | rfl | rfl := hx <;> exact rowsMet_of (by decide)

theorem hyps_CrossLaneResults : ∀ r ∈ crossRows (w 1 2 0) (z 0), Meets 0x80000001#32 id r.i r.xs r.dests :=
  rowsMet_of (by decide)

theorem hyps_ReduceAndScan :
    Meets 1#32 id (.lred (z 0)) [src (.sel 0) Ty.i32] [1] ∧ (fibre id).threads[lowestLane 1#32]?.isSome = true ∧
    Meets 1#32 id (.lscan (z 0)) [src (.sel 0) Ty.i32] [1] :=
  ⟨meets_of (by decide), rfl, meets_of (by decide)⟩

/-- QNT and DQN of a 4-bit block: sound codes, an odd escape (code 0x8 in an odd place of its pair), and a scale of 0xFF. -/
theorem hyps_QuantisedBlocks :
    (Meets 1#32 id (.pack { z 15 with imm := 8 }) [srcAll (.sel 0) 8, srcAll (.sel 0) 8, src (.sel 0) Ty.i32] [1]) ∧
    (Meets 1#32 id (.qnt { z 2 with imm := 8 }) [srcAll (.sel 0) 8, src (.const 0#32) Ty.i32, src (.sel 0) Ty.i32] [1, 2]) ∧
    (∀ v ∈ [0x00000000#32, 0x00000080#32, 0x000000FF#32],
      Meets 1#32 (withReg 2 v) (.qnt { z 2 with a := 2, b := 2, imm := 15 })
        [srcLanes (.sel 2) Ty.q4 (posLanes 0), src (.sel 2) Ty.i32, src (.sel 0) Ty.i32] [1, 2]) ∧
    (∀ v ∈ [0x00000000#32, 0x000000FF#32],
      Meets 1#32 (withReg 2 v) (.dqn { z 8 with a := 0, b := 2, imm := 15 })
        [srcLanes (.sel 0) Ty.q4 (posLanes 0), src (.sel 2) Ty.i32] [1]) := by
  refine ⟨meets_of (by decide), meets_of (by decide), ?_, ?_⟩ <;> intro v hv <;>
    simp only [List.mem_cons, List.not_mem_nil, or_false] at hv
  · obtain rfl | rfl | rfl := hv <;> exact meets_of (by decide)
  · obtain rfl | rfl := hv <;> exact meets_of (by decide)

/-- The three outcomes of QNT stand apart on those words. -/
theorem hyps_QuantisedBlocks_outcomes :
    hasOddEscape (blockCodes Ty.q4 (LaneVec.splat 0x00000080#32) 0 false) = true ∧
    hasOddEscape (blockCodes Ty.q4 (LaneVec.splat 0x000000FF#32) 0 false) = false ∧
    hasOddEscape (blockCodes Ty.q4 (LaneVec.splat 0#32) 0 false) = false := by
  decide

theorem hyps_LeaAddress :
    Meets 1#32 id (.lea { z 0 with d := 2 }) [src (.sel 0) Ty.n32, src (.sel 1) Ty.n32, src (.sel 0) Ty.i32] [2, 3] :=
  meets_of (by decide)

/-- A quiet and a signalling NaN; infinities of both signs, zeros, a value and its negative; and a finite pattern. -/
theorem hyps_FloatSpecialCases :
    (∀ ty ∈ [Ty.f32, Ty.h16, Ty.b16], isFloat3 ty = true ∧ isNaNWord ty (canonicalNaN ty) = true ∧
      isSignalling ty (canonicalNaN ty) = false ∧ isSignalling ty (infWord ty false ||| 1#32) = true ∧
      isInfWord ty (infWord ty true) = true ∧ signField ty (infWord ty true) = true ∧ isZeroWord ty (zeroWord ty true) = true ∧
      isZeroWord ty 1#32 = false ∧ expField ty 1#32 < 2 ^ expBits ty - 1 ∧ (roundingRows (z 8)).length = 13) ∧
    (∃ sig e, decodeFloat Ty.f32 0x3F800000 = .fin false sig e) :=
  ⟨by decide, ⟨_, _, rfl⟩⟩

theorem hyps_OperandValues :
    Issuing (lab 1#32) 0 (fibre id) 1#32 ∧ (regAt (lab 1#32) 0 63).flips = [] ∧ (fibre id).l0.reg.flips = [] ∧
    (fibre id).l1.reg.flips = [] ∧ (fibre id).threads[31]?.isSome = true ∧ redKey (lab 1#32) (fibre id).wg = none :=
  ⟨issuing_lab _ _, by decide⟩

/-- The device as it issues an instruction of a runner. -/
def labR (q : Runner → Runner := id) : State :=
  { base.issuing (.runner 2) 1#32 0x1000#64 with cmds := [(2, placedCmd 0)], runners := [(2, q (placedRunner 0 2 0))] }

/-- A flight of the fibre, of a kind, with destinations. -/
def flying (k : FKind) (ds : List Nat) : Flight :=
  requestFlight (lab 1#32) 0 (fibre id) 1#32 group k ds 0 0 4 []
    (fun x => { lane := x.1, va := x.2.1, place := x.2.2, x := 0#32, y := 0#32, u := 0, ret := none })

/-- The device with a flight of the fibre under way, number 9. -/
def labF (fl : Flight) (g : Fibre → Fibre := id) : State := { lab 1#32 g with flights := [(9, fl)] }

theorem hyps_RunnerScalarResults :
    Running labR 2 (placedRunner 0 2 0) ∧
    (∀ r ∈ integerRows (c 1 2) (w 1 2 0) (z 0) ++ bitRows (c 1 2) (w 1 2 0) (z 0),
      r.i.wellFormed = true ∧ r.k = false ∧ (∀ x ∈ r.xs, opdOk true 64 x = true) ∧ r.d < 64) ∧
    (∀ r ∈ integerRows (c 1 2) { w 1 2 0 with k := true } { z 0 with k := true },
      r.i.wellFormed = true ∧ (r.k = true ∨ r.len = 2)) :=
  ⟨⟨rfl, rfl⟩, by decide, by decide⟩

/-- A fibre whose register 0 has flipped bits in lane 0, under tags. -/
def flipped (x : BitVec 39) (tag : LaneMask) (f : Fibre) : Fibre :=
  { f with regs := f.regs.set 0 { Reg.zero with flips := [(0, x)], tag := tag } }

/-- A selector that nothing is assigned to, a lost latch, a pending write, two wrong bits, and a wrong bit under a tag. -/
theorem hyps_OperandTraps :
    (Issuing (lab 1#32) 0 (fibre id) 1#32 ∧ keptFor (lab 1#32) (fibre id) 1#32 = none ∧ (Instr.iaddW (w 1 80 0)).wellFormed = true ∧
      opdOk false (windowOf (lab 1#32) (fibre id)) (src (.sel 80#7) Ty.i32) = false ∧
      opdOk false (windowOf (lab 1#32) (fibre id)) (src (.sel 63#7) Ty.i32) = true ∧ windowOf (lab 1#32) (fibre id) = 64) ∧
    ((Instr.iaddW (w 1 64 0)).wellFormed = true ∧
      opdOk false 64 (src (.sel 64#7) Ty.i32) = true ∧ (fibre (fun f => { f with l0 := { f.l0 with valid := false } })).l0.valid = false) ∧
    (Issuing (labF (flying (.load 1 Ty.i32 0 false) [0])) 0 (fibre id) 1#32 ∧
      regsPending (labF (flying (.load 1 Ty.i32 0 false) [0])) 0 (fibre id) [1, 0, 0] = true) ∧
    (Issuing (lab 1#32 (flipped 3#39 0#32)) 0 (fibre (flipped 3#39 0#32)) 1#32 ∧
      regsPending (lab 1#32) 0 (fibre (flipped 3#39 0#32)) [1, 0, 0] = false ∧
      (checkSources (fibre (flipped 3#39 0#32)) [] 1#32 (srcs2W (w 1 0 0))).uncorrectable ≠ 0#32) ∧
    (Issuing (lab 1#32 (flipped 1#39 1#32)) 0 (fibre (flipped 1#39 1#32)) 1#32 ∧
      (checkSources (fibre (flipped 1#39 1#32)) [] 1#32 (srcs2W (w 1 0 0))).uncorrectable = 0#32 ∧
      (checkSources (fibre (flipped 1#39 1#32)) [] 1#32 (srcs2W (w 1 0 0))).shadow ≠ 0#32) :=
  ⟨⟨issuing_lab _ _, by decide⟩, by decide, ⟨⟨rfl, rfl, rfl⟩, by decide⟩, ⟨issuing_lab _ _, by decide⟩, ⟨issuing_lab _ _, by decide⟩⟩

theorem hyps_CheckBits : (31 < 32 ∧ (0x80000001#32 : LaneMask).getLsbD 31 = true) ∧
    ((0x80000000#32 : LaneMask).getLsbD 31 = true ∧ (5#39 : BitVec 39) ≠ 0#39) ∧ ((0#32 : LaneMask).getLsbD 31 = false ∧ 0 ≠ 38) := by
  decide

/-- A read, write or other check has succeeded. -/
def good {ε α : Type} (x : Except ε α) : Bool :=
  match x with
  | .ok _ => true
  | .error _ => false

/-- The launch of the fibre as a pool launch whose records stand in the mapped page. -/
def poolLaunch : Launch :=
  { placedLaunch [] 1 with lr := { placedRecord with pool := true, auxa := 0x1400#64 }, parked := [] }
def pool (g : Fibre → Fibre := id) : State := { lab 1#32 g with launches := [(1, poolLaunch)] }

/-- Thread 0 of a fibre changed. -/
def first (h : Thread → Thread) (f : Fibre) : Fibre := { f with threads := f.threads.modify 0 h }

theorem hyps_BranchesAndJumps :
    (∀ r ∈ branchRows (c 0 0) (w 0 0 0) (l false false 0 0 0 0 0 0 0), Meets 1#32 id r.i r.xs [] ∧
      ∀ x ∈ r.xs, opdOk true 64 x = true) ∧
    Running labR 2 (placedRunner 0 2 0) ∧
    (∀ r ∈ [(Instr.jmpiW (w 0 0 0), 0#7), (Instr.jmpiL (l false false 0 0 0 0 0 0 0), 0#7)],
      Meets 1#32 id r.1 [src (.sel r.2) Ty.i32] [] ∧ Meets 1#32 (withReg 0 0x1001#32) r.1 [src (.sel r.2) Ty.i32] []) ∧
    ((opdLane (lab 1#32) 0 (fibre id) 1#32 (.sel 0#7) Ty.i32 0).getLsbD 0 = false ∧ inPool (lab 1#32) (fibre id) = false) ∧
    (opdLane (lab 1#32 (withReg 0 0x1001#32)) 0 (fibre (withReg 0 0x1001#32)) 1#32 (.sel 0#7) Ty.i32 0).getLsbD 0 = true ∧
    (inPool pool (fibre id) = true ∧ (fibre id).handler = none ∧ (fibre id).splits = [] ∧
      Readable pool 0 (fibre id) 1#32 [src (.sel 0#7) Ty.i32] []) ∧
    good (pool.park 0 1#32 (fun _ => 0x2000#64)) = true ∧
    ((fibre (first (fun t => { t with token := some (3, 0#16) }))).threads.head?.bind (fun t => t.token)).isSome = true ∧
    pendingPlaces pool 0 (fibre id) = [] ∧
    pendingPlaces { pool with flights := [(9, flying (.load 1 Ty.i32 0 false) [63])] } 0 (fibre id) = [63] ∧
    good ({ lab 1#32 with launches := [(1, { poolLaunch with lr := { poolLaunch.lr with auxa := 0x9000#64 } })] }.park 0 1#32
      (fun _ => 0x2000#64)) = false := by
  refine ⟨?_, ⟨rfl, rfl⟩, ?_, by decide, by decide, ?_, by decide +kernel, by decide, by decide, by decide, by decide +kernel⟩
  · intro r hr
    simp only [branchRows, List.mem_cons, List.not_mem_nil, or_false] at hr
    obtain rfl | rfl | rfl | rfl | rfl | rfl | rfl | rfl | rfl | rfl := hr <;> exact ⟨meets_of (by decide), by decide⟩
  · intro r hr
    simp only [List.mem_cons, List.not_mem_nil, or_false] at hr
    obtain rfl | rfl := hr <;> exact ⟨meets_of (by decide), meets_of (by decide)⟩
  · decide

/-- A launch with call stacked of 64 bytes a thread from a base. -/
def stackLaunch (va : Addr) : Launch := { placedLaunch [] 1 with lr := { placedRecord with stksz := 64, stkbase := va } }
def stacked (va : Addr) (g : Fibre → Fibre) : State := { lab 1#32 g with launches := [(1, stackLaunch va)] }

/-- The device with a page of host memory at 0x2000, and with peer 3 usable by its partition. -/
def around (s : State) : State :=
  { s with
    tlb := s.tlb ++ [{ loc := .cluster 0, fn := 0, asid := 0#12, vbase := 0x2000, size := 4096, pa := 0x2000, entry := 0x20FB#64 }]
    fabric := (List.range 16).map (fun i =>
      if i = 3 then { link := 0, self := false, en := true, pop := true, port := 2#4 } else s.fabric.getD i (FabRow.empty i))
    parts := [(0, { Part.reset with cores := [0], remap := [0], ftid := 5#16, fmask := 8#16 })] }

/-- Thread 0 at a call depth, with the on-chip entries `a`. -/
def deep (n : Nat) (a : Addr) : Fibre → Fibre := first (fun t => { t with depth := n, stack := List.replicate (min n 8) a })

/-- Room for a push, an odd target, a full stack, a spill that lands and one that does not find its page; a pop, an empty stack,
an odd return address, and a fill that succeeds and one that does not. -/
theorem hyps_CallStack :
    (∀ r ∈ callRows (w 0 0 0) (l false false 0 0 0 0 0 0 0),
      r.1.wellFormed = true ∧ Readable (lab 1#32) 0 (fibre id) 1#32 (r.2.2.2.1.map (fun n => src (.sel n) Ty.i32)).toList []) ∧
    (∃ wg la, wgOf (lab 1#32) (fibre id) = some wg ∧ launchOf (lab 1#32) wg = some la ∧ la.lr.stksz = 0) ∧
    (lanesAt (fibre id) 1#32 (fun d => d == 8) = [] ∧ lanesAt (fibre id) 1#32 (fun d => decide (8 ≤ d)) = []) ∧
    lanesAt (fibre (deep 8 0#64)) 1#32 (fun d => d == 8 + 0 / 8) = [0] ∧
    (lanesAt (fibre (deep 8 0#64)) 1#32 (fun d => d == 8 + 64 / 8) = [] ∧
      (fibre (deep 8 0#64)).threads.head?.map (fun t => (t.depth, t.stack.getLast?)) = some (8, some 0#64)) ∧
    ((stacked 0x1800#64 (deep 8 0#64)).spills (fibre (deep 8 0#64))
      (spillsOf (stacked 0x1800#64 (deep 8 0#64)) (fibre (deep 8 0#64)) 1#32)).2 = [] ∧
    ((stacked 0x9000#64 (deep 8 0#64)).spills (fibre (deep 8 0#64))
      (spillsOf (stacked 0x9000#64 (deep 8 0#64)) (fibre (deep 8 0#64)) 1#32)).2 ≠ [] ∧
    ((spillsOf (stacked 0x1800#64 (deep 8 0#64)) (fibre (deep 8 0#64)) 1#32).map
      (fun x => (x.lane, x.remote (stacked 0x1800#64 (deep 8 0#64)) (fibre (deep 8 0#64)) .write))) = [(0, [])] ∧
    (let s := around (stacked 0x130000000001800#64 (deep 8 0#64))
     let f := fibre (deep 8 0#64)
     (spillsOf s f 1#32).map (fun x => (x.remote s f .write).length) = [1] ∧ (s.spills f (spillsOf s f 1#32)).2 = []) ∧
    ((Instr.retW (w 0 0 0)).wellFormed = true ∧ (Instr.retL (l false false 0 0 0 0 0 0 0)).wellFormed = true) ∧
    (lanesAt (fibre (deep 1 0x1000#64)) 1#32 (fun d => d == 0) = [] ∧
      lanesAt (fibre (deep 1 0x1000#64)) 1#32 (fun d => decide (9 ≤ d)) = []) ∧
    lanesAt (fibre id) 1#32 (fun d => d == 0) = [0] ∧
    ((fibre (deep 1 0x1001#64)).threads.head?.map (fun t => (t.stack.headD 0#64).getLsbD 0)) = some true ∧
    ((fibre (deep 9 0x1000#64)).threads.head?.map (fun t => t.depth)) = some 9 ∧
    ((fills (stacked 0x1800#64 (deep 9 0#64)) (fibre (deep 9 0#64))
      (fillsOf (stacked 0x1800#64 (deep 9 0#64)) (fibre (deep 9 0#64)) 1#32)) = ([(0, 0#64)], [])) ∧
    ((fills (stacked 0x9000#64 (deep 9 0#64)) (fibre (deep 9 0#64))
      (fillsOf (stacked 0x9000#64 (deep 9 0#64)) (fibre (deep 9 0#64)) 1#32)).2 ≠ []) ∧
    (let s := around (stacked 0x2800#64 (deep 9 0#64))
     let f := fibre (deep 9 0#64)
     (fillsOf s f 1#32).map (fun x => (x.remote s f .read).length) = [1] ∧ (fills s f (fillsOf s f 1#32)).2 = []) := by
  refine ⟨by decide, ⟨_, _, rfl, rfl, rfl⟩, by decide, by decide, by decide, by decide, by decide, by decide, by decide,
    by decide, by decide, by decide, by decide, by decide, by decide, by decide, by decide⟩

theorem hyps_ExitThreads :
    (∀ i ∈ [Instr.exitC (c 0 0), Instr.exitW (w 0 0 0), Instr.exitL (l false false 0 0 0 0 0 0 0)], i.wellFormed = true) ∧
    Issuing (lab 1#32) 0 (fibre id) 1#32 ∧ inPool (lab 1#32) (fibre id) = false ∧ quietExit (lab 1#32) 0 (fibre id) 1#32 := by
  refine ⟨by decide, issuing_lab _ _, by decide, ⟨1, _, rfl, rfl, rfl⟩, ?_, rfl, rfl, by decide, ?_⟩
  · intro wg hw
    have : wg = group := Option.some.inj (hw.symm.trans rfl)
    subst this
    decide
  · intro wg hw
    have : wg = group := Option.some.inj (hw.symm.trans rfl)
    subst this
    rfl

/-- A fibre with one open split whose late thread, thread 1, stands in state `st`. -/
def split (st : BitVec 4) (f : Fibre) : Fibre :=
  { f with splits := [{ flt := 9, late := 2#32 }], threads := f.threads.modify 1 (fun t => { t with st := st }) }

theorem hyps_RcvMeets :
    (∀ r ∈ [(Instr.rcvW (w 0 0 0), 4), (Instr.rcvL (l false false 0 0 0 0 0 0 0), 8)], r.1.wellFormed = true) ∧
    (Issuing (lab 1#32) 0 (fibre id) 1#32 ∧ (fibre id).splits = []) ∧
    (Issuing (lab 1#32 (split 2#4)) 0 (fibre (split 2#4)) 1#32 ∧ (fibre (split 2#4)).splits ≠ [] ∧
      ¬ lateSetsMet (atRcv (fibre (split 2#4)) 1#32 4 0)) ∧
    (Issuing (lab 1#32 (split 3#4)) 0 (fibre (split 3#4)) 1#32 ∧ (fibre (split 3#4)).splits ≠ [] ∧
      lateSetsMet (atRcv (fibre (split 3#4)) 1#32 4 0) ∧ ∀ t ∈ (fibre (split 3#4)).threads, ∀ a, t.wait ≠ .park a) := by
  refine ⟨by decide, ⟨issuing_lab _ _, rfl⟩, ⟨issuing_lab _ _, List.cons_ne_nil _ _, fun h => ?_⟩,
    ⟨issuing_lab _ _, List.cons_ne_nil _ _, fun sp hsp j hj t ht => ?_, ?_⟩⟩
  · have := h _ (List.mem_cons_self ..) 1 (by decide) _ rfl
    revert this
    decide
  · have h1 : sp = { flt := 9, late := 2#32 } := List.mem_singleton.mp hsp
    subst h1
    have h2 : j = 1 := by simpa using (show j ∈ [1] from hj)
    subst h2
    have h3 := Option.some.inj (ht.symm.trans rfl)
    subst h3
    exact .inl rfl
  · have h : (fibre (split 3#4)).threads.all (fun t => t.wait == .none) = true := by decide
    intro t ht a e
    have := List.all_eq_true.mp h t ht
    rw [e] at this
    exact absurd this (by simp)

/-- The device with a second fibre in the slot. -/
def lab2 : State := { lab 1#32 with fibs := [(0, fibre id), (1, fibre (fun f => { f with idx := 1 }))] }

theorem hyps_YieldPassesOn :
    (∀ r ∈ [(Instr.yldW (w 0 0 0), 4), (Instr.yldL (l false false 0 0 0 0 0 0 0), 8)], r.1.wellFormed = true) ∧
    (Issuing (lab 1#32) 0 (fibre id) 1#32 ∧ tget (lab 1#32).slots 0 = some (placedSlot 0) ∧ (placedSlot 0).cur < 4 ∧
      ∀ k, 1 ≤ k → k ≤ 3 → tget ((lab 1#32).withThreads 0 (fibre id) 1#32 (fun _ t => t)).fibs k = none) ∧
    (Issuing lab2 0 (fibre id) 1#32 ∧
      ∃ g, tget (lab2.withThreads 0 (fibre id) 1#32 (fun _ t => t)).fibs 1 = some g ∧ g.ready = true) := by
  refine ⟨by decide, ⟨issuing_lab _ _, rfl, by decide, ?_⟩, ⟨rfl, rfl, rfl⟩, _, rfl, by decide⟩
  intro k h1 h2
  have : k = 1 ∨ k = 2 ∨ k = 3 := by omega
  obtain rfl | rfl | rfl := this <;> rfl

/-- Registers 2 and 3 of a fibre. -/
def args (a b : Word) (f : Fibre) : Fibre := withReg 3 b (withReg 2 a f)

/-- A memory instruction of the fibre that has not completed. -/
def busy (g : Fibre → Fibre) : State := labF (flying (.load 1 Ty.i32 0 false) [9]) g

theorem hyps_WorkgroupBarriers :
    tget (lab 1#32).wgs (fibre id).wg = some group ∧
    (∀ r ∈ [Instr.barArvW (w 0 2 3), .barArvL (l false false 0 2 3 0 0 0 0), .barMeetW (w 0 2 3),
        .barMeetL (l false false 0 2 3 0 0 0 0)],
      Meets 1#32 (args 15#32 0#32) r (barSrcs 2 3) [] ∧ Meets 1#32 (args 16#32 0#32) r (barSrcs 2 3) []) ∧
    (∀ r ∈ [Instr.barWtW (w 0 2 0), .barWtL (l false false 0 2 0 0 0 0 0)],
      Meets 1#32 (args 16#32 0#32) r [src (.sel 2#7) Ty.i32] [] ∧ Meets 1#32 (args 3#32 0#32) r [src (.sel 2#7) Ty.i32] [] ∧
      Meets 1#32 (fun f => first (fun t => { t with token := some (3, 0#16) }) (args 3#32 0#32 f)) r [src (.sel 2#7) Ty.i32] []) ∧
    (opdLow (lab 1#32 (args 15#32 0#32)) 0 (fibre (args 15#32 0#32)) 1#32 (.sel 2#7)).toNat = 15 ∧
    memBusy (lab 1#32 (args 15#32 0#32)) 0 = false ∧
    (memBusy (busy (args 15#32 0#32)) 0 = true ∧
      Readable (busy (args 15#32 0#32)) 0 (fibre (args 15#32 0#32)) 1#32 (barSrcs 2 3) []) := by
  refine ⟨rfl, ?_, ?_, by decide, by decide, by decide⟩ <;> intro r hr <;>
    simp only [List.mem_cons, List.not_mem_nil, or_false] at hr
  · obtain rfl | rfl | rfl | rfl := hr <;> exact ⟨meets_of (by decide), meets_of (by decide)⟩
  · obtain rfl | rfl := hr <;> exact ⟨meets_of (by decide), meets_of (by decide), meets_of (by decide)⟩

/-- The workgroup with counted barrier 31 at a generation, a count and a target. -/
def counted (gen count target : BitVec 16) : Workgroup :=
  { group with cbars := group.cbars.set 31 { gen := gen, count := count, target := target } }

/-- Thread 1 waits at counted barrier 31. -/
def waiting31 (f : Fibre) : Fibre :=
  { f with threads := f.threads.modify 1 (fun t => { t with st := 1#4, wait := .cbar 31 5#16, wlen := 4 }) }

theorem hyps_CountedBarriers :
    (tget (lab 1#32).wgs (fibre id).wg = some group ∧ group.cbars.length = 32) ∧
    (∀ r ∈ [Instr.cbarArvW (w 0 2 3), .cbarArvL (l false false 0 2 3 0 0 0 0), .cbarArvL (l false false 0 2 3 0 0 1 0),
        .cbarWtW (w 0 2 3), .cbarWtL (l false false 0 2 3 0 0 0 0)],
      Meets 1#32 (args 31#32 1#32) r (barSrcs 2 3) [] ∧ Meets 1#32 (args 31#32 0#32) r (barSrcs 2 3) [] ∧
      Meets 1#32 (args 32#32 1#32) r (barSrcs 2 3) []) ∧
    ((opdLow (lab 1#32 (args 31#32 0x10000#32)) 0 (fibre (args 31#32 0x10000#32)) 1#32 (.sel 3#7)).toNat = 65536) ∧
    (settled { gen := 5#16, count := 1#16, target := 3#16 } (1 + 1)).gen = 5#16 ∧
    (settled { gen := 5#16, count := 2#16, target := 3#16 } (2 + 1)).gen = 6#16 ∧
    (memBusy (busy (args 31#32 1#32)) 0 = true ∧ memBusy (lab 1#32 (args 31#32 1#32)) 0 = false) ∧
    (cbarOf group 31).gen = 0#16 ∧ (cbarOf (counted 5#16 0#16 3#16) 31).gen = 5#16 ∧
    cbarUnwaited ((lab 1#32).goneOn 0 (fibre id) 1#32 4) 0 31 ∧
    (∃ e ∈ ((lab 1#32 waiting31).goneOn 0 (fibre waiting31) 1#32 4).fibs, e.2.wg = 0 ∧
      ∃ th ∈ e.2.threads, ∃ g, th.wait = .cbar 31 g) := by
  refine ⟨⟨rfl, rfl⟩, ?_, by decide, by decide, by decide, by decide, by decide, by decide, ⟨?_, ?_⟩,
    ⟨_, List.mem_singleton_self _, rfl, _, List.mem_cons_of_mem _ (List.mem_cons_self ..), 5#16, rfl⟩⟩
  · intro r hr
    simp only [List.mem_cons, List.not_mem_nil, or_false] at hr
    obtain rfl | rfl | rfl | rfl | rfl := hr <;> exact ⟨meets_of (by decide), meets_of (by decide), meets_of (by decide)⟩
  · have h : ((lab 1#32).goneOn 0 (fibre id) 1#32 4).fibs.all (fun e => e.2.threads.all (fun t => t.wait == .none)) = true := by
      decide
    intro e he _ t ht g hg
    have := List.all_eq_true.mp (List.all_eq_true.mp h e he) t ht
    rw [hg] at this
    exact absurd this (by simp)
  · intro e he
    cases he

theorem hyps_FibreBarriers :
    tget (lab 1#32).slots (fibre id).slot = some (placedSlot 0) ∧
    (∀ r ∈ [Instr.fbarW (w 0 2 0), .fbarL (l false false 0 2 0 0 0 0 0)], ∀ v ∈ [0#32, 1#32, 2#32],
      Meets 0xFFFFFFFF#32 (args v 0#32) r [src (.sel 2#7) Ty.i32] []) ∧
    (placedSlot 0).nfib = 1 ∧ fibId (fibre id).slot 0 = 0 ∧ fibFlights (lab 0xFFFFFFFF#32) 0 = [] ∧ (fibre id).threads.length = 32 ∧
    (∀ k, 1 ≤ k → k < 4 → tget (lab 0xFFFFFFFF#32).fibs (fibId (fibre id).slot k) = none) ∧
    (coreOf (lab 0xFFFFFFFF#32) 0).allocs.getD 0 [] = [] ∧
    (∀ e ∈ (coreOf (lab 0xFFFFFFFF#32) (fibCore 0)).mq, e.2.fib = some 0 → mxDests e.2 = []) := by
  refine ⟨rfl, ?_, by decide, by decide, by decide, by decide, ?_, by decide, by decide⟩
  · intro r hr v hv
    simp only [List.mem_cons, List.not_mem_nil, or_false] at hr hv
    obtain rfl | rfl := hr <;> obtain rfl | rfl | rfl := hv <;> exact meets_of (by decide)
  · intro k h1 h2
    have : k = 1 ∨ k = 2 ∨ k = 3 := by omega
    obtain rfl | rfl | rfl := this <;> rfl

/-- The workgroup with handle 7 in a state. -/
def handled (h : Handle) : Workgroup := { group with handles := group.handles.set 7 h }

/-- The workgroup with a collective copy on that handle, which has failed and which one of its slots has yet to join. -/
def joining : Workgroup :=
  { handled (Handle.mk .error 7#8 none none) with
    colls := [{ k := 0, handle := some 7, joined := [], pending := [2], follow := none, cancelled := false }] }

/-- Handle 7 by its number and by a register, in each state. -/
theorem hyps_HandleInstructions :
    (∀ r ∈ [Instr.waitW (w 0 2 0), .waitL (l false false 0 2 0 0 0 0 0), .cnclW (w 0 2 0), .cnclL (l false false 0 2 0 0 0 0 0)],
      Meets 1#32 (args 7#32 0#32) r [src (.sel 2#7) Ty.i32] []) ∧
    (∀ r ∈ [Instr.waitL (l false false 0 0 0 0 0 0 0x47), .cnclL (l false false 0 0 0 0 0 0 0x47)], Meets 1#32 id r [] []) ∧
    (∀ r ∈ [Instr.testW (w 4 2 0), .testL (l false false 4 2 0 0 0 0 0)], Meets 1#32 (args 7#32 0#32) r [src (.sel 2#7) Ty.i32] [4]) ∧
    handleNamed (lab 1#32 (args 7#32 0#32)) 0 (fibre (args 7#32 0#32)) 1#32 (handleW (w 0 2 0)) = 7 ∧
    handleNamed (lab 1#32) 0 (fibre id) 1#32 (l false false 0 0 0 0 0 0 0x47) = 7 ∧
    (handleAt group 7).st = .free ∧
    (∀ x ∈ [Handle.mk .filling 0#8 (some 2) none, .mk .full 0#8 none none, .mk .draining 0#8 (some 2) none, .mk .error 7#8 none none,
        .mk .filling 0#8 none (some 2)], handleAt (handled x) 7 = x) ∧
    group.colls = [] ∧ (∃ c ∈ joining.colls, c.handle = some 7) ∧ (handleAt joining 7).st = .error := by
  refine ⟨?_, ?_, ?_, by decide, by decide, by decide, by decide, by decide, by decide, by decide⟩ <;> intro r hr <;>
    simp only [List.mem_cons, List.not_mem_nil, or_false] at hr
  · obtain rfl | rfl | rfl | rfl := hr <;> exact meets_of (by decide)
  · obtain rfl | rfl := hr <;> exact meets_of (by decide)
  · obtain rfl | rfl := hr <;> exact meets_of (by decide)

/-- The workgroup as the primary of a redundant pair. -/
def redundant : Workgroup :=
  { group with red := some { primary := true, twin := 8, sg := 0#64, ck := 0, mismatch := 0, rerun := 0, log := [], reads := [] } }

/-- A release by another fibre, at scope .dev. -/
def released : RelRec := { scope := 6, fib := 64, lane := 0, wg := 8, core := 1, fn := 0, peer := none }

theorem hyps_FenceAndPhase :
    (∀ i ∈ [Instr.fenceW (w 9 0 0), .fenceL (l false false 9 0 0 0 0 2 0), .phaseW (w 9 0 0), .phaseL (l false false 9 0 0 0 0 0 0)],
      i.wellFormed = true) ∧
    Issuing (lab 1#32) 0 (fibre id) 1#32 ∧ memBusy (lab 1#32) 0 = false ∧ redKey (lab 1#32) (fibre id).wg = none ∧
    (Issuing (busy id) 0 (fibre id) 1#32 ∧ memBusy (busy id) 0 = true) ∧
    (Issuing { lab 1#32 with wgs := [(0, redundant)] } 0 (fibre id) 1#32 ∧
      (redKey { lab 1#32 with wgs := [(0, redundant)] } (fibre id).wg).isSome = true) ∧
    ((fibre id).seenRel = [] ∧ (fibre (fun f => { f with seenRel := [(0, released)] })).seenRel = [(0, released)]) :=
  ⟨by decide, issuing_lab _ _, by decide, by decide, ⟨⟨rfl, rfl, rfl⟩, by decide⟩, ⟨⟨rfl, rfl, rfl⟩, by decide⟩, ⟨rfl, rfl⟩⟩

/-- The device with a debug session that holds every context of function 0, with rights. -/
def session (rights : BitVec 6) (s : State) : State :=
  { s with
    fns := [(0, { Fn.reset with session := some 5#32 })]
    caps := [{ expiry := 0#64, capid := 5#32, parent := 0#32, ctxid := 0#16, hfn := 0, gfn := 0, allctx := true, rights := rights }] }

/-- A fibre in handler mode, with the frame of its own place. -/
def handling (f : Fibre) : Fibre :=
  { f with handler := some { code := 0x80#8, frame := 0, waits := List.replicate 32 (.none, 0), gone := 0#32 } }

/-- All threads but thread 0 have exited. -/
def alone (f : Fibre) : Fibre :=
  { f with threads := f.threads.zipIdx.map (fun (t, j) => if j = 0 then t else { t with st := 3#4 }) }

theorem hyps_TrapInstructions :
    (∀ i ∈ [Instr.trap (l false false 0 0 0 0 0 0 255), .rteW (w 0 0 0), .rteL (l false false 0 0 0 0 0 0 0), .haltW (w 0 0 0),
        .haltL (l false false 0 0 0 0 0 0 0), .bkptW (w 0 0 0), .bkptL (l false false 0 0 0 0 0 0 0)], i.wellFormed = true) ∧
    (Issuing (lab 1#32) 0 (fibre id) 1#32 ∧ (fibre id).handler = none ∧ ctxSession (lab 1#32) (fibCtx (lab 1#32) (fibre id)) = none) ∧
    (Issuing (lab 1#32 handling) 0 (fibre handling) 1#32 ∧ (fibre handling).handler.isSome = true ∧
      ∃ g, tget ((lab 1#32 handling).waiting 0 (fibre handling) 1#32 4 .rte).fibs 0 = some g ∧
        ∃ t ∈ g.threads, t.st ≠ 3#4 ∧ t.st ≠ 6#4 ∧ (t.st ≠ 1#4 ∨ t.wait ≠ .rte)) ∧
    (let h := fun f => alone (handling f)
     Issuing (lab 1#32 h) 0 (fibre h) 1#32 ∧ ∃ g, tget ((lab 1#32 h).waiting 0 (fibre h) 1#32 4 .rte).fibs 0 = some g ∧
        (∀ t ∈ g.threads, t.st = 3#4 ∨ t.st = 6#4 ∨ (t.st = 1#4 ∧ t.wait = .rte)) ∧ ∃ t ∈ g.threads, t.st = 1#4) ∧
    (Issuing (session 63#6 (lab 1#32)) 0 (fibre id) 1#32 ∧
      ∃ p, ctxSession (session 63#6 (lab 1#32)) placedCtx = some p ∧ p.rights.getLsbD 3 = true) ∧
    (∃ p, ctxSession (session 1#6 (lab 1#32)) placedCtx = some p ∧ p.rights.getLsbD 3 = false) := by
  refine ⟨by decide, ⟨issuing_lab _ _, rfl, by decide⟩, ⟨issuing_lab _ _, rfl, _, rfl, by decide⟩,
    ⟨issuing_lab _ _, _, rfl, by decide, by decide⟩, ⟨⟨rfl, rfl, rfl⟩, _, rfl, rfl⟩, _, rfl, rfl⟩

/-- The device whose context has a handler and a frame area at an address. -/
def vectored (tfa : Addr) (usable : Bool) (s : State) : State :=
  { s with ctxs := kset s.ctxs placedCtx { ctxOf s placedCtx with
      page := some { hdlr := 0x1000#64, tfa := tfa, savea := 0#64, savesz := 0, magic := false, usable := usable, remote := false } } }

/-- TRAP 5, as a trap. -/
def trap5 : Trap := { code := 0x80#8, cause := 0#8, addr := 0#64, fm := 1#32, num := 5#8 }

/-- Something outstanding; no page; a page that is not usable; a frame in the mapped page, and one in none. -/
theorem hyps_TrapEntry :
    (tget (lab 1#32).fibs 0 = some (fibre id) ∧ tget (lab 1#32).wgs (fibre id).wg = some group ∧
      (tget (lab 1#32).launches group.lid).isSome = true ∧
      (fibre id).trap = none ∧ (fibre id).threads.length = 32) ∧
    (busy id).flights.any (fun e => e.2.fib == 0) = true ∧
    ((lab 1#32).flights.any (fun e => e.2.fib == 0) = false ∧ redKey (lab 1#32) (fibre id).wg = none ∧
      (fibre id).handler = none ∧ (ctxOf (lab 1#32) group.ctx).page = none ∧ trapAtHand (lab 1#32) 0 = true) ∧
    trapAtHand (around (vectored 0x130000000001000#64 true (lab 1#32))) 0 = false ∧
    trapAtHand (vectored 0x1000#64 true (lab 1#32)) 0 = true ∧ trapAtHand (vectored 0x1000#64 false (lab 1#32)) 0 = true ∧
    trapAtHand (vectored 0x9000#64 true (lab 1#32)) 0 = true ∧
    (∃ pg, (ctxOf (vectored 0x1000#64 false (lab 1#32)) group.ctx).page = some pg ∧ pg.usable = false) ∧
    (∃ pg, (ctxOf (vectored 0x1000#64 true (lab 1#32)) group.ctx).page = some pg ∧ pg.usable = true) ∧
    (ctxOf (vectored 0x1000#64 true (lab 1#32)) group.ctx).encl.extractLsb' 0 8 = 0#8 ∧
    good (writeGot (vectored 0x1000#64 true (lab 1#32)) [] placedCtx (List.replicate 5 0#32) true 0x1000
      (frameImage (lab 1#32) (fibre id) trap5 group (placedLaunch [] 1) 0)) = true ∧
    good (writeGot (vectored 0x9000#64 true (lab 1#32)) [] placedCtx (List.replicate 5 0#32) true 0x9000
      (frameImage (lab 1#32) (fibre id) trap5 group (placedLaunch [] 1) 0)) = false := by
  refine ⟨⟨rfl, rfl, rfl, rfl, rfl⟩, by decide, ⟨by decide, by decide, rfl, rfl, by decide⟩, by decide,
    by decide, by decide, by decide, ⟨_, rfl, rfl⟩, ⟨_, rfl, rfl⟩, by decide, by decide +kernel, by decide +kernel⟩

/-- A frame in the mapped page, whose entries are sound; one in none; and one with an odd pc in its first entry. -/
theorem hyps_TrapReturn :
    (tget (lab 1#32 handling).fibs 0 = some (fibre handling) ∧ (fibre handling).handler.isSome = true ∧
      (fibre handling).threads.length = 32 ∧
      ∃ pg, (ctxOf (vectored 0x1000#64 true (lab 1#32 handling)) group.ctx).page = some pg ∧ pg.tfa = 0x1000#64) ∧
    good (readFresh (vectored 0x1000#64 true (lab 1#32 handling)) [] 0 placedCtx none (List.replicate 5 0#32) true 0x1000 0x640) = true ∧
    good (readFresh (vectored 0x9000#64 true (lab 1#32 handling)) [] 0 placedCtx none (List.replicate 5 0#32) true 0x9000 0x640) = false ∧
    (frameEntry (List.replicate 0x640 0#8) 0).getLsbD 0 = false ∧
    (frameEntry (List.replicate 0x40 0#8 ++ [1#8] ++ List.replicate 0x5FF 0#8) 0).getLsbD 0 = true := by
  refine ⟨⟨rfl, rfl, rfl, _, rfl, rfl⟩, by decide +kernel, by decide +kernel, by decide +kernel, by decide +kernel⟩

/-- SRD of a form's number. -/
def srdOf (d n : Nat) : Instr := .srd (l false false d 0 0 0 0 0 n)

theorem hyps_SpecialRegisterReads :
    (∀ n ∈ [0x000, 0x001, 0x004, 0x031, 0x810, 0x818, 0xFFF], Meets 1#32 id (srdOf 62 n) [] [62]) ∧
    Meets 1#32 handling (srdOf 63 0x818) [] [63] ∧ redKey (lab 1#32) (fibre id).wg = none ∧
    (∀ e ∈ specialRegs (lab 1#32) 0 (fibre id), e.1 ≠ 0x000 ∧ e.1 ≠ 0xFFF) ∧
    (∀ n ∈ [0x001, 0x004, 0x031, 0x810, 0x818], ∃ e ∈ specialRegs (lab 1#32) 0 (fibre id), e.1 = n) ∧
    srPending (lab 1#32) 0 0x031 = false ∧ (fibre id).handler = none ∧ (fibre handling).handler.isSome = true ∧
    (wideReg 0x001 = false ∧ wideReg 0x818 = true) ∧ (62 + 1 < windowOf (lab 1#32) (fibre id) ∧ windowOf (lab 1#32) (fibre id) ≤ 63 + 1) := by
  refine ⟨?_, meets_of (by decide), by decide, by decide, by decide, by decide, rfl, rfl, by decide, by decide⟩
  intro n hn
  simp only [List.mem_cons, List.not_mem_nil, or_false] at hn
  obtain rfl | rfl | rfl | rfl | rfl | rfl | rfl := hn <;> exact meets_of (by decide)

/-- SWR of a form's number. -/
def swrOf (n : Nat) : Instr := .swr (l false false 0 2 0 0 0 0 n)

theorem hyps_SpecialRegisterWrites :
    (∀ n ∈ [0x000, 0x001, 0x031, 0x03A, 0x818], Meets 1#32 (args 0xFFFFFFFF#32 0#32) (swrOf n) [src (.sel 2#7) Ty.i32] []) ∧
    (∀ n ∈ [0x810, 0x811, 0x812, 0x813, 0x814, 0x815],
      Meets 1#32 (fun f => handling (args 0xFFFFFFFF#32 0#32 f)) (swrOf n) [src (.sel 2#7) Ty.i32] []) ∧
    (∀ e ∈ specialRegs (lab 1#32) 0 (fibre id), e.1 ≠ 0x000) ∧ (∃ e ∈ specialRegs (lab 1#32) 0 (fibre id), e.1 = 0x810) ∧
    srPending (lab 1#32) 0 0x031 = false := by
  refine ⟨?_, ?_, by decide, by decide, by decide⟩ <;> intro n hn <;>
    simp only [List.mem_cons, List.not_mem_nil, or_false] at hn
  · obtain rfl | rfl | rfl | rfl | rfl := hn <;> exact meets_of (by decide)
  · obtain rfl | rfl | rfl | rfl | rfl | rfl := hn <;> exact meets_of (by decide)

/-- A core with a boost of a context and a price of 1 for level 1. -/
def boosting (b : Option Boost) : Core := { core0 with boost := b, bprice := 1#32 }
def boostOfCtx (k : CtxKey) : Boost :=
  { ctx := k, part := 0, level := 1, dur := 65536, start := 0, cost := 1, susp := none, suspended := 0, order := 0, byPower := false }

/-- Operands at the edges: a level of 3 and of 4, a duration of 65,535 and of 65,536, a budget of 0 and of 1. -/
theorem hyps_BoostStatus :
    (∀ x ∈ [(4#32, 0#32), (3#32, 65535#32), (1#32, 65536#32), (0#32, 1#32), (0#32, 0#32)],
      Meets 1#32 (args x.1 x.2) (.boostW (w 4 2 3)) (barSrcs 2 3) [4] ∧
      Meets 1#32 (args x.1 x.2) (.boostL (l false false 4 2 3 0 0 0 0)) (barSrcs 2 3) [4]) ∧
    redKey (lab 1#32) (fibre id).wg = none ∧
    (lab 1#32).tick < (lab 1#32).accrualAt ∧ ({ lab 1#32 with tick := 2 ^ 32 } : State).accrualAt ≤ 2 ^ 32 ∧
    (boostOfCtx placedCtx).start + (boostOfCtx placedCtx).dur ≤ ({ lab 1#32 with tick := 65536 } : State).tick ∧
    (lab 1#32).tick < (boostOfCtx placedCtx).start + (boostOfCtx placedCtx).dur ∧
    (coreOf ((lab 1#32).setCore 0 (boosting none)) 0).boost = none ∧
    ((coreOf ((lab 1#32).setCore 0 (boosting (some (boostOfCtx placedCtx)))) 0).boost.map (fun b => b.ctx)) = some placedCtx ∧
    ((coreOf ((lab 1#32).setCore 0 (boosting (some (boostOfCtx { fn := 0, id := 7 })))) 0).boost.map (fun b => b.ctx)) ≠ some placedCtx ∧
    (boosting none).bprice.toNat / 2 ^ (10 * (1 - 1)) % 2 ^ 10 = 1 ∧ (65536 * 1 + (2 ^ 24 - 1)) / 2 ^ 24 = 1 ∧
    (partRec (lab 1#32) 0).maxlvl = 3 ∧ (partRec (lab 1#32) 0).lifebud.toNat = 0 ∧
    ({ Part.reset with lifebud := 1#32 } : Part).lifebud.toNat = 1 := by
  refine ⟨?_, by decide, by decide, by decide, by decide, by decide, by decide, by decide, by decide, by decide, by decide⟩
  intro x hx
  simp only [List.mem_cons, List.not_mem_nil, or_false] at hx
  obtain rfl | rfl | rfl | rfl | rfl := hx <;> exact ⟨meets_of (by decide), meets_of (by decide)⟩

/-- A fibre with 8 registers, in the place of the one with 64. -/
def small (f : Fibre) : Fibre := { f with regs := f.regs.take 8 }

/-- Counts at the edges, with 8 registers held: 0, 7, 8, 16, 64 and 72. -/
theorem hyps_AllocGrants :
    (∀ v ∈ [0#32, 7#32, 8#32, 16#32, 64#32, 72#32],
      Meets 1#32 (fun f => args v 0#32 (small f)) (.allocW (w 4 2 0)) [src (.sel 2#7) Ty.i32] [4] ∧
      Meets 1#32 (fun f => args v 0#32 (small f)) (.allocL (l false false 4 2 0 0 0 0 0)) [src (.sel 2#7) Ty.i32] [4]) ∧
    twinFib (lab 1#32) 0 = none ∧ tget ((lab 1#32).setCore 0 core0).cores (fibCore 0) = some core0 ∧ (fibre small).regs.length = 8 ∧
    (sharedOf (lab 1#32) (fibre id)).length = 0 ∧ inPool (lab 1#32) (fibre id) = false ∧ inPool pool (fibre id) = true ∧
    core0.allocs.length = 4 ∧ (∀ q ∈ core0.allocs, ∀ x ∈ q, x.fib ≠ 0) ∧ core0.allocs.getD (fibSched 0) [] = [] ∧
    64 - 8 ≤ core0.regFree.getD (fibSched 0) 0 ∧ (fibre small).yield = false ∧ (∀ t ∈ (fibre small).threads, t.st ≠ 4#4) := by
  refine ⟨?_, by decide, rfl, rfl, rfl, by decide, by decide, rfl, by decide, rfl, by decide, rfl, by decide⟩
  intro v hv
  simp only [List.mem_cons, List.not_mem_nil, or_false] at hv
  obtain rfl | rfl | rfl | rfl | rfl | rfl := hv <;> exact ⟨meets_of (by decide), meets_of (by decide)⟩

/-- Counts of 0, 8, 63, 64 and 72 with 64 registers held; a write pending to register 63; shadow counts of 0 and 15. -/
theorem hyps_FreeAndShadow :
    (∀ v ∈ [0#32, 8#32, 63#32, 64#32, 72#32],
      Meets 1#32 (args v 0#32) (.freeW (w 0 2 0)) [src (.sel 2#7) Ty.i32] [] ∧
      Meets 1#32 (args v 0#32) (.freeL (l false false 0 2 0 0 0 0 0)) [src (.sel 2#7) Ty.i32] []) ∧
    (pendingPlaces (labF (flying (.load 1 Ty.i32 0 false) [63])) 0 (fibre id) = [63] ∧ pendingPlaces (lab 1#32) 0 (fibre id) = [] ∧
      Readable (labF (flying (.load 1 Ty.i32 0 false) [63])) 0 (fibre id) 1#32 [src (.sel 2#7) Ty.i32] []) ∧
    (∀ a ∈ [112, 113, 127], (Instr.shdwW (w 0 a 0)).wellFormed = true ∧ (Instr.shdwL (l false false 0 a 0 0 0 0 0)).wellFormed = true) ∧
    (fibLaunch (lab 1#32) (fibre id)).isSome = true := by
  refine ⟨?_, by decide, by decide, rfl⟩
  intro v hv
  simp only [List.mem_cons, List.not_mem_nil, or_false] at hv
  obtain rfl | rfl | rfl | rfl | rfl := hv <;> exact ⟨meets_of (by decide), meets_of (by decide)⟩

/-- A second page, of host memory, is mapped at 0x2000; a core stands for the workgroup. -/
def mapped (s : State) : State :=
  { s with
    tlb := s.tlb ++ [{ loc := .cluster 0, fn := 0, asid := 0#12, vbase := 0x2000, size := 4096, pa := 0x2000, entry := 0x20FB#64 }]
    cores := [(0, core0)] }

/-- An access form: address registers 2 and 3, offset zero, destination 4, data register 5. -/
def acc (d c ty imm : Nat) : LForm := l false false d 2 66 c ty 0 imm

/-- Registers 2 and 3 hold an address and a high word. -/
def addr (a : Word) : Fibre → Fibre := args a 0#32

/-- A record in lanes 0 to 3 of register 2: base, its high word, extent and flags; register 3 holds 0. -/
def record (b e fl : Word) (f : Fibre) : Fibre :=
  { f with regs := f.regs.set 2 (Reg.plain (LaneVec.of (fun j => if j = 0 then b else if j = 2 then e else if j = 3 then fl else 0#32))) }

/-- The lanes of an access translate without a fault. -/
def reaches (s : State) (x : Acc) (va : Addr) : Option Place :=
  match translateLanes s (.core 0) placedCtx (List.replicate 5 0#32) false x true [(0, va)] with
  | ([y], []) => some y.2.2
  | _ => none

theorem aligned_of {n : Nat} {las : List LaneAddr} (h : las.all (fun x => x.2.toNat % n == 0) = true) : Aligned n las :=
  fun x hx => by simpa using List.all_eq_true.mp h x hx

theorem hyps_LoadsIssue :
    MemFree (lab 1#32) 0 (fibre id) group ∧ Unwatched (lab 1#32) (fibre id) ∧
    Meets 1#32 (addr 0x1400#32) (.ld (acc 4 0 0 0)) (pairSrcs 2 ++ [src (.sel 66#7) Ty.i32]) [4] ∧
    addrPairOk (windowOf (lab 1#32) (fibre id)) 2 = true ∧
    Meets 1#32 (record 0x1400#32 4#32 0#32) (.ldx (acc 4 0 0 0)) (recordSrcs (acc 4 0 0 0)) [4] ∧
    ((recordAt (lab 1#32 (record 0x1400#32 4#32 0#32)) 0 (fibre (record 0x1400#32 4#32 0#32)) 1#32 (acc 4 0 0 0)).sp = false ∧
      WithinExtent (lab 1#32 (record 0x1400#32 4#32 0#32)) 0 (fibre (record 0x1400#32 4#32 0#32)) 1#32 (acc 4 0 0 0)) ∧
    Aligned 4 (accessAt 1#32 (fun _ => 0x1400#64)) ∧
    reaches (mapped (lab 1#32)) .read 0x1400#64 = some (.dev 0x1400 0) ∧
    reaches (mapped (lab 1#32)) .read 0x2400#64 = some (.sys 0x2400) ∧
    Meets 1#32 (addr 0x1400#32) (.pref (acc 0 0 0 0x400)) (pairSrcs 2 ++ [src (.sel 66#7) Ty.i32]) [] := by
  refine ⟨⟨rfl, rfl, by decide⟩, .inr (by decide), meets_of (by decide), by decide, meets_of (by decide), ⟨by decide, by decide, by decide⟩,
    aligned_of (by decide), by decide +kernel, by decide +kernel, meets_of (by decide)⟩

/-- A load of one word of a line, at hand or not. -/
def loading (p : Place) (dat : Option (BitVec 512)) (policy : Nat) (acq : Bool) : Flight :=
  { flying (.load 1 Ty.i32 policy acq) [4] with
    ord := if acq then 1 else 0
    lanes := [{ lane := 0, va := 0x1400#64, place := p, x := 0#32, y := 0#32, u := 0, ret := none }]
    lines := [{ va := 0x1400#64, place := p, ownMask := 0#64, own := 0#512, data := dat }] }

/-- Stores and a wide release; the path with room for one entry more, and full. -/
theorem hyps_StoresRetire :
    (MemFree (mapped (lab 1#32)) 0 (fibre id) group ∧ Unwatched (mapped (lab 1#32)) (fibre id) ∧ group.red = none ∧
      tget (mapped (lab 1#32)).cores group.core = some core0 ∧ ∀ e ∈ core0.path, e.2.marked = false) ∧
    Meets 1#32 (addr 0x1400#32) (.st (acc 0 5 0 0)) (pairSrcs 2 ++ [src (.sel 66#7) Ty.i32] ++ dataSrcs (acc 0 5 0 0)) [] ∧
    Meets 1#32 (addr 0x1400#32) (.st (acc 0 5 0 0x5200)) (pairSrcs 2 ++ [src (.sel 66#7) Ty.i32] ++ dataSrcs (acc 0 5 0 0x5200)) [] ∧
    Meets 1#32 (record 0x1400#32 4#32 0#32) (.stx (acc 0 5 0 0)) (recordSrcs (acc 0 5 0 0) ++ dataSrcs (acc 0 5 0 0)) [] ∧
    dataOk 64 (acc 0 5 0 0) = true ∧ dataOk 64 (acc 0 62 0 0x10) = true ∧ Aligned 4 (accessAt 1#32 (fun _ => 0x1400#64)) ∧
    good (translate (mapped (lab 1#32)) placedCtx (List.replicate 5 0#32) false .write 0x1400#64) = true ∧
    memBusy (lab 1#32) 0 = false ∧ Mem.scope (acc 0 5 0 0x5200) = 5 ∧ Mem.ord (acc 0 5 0 0x5200) = 2 ∧
    pathUsed core0 + newEntries core0 (storeLines 4 [(0, 0x1400#64, .dev 0x1400 0)] (fun _ => 0)) placedCtx none = 1 ∧
    ownOpen (mapped (lab 1#32)) 0 [(0x1400, 4)] = false ∧ ownOpen (labF (loading (.dev 0x1400 0) none 0 false)) 0 [(0x1402, 1)] = true := by
  refine ⟨⟨⟨rfl, rfl, by decide⟩, .inr (by decide), rfl, rfl, by decide⟩, meets_of (by decide), meets_of (by decide),
    meets_of (by decide), by decide, by decide, aligned_of (by decide), by decide +kernel, by decide, by decide, by decide, by decide,
    by decide, by decide⟩

/-- A store path whose 4,096 entries are in use. -/
theorem hyps_StoresRetire_full :
    ∃ c : Core, (∀ e ∈ c.path, e.2.marked = false) ∧ 4096 < pathUsed c + newEntries c
      (storeLines 4 [(0, 0x1400#64, .dev 0x1400 0)] (fun _ => 0)) placedCtx none := by
  let e : PathEntry :=
    { va := 0#64, place := .sys 0, ctx := placedCtx, wg := none, mask := 0#64, data := 0#512, marked := false, performed := false,
      acked := false, spilled := false, rel := none, fibs := [] }
  refine ⟨{ core0 with path := List.replicate 4096 (0, e) }, ?_, ?_⟩
  · intro x hx
    rw [List.eq_of_mem_replicate hx]
  · have h1 : pathUsed { core0 with path := List.replicate 4096 (0, e) } = 4096 := by
      simp only [pathUsed]
      rw [List.filter_replicate_of_pos (by rfl), List.length_replicate]
    let ln : StoreLine := { va := 0x1400#64, place := .dev 0x1400 0, mask := byteMask 0 4, data := putLineNat 0#512 0 4 0 }
    have h2 : (List.replicate 4096 ((0 : Nat), e)).any (fun (_, e) => entryTakes e ln placedCtx none) = false := by
      rw [List.any_replicate]
      decide
    have h3 : storeLines 4 [(0, 0x1400#64, .dev 0x1400 0)] (fun _ => 0) = [ln] := by decide +kernel
    have h4 : newEntries { core0 with path := List.replicate 4096 (0, e) } [ln] placedCtx none = 1 := by
      simp only [newEntries, List.filter_cons, h2, Bool.not_false, ite_true, List.filter_nil]
      rfl
    rw [h3, h4, h1]
    omega

/-- The last word of the allocation of 4,096 bytes, by offset and by record. -/
theorem hyps_ScratchpadAccesses :
    (MemFree (lab 1#32) 0 (fibre id) group ∧ Unwatched (lab 1#32) (fibre id) ∧ group.scratch = 4096) ∧
    Meets 1#32 (addr 4092#32) (.lds (acc 4 0 0 0)) [src (.sel 2#7) Ty.i32, src (.sel 66#7) Ty.i32] [4] ∧
    Meets 1#32 (addr 4092#32) (.sts (acc 0 5 0 0)) ([src (.sel 2#7) Ty.i32, src (.sel 66#7) Ty.i32] ++ dataSrcs (acc 0 5 0 0)) [] ∧
    Meets 1#32 (record 4092#32 4#32 1#32) (.ldx (acc 4 0 0 0)) (recordSrcs (acc 4 0 0 0)) [4] ∧
    Meets 1#32 (record 4092#32 4#32 1#32) (.stx (acc 0 5 0 0)) (recordSrcs (acc 0 5 0 0) ++ dataSrcs (acc 0 5 0 0)) [] ∧
    SpadRecord (lab 1#32 (record 4092#32 4#32 1#32)) 0 (fibre (record 4092#32 4#32 1#32)) 1#32 group (acc 4 0 0 0) ∧
    dataOk 64 (acc 0 5 0 0) = true ∧ 4 + memW (acc 4 0 0 0) ≤ 64 ∧
    Aligned 4 (accessAt 1#32 (spadOffset (lab 1#32 (addr 4092#32)) 0 (fibre (addr 4092#32)) 1#32 (acc 4 0 0 0))) ∧
    (SpadFits group 4 false (accessAt 1#32 (fun _ => 4092#64)) ∧ SpadFits group 4 true (accessAt 1#32 (fun _ => 4092#64))) := by
  refine ⟨⟨⟨rfl, rfl, by decide⟩, .inr (by decide), by decide⟩, meets_of (by decide), meets_of (by decide), meets_of (by decide),
    meets_of (by decide), ⟨by decide, by decide, ⟨by decide, by decide⟩, by decide, by decide, by decide, by decide⟩, by decide, by decide,
    aligned_of (by decide), ⟨⟨by decide, by decide⟩, by decide, by decide⟩⟩

/-- A misaligned address, one that does not translate; an offset past the end; a record that is malformed, and one too short. -/
theorem hyps_AccessTraps :
    (MemFree (lab 1#32) 0 (fibre id) group ∧ memBusy (lab 1#32) 0 = false ∧ addrPairOk 64 2 = true) ∧
    (∀ x ∈ [0x1402#32, 0x9000#32],
      Meets 1#32 (addr x) (.ld (acc 4 0 0 0)) (pairSrcs 2 ++ [src (.sel 66#7) Ty.i32]) [4] ∧
      Meets 1#32 (addr x) (.st (acc 0 5 0 0)) (pairSrcs 2 ++ [src (.sel 66#7) Ty.i32] ++ dataSrcs (acc 0 5 0 0)) []) ∧
    (∀ x ∈ [4094#32, 4096#32],
      Meets 1#32 (addr x) (.lds (acc 4 0 0 0)) [src (.sel 2#7) Ty.i32, src (.sel 66#7) Ty.i32] [4] ∧
      Meets 1#32 (addr x) (.sts (acc 0 5 0 0)) ([src (.sel 2#7) Ty.i32, src (.sel 66#7) Ty.i32] ++ dataSrcs (acc 0 5 0 0)) [] ∧
      Meets 1#32 (addr x) (.atoms (acc 4 0 0 0)) (src (.sel 2#7) Ty.i32 :: atomSrcs (acc 4 0 0 0)) [4]) ∧
    (∀ x ∈ [(4#32, 2#32), (3#32, 0#32)],
      Meets 1#32 (record 0x1400#32 x.1 x.2) (.ldx (acc 4 0 0 0)) (recordSrcs (acc 4 0 0 0)) [4] ∧
      Meets 1#32 (record 0x1400#32 x.1 x.2) (.stx (acc 0 5 0 0)) (recordSrcs (acc 0 5 0 0) ++ dataSrcs (acc 0 5 0 0)) []) ∧
    ((recordAt (lab 1#32 (record 0x1400#32 4#32 2#32)) 0 (fibre (record 0x1400#32 4#32 2#32)) 1#32 (acc 4 0 0 0)).bad = true ∧
      (recordAt (lab 1#32 (record 0x1400#32 3#32 0#32)) 0 (fibre (record 0x1400#32 3#32 0#32)) 1#32 (acc 4 0 0 0)).extent < 0 + 4) ∧
    (translateLanes (lab 1#32) (.core 0) placedCtx (List.replicate 5 0#32) false .read true [(0, 0x9000#64)]).2 ≠ [] := by
  refine ⟨⟨⟨rfl, rfl, by decide⟩, by decide, by decide⟩, ?_, ?_, ?_, by decide, by decide +kernel⟩ <;> intro x hx <;>
    simp only [List.mem_cons, List.not_mem_nil, or_false] at hx
  · obtain rfl | rfl := hx <;> exact ⟨meets_of (by decide), meets_of (by decide)⟩
  · obtain rfl | rfl := hx <;> exact ⟨meets_of (by decide), meets_of (by decide), meets_of (by decide)⟩
  · obtain rfl | rfl := hx <;> exact ⟨meets_of (by decide), meets_of (by decide)⟩

/-- .add and .tadd on the last word and the last cell; tickets before, at and after the turn. -/
theorem hyps_AtomicResults :
    Meets 1#32 (addr 4092#32) (.atoms (acc 4 0 0 0)) (src (.sel 2#7) Ty.i32 :: atomSrcs (acc 4 0 0 0)) [4] ∧
    Meets 1#32 (addr 4092#32) (.atoms (acc 0 0 0 0xB0)) (src (.sel 2#7) Ty.i32 :: atomSrcs (acc 0 0 0 0xB0)) [] ∧
    (∀ x ∈ [0xFFFFFFFF#32, 0#32, 1#32],
      Meets 1#32 (fun f => withReg 5 x (addr 4088#32 f)) (.atoms (acc 4 5 0 0xC0)) (src (.sel 2#7) Ty.i32 :: atomSrcs (acc 4 5 0 0xC0)) [4]) ∧
    SpadFits group 8 false (accessAt 1#32 (fun _ => 4088#64)) ∧ memBusy (lab 1#32) 0 = false ∧
    (lanesOf 1#32 = [0] ∧ (liveMask (fibre id)).getLsbD 0 = true) ∧
    ((0xFFFFFFFF#32 - readWord group.spad 4092).toInt < 0 ∧ (0#32 - readWord group.spad 4092).toInt = 0 ∧
      0 < (1#32 - readWord group.spad 4092).toInt) := by
  refine ⟨meets_of (by decide), meets_of (by decide), ?_, ⟨by decide, by decide⟩, by decide, by decide, by decide⟩
  intro x hx
  simp only [List.mem_cons, List.not_mem_nil, or_false] at hx
  obtain rfl | rfl | rfl := hx <;> exact meets_of (by decide)

theorem hyps_RequestsIssue :
    (MemFree (lab 1#32) 0 (fibre id) group ∧ Unwatched (lab 1#32) (fibre id) ∧ group.red = none ∧ (fibre id).relMark = none ∧
      (fibre (fun f => { f with relMark := some 6 })).relMark = some 6 ∧ memBusy (lab 1#32) 0 = false) ∧
    Meets 1#32 (addr 0x1400#32) (.atom (acc 4 0 0 0)) (pairSrcs 2 ++ atomSrcs (acc 4 0 0 0)) [4] ∧
    reaches (mapped (lab 1#32)) .atomic 0x1400#64 = some (.dev 0x1400 0) ∧
    reaches (mapped (lab 1#32)) .atomic 0x2400#64 = some (.sys 0x2400) ∧
    (hostAtomFaults 0 Ty.i32 [(0, 0x2400#64, .sys 0x2400)] = [] ∧ hostAtomFaults 0xC Ty.i32 [(0, 0x1400#64, .dev 0x1400 0)] = []) ∧
    (∀ r ∈ [(Instr.enq { acc 4 0 0 0x3000 with b := 3 }, enqSrcs { acc 4 0 0 0x3000 with b := 3 }, [4]),
        (Instr.enq { acc 4 5 0 0x3080 with b := 3 },
          enqSrcs { acc 4 5 0 0x3080 with b := 3 } ++ ticketSrcs { acc 4 5 0 0x3080 with b := 3 } (lab 1#32), [4]),
        (Instr.deq { acc 4 0 0 0x3000 with b := 0 }, [], [4, 5]),
        (Instr.podi { acc 4 0 0 0x3000 with b := 5 }, [srcLanes (.sel 5#7) Ty.i32 (lowMask (lab 1#32))], [4]),
        (Instr.podi { acc 4 0 0 0x3010 with b := 0 }, [], [4]), (Instr.podq { acc 4 0 0 0x3040 with b := 0 }, [], [4])],
      Meets 1#32 (addr 0x1400#32) r.1 (podPair (acc 4 0 0 0x3000) (lab 1#32) ++ r.2.1) r.2.2) ∧
    (podAddr (lab 1#32 (addr 0x1400#32)) 0 (fibre (addr 0x1400#32)) 1#32 (acc 4 0 0 0x3000)).toNat % 64 = 0 := by
  refine ⟨⟨⟨rfl, rfl, by decide⟩, .inr (by decide), rfl, rfl, rfl, by decide⟩, meets_of (by decide), by decide +kernel, by decide +kernel,
    by decide, ?_, by decide⟩
  intro r hr
  simp only [List.mem_cons, List.not_mem_nil, or_false] at hr
  obtain rfl | rfl | rfl | rfl | rfl | rfl := hr <;> exact meets_of (by decide)

/-- A load whose line lies at this device, which the core holds or not; one whose line has come; and one of two lanes of which one
has its line and the other waits for a peer. -/
theorem hyps_LoadEvents :
    (∀ x ∈ [loading (.dev 0x1400 0) none 0 false, loading (.dev 0x1400 0) none 0 true],
      tget (labF x).flights 9 = some x ∧ (∃ p a, x.kind = .load 1 Ty.i32 p a ∧ x.ord = if a then 1 else 0) ∧
      (x.lines[0]?.map (fun y => (y.place, y.data))) = some (.dev 0x1400 0, none) ∧ heldLine (labF x) 0 0x1400 = none ∧
      poisoned (labF x) 0x1400 = false ∧ loadBefore (labF x) 9 0 (openOnLine x 0) = false ∧ atomBefore (labF x) 9 x (openOnLine x 0) = false ∧
      loadBefore { labF x with flights := [(8, x), (9, x)] } 9 0 (openOnLine x 0) = true) ∧
    heldLine { labF (flying (.load 1 Ty.i32 0 false) [4]) with cores := [(0, { core0 with snap := [(0x1400, 0#512)] })] } 0 0x1410 = some 0#512 ∧
    poisoned { lab 1#32 with poisonLines := [0x1400] } 0x1400 = true ∧
    (let x := loading (.dev 0x1400 0) (some 0#512) 0 false
     tget (labF x).fibs x.fib = some (fibre id) ∧ linesReady x = true ∧ x.dst = (List.range 1).map (fun k => regPlace (fibre id) (4 + k)) ∧
       (liveMask (fibre id)).getLsbD 0 = true) ∧
    (let x := loading (.dev 0x1400 0) (some 0#512) 0 false
     let y := { x with
       mask := 3#32
       lanes := x.lanes ++ [{ lane := 1, va := 0#64, place := .peer 3 0, x := 0#32, y := 0#32, u := 0, ret := none }]
       lines := x.lines ++ [{ va := 0#64, place := .peer 3 0, ownMask := 0#64, own := 0#512, data := none }] }
     maySplit { labF y with tick := 128 } y = true ∧ arrivedLanes y 4 &&& y.mask = 1#32 ∧ y.mask &&& ~~~ 1#32 = 2#32) := by
  refine ⟨?_, rfl, by decide, ⟨rfl, by decide, by decide, by decide⟩, by decide, by decide, by decide⟩
  intro x hx
  simp only [List.mem_cons, List.not_mem_nil, or_false] at hx
  obtain rfl | rfl := hx <;>
    exact ⟨rfl, ⟨_, _, rfl, rfl⟩, by decide, by decide, by decide, by decide, by decide, by decide⟩

/-- An entry of a store path. -/
def entry (p : Place) (marked performed : Bool) : PathEntry :=
  { va := 0#64, place := p, ctx := placedCtx, wg := none, mask := 0xF#64, data := 7#512, fibs := [0], marked := marked,
    performed := performed, acked := false, spilled := false, rel := none }

/-- A boundary that is asked for. -/
def asked : Boundary :=
  { id := 3, fib := some 0, len := 4, mask := 1#32, flt := none, scope := 9, ctx := none, lid := none, started := false }

theorem hyps_StoreEvents :
    (∀ e ∈ [entry (.dev 0x1400 0) true false, entry (.sys 0x2400) true false, entry (.dev 0x1400 0) true true, entry (.dev 0x1400 0) false false],
      tget ((lab 1#32).setCore 0 { core0 with path := [(5, e)], bounds := [asked] }).cores 0 = some { core0 with path := [(5, e)], bounds := [asked] } ∧
      tget [(5, e)] 5 = some e) ∧
    (writeLands (lab 1#32) 0x1400 0xF#64 = true ∧ writeLands { lab 1#32 with poisonLines := [0x1400] } 0x1400 0xF#64 = false) ∧
    (lab 1#32).contained = false ∧ boundaryBusy { core0 with bounds := [asked] } = false := by
  refine ⟨?_, by decide, by decide, by decide⟩
  intro e he
  simp only [List.mem_cons, List.not_mem_nil, or_false] at he
  obtain rfl | rfl | rfl | rfl := he <;> exact ⟨rfl, rfl⟩

/-- An atomic of lane 0 on a word of device memory. -/
def atomFlight (k : FKind) (ret : Option Word) (y : Word) : Flight :=
  { flying k [4] with
    lanes := [{ lane := 0, va := 0x1400#64, place := .dev 0x1400 0, x := 1#32, y := y, u := 0, ret := ret },
              { lane := 1, va := 0x1440#64, place := .dev 0x1440 0, x := 1#32, y := y, u := 0, ret := ret }]
    lines := [{ va := 0x1400#64, place := .dev 0x1400 0, ownMask := 0#64, own := 0#512, data := none }] }

theorem hyps_AtomicEvents :
    (∀ x ∈ [atomFlight (.atom 0 Ty.i32 0) none 0#32, atomFlight (.atom 0 Ty.i32 0) (some 0#32) 0#32,
        atomFlight (.tadd Ty.i32 0) none 1#32, atomFlight (.tadd Ty.i32 0) none 0#32, atomFlight (.tadd Ty.i32 0) none 0xFFFFFFFF#32],
      tget (labF x).flights 9 = some x ∧ flightHalted (labF x) 9 = false ∧ x.stage = .request ∧
      (x.lanes.map (fun y => y.lane)).Nodup ∧ isGuest x = false ∧ mustFollow (labF x) 9 x (openOnLine x 0) = false ∧
      poisoned (labF x) 0x1400 = false ∧ (laneReq x 0).isSome = true ∧ tget (labF x).fibs x.fib = some (fibre id) ∧
      twinFib (labF x) 0 = none ∧ logWg (labF x) 0 = none) ∧
    lanesReady (atomFlight (.atom 0 Ty.i32 0) (some 0#32) 0#32) = true ∧ (fibre id).hold ≠ .flight 9 ∧
    (0 < (1#32 - readWord (lab 1#32).mem 0x1404).toInt ∧ (0#32 - readWord (lab 1#32).mem 0x1404).toInt = 0 ∧
      (0xFFFFFFFF#32 - readWord (lab 1#32).mem 0x1404).toInt < 0) := by
  refine ⟨?_, by decide, by decide, by decide⟩
  intro x hx
  simp only [List.mem_cons, List.not_mem_nil, or_false] at hx
  obtain rfl | rfl | rfl | rfl | rfl := hx <;>
    exact ⟨rfl, by decide, rfl, by decide, by decide, by decide, by decide, rfl, rfl, by decide, by decide⟩

/-- A control block at 0x1400 of two slots of one word, with counters. -/
def podBlock (cfg free enqr enqc deqr deqc : Word) : List Word :=
  [cfg, 0x504F4453#32, 0#32, 0#32, 0#32, 0#32, 0#32, free, enqr, enqc, deqr, deqc, 0#32, 0#32, 0#32, 0#32]

/-- A pod operation of lane 0 on the block at 0x1400. -/
def podFlight (k : FKind) (ds : List Nat) (st : PodStage) : Flight :=
  { flying k ds with
    stage := st
    lanes := [{ lane := 0, va := 0x1400#64, place := .dev 0x1400 0, x := 0#32, y := 0#32, u := 0, ret := none }] }

/-- The device with a block and an operation. -/
def podLab (b : List Word) (fl : Flight) : State := (labF fl).podWrite 0x1400 b

/-- An empty block of capacity 2 serves an ENQ and lets a DEQ wait; a full one lets an ENQ wait; a closed one refuses. -/
theorem hyps_PodEvents_decide :
    podDecide (podBlock 0x100#32 2#32 0#32 0#32 0#32 0#32) true 0 0 0#32 1 true = .serve ∧
    podDecide (podBlock 0x100#32 2#32 0#32 0#32 0#32 0#32) false 0 0 0#32 1 true = .wait ∧
    podDecide (podBlock 0x100#32 0#32 2#32 2#32 0#32 0#32) true 0 0 0#32 1 true = .wait ∧
    podDecide (podBlock 0x100#32 0#32 2#32 2#32 0#32 0#32) false 0 0 0#32 2 true = .serve ∧
    podDecide (podBlock 0x400100#32 2#32 0#32 0#32 0#32 0#32) true 0 0 0#32 1 true = .refuse 2 := by
  decide

theorem hyps_PodEvents :
    (∀ fl ∈ [podFlight (.enq 0 0 0#32 [[7#32]]) [4] .request, podFlight (.deq 0 0 0#32) [4, 5] .request,
        podFlight (.podQuery 4) [4] .request, podFlight (.enq 0 0 0#32 [[7#32]]) [4] (.reserved 0),
        podFlight (.deq 0 0 0#32) [4, 5] (.reserved 0), { podFlight (.deq 0 0 0#32) [4, 5] .waiting with waiters := 1, retry := 256 }],
      tget (labF fl).flights 9 = some fl ∧ PodAlone (labF fl) fl ∧ flightHalted (labF fl) 9 = false ∧
      (fl.lanes.head?.map (fun x => x.place)) = some (.dev 0x1400 0) ∧ tget (labF fl).fibs fl.fib = some (fibre id) ∧
      mustFollow (labF fl) 9 fl [(0x1400, 72)] = false ∧ poisoned (labF fl) 0x1400 = false) ∧
    (∀ b ∈ [podBlock 0x100#32 2#32 0#32 0#32 0#32 0#32, podBlock 0x100#32 0#32 2#32 2#32 0#32 0#32, podBlock 0x100#32 1#32 1#32 0#32 0#32 0#32,
        podBlock 0x100#32 0#32 2#32 2#32 1#32 0#32, podBlock 0x400100#32 2#32 0#32 0#32 0#32 0#32],
      podOk (podSeal b) 0x400 4096 = true) ∧
    podWords (podLab (podBlock 0x100#32 2#32 0#32 0#32 0#32 0#32) (podFlight (.podQuery 4) [4] .request)) 0x1400 =
      podSeal (podBlock 0x100#32 2#32 0#32 0#32 0#32 0#32) ∧
    podPage (lab 1#32) (podFlight (.podQuery 4) [4] .request) = (0x400, 4096) ∧ waitTableUsed (lab 1#32) 0x1400 = 0 := by
  refine ⟨?_, by decide, by decide +kernel, by decide +kernel, by decide⟩
  intro x hx
  simp only [List.mem_cons, List.not_mem_nil, or_false] at hx
  obtain rfl | rfl | rfl | rfl | rfl | rfl := hx <;>
    exact ⟨rfl, ⟨by decide, by decide, by decide, rfl⟩, by decide, rfl, rfl, by decide, by decide⟩

/-- An object of sixteen .f32 elements in the mapped page, entry 0, which the device holds, and a launch that may name it. -/
def object : ObjEntry :=
  { base := 0x1000#64, ext := [16, 0, 0, 0, 0], str := [0, 0, 0, 0], scale := 0#64, owner := 0#16, mx := true, wr := true, rd := true,
    ndim := 1, fmt := 8#4, index := 0 }
def xlOne : List (BitVec 32) := [0#32, 0#32, 0#32, 1#32, 0#32]
def withObj (s : State) : State :=
  { s with
    objs := [(placedCtx, 0#32, object)]
    launches := [(1, { placedLaunch [] 1 with xl := xlOne })] }

/-- A copy descriptor of the whole object in register 2, its last words as given; a follow-on MZ of tile 2 in register 3. -/
def descr (pitch : Word) (f : Fibre) : Fibre :=
  let f := { f with regs := f.regs.set 2 (Reg.plain (LaneVec.of (fun j =>
    if j = 5 then 16#32 else if j = 11 then pitch else if j = 12 then 0xFFFFFFFF#32 else 0#32))) }
  { f with regs := f.regs.set 3 (Reg.plain (LaneVec.of (fun j =>
    if j = 0 then 0x00000C43#32 else if j = 1 then 0x20000000#32 else 0#32))) }

/-- A well-formed instruction that a fibre in a given state can read its operands for. -/
def fits (s : State) (f : Fibre) (i : Instr) (xs : List Src) (ds : List Nat) : Bool :=
  i.wellFormed && decide (Readable s 0 f s.cur.mask xs ds)

/-- A header of a program of 64 registers, with its CHECK word. -/
def progHeader : List Byte :=
  ([0x584B4844#32, 0x00010001#32, 8#32, 64#32] ++ List.replicate 11 0#32 ++ [0xA7B3B773#32]).flatMap (fun x => leBytes x.toNat 4)

/-- A group of two with its rank, its element count, and its record, for COLL. -/
def collective (rank : Word) (f : Fibre) : Fibre :=
  { f with regs := f.regs.set 2 (Reg.plain (LaneVec.of (fun j =>
    if j = 0 then 2#32 else if j = 1 then rank else if j = 2 then 4#32 else if j = 4 then 0x1000#32 else 0#32))) }

theorem hyps_AsyncCommands :
    (tget (lab 1#32).slots (fibre id).slot = some (placedSlot 0) ∧ MemFree (withObj (lab 1#32)) 0 (fibre id) group ∧
      objCheck (withObj (lab 1#32)) placedCtx xlOne 0 (fun e => e.rd && e.mx) = .ok object ∧
      objCheck (withObj (lab 1#32)) placedCtx xlOne 1 (fun e => e.rd) = .error 5 ∧ atomOpen (withObj (lab 1#32)) 0 = false ∧
      atomOpen (withObj (labF (atomFlight (.atom 0 Ty.i32 0) none 0#32))) 0 = true) ∧
    (let s := withObj (lab 1#32 (descr 0#32))
     fits s (fibre (descr 0#32)) (.cpy (l false false 4 2 0 0 8 0 0)) [srcLanes (.sel 2#7) Ty.i32 0x1FFF#32] [4] = true ∧
     fits s (fibre (descr 0#32)) (.cpyx (l false false 4 2 3 0 8 0 0))
       [srcLanes (.sel 2#7) Ty.i32 0x1FFF#32, srcLanes (.sel 3#7) Ty.i32 0x1F#32] [4] = true ∧
     tileCheck (copyAt s 0 (fibre (descr 0#32)) 1#32 (l false false 4 2 3 0 8 0 0)) object 8#4 false 4096 = none) ∧
    (let s := withObj (lab 1#32 (descr 4#32))
     tileCheck (copyAt s 0 (fibre (descr 4#32)) 1#32 (l false false 4 2 3 0 8 0 0)) object 8#4 false 4096 = some .operand) ∧
    followTrap 0x2000000000000C43#64 0#32 0#32 0#32 group 1#32 = none ∧
    (freeHandle group = some 1 ∧ freeHandle { group with handles := List.replicate 64 (Handle.mk .full 0#8 none none) } = none) ∧
    (queueFull (lab 1#32) 0 false = false ∧
      queueFull { lab 1#32 with cmds := (List.range 64).map (fun i => (i, { placedCmd 0 with stage := .queued })) } 0 false = true) ∧
    (∀ x ∈ [0x1040#32, 0x1041#32],
      fits (lab 1#32 (addr x)) (fibre (addr x)) (.runs (l false false 4 2 5 0 0 0 0)) (pairSrcs 2 ++ [srcAll (.sel 5#7) Ty.i32]) [4] = true) ∧
    translate (lab 1#32) placedCtx (List.replicate 5 0#32) false .read 0x1000#64 = .ok (.dev 0x1000 0) ∧
    (runnerHeaderOk (leValue progHeader) false = true ∧ runnerHeaderOk 0 false = false) ∧
    (∀ r ∈ [1#32, 2#32], fits (withObj (lab 1#32 (collective r))) (fibre (collective r)) (.coll (l false false 4 2 0 0 8 0 0))
      [srcLanes (.sel 2#7) Ty.i32 0x3F#32] [4] = true) ∧ collElems 0 2 1 4 ≤ object.ext.getD 0 0 := by
  refine ⟨⟨rfl, ⟨rfl, rfl, by decide⟩, by decide, by decide, by decide, by decide⟩, ⟨by decide, by decide, by decide⟩, by decide, by decide,
    by decide, ⟨by decide, by decide +kernel⟩, ?_, by decide +kernel, ⟨by decide +kernel, by decide +kernel⟩, ?_, by decide⟩ <;> intro x hx <;>
    simp only [List.mem_cons, List.not_mem_nil, or_false] at hx <;> obtain rfl | rfl := hx <;> decide

/-- A matrix command as it stands in the queue. -/
def mxCmd (op : Nat) (x : LForm) (a c : Word) : MxCmd :=
  mxIssued 0 (fibre id) 1#32 op x (LaneVec.splat a) (LaneVec.splat 0#32) (LaneVec.splat 0#32) (LaneVec.splat c)

/-- Operands that pass and that fail, tiles and banks within and beyond the grant, and a full queue. -/
theorem hyps_MatrixCommands :
    (MemFree (mapped (lab 1#32)) 0 (fibre id) group ∧ tget (mapped (lab 1#32)).cores group.core = some core0) ∧
    (∀ v ∈ [1024#32, 1#32],
      Meets 1#32 (withReg 5 v) (.mld (l false false 0 2 0 5 8 0 2)) [src (.sel 2#7) Ty.i32, src (.sel 0#7) Ty.i32, src (.sel 5#7) Ty.i32] [] ∧
      Meets 1#32 (withReg 5 v) (.mxm (l false false 0 2 0 5 8 0 2)) [src (.sel 2#7) Ty.i32, src (.sel 0#7) Ty.i32, src (.sel 5#7) Ty.i32] [] ∧
      Meets 1#32 (withReg 5 v) (.mhad (l false false 0 2 3 5 8 0 2)) [src (.sel 2#7) Ty.i32, src (.sel 3#7) Ty.i32, src (.sel 5#7) Ty.i32] []) ∧
    Meets 1#32 id (.msw (l false false 0 0 0 0 0 0 0)) [] [] ∧
    Meets 1#32 id (.mz (l false false 0 2 0 0 0 0 0xF000)) [src (.sel 2#7) Ty.i32] [] ∧
    Meets 1#32 id (.mrd (l false false 4 2 66 66 0 0 0)) [src (.sel 2#7) Ty.i32, src (.sel 66#7) Ty.i32, src (.sel 66#7) Ty.i32] [4, 5] ∧
    Meets 1#32 id (.mst (l false false 0 2 3 5 8 0 0)) (pairSrcs 2 ++ [src (.sel 3#7) Ty.i32, src (.sel 5#7) Ty.i32]) [] ∧
    Meets 1#32 id (.mqry (l false false 4 0 0 0 0 0 0x30)) [] [4] ∧
    ((mxCmd 0 (l false false 0 2 0 5 8 0 2) 0#32 1024#32).operandsOk = true ∧ (mxCmd 0 (l false false 0 2 0 5 8 0 2) 1#32 1024#32).operandsOk = false) ∧
    ((mxCmd 0 (l false false 0 2 0 5 8 0 2) 0#32 1024#32).grantCause group = none ∧
      (mxCmd 0 (l false false 0 2 0 5 8 0 0x802) 0#32 1024#32).grantCause { group with banks := [Bank.zero] } = some 2 ∧
      (mxCmd 4 (l false false 0 2 0 0 0 0 0xF000) 0#32 0#32).grantCause group = none ∧
      (mxCmd 4 (l false false 0 2 0 0 0 0 0xF000) 0#32 0#32).grantCause { group with tiles := List.replicate 15 Tile.zero } = some 1) ∧
    (core0.mq.length < 16 ∧ 16 ≤ (List.replicate 16 ((0 : Nat), mxCmd 1 (z 0) 0#32 0#32)).length) := by
  refine ⟨⟨⟨rfl, rfl, by decide⟩, rfl⟩, ?_, meets_of (by decide), meets_of (by decide), meets_of (by decide), meets_of (by decide),
    meets_of (by decide), by decide, by decide, by decide⟩
  intro v hv
  simp only [List.mem_cons, List.not_mem_nil, or_false] at hv
  obtain rfl | rfl := hv <;> exact ⟨meets_of (by decide), meets_of (by decide), meets_of (by decide)⟩

/-- The device with a matrix command at the head of the queue, number 6. -/
def queue (x : MxCmd) : State := { lab 1#32 with cores := [(0, { core0 with mq := [(6, x)] })] }

theorem hyps_MatrixEvents :
    (∀ x ∈ [mxCmd 2 (l false false 0 2 0 5 8 0 2) 0#32 1024#32, mxCmd 4 (l false false 0 2 0 0 0 0 0xF000) 0#32 0#32,
        mxCmd 5 (l false false 4 2 66 66 0 0 0) 0#32 0#32, mxCmd 7 (l false false 4 0 0 0 0 0 0) 0#32 0#32],
      tget (queue x).cores 0 = some { core0 with mq := [(6, x)] } ∧ tget [(6, x)] 6 = some x ∧ tget (queue x).wgs x.wg = some group ∧
      x.fib = some 0 ∧ tget (queue x).fibs 0 = some (fibre id) ∧ ctxTakes (queue x) placedCtx = true ∧ x.departed = false) ∧
    bankValid ((mxCmd 2 (l false false 0 2 0 5 8 0 2) 0#32 1024#32).bankOf group) = false ∧
    tilePoison { elems := [], word := 0x8000#32 } = true ∧ Mx.tile (l false false 0 2 0 0 0 0 0xF000) < group.tiles.length ∧
    ((mxCmd 2 (l false false 0 2 0 5 8 0 2) 0#32 1024#32).row0 + (mxCmd 2 (l false false 0 2 0 5 8 0 2) 0#32 1024#32).m ≤ 64) := by
  refine ⟨?_, by decide, by decide, by decide, by decide⟩
  intro x hx
  simp only [List.mem_cons, List.not_mem_nil, or_false] at hx
  obtain rfl | rfl | rfl | rfl := hx <;> exact ⟨rfl, rfl, rfl, rfl, rfl, by decide, rfl⟩

/-- A runner with registers 2 to 5. -/
def holding (a b x y : Word) (q : Runner) : Runner := { q with regs := (((q.regs.set 2 a).set 3 b).set 4 x).set 5 y }

/-- The device as it issues an instruction of a runner that holds four words, with the object at hand. -/
def run (a b x y : Word) : State := withObj (labR (holding a b x y))

theorem hyps_RunnerMoves :
    RunnerOf (run 0x1400#32 0#32 0#32 0#32) 2 (holding 0x1400#32 0#32 0#32 0#32 (placedRunner 0 2 0)) (placedCmd 0)
      { group with handles := group.handles } ∧
    (∀ i ∈ [Instr.xmov (l false false 4 2 0 0 0 0 0xFFFC), .xmov (l false false 0 2 0 5 0 1 0), .xmov (l false false 4 2 0 0 0 2 0),
        .xmov (l false false 0 2 0 5 0 3 0), .xmov (l false false 0 2 4 6 0 4 0), .xmov (l false false 0 2 4 6 0 5 0),
        .xmov (l false false 0 2 4 6 0 6 0), .xfil (l false false 0 2 4 5 0 0 0), .xfil (l false false 0 2 4 5 0 1 0),
        .xtil (l false false 0 2 0 0 8 0 0), .xgth (l false false 0 2 4 6 8 0 0), .xsct (l false false 0 2 4 6 8 1 0),
        .xred (l false false 0 2 4 6 8 0 0)], i.wellFormed = true) ∧
    (runnerPairOk (placedRunner 0 2 0) 2 = true ∧ runnerRange (placedRunner 0 2 0) 51 13 = true ∧ RunOk (placedRunner 0 2 0) 63) ∧
    translateBy (run 0x1400#32 0#32 0#32 0#32) (runWalker (run 0x1400#32 0#32 0#32 0#32) 2) placedCtx xlOne false .write 0x1400#64 =
      .ok (.dev 0x1400 0) ∧
    (wordAddr 0x1404 (-4) = 0x1400 ∧ wordAddr (2 ^ 64 - 4) 4 = 2 ^ 64 ∧ wordAddr 0 (-4) = 2 ^ 64 - 4) ∧
    good (runRead (run 0x1400#32 0#32 0#32 0#32) (ctxOfRunner (run 0x1400#32 0#32 0#32 0#32) 2 (placedCmd 0) group) 0 [(0x1400, 16)]) = true ∧
    good (runLines (run 0x1400#32 0#32 0#32 0#32) (ctxOfRunner (run 0x1400#32 0#32 0#32 0#32) 2 (placedCmd 0) group) 0
      [(0x1400, List.replicate 16 1#8)]) = true ∧
    (spadBad group 0 4 = false ∧ spadBad { group with spadPoison := [0] } 0 4 = true ∧ writeLands (run 0#32 0#32 0#32 0#32) 0x1400 (byteMask 0 4) = true) ∧
    (objCheck (run 0#32 0#32 0#32 0#32) placedCtx xlOne 0 (fun e => e.wr) = .ok object ∧
      objCheck (run 0#32 0#32 0#32 0#32) placedCtx xlOne 1 (fun e => e.rd) = .error 5 ∧ object.fmt = 8#4 ∧ objRows object = 1) := by
  refine ⟨⟨⟨rfl, rfl⟩, rfl, rfl, rfl, rfl, by decide⟩, by decide, by decide, by decide +kernel, by decide, by decide +kernel,
    by decide +kernel, by decide, by decide⟩

theorem hyps_RunnerControl :
    RunnerOf (run 31#32 1#32 0#32 0#32) 2 (holding 31#32 1#32 0#32 0#32 (placedRunner 0 2 0)) (placedCmd 0) { group with handles := group.handles } ∧
    (∀ i ∈ [Instr.xsig (l false false 0 2 3 0 0 0 0), .xsig (l false false 0 2 3 0 0 1 0), .xwt (l false false 4 2 3 0 0 0 0),
        .xmxm (l false false 0 2 4 0 0 0 0), .xhs (l false false 4 0 0 0 0 0 0), .xhs (l false false 0 2 0 0 0 1 0),
        .xend (l false false 0 0 0 0 0 0 0)], i.wellFormed = true) ∧
    (group.cbars.length = 32 ∧ putsPending (run 0#32 0#32 0#32 0#32) 2 = false ∧
      (∀ e ∈ (run 0#32 0#32 0#32 0#32).fibs, e.2.hold = .none)) ∧
    (runnerPairOk (placedRunner 0 2 0) 2 = true ∧ runnerRange (placedRunner 0 2 0) 61 3 = true ∧
      (followInstr 0x2000000000000C43#64).isSome = true ∧ followInstr 0#64 = none) ∧
    mxmPasses { followCmd 4 (l false false 0 0 0 0 0 0 0x2000) 0#32 0#32 0#32 0 with swap := false } group = true ∧
    (freeHandle group = some 1 ∧ (handleAt (handled (.mk .filling 0#8 none (some 2))) 7).owner = some 2) := by
  refine ⟨⟨⟨rfl, rfl⟩, rfl, rfl, rfl, rfl, by decide⟩, by decide, ⟨by decide, by decide, by decide⟩, by decide, by decide, by decide⟩

/-- A command of the workgroup with a stage and a kind. -/
def cmd (k : CmdKind) (st : CmdStage) : Cmd := { placedCmd 0 with kind := k, stage := st, handle := 7 }
def withCmd (x : Cmd) : State := { lab 1#32 with cmds := [(2, x)] }

theorem hyps_CommandEvents :
    (let x := cmd (.program 0x1000#64 64 (LaneVec.splat 0#32)) .queued
     resumable (withCmd x) 0 = none ∧ idleRunner (withCmd x) 0 = some 0 ∧ nextCmd (withCmd x) 0 = some (2, x) ∧
      tget (withCmd x).cmds 2 = some x ∧ tget (withCmd x).runners 2 = none) ∧
    nextCmd (lab 1#32) 0 = none ∧
    (let x := cmd (.copy (copyDesc (fun _ => 0)) object 8#4 false false (some (0x2000000000000C43#64, 0#32, 0#32, 0#32)) none) .landed
     (followDue (withCmd x) 2).isSome = true ∧ cmdHalted (withCmd x) 2 = false ∧ cmdComplete (withCmd x) 2 = false) ∧
    (let x := cmd (.copy (copyDesc (fun _ => 0)) object 8#4 false false none none) .landed
     cmdComplete (withCmd x) 2 = true ∧ cmdColl (withCmd x) x = none) ∧
    (wgHalted (lab 1#32) 0 = false ∧ drainReady (lab 1#32) 0 7 = false ∧
      drainReady { lab 1#32 with wgs := [(0, handled (.mk .draining 0#8 none none))] } 0 7 = true) ∧
    (∃ x : Runner, x = { placedRunner 0 2 0 with xwt := some (4 * 64 + 31, 0#16) } ∧ ctxPlaceable (labR (fun _ => x)) placedCtx = true) ∧
    ((groupRec (lab 1#32) 5).servedBy = 5 ∧ groupActive { lab 1#32 with groups := [(5, { active := [0, 1], servedBy := 5 })] } 5 < 3 ∧
      (mergeTarget { lab 1#32 with groups := [(5, { active := [0, 1], servedBy := 5 })] } 1 1).isSome = true) := by
  refine ⟨by decide, by decide, by decide, by decide, by decide, ⟨_, rfl, by decide⟩, by decide⟩

/-- Two workgroups that are the twins of a pair. -/
def twins (sg : BitVec 64) (g : Fibre → Fibre) : State :=
  let red := fun (p : Bool) (t : Nat) (x : BitVec 64) =>
    some { primary := p, twin := t, sg := x, ck := 0, mismatch := 0, rerun := 0, log := [], reads := [] }
  { lab 1#32 with
    wgs := [(0, { group with red := red true 8 0#64, slots := [0] }), (8, { group with red := red false 0 sg, slots := [16], core := 1 })]
    slots := [(0, placedSlot 0), (64, { placedSlot 8 with ord := 0 })]
    fibs := [(0, fibre g), (256, fibre (fun f => g { f with slot := 64, wg := 8 }))] }

/-- The twins with a landed command each, under handle 7, whose writes wait for the comparator; the primary's log holds `log`. -/
def landedTwins (a : BitVec 64) (log : List ReplayEntry) : State :=
  let s := twins 0#64 id
  { s with
    wgs := s.wgs.map (fun (i, w) => (i, { w with red := w.red.map (fun r => { r with log := log }) }))
    cmds := [(2, { placedCmd 0 with stage := .landed, handle := 7, sgc := some 5#64 }),
      (3, { placedCmd 8 with stage := .landed, handle := 7, sgc := some a })] }

/-- SGC agrees, anew and on a re-execution; and it does not. -/
theorem hyps_CommandEvents_sgc :
    (∀ y ∈ [(5#64, []), (5#64, [sgcEntry 7 5#64]), (6#64, [])], ∀ x, pairOf (landedTwins y.1 y.2) 0 = some x →
      wgHalted (landedTwins y.1 y.2) 0 = false ∧ pairMerging (landedTwins y.1 y.2) x = false ∧
      sgcHandle (landedTwins y.1 y.2) x = some 7 ∧ x.r.log[x.r.rerun]? = y.2.head? ∧
      handleSgc (landedTwins y.1 y.2) x.p 7 = 5#64 ∧ handleSgc (landedTwins y.1 y.2) x.t 7 = y.1) ∧
    (pairOf (landedTwins 5#64 []) 0).isSome = true ∧ (pairOf (landedTwins 5#64 [sgcEntry 7 5#64]) 0).isSome = true := by
  refine ⟨?_, by decide, by decide⟩
  intro y hy x hx
  simp only [List.mem_cons, List.not_mem_nil, or_false] at hy
  obtain rfl | rfl | rfl := hy <;> obtain rfl := Option.some.inj (hx.symm.trans rfl) <;> decide

theorem hyps_CommandEvents_twins :
    (pairOf (twins 0#64 id) 0).isSome = true ∧
    (∀ x, pairOf (twins 0#64 id) 0 = some x → wgHalted (twins 0#64 id) 0 = false ∧ pairMerging (twins 0#64 id) x = false ∧
      ctxTakes (twins 0#64 id) placedCtx = true ∧ sgcHandle (twins 0#64 id) x = none) ∧
    (let h := fun f : Fibre => { f with phases := 1, hold := .checkpoint 1 4 1#32 9 none,
                                        threads := f.threads.map (fun t => { t with st := 4#4 }) }
     ∀ x, pairOf (twins 7#64 h) 0 = some x → wgTakes (twins 7#64 h) 0 = true ∧ pairQuiet (twins 7#64 h) x = true ∧
      wgExited (twins 7#64 h) x.p = false ∧ atCheckpoint (twins 7#64 h) x.p (x.r.ck + 1) = true ∧
      atCheckpoint (twins 7#64 h) x.t (x.r.ck + 1) = true ∧ x.r.sg ≠ x.twinSg) := by
  refine ⟨by decide, ?_, ?_⟩
  · intro x hx
    obtain rfl := Option.some.inj (hx.symm.trans rfl)
    decide
  · intro h x hx
    obtain rfl := Option.some.inj (hx.symm.trans rfl)
    decide

/-- Page tables from 0 on, which map the page at 0x1000 and one of host memory at 0x2000. -/
def tabled (m : Bytes) : Bytes :=
  [(0x0, 0x3001), (0x3000, 0x4001), (0x4000, 0x5001), (0x5008, 0x107B), (0x5010, 0x20FB)].foldl
    (fun m e => writeBytes m e.1 (leBytes e.2 8)) m

/-- A device whose queue 0 holds one packet in its ring at 0x1800, its descriptor at 0x2000; beside the ring stand a launch
record with its header and one word. The page tables of its context, from 0 on, map the page at 0x1000 and one of host memory
at 0x2000; its context table lies at 0x7000. -/
def desk (p : Nat) : State :=
  let put := fun (m : Bytes) (a : Nat) (bs : List Byte) => writeBytes m a bs
  let header := ([0x584B4844, 1, 8, 64] ++ List.replicate 11 0 ++ [0xA7B4B773]).flatMap (fun x => leBytes x 4)
  let rec0 := 0x1940 + 2 ^ 24 * 2 ^ 656 + 0xFFFF * 2 ^ 784 + 2 ^ 896
  { base with
    fns := [(0, { fnOf base 0 with qtab := 0x2000#64, ctxtab := 0x7000#64 })]
    mem := put (put (put (put (put (tabled base.mem) 0x1800 (leBytes p 16)) 0x1880 (leBytes rec0 128)) 0x1940 header) 0x19C0 (leBytes 7 4)) 0x2000
      (leBytes (0x1800 * 2 ^ 448 + 2 ^ 416 + 2 ^ 356) 64) }

def q0 : QueueRef := { fn := 0, q := 0 }

/-- The packet of a type with a pointer and an argument. -/
def pktWord (ty ptr arg : Nat) : Nat := ty + arg * 2 ^ 32 + ptr * 2 ^ 64

/-- Queue 0 is ready to begin the packet of its ring. -/
def readies (ty ptr arg : Nat) : Bool :=
  match readPacket (desk (pktWord ty ptr arg)) q0 (packetOf (pktWord ty ptr arg)) (fun t => t == ty) with
  | .ready _ d b => d == 0 && b == none
  | .wait _ => false

/-- What the launch packet of the ring is read with. -/
def atLaunch (f : State → LaunchRead → Bool) : Bool :=
  match readPacket (desk (pktWord 1 0x1880 0)) q0 (packetOf (pktWord 1 0x1880 0)) (fun t => t == 1) with
  | .ready u _ _ =>
    let r := queueRun u q0 (writtenXl (ctxOf u (queueCtx u q0)))
    match readCount u q0 r 0x1880#64 false with
    | .ok (n, g) =>
      match readLaunch u r 0x1880#64 n g with
      | .ok x => f u x
      | .error _ => false
    | .error _ => false
  | .wait _ => false

def launchCode (u : State) (x : LaunchRead) : Nat :=
  checkCode x.recN x.hdrN (headerOf (recKhdr x.recN + 64#64) x.hdrN) (recordOf 0x1880#64 x.recN x.g) false x.map (coreTable u 0)

/-- What a WAITV finds, as a number: met, unmet, the line is not here, or a queue error. -/
def waitvFinds (v : WaitvRead) : Nat :=
  match v with
  | .met _ => 0
  | .unmet _ => 1
  | .need _ => 2
  | .bad _ _ => 3

/-- Two threads apart from the rest: thread 0 at 0x1000 and the others at `q`. -/
def apart (q : Addr) (rv : Addr) (ft : Nat) (f : Fibre) : Fibre :=
  { f with ft := ft, rv := rv, threads := f.threads.take 1 ++ (f.threads.drop 1).map (fun t => { t with pc := q }) }

/-- A pool launch of which one thread is parked, and its exited fibre. -/
def poolParked : Launch := ({ poolLaunch with lr := { poolLaunch.lr with auxa := 0x1400#64 }, live := 1 } : Launch).park 0 0x1000#64 0
def parkedLab : State :=
  { lab 1#32 (fun f => { f with threads := f.threads.map (fun t => { t with st := 3#4 }) }) with launches := [(1, poolParked)] }

/-- A launch of two workgroups on the cores of its table, of which the second has not started. -/
def startLaunch : Launch := { placedLaunch [] 1 with total := 2, remap := List.range 16 }
def starting : State := { lab 1#32 with launches := [(1, startLaunch)] }

theorem hyps_FibreEvents :
    (trapReady (lab 1#32) 0 = none ∧
      (let f := fibre (fun f => { f with trap := some trap5 })
       tget (lab 1#32 (fun f => { f with trap := some trap5 })).fibs 0 = some f ∧ f.trap = some trap5 ∧
       fibFlights (lab 1#32 (fun f => { f with trap := some trap5 })) 0 = [] ∧
       twinFib (lab 1#32 (fun f => { f with trap := some trap5 })) 0 = none ∧
       trapAtHand (lab 1#32 (fun f => { f with trap := some trap5 })) 0 = true ∧
       trapAtHand (around (vectored 0x130000000001000#64 true (lab 1#32 (fun f => { f with trap := some trap5 })))) 0 = false)) ∧
    (∀ x ∈ [(0x1010#64, 65535), (0x1000#64, 65536), (0x1010#64, 65536)],
      let f := fibre (apart 0x1010#64 x.1 x.2)
      let s := lab 1#32 (apart 0x1010#64 x.1 x.2)
      tget s.fibs 0 = some f ∧ (f.ft < fairLim s f ↔ x.2 = 65535) ∧ f.burst = none ∧ heldRun s f = none ∧ f.ready = true ∧
      lowestPc (readyThreads f) = some 0x1000#64 ∧
      lowestPc ((readyThreads f).filter (fun y => decide (y.2 ≠ 0x1000#64 ∧ f.rv.toNat < y.2.toNat))) =
        (if x.1 = 0x1000#64 then some 0x1010#64 else none) ∧
      lowestPc ((readyThreads f).filter (fun y => decide (y.2 ≠ 0x1000#64))) = some 0x1010#64) ∧
    (∀ n ∈ [2047, 2048],
      let s := { lab2 with slots := [(0, { placedSlot 0 with nfib := 2, consec := n })] }
      tget s.slots 0 = some { placedSlot 0 with nfib := 2, consec := n } ∧ tget s.fibs (fibId 0 0) = some (fibre id) ∧
      heldRun s (fibre id) = none ∧ nextReady s 0 0 = some 1) ∧
    (let f := fibre (fun f => { f with threads := f.threads.map (fun t => { t with st := 3#4 }) })
     tget parkedLab.fibs 0 = some f ∧ tget parkedLab.wgs f.wg = some group ∧ tget parkedLab.launches group.lid = some poolParked ∧
      poolParked.lr.pool = true ∧ f.exited = true ∧ group.ending = false ∧ f.hold = .none ∧ ctxPlaceable parkedLab group.ctx = true ∧
      fibFlights parkedLab 0 = [] ∧
      pickGroup poolParked parkedLab.tick true = some [{ idx := 0, pc := 0x1000#64, since := 0, bin := 0 }] ∧
      (readGot parkedLab f.got group.ctx poolParked.xl false .read 0x1400 (recordSize poolParked)).toOption =
        some (List.replicate 384 0#8) ∧
      groupLines parkedLab f group poolParked [{ idx := 0, pc := 0x1000#64, since := 0, bin := 0 }] = [] ∧
      poolParked.hdr.priv ≤ f.regs.length + (coreOf parkedLab group.core).regFree.getD (fibSched 0) 0) ∧
    (tget starting.launches 1 = some startLaunch ∧ startLaunch.lr.rdn = false ∧ startable starting startLaunch 16 = false ∧
      startable starting startLaunch 1 = true ∧
      (∀ k ∈ starting.launches, ¬ (goesBefore starting k.2 startLaunch = true ∧ startable starting k.2 1 = true)) ∧
      nextWg startLaunch 1 = some 1 ∧ (placesOn starting startLaunch 1).isSome = true ∧
      (launchGrant starting startLaunch 1).isSome = true) ∧
    (wgMayEnd (lab 1#32) 0 = false ∧
      wgMayEnd { lab 1#32 with wgs := [(0, { group with ending := true, handles := List.replicate 64 Handle.unused })] } 0 = true ∧
      tget (lab 1#32).launches 1 = some (placedLaunch (lab 1#32).mem 1)) ∧
    (∀ n ∈ [2 ^ 32 - 1, 2 ^ 32],
      let s := { lab 1#32 (first (fun t => { t with st := 1#4, wait := .bar 7, since := 0 })) with tick := n, launches := [(1, placedLaunch [] 1)] }
      tget s.wgs 0 = some group ∧ tget s.launches group.lid = some (placedLaunch [] 1) ∧ watchStart s 0 0 7 group = some 0 ∧
      (placedLaunch [] 1).lr.wdt = 2 ^ 32 ∧ ctxPlaceable s group.ctx = true ∧
      (∀ e ∈ s.wgs, e.2.lid = group.lid → ∀ o ∈ watchObjects s e.1 e.2, watchDue s e.1 o.1 o.2 e.2 = true →
        ¬ watchKey s e.1 o.1 o.2 e.2 < watchKey s 0 0 7 group)) := by
  refine ⟨⟨by decide, rfl, rfl, by decide, by decide, by decide, by decide⟩, ?_, ?_,
    ⟨rfl, rfl, rfl, rfl, by decide, rfl, rfl, by decide, by decide, by decide, by decide +kernel, by decide +kernel, by decide⟩,
    ⟨rfl, rfl, by decide, by decide, by decide +kernel, by decide, by decide, by decide⟩, ⟨by decide, by decide, rfl⟩, ?_⟩ <;> intro x hx <;>
    simp only [List.mem_cons, List.not_mem_nil, or_false] at hx
  · obtain rfl | rfl | rfl := hx <;> exact ⟨rfl, by decide, rfl, rfl, by decide, by decide, by decide, by decide⟩
  · obtain rfl | rfl := hx <;> exact ⟨rfl, rfl, rfl, by decide⟩
  · obtain rfl | rfl := hx <;> exact ⟨rfl, rfl, by decide, rfl, by decide, by decide +kernel⟩

/-- Two barriers whose waits began in one tick: barrier 3 is recorded, not barrier 7 (R451). -/
theorem hyps_FibreEvents_order :
    let s := { lab 1#32 (fun f => { f with threads := f.threads.zipIdx.map (fun (t, i) =>
      if i < 2 then { t with st := 1#4, wait := .bar (if i = 0 then 7 else 3), since := 0 } else t) }) with
        tick := 2 ^ 32, launches := [(1, placedLaunch [] 1)] }
    (0, group) ∈ s.wgs ∧ (0, 3) ∈ watchObjects s 0 group ∧ watchDue s 0 0 3 group = true ∧ watchDue s 0 0 7 group = true ∧
      watchKey s 0 0 3 group < watchKey s 0 0 7 group ∧ watchFirst s 0 0 3 group = true := by
  decide +kernel

/-- The record can be written, and it meets a poisoned line (R449). -/
theorem hyps_FibreEvents_record :
    (writeVirtual (lab 1#32) placedCtx (List.replicate 5 0#32) false 0x1400 (List.replicate 96 0#8)).toOption.isSome = true ∧
    (match writeVirtual { lab 1#32 with poisonLines := [0x1440] } placedCtx (List.replicate 5 0#32) false 0x1400 (List.replicate 96 0#8) with
      | .error k => k
      | .ok _ => 0) = 6 := by
  decide +kernel

/-- The ring and the packet that its words are. -/
def inRing (ty ptr arg : Nat) : State := desk (pktWord ty ptr arg)
def pktOf (ty ptr arg : Nat) : Packet := packetOf (pktWord ty ptr arg)

theorem hyps_PacketEvents :
    (∀ x ∈ [(0, 0, 0), (1, 0x1880, 0), (2, 0x1900, 0), (3, 0x1000, 0xFFF), (4, 0x19C0, 3), (4, 0x9000, 3), (5, 0x19C0, 7), (5, 0x19C0, 8), (5, 0x9000, 8)],
      readies x.1 x.2.1 x.2.2 = true) ∧
    (nextAddr (inRing 0 0 0) { fn := 0, q := 64 } = none ∧ nextAddr (inRing 4 2 0) q0 = some (0x1800, 0, none) ∧
      entryPoisoned (inRing 4 2 0) (queueCtx (inRing 4 2 0) q0) = false ∧
      entryPoisoned { inRing 4 2 0 with poisonLines := [0x7000] } (queueCtx (inRing 4 2 0) q0) = true ∧
      (let u := (inRing 4 2 0).readEntry (queueCtx (inRing 4 2 0) q0)
       (runRead u (queueRun u q0 (ctxOf u (queueCtx (inRing 4 2 0) q0)).force) 0 [(0x1800, 16)]).toOption = some [leBytes (pktWord 4 2 0) 16]) ∧
      packetOf (leValue [leBytes (pktWord 4 2 0) 16].flatten) = pktOf 4 2 0 ∧ (pktOf 4 2 0).bar = false ∧ misuse q0 (pktOf 4 2 0) 0 = some 1) ∧
    (atLaunch (fun u x => decide (launchCode u x = 0 ∧ measuredRanges u (queueCtx u q0) x = [] ∧
        poolRanges x.hdrN (headerOf (recKhdr x.recN + 64#64) x.hdrN) (recordOf 0x1880#64 x.recN x.g) = [] ∧
        wgCount (headerOf (recKhdr x.recN + 64#64) x.hdrN) (recordOf 0x1880#64 x.recN x.g) ≠ 0 ∧
        (recordOf 0x1880#64 x.recN x.g).pool = false)) = true ∧
      atLaunch (fun u x => decide (launchCode u { x with hdrN := 0 } = 2)) = true) ∧
    (let i : Inval := { qr := q0, pkt := 4, flights := [9], entries := [], cmds := [] }
     invalOver (labF (flying (.load 1 Ty.i32 0 false) [9])) i = false ∧ invalOver (lab 1#32) i = true) ∧
    (let s := inRing 4 0x19C0 3
     (∃ k, translate s (queueCtx s q0) (ctxOf s (queueCtx s q0)).force false .write 0x9000#64 = .error k) ∧
     translate s (queueCtx s q0) (ctxOf s (queueCtx s q0)).force false .write 0x19C0#64 = .ok (.dev 0x19C0 0) ∧
     poisoned s 0x19C0 = false ∧ poisoned { s with poisonLines := [0x19C0] } 0x19C0 = true) ∧
    (let s := inRing 5 0x19C0 7
     waitvFinds (readWaitv s q0 0x19C0#64 7#32) = 0 ∧ waitvFinds (readWaitv s q0 0x19C0#64 8#32) = 1 ∧
     waitvFinds (readWaitv s q0 0x9000#64 7#32) = 3 ∧ waitvFinds (readWaitv s q0 0x2400#64 7#32) = 2) ∧
    (let s := inRing 0 0 0
     descField s q0 354 350 = 0 ∧ descField s q0 415 384 = 0 ∧ descField s q0 447 416 = 1 ∧ (tget s.fns 0).isSome = true ∧ s.boot = .up) ∧
    (1 < (2#32 - 0#32 : Word).toNat ∧ (0#32 - 0#32 : Word).toNat < (1#32 - 0#32 : Word).toNat ∧ (1#32 - 0#32 : Word).toNat ≤ 1) := by
  refine ⟨?_, ⟨by decide +kernel, by decide +kernel, by decide +kernel, by decide +kernel, by decide +kernel, by decide +kernel,
      by decide +kernel, by decide +kernel⟩, ⟨by decide +kernel, by decide +kernel⟩, by decide, ⟨⟨0, by decide +kernel⟩, by decide +kernel, by decide +kernel, by decide +kernel⟩,
    ⟨by decide +kernel, by decide +kernel, by decide +kernel, by decide +kernel⟩,
    ⟨by decide +kernel, by decide +kernel, by decide +kernel, by decide +kernel, by decide +kernel⟩, by decide⟩
  intro x hx
  simp only [List.mem_cons, List.not_mem_nil, or_false] at hx
  obtain rfl | rfl | rfl | rfl | rfl | rfl | rfl | rfl | rfl := hx <;> decide +kernel

/-- Function 0's context 1, and a second launch of queue 0 for it; the ring's queue has a priority and a quantum. -/
def ctxB : CtxKey := { fn := 0, id := 1 }

/-- The workgroup as it is saved. -/
def savedForm0 : SavedWg :=
  { id := 0, wg := group, slots := [(0, placedSlot 0)], fibs := [(0, fibre id)], flights := [], runners := [], cmds := [], mq := [] }

/-- The device whose context 0 is in a given state of residency. -/
def residing (r : Residency) (s : State) : State := s.modCtx placedCtx (fun x => { x with res := r })

/-- A saved context 1 waits for the core of context 0; queue 0 has the quantum 1 and queue 1 the priority 3. -/
def wanting (tick : Nat) (l : Launch) : State :=
  let s := { lab 1#32 with fns := [(0, { fnOf base 0 with qtab := 0x2000#64 })], tick := tick, launches := [(1, placedLaunch [] 1), (2, l)] }
  ({ s with mem := writeBytes (writeBytes s.mem 0x2000 (leBytes (2 ^ 334) 64)) 0x2040 (leBytes (3 * 2 ^ 357) 64) }).setCtx ctxB
    { Ctx.reset with res := .saved 0 false, saved := [savedForm0] }

def second (q : Nat) : Launch := { placedLaunch [] 1 with ctx := ctxB, qr := { fn := 0, q := q } }

/-- A context page whose save area is at 0x1400. -/
def page0 (magic : Bool) (size : Nat) : CtxPage :=
  { hdlr := 0#64, tfa := 0#64, savea := 0x1400#64, savesz := size, magic := magic, usable := false, remote := false }

/-- Context 0 is saved and its core table has its core; its save area holds the magic number `m`. -/
def savedAway (m : Nat) : State :=
  let p : Part := { cores := [0], remap := [0], lifebud := 0#32, share := 256, lbcap := 0#32, maxlvl := 3, ftid := 0#16, fmask := 0#16 }
  { base with wgs := [], slots := [], fibs := [], parts := [(0, p)], mem := writeBytes (tabled base.mem) 0x1400 (leBytes m 8) }.modCtx placedCtx
    (fun x => { x with res := .saved 0 false, saved := [savedForm0], page := some (page0 true 4096) })

theorem hyps_PreemptionEvents :
    (residentSince (lab 1#32) placedCtx = some 0 ∧ residentSince (residing .idle (lab 1#32)) placedCtx = none ∧
      ctxOverdue (wanting 0 (second 1)) placedCtx = false ∧ ctxOverdue (wanting 1900 (second 0)) placedCtx = false ∧
      ((∃ k ∈ wantedBy (wanting 0 (second 1)) placedCtx, ctxPrio (wanting 0 (second 1)) placedCtx < k)) ∧
      (¬ ∃ k ∈ wantedBy (lab 1#32) placedCtx, ctxPrio (lab 1#32) placedCtx < k) ∧
      (ctxQuant (wanting 1900 (second 0)) placedCtx = 1 ∧ residentSince (wanting 1900 (second 0)) placedCtx = some 0 ∧
        ctxPrio (wanting 1900 (second 0)) placedCtx ∈ wantedBy (wanting 1900 (second 0)) placedCtx) ∧
      ¬ (0 + 1900 * 1 ≤ (wanting 1899 (second 0)).tick)) ∧
    (let fl := loading (.peer 3 0) none 0 false
     ∀ n ∈ [18999, 19000],
      let s := residing (.stopping 0) { labF fl (fun f => { f with hold := .flight 9 }) with tick := n }
      tget s.flights 9 = some fl ∧ ctxStopping s fl.ctx = some 0 ∧ (n < 0 + 19000 ↔ n = 18999) ∧
      (∃ ln ∈ fl.lines, ln.place = .peer 3 0) ∧ fl.kind ≠ .relStore ∧ fl.kind ≠ .putLines ∧ mayReserve fl = false ∧ keptFlight fl = false ∧ fl.split = false ∧
      tget s.fibs fl.fib = some (fibre (fun f => { f with hold := .flight 9 })) ∧
      (fibre (fun f => { f with hold := .flight 9 })).splits = []) ∧
    (ctxStopping (lab 1#32) placedCtx = none ∧ ctxStopping (labF (loading (.dev 0x1400 0) none 0 false)) placedCtx = none) ∧
    (let y := podFlight (.enq 0 0 0#32 [[7#32]]) [4] .request
     let x : Flight := { y with
       lines := [{ va := 0x1400#64, place := .peer 3 0, ownMask := 0#64, own := 0#512, data := none }]
       lanes := [{ lane := 0, va := 0x1400#64, place := .peer 3 0, x := 0#32, y := 0#32, u := 0, ret := none }] }
     mayReserve x = true) ∧
    (let y := atomFlight (.tadd Ty.i32 0) (some 0#32) 0#32
     let x : Flight := { y with lines := [{ va := 0x1400#64, place := .peer 3 0, ownMask := 0#64, own := 0#512, data := none }] }
     mayReserve x = false ∧ keptFlight x = true) ∧
    (let s := residing (.stopping 0) (lab 1#32)
     (ctxStopping s placedCtx).isSome = true ∧ ctxSettled s placedCtx = true ∧ ctxBuffered s placedCtx = []) ∧
    (let s := residing (.halted 0) (lab 1#32)
     (ctxOf s placedCtx).res = .halted 0 ∧ savedWgs s placedCtx ≠ [] ∧ savedWgs { s with wgs := [] } placedCtx = [] ∧
      (ctxOf s placedCtx).page = none ∧ (page0 false 0).magic = false ∧
      64 + ((savedWgs s placedCtx).map SavedWg.size).sum ≤ 2 ^ 24 ∧ saveOwned s placedCtx 0x1400 (2 ^ 24) = true) ∧
    (let s := lab 1#32
     good (do
       let u ← writeVirtual s placedCtx (ctxOf s placedCtx).force true 0x1400 (leBytes 0 64)
       u.writeFree placedCtx (ctxOf s placedCtx).force (0x1400 + 64) 64) = true) ∧
    ((coreTable (residing (.saved 0 true) (lab 1#32)) 0).length ≤ savedForm0.wg.lcore ∧
      ¬ ((coreTable (savedAway 0) 0).length ≤ savedForm0.wg.lcore ∨ fitsEmptySaved (savedAway 0) savedForm0 = false) ∧
      (ctxOf (savedAway 0) placedCtx).res = .saved 0 false ∧ (ctxOf (savedAway 0) placedCtx).saved = [savedForm0] ∧
      headerAdmits (savedAway 0) placedCtx [savedForm0] = false ∧ headerAdmits (savedAway 0x53564158) placedCtx [savedForm0] = true ∧
      ((savedAway 0x53564158).putAll 0 [savedForm0]).isSome = true) := by
  refine ⟨⟨by decide +kernel, by decide +kernel, by decide +kernel, by decide +kernel, by decide +kernel, by decide +kernel,
      ⟨by decide +kernel, by decide +kernel, by decide +kernel⟩, by decide +kernel⟩, ?_, ⟨by decide, by decide⟩, by decide, by decide, ⟨by decide, by decide, by decide⟩, ⟨by decide +kernel, by decide +kernel, by decide +kernel, by decide +kernel, rfl, by decide +kernel, by decide +kernel⟩, by decide +kernel,
    ⟨by decide, by decide +kernel, by decide +kernel, by decide +kernel, by decide +kernel, by decide +kernel, by decide +kernel⟩⟩
  intro fl n hn
  simp only [List.mem_cons, List.not_mem_nil, or_false] at hn
  obtain rfl | rfl := hn <;> exact ⟨rfl, by decide, by decide, by decide, by decide, by decide, by decide, by decide, by decide, rfl, rfl⟩

/-- A request of peer 3 for the line at 0x1400, with its number in its stream. -/
def asking (seq : BitVec 16) (b : PeerBody) : PeerReq := { src := 3, ftid := 5#16, ctxid := 0#16, stream := 0, seq := seq, off := 0x1400#48, body := b }

/-- The device whose tenant 5 opens context 0 to peer 3. -/
def opened : State :=
  { lab 1#32 with
    mem := tabled base.mem
    fns := [(0, { fnOf base 0 with part := 0 })]
    parts := [(0, { cores := [0], remap := [0], lifebud := 0#32, share := 256, lbcap := 0#32, maxlvl := 3, ftid := 5#16, fmask := 0#16 })]
    apertures := [{ src := 3, ftid := 5#16, ctxid := 0#16, target := placedCtx }] }

/-- The device with the link of peer 3, at port 2, in a state. -/
def linked (st : Nat) : State :=
  { lab 1#32 with fabric := (List.range 16).map (fun i =>
      if i = 3 ∨ i = 4 then { (lab 1#32).fabric.getD i (FabRow.empty 0) with pop := true, self := false, link := st, port := BitVec.ofNat 4 (i - 1) }
      else (lab 1#32).fabric.getD i (FabRow.empty 0)) }

theorem hyps_LinkEvents :
    (∃ ab, hostAccess (lab 1#32) 0 (752 * 2 ^ 30) 64 = .refuse ab) ∧ hostAccess (lab 1#32) 0 0x143C 4 = .at 0x143C ∧
    (∀ ln ∈ touched 0x143C 4, poisoned (lab 1#32) ln = false) ∧
    (∃ ln ∈ touched 0x143C 4, poisoned { lab 1#32 with poisonLines := [0x1400] } ln = true) ∧
    (SoundPiece (lab 1#32) 0x143C [1#8, 2#8, 3#8, 4#8].length) ∧
    (let fl := loading (.sys 0x2400) none 0 false
     tget (labF fl).flights 9 = some fl ∧ (∀ sub ty m, fl.kind ≠ .atom sub ty m) ∧
      fl.lines[0]? = some { va := 0x1400#64, place := .sys 0x2400, ownMask := 0#64, own := 0#512, data := none } ∧ hostLine fl = some 0 ∧
      hostLine (loading (.dev 0x1400 0) none 0 false) = none) ∧
    ((256 ≤ ((asking 0xFFFF#16 .read).seq - (inStream opened 3 0).next).toNat) ∧
      ((asking 1#16 .read).seq - (inStream opened 3 0).next).toNat < 256 ∧ (asking 1#16 .read).seq ≠ (inStream opened 3 0).next ∧
      (inStream opened 3 0).window = [] ∧ (asking 0#16 .read).seq = (inStream opened 3 0).next) ∧
    (∀ r ∈ [asking 0#16 .read, asking 0#16 (.write 0xF#64 7#512 none)],
      apertureOf (lab 1#32) r = none ∧ apertureOf opened r = some placedCtx ∧ guestPlace opened r placedCtx = some (0x1400, 0) ∧
      guestPlace opened { r with off := 0x9000#48 } placedCtx = none) ∧
    (poisoned opened 0x1400 = false ∧ poisoned { opened with poisonLines := [0x1400] } 0x1400 = true ∧ writeLands opened 0x1400 0xF#64 = true ∧
      writeLands { opened with poisonLines := [0x1400] } 0x1400 0xF#64 = false) ∧
    (linkUp (linked 0) 3 = true ∧ linkUp (linked 0) 4 = true ∧ 4 ≠ (linked 0).self ∧ linkUp (linked 1) 4 = false) ∧
    (14 < 15 ∧ 7 ∈ lanesUp (lab 1#32) 14 ∧ 8 ∉ lanesUp (lab 1#32) 14 ∧
      (let v := (lab 1#32).errorRecord 3 5 0 14 7 0 (laneUnit 14 7) none 0#8
       (wearOf v (laneUnit 14 8)).st = 1 ∧ (wearOf (v.setWear { wearOf v (laneUnit 14 8) with st := 0 }) (laneUnit 14 8)).st ≠ 1)) ∧
    ((∃ r ∈ (linked 1).fabric, r.port.toNat = 2 ∧ r.pop = true ∧ r.self = false ∧ r.link = 1) ∧
      ¬ ∃ r ∈ (linked 1).fabric, r.port.toNat = 14 ∧ r.pop = true ∧ r.self = false ∧ r.link = 1) ∧
    ((lab 1#32).boot = .up ∧ (fnRec (lab 1#32) 64).isSome = true ∧ fnRec (lab 1#32) 65 = none ∧ State.reset.parkLog.boot ≠ .held) ∧
    (pathTo (linked 0) 3 = true ∧ pathTo State.reset 3 = false) ∧
    (let y := atomFlight (.atom 0 Ty.i32 0) none 0#32
     let fl := { y with
       lanes := y.lanes.map (fun x => { x with place := .sys (0x1000 + x.va.toNat) })
       lines := [{ va := 0x1400#64, place := .sys 0x2400, ownMask := 0#64, own := 0#512, data := none }] }
     tget (labF fl).flights 9 = some fl ∧ (laneReq fl 0).map (fun x => (x.place, x.ret)) = some (.sys 0x2400, none) ∧
       (fl.lines[lineOfLane fl 0]?.map (fun x => (x.place, x.data))) = some (.sys 0x2400, none) ∧ lanesReady (setRet 0 7#32 fl) = false) ∧
    ((∀ img, MgmtReq.power ≠ .firmware img) ∧
      (∀ img, img.which < 2 → Config.verify (img.bytes.take (img.bytes.length - blockLen)) (img.bytes.drop (img.bytes.length - blockLen)) = true →
        imageOk img = true)) := by
  refine ⟨⟨_, rfl⟩, by decide +kernel, by decide +kernel, by decide +kernel, ⟨by decide, by decide, by decide⟩,
    ⟨rfl, fun _ _ _ h => (nomatch h), rfl, by decide, by decide⟩, ⟨by decide, by decide, by decide, by decide, by decide⟩, ?_,
    ⟨by decide, by decide, by decide, by decide⟩, ⟨by decide, by decide, by decide, by decide⟩, ⟨by decide, by decide, by decide, by decide +kernel⟩,
    ⟨by decide, by decide⟩, ⟨rfl, by decide, rfl, by decide⟩, ⟨by decide, by decide⟩, ⟨rfl, by decide, by decide, by decide⟩, ⟨by simp, ?_⟩⟩
  · intro r hr
    simp only [List.mem_cons, List.not_mem_nil, or_false] at hr
    obtain rfl | rfl := hr <;> exact ⟨by decide, by decide, by decide +kernel, by decide +kernel⟩
  · intro img h hv
    simp [imageOk, h, hv]

/-- A command's 32 bytes as a number: operation, sub-operation, scope and arguments; context 0, fibre 0, tag 9. -/
def cmdWord (op sub scope a0 a1 : Nat) : Nat := op + sub * 2 ^ 8 + 9 * 2 ^ 48 + scope * 2 ^ 64 + a0 * 2 ^ 128 + a1 * 2 ^ 192

/-- The device with a command in the ring of function 0, with a session or without. -/
def debugging (open_ : Bool) (n : Nat) (g : Fibre → Fibre := id) : State :=
  { session 0x3F#6 (lab 1#32 g) with
    fns := [(0, { fnOf base 0 with
      session := if open_ then some 5#32 else none, dbgcmd := 0x2000#64, dbgbuf := 0x80000#64, dbgdb := 1#64 })]
    mem := writeBytes (lab 1#32).mem 0x2000 (leBytes n 32) }

/-- The command is next, and its right is held or not needed. -/
def admits (n right : Nat) : Bool :=
  let s := debugging true n
  dbgHead s 0 == some (dbgCmdOf n) && dbgDenied (s.dbgTaken 0) 0 (dbgCmdOf n) right == none

/-- Function 0's trace of context 0, from the start, to an end. -/
def tracing (ended : Option Nat) : Trace :=
  { start := 0#64, stop := 0x7FFFFFFFFFFFFFFF#64, ctx := placedCtx, scope := 2, fib := 0, rate := 0, began := some 0, ended := ended, counts := [],
    out := 0, drop := 0 }

/-- A capability of function 0 that nothing limits, or one that expires at tick 1. -/
def cap0 (id : Word) (expiry : BitVec 64) : Capability :=
  { expiry := expiry, capid := id, parent := 0#32, ctxid := 0#16, hfn := 0, gfn := 0, allctx := true, rights := 0x3F#6 }

def fibreHalt (f : Fibre) : Fibre := { f with halted := some 1 }

theorem hyps_DebugEvents :
    (∀ x ∈ [(cmdWord 0x10 0 2 0 0, 0), (cmdWord 0x11 0 2 0 0, 0), (cmdWord 0x12 0 0 0 0, 0), (cmdWord 0x20 0 0 0x1000 7, 3), (cmdWord 0x20 0 0 0x1000 8, 3),
        (cmdWord 0x20 0 1 0x1000 7, 3), (cmdWord 0x21 0 0 0 7, 3), (cmdWord 0x22 0 0 0x1400 (2 ^ 63 + 4), 3), (cmdWord 0x22 0 0 0x1400 0, 3),
        (cmdWord 0x23 0 0 0 3, 3), (cmdWord 0x30 0 0 63 0, 1), (cmdWord 0x30 0 0 67 0, 1), (cmdWord 0x30 0 0 68 0, 1), (cmdWord 0x31 0 0 63 0, 2),
        (cmdWord 0x31 0 0 67 0x1F, 2), (cmdWord 0x32 0 0 0x1400 4096, 1), (cmdWord 0x32 0 0 0x1400 4097, 1), (cmdWord 0x33 0 0 0x1400 64, 2),
        (cmdWord 0x33 0 0 0x9000 64, 2), (cmdWord 0x40 10 2 0 0x3FFFFFFFFFFFFFFF, 4), (cmdWord 0x40 11 2 0 0, 4)], admits x.1 x.2 = true) ∧
    (dbgHead (debugging false (cmdWord 0x10 0 2 0 0)) 0 = some (dbgCmdOf (cmdWord 0x10 0 2 0 0)) ∧
      dbgDenied ((debugging false (cmdWord 0x10 0 2 0 0)).dbgTaken 0) 0 (dbgCmdOf (cmdWord 0x10 0 2 0 0)) 0 = some 1 ∧
      dbgDenied ((debugging true (cmdWord 0x10 0 3 0 0)).dbgTaken 0) 0 (dbgCmdOf (cmdWord 0x10 0 3 0 0)) 0 = some 3) ∧
    (let u := (debugging false (cmdWord 1 0 0 5 0)).dbgTaken 0
     (fnOf u 0).session = none ∧ sessionCap u 0 = none ∧ u.caps = [cap0 5#32 0#64] ∧ capLive u (cap0 5#32 0#64) = true ∧
      (cap0 5#32 0#64).capid.toNat = (dbgCmdOf (cmdWord 1 0 0 5 0)).arg0.toNat ∧
      (∀ p ∈ u.caps, p.capid.toNat ≠ (dbgCmdOf (cmdWord 1 0 0 6 0)).arg0.toNat) ∧
      (sessionCap ((debugging true (cmdWord 2 0 0 0 0)).dbgTaken 0) 0).isSome = true) ∧
    (let x := dbgCmdOf (cmdWord 0x10 0 2 0 0)
     dbgTargets ((debugging true 0).dbgTaken 0) 0 x 2 = [0] ∧ dbgTargets ((debugging true 0).dbgTaken 0) 0 { x with ctxid := 1#16 } 2 = [] ∧
      dbgTargets ((debugging true 0).dbgTaken 0) 0 x 0 = [0] ∧
      tget ((debugging true 0 (fun f => { f with hold := .flight 9 })).dbgTaken 0).fibs 0 = some (fibre (fun f => { f with hold := .flight 9 })) ∧
      (fibre (fun f => { f with hold := .flight 9 })).halted = none ∧ (fibre (fun f => { f with hold := .flight 9 })).threads.any (fun x => x.st == 0#4) = true ∧
      tget ((debugging true 0 fibreHalt).dbgTaken 0).fibs 0 = some (fibre fibreHalt) ∧ (fibre fibreHalt).halted.isSome = true ∧
      (63 < (fibre fibreHalt).regs.length ∧ 67 < (68 : Nat))) ∧
    (PlainTarget (dbgCmdOf (cmdWord 0x20 0 0 0x1000 7)) ∧ (¬ PlainTarget (dbgCmdOf (cmdWord 0x20 0 1 0x1000 7))) ∧
      ((dbgCmdOf (cmdWord 0x22 0 0 0x1400 (2 ^ 63 + 4))).arg1.extractLsb' 32 32).toNat = 2 ^ 31 ∧
      ((dbgCmdOf (cmdWord 0x22 0 0 0x1400 (2 ^ 63 + 4))).arg1.extractLsb' 2 2).toNat = 1) ∧
    (let u := (debugging true 0).dbgTaken 0
     (fnRead u 0 (dbgData u 0 (dbgCmdOf (cmdWord 0x31 0 0 63 0))) 128).isSome = true ∧
      (fnRead u 0 (dbgData u 0 (dbgCmdOf (cmdWord 0x33 0 0 0x1400 64))) 64).isSome = true ∧
      dbgPlaces u placedCtx .write 0x1400 64 = .ok [(0x1400, 0x1400, 64)] ∧ good (dbgPlaces u placedCtx .read 0x1400 1024) = true ∧
      dbgPlaces u placedCtx .write 0x9000 64 = .error (0x9000, 0)) ∧
    (((tracing none).cue 0 .time).ended = none ∧ ((tracing (some 3)).cue 4 .time).ended = some 3 ∧ (fnOf (lab 1#32) 0).trace = none) ∧
    ((fnRec (lab 1#32) (cap0 7#32 0#64).hfn).isSome = true ∧ (cap0 7#32 0#64).capid ≠ 0#32 ∧ (cap0 7#32 0#64).capid ∉ (lab 1#32).capids ∧
      coversClosed (lab 1#32) { cap0 7#32 0#64 with gfn := 0, parent := 0#32 } = false ∧ (cap0 0#32 0#64).capid = 0#32) ∧
    ((∀ p ∈ (lab 1#32).caps, p.capid ≠ 7#32) ∧ (debugging true 0).caps.find? (fun y => decide (y.capid = 5#32)) = some (cap0 5#32 0#64) ∧
      capLive { lab 1#32 with tick := 2 } (cap0 5#32 1#64) = false ∧ capLive { lab 1#32 with tick := 1 } (cap0 5#32 1#64) = true) ∧
    ((lab 1#32).boot = .up ∧ (fnRec (lab 1#32) 0).isSome = true ∧ (fnRec (lab 1#32) 64).isSome = true) := by
  refine ⟨?_, ⟨by decide +kernel, by decide +kernel, by decide +kernel⟩, ⟨rfl, by decide, rfl, by decide, by decide, by decide, by decide⟩,
    ⟨by decide, by decide, by decide, rfl, rfl, by decide, rfl, rfl, by decide⟩, ⟨by decide, by decide, by decide, by decide⟩,
    ⟨by decide +kernel, by decide +kernel, by decide +kernel, by decide +kernel, by decide +kernel⟩, ⟨by decide, by decide, rfl⟩,
    ⟨rfl, by decide, by decide, by decide, rfl⟩, ⟨by decide, rfl, by decide, by decide⟩, ⟨rfl, rfl, by decide⟩⟩
  have h : [(cmdWord 0x10 0 2 0 0, 0), (cmdWord 0x11 0 2 0 0, 0), (cmdWord 0x12 0 0 0 0, 0), (cmdWord 0x20 0 0 0x1000 7, 3), (cmdWord 0x20 0 0 0x1000 8, 3),
        (cmdWord 0x20 0 1 0x1000 7, 3), (cmdWord 0x21 0 0 0 7, 3), (cmdWord 0x22 0 0 0x1400 (2 ^ 63 + 4), 3), (cmdWord 0x22 0 0 0x1400 0, 3),
        (cmdWord 0x23 0 0 0 3, 3), (cmdWord 0x30 0 0 63 0, 1), (cmdWord 0x30 0 0 67 0, 1), (cmdWord 0x30 0 0 68 0, 1), (cmdWord 0x31 0 0 63 0, 2),
        (cmdWord 0x31 0 0 67 0x1F, 2), (cmdWord 0x32 0 0 0x1400 4096, 1), (cmdWord 0x32 0 0 0x1400 4097, 1), (cmdWord 0x33 0 0 0x1400 64, 2),
        (cmdWord 0x33 0 0 0x9000 64, 2), (cmdWord 0x40 10 2 0 0x3FFFFFFFFFFFFFFF, 4), (cmdWord 0x40 11 2 0 0, 4)].all (fun x => admits x.1 x.2) = true := by
    decide +kernel
  exact List.all_eq_true.mp h

/-- The enclave of slot 1 with its region at 2 MiB, and the device that has it. -/
def enclave1 : Enclave :=
  { slot := 1, fn := 0, regions := [0x200000], debugok := false, measure := List.replicate 48 0#8, key := 0, tkey := 0 }
def sealed : State := { State.reset with enclaves := [enclave1] }

theorem hyps_AdminRequests :
    (131400 < 131401 ∧ 8759 < 8760 ∧ (2400 : Nat) ≤ 2400 ∧ (1199 : Nat) < 1200 ∧ (256 : Nat) < 257 ∧ (3 : Nat) < 4) ∧
    (tget State.reset.parts 1 = none ∧ tget State.reset.parts 0 = some Part.reset) ∧
    (anyResident State.reset (fun _ => true) = false ∧ anyResident (lab 1#32) (fun _ => true) = true ∧
      (∀ c : CtxKey, c.fn = 0 → anyResident (lab 1#32) (fun k => k.fn == c.fn) = true) ∧
      anyResident (lab 1#32) (fun c => partOf (lab 1#32) c.fn == 0) = true ∧
      anyResident State.reset (fun c => partOf State.reset c.fn == 0) = false ∧ anyResident State.reset (fun c => c.fn == 0) = false) ∧
    (fabMapOk 0 [{ en := false, pop := false, port := 0#4 }, { en := true, pop := true, port := 14#4 }] = true ∧
      fabMapOk 0 [{ en := false, pop := false, port := 0#4 }, { en := true, pop := true, port := 15#4 }] = false ∧
      (lanesUp State.reset 14).length = 8 ∧ (lanesUp { State.reset with laneUp := [(14, [0, 1, 2])] } 14).length < 8) ∧
    (placedCtx.fn = 0 ∧ (partRec opened placedCtx.fn).ftid = 5#16 ∧ (5#16 : BitVec 16) ≠ 0#16 ∧ (fnRec opened 0).isSome = true) ∧
    (anyBusy State.reset (fun fn => partOf State.reset fn == 0) = false ∧ anyBusy (lab 1#32) (fun fn => partOf (lab 1#32) fn == 0) = true ∧
      (∀ d < 4, rowDue State.reset d 0 = none ∧ rowDue State.reset d 1 = none)) ∧
    (wholeClusters State.reset [0, 1, 2, 3, 4, 5, 6, 7] = true ∧ wholeClusters State.reset [0, 1] = false ∧
      (∀ e ∈ State.reset.parts, e.1 ≠ 15 → ∀ c ∈ e.2.cores, c ∉ [0, 1, 2, 3, 4, 5, 6, 7])) ∧
    (tget State.reset.fns 0 = some Fn.reset ∧ 4096 % 4096 = 0 ∧ 0 + 752 * 2 ^ 30 ≤ State.reset.memsz.toNat * 2 ^ 30 ∧
      windowTaken State.reset 1 0 1 = true ∧
      windowTaken { State.reset with fns := [(0, { Fn.reset with gb := 751 })] } 1 (751 * 2 ^ 30) 1 = false ∧ (fnRec State.reset 64).isSome = true) ∧
    (enclaveOf State.reset 1 = none ∧ enclaveOf sealed 1 = some enclave1 ∧ regionsOk State.reset 0 [0x200000] = true ∧
      regionsOk State.reset 0 [0x1000] = false ∧ enclave1.fn = placedCtx.fn) ∧
    (sealOver ≤ sealOver + 1 ∧ plainRange sealed 0 0x1000 (sealOver + 1) = true ∧ ownedRange sealed 0 0x200000 1 enclave1 = true ∧
      (fnRead sealed 0 0x1000 (sealOver + 1)).isSome = true ∧ (fnRead sealed 0 0x200000 1).isSome = true) ∧
    ((∀ r : ConfigRecord, r.ty = 15 → Config.verify (configBytes r) r.block = true → configOk r = true ∧ r.ty < 16) ∧
      imageOk { which := 2, version := 0, bytes := [] } = false) := by
  refine ⟨by decide, ⟨rfl, rfl⟩, ⟨rfl, rfl, fun c h => by rw [h]; rfl, by decide, by decide, by decide⟩,
    ⟨by decide, by decide, by decide, by decide⟩, ⟨rfl, by decide, by decide, rfl⟩, ⟨by decide, by decide, by decide⟩, ⟨by decide +kernel, by decide +kernel, by decide⟩,
    ⟨rfl, by decide, by decide, by decide, by decide, by decide⟩, ⟨rfl, rfl, by decide +kernel, by decide +kernel, rfl⟩,
    ⟨by decide, by decide +kernel, by decide +kernel, by decide +kernel, by decide +kernel⟩, ⟨fun r h hv => ⟨hv, by omega⟩, rfl⟩⟩

/-- A boost of 1,000 ticks from tick 0, running or suspended, and the device that grants it to core 0. -/
def boost0 (susp : Option Nat) (byPower : Bool) : Boost := { boostOfCtx placedCtx with start := 0, dur := 1000, susp := susp, byPower := byPower }
def boosted (b : Boost) : State := { lab 1#32 with cores := [(0, { core0 with boost := some b })] }

/-- Unit 0 of kind 2 on die 0, a runner, and what a swap of it is. -/
def runner0 : Word := unitId 2 0 0

theorem hyps_LifeEvents :
    (poolBase State.reset ≤ 752 * 2 ^ 30 ∧ 752 * 2 ^ 30 - 1 < poolBase State.reset ∧ framePoisoned State.reset 0x1400 = false ∧
      framePoisoned { State.reset with poisonFrames := [0x1000] } 0x1400 = true ∧
      (tget { State.reset with correctable := [(0x1000, 14)] }.correctable 0x1000).getD 0 + 1 < State.reset.ceframe ∧
      ¬ (tget { State.reset with correctable := [(0x1000, 15)] }.correctable 0x1000).getD 0 + 1 < State.reset.ceframe) ∧
    (let r : FaultRec := { tick := 0, va := 0#64, obj := 0, asid := 0#12, kind := 1, acc := 0, run := false, req := 0, lanes := 0#32, rpl := false }
     let s := { lab 1#32 with faultQ := [(placedCtx, r)] }
     firstFault (lab 1#32) placedCtx = none ∧ firstFault s placedCtx = some r ∧ ringFull (ctxOf s placedCtx) = false ∧
     ringFull { ctxOf s placedCtx with fqtail := 15#12 } = true) ∧
    (State.reset.errs[4]?.isSome = true ∧ State.reset.contained = false) ∧
    (unitExists 0xFFFFFFFF#32 = false ∧ unitExists runner0 = true ∧ (wearOf State.reset runner0).st = 0 ∧ unitKind runner0 = 2 ∧
      (∀ y ∈ State.reset.swaps, y.up ∉ unitGroup runner0) ∧ (gatedOf State.reset runner0).isSome = true ∧
      (gatedOf State.reset runner0 = some (unitId 2 0 8) ∧ unitExists (unitId 2 0 8) = true ∧ (wearOf State.reset (unitId 2 0 8)).st = 1) ∧
      (wearOf (State.reset.setWear { wearOf State.reset runner0 with st := 2 }) runner0).st = 2 ∧
      unitExists (unitId 3 0 0) = true ∧ (wearOf State.reset (unitId 3 0 0)).st = 0 ∧ unitKind (unitId 3 0 0) = 3) ∧
    (let x : Swap := { up := unitId 2 0 8, down := runner0, reason := 2 }
     let s := { lab 1#32 with swaps := [x] }
     s.swaps.find? (fun y => decide (y.up = unitId 2 0 8)) = some x ∧ callupOk s x.down = true ∧ (wearOf s (unitId 2 0 8)).st = 1 ∧
      (∀ y ∈ (lab 1#32).swaps, y.up ≠ unitId 2 0 8) ∧
      callupOk { s with cmds := [(2, { placedCmd 0 with stage := .running 0 })] } x.down = false ∧
      (lab 1#32).swaps.find? (fun y => decide (y.up = unitId 2 0 8)) = none) ∧
    (State.reset.tick < State.reset.accrualAt ∧ ({ State.reset with tick := 2 ^ 32 } : State).accrualAt ≤ 2 ^ 32 ∧
      (∀ w ∈ State.reset.wear, w.st = 0 → unitKind w.unit = 5 → ¬ 1 ≤ wearScore State.reset w.unit)) ∧
    (boostOf (boosted (boost0 none false)) 0 = some (boost0 none false) ∧ (boosted (boost0 none false)).tick < (boost0 none false).start + (boost0 none false).dur ∧
      (boost0 none false).start + (boost0 none false).dur ≤ ({ boosted (boost0 none false) with tick := 1000 } : State).tick ∧
      (tget (boosted (boost0 none false)).cores 0).isSome = true) ∧
    (lastBoost State.reset = none ∧ lastBoost (boosted (boost0 none false)) = some 0 ∧ State.reset.plim < 2401) ∧
    (State.reset.powerOk < 10 ∧ 10 ≤ ({ boosted (boost0 (some 5) true) with powerOk := 10 } : State).powerOk ∧ coreDie 0 ∉ (boosted (boost0 (some 5) true)).hot) ∧
    (State.reset.life.tjmax * 1000 + 273150 < State.reset.life.tjmax * 1000 + 273151 ∧ 0 ∉ State.reset.hot ∧
      0 ∈ ({ boosted (boost0 (some 5) false) with hot := [0] } : State).hot) ∧
    (State.reset.nvPending = [] ∧ nvWraps State.reset 8 = false ∧ State.reset.tick < State.reset.wearckAt) ∧
    (let p : Part := { Part.reset with cores := [0, 1, 16], remap := [0, 1, 16] }
     let s := { State.reset with parts := [(0, p)] }
     tget s.parts 0 = some p ∧ p.remap[0]? = some 0 ∧ remapFree s 0 0 = true ∧ remapFree s 0 1 = true ∧ p.remap.idxOf 1 = 1 ∧ 1 / 16 = 0 / 16 ∧
      16 / 16 ≠ 0 / 16 ∧ 16 ∈ p.remap) ∧
    (State.reset.boot ≠ .recovery ∧ ({ State.reset with boot := .recovery } : State).boot = .recovery ∧
      fnRec State.reset 3 = some Fn.absent ∧ fnRec State.reset 65 = none) := by
  refine ⟨⟨by decide, by decide, by decide, by decide, by decide, by decide⟩, ⟨rfl, rfl, by decide, by decide⟩, by decide,
    ⟨by decide, by decide, by decide, by decide, by decide, by decide, ⟨by decide, by decide, by decide⟩, by decide, by decide, by decide, by decide⟩,
    ⟨rfl, by decide, by decide, by decide, by decide, rfl⟩, by decide, by decide, by decide, by decide, by decide, by decide,
    ⟨rfl, rfl, by decide, by decide, by decide, by decide, by decide, by decide⟩, ⟨by decide, rfl, rfl, rfl⟩⟩

theorem hyps_DecodeEncodeAll :
    Instr.wellFormed (.iaddi { s := 29#5, d := 5#6 }) = true ∧ encodeBytes (.iaddi { s := 29#5, d := 5#6 }) = some (leBytes 0xE8A6 2) ∧
    decode (leBytes 0xE8A6 2) = .ok (.iaddi { s := 29#5, d := 5#6 }, 2) := by decide

theorem hyps_StepRunsDecoded_event :
    ({ lab 1#32 with inbox := [.event (.setPlim 1200)] } : State).inbox = [.event (.setPlim 1200)] ∧ isEvent (.setPlim 1200) = true ∧
    (∃ t, exec (.setPlim 1200) { lab 1#32 with inbox := [] } = .next t) := by
  exact ⟨rfl, rfl, _, rfl⟩

/-- The move that an entry of the input list chooses. -/
def chosen (s : State) : Option Move :=
  match s.inbox with
  | .choose n :: rest => let u := { s with inbox := rest }; (candidates u)[n % (candidates u).length]?
  | _ => none

theorem hyps_StepRunsDecoded_fibre :
    chosen base = some (.issue 0) ∧ base.inbox = [.choose 0] ∧ candidates State.reset = [] ∧ State.reset.inbox = [] ∧
    tget base.fibs 0 = some (fibre (fun _ => placedFibre (placedLaunch base.mem 1) 0 0)) ∧
    selectRun { base with inbox := [] } (fibre id) = some (0x1000#64, BitVec.allOnes 32) ∧
    (fibLaunch base (fibre id)).isSome = true ∧ breakHit { base with inbox := [] } (fibre id) 0x1000#64 (BitVec.allOnes 32) = false ∧
    (fetchBytes (lab 1#32) (placedLaunch (lab 1#32).mem 1) (privOf (fibre id)) 0x1000 2).toOption = some [0x1C#8, 0#8] ∧
    lengthOf 0x1C#8 = 2 ∧ (∃ i, decode [0x1C#8, 0#8] = .ok (i, 2)) ∧ (∃ e, decode [0x03#8, 0xFF#8] = .error e) := by
  refine ⟨?_, rfl, ?_, rfl, ?_, ?_, ?_, ?_, ?_, rfl, ⟨_, rfl⟩, ⟨_, rfl⟩⟩ <;> decide +kernel

/-- The device with XEND placed for a runner. -/
def baseR : State := State.reset.withFetchWord 64 0xDA3

theorem hyps_StepRunsDecoded_runner :
    chosen baseR = some (.runner 2) ∧ tget baseR.runners 2 = some (placedRunner 0 2 0) ∧ (runCtx baseR 2).isSome = true ∧
    ((tget baseR.wgs (placedRunner 0 2 0).wg).bind (launchOf baseR)).isSome = true ∧
    (fetchBytes (baseR.issuing (.runner 2) 1#32 0x1000#64) (placedLaunch baseR.mem 1) false 0x1000 8).toOption = some (leBytes 0xDA3 8) ∧
    lengthOf ((leBytes 0xDA3 8).headD 0#8) = 8 ∧ decode (leBytes 0xDA3 8) = .ok (.xend (l false false 0 0 0 0 0 0 0), 8) := by
  refine ⟨?_, rfl, ?_, ?_, ?_, ?_, ?_⟩ <;> decide +kernel

/-- An entry of the input list is an event, or an error that comes upon stored bits. -/
theorem hyps_StepRunsDecoded_input :
    ({ State.reset with inbox := [.event .wearck] } : State).inbox = [.event .wearck] ∧ isEvent .wearck = true ∧
    ({ State.reset with inbox := [.upset (.reg 0 0 31 1#39)] } : State).inbox = [.upset (.reg 0 0 31 1#39)] :=
  ⟨rfl, rfl, rfl⟩

theorem hyps_StepKeepsMemory : State.reset.memWf = true ∧ ∃ t, step State.reset = .next t := ⟨by decide, _, rfl⟩

end Sys2Proof.Test
end

section
/-!
SUPPORT. Cross-lane instructions (R253 to R256): masks summed over lanes, the source lane of SHFL, and the rows of SHFL, VOTE and MATCH.
-/
namespace Sys2Proof.Machine

/-! ### Fields and masks -/

/-- The low three bits of imm16 as the model and as the rules read them (R253, R254). -/
theorem bitsOf_low3 (x : BitVec 16) : bitsOf x.toNat 2 0 = (x.extractLsb' 0 3).toNat := by
  simp [bitsOf]

theorem getLsbD_wordBits (p : Nat → Bool) (j : Nat) (h : j < 32) : (wordBits p).getLsbD j = p j := by
  simp [wordBits, h]

/-- A sum of the powers of two of distinct lanes has exactly the bits of those lanes. -/
theorem testBit_sum_pow (n : Nat) (b : Nat → Bool) :
    (List.range n).foldl (fun x l => if b l then x + 2 ^ l else x) 0 < 2 ^ n ∧
    ∀ j, ((List.range n).foldl (fun x l => if b l then x + 2 ^ l else x) 0).testBit j = (decide (j < n) && b j) := by
  induction n with
  | zero => simp
  | succ n ih =>
    simp only [List.range_succ, List.foldl_append, List.foldl_cons, List.foldl_nil]
    generalize (List.range n).foldl (fun x l => if b l then x + 2 ^ l else x) 0 = x at ih ⊢
    obtain ⟨hlt, hbit⟩ := ih
    cases hb : b n with
    | false =>
      refine ⟨by simp; omega, fun j => ?_⟩
      by_cases e : j = n
      · simp [e, hb, hbit]
      · simp [hbit, show j < n + 1 ↔ j < n by omega]
    | true =>
      have hor : x + 2 ^ n = 2 ^ n ||| x := by
        simpa [Nat.add_comm] using Nat.two_pow_add_eq_or_of_lt hlt 1
      refine ⟨by simp; omega, fun j => ?_⟩
      rw [if_pos rfl, hor, Nat.testBit_or, Nat.testBit_two_pow, hbit]
      by_cases e : j = n
      · simp [e, hb]
      · simp [Ne.symm e, show j < n + 1 ↔ j < n by omega]

/-- A mask summed over the active lanes is the word of those bits (R255, R256). -/
theorem ofNat_sum_lanes (m : LaneMask) (p : Nat → Bool) :
    BitVec.ofNat 32 ((lanesOf m).foldl (fun x l => if p l then x + 2 ^ l else x) 0) =
      wordBits (fun j => m.getLsbD j && p j) := by
  apply BitVec.eq_of_getLsbD_eq
  intro j hj
  have := (testBit_sum_pow 32 (fun l => m.getLsbD l && p l)).2 j
  rw [getLsbD_wordBits _ _ hj, BitVec.getLsbD_ofNat, lanesOf, List.foldl_filter]
  simpa [hj, ← ite_and] using this

/-! ### SHFL (R254) -/

/-- Within a power of two, the exclusive or with `n` stays below it exactly for the `n` below it. -/
theorem xor_lt_two_pow_iff {x n k : Nat} (hx : x < 2 ^ k) : x ^^^ n < 2 ^ k ↔ n < 2 ^ k :=
  ⟨fun h => by simpa using Nat.xor_lt_two_pow hx h, Nat.xor_lt_two_pow hx⟩

theorem ite_some_congr {p q : Prop} [Decidable p] [Decidable q] {a b : Nat} (h : p ↔ q) (e : p → a = b) :
    (if p then some a else none) = if q then some b else none := by
  by_cases hp : p
  · rw [if_pos hp, if_pos (h.mp hp), e hp]
  · rw [if_neg hp, if_neg (fun hq => hp (h.mpr hq))]

/-- The source lane that SHFL takes is the candidate of its mode, where that lies in the segment. -/
theorem shflLane_eq (mode k l n : Nat) :
    let base := l - l % 2 ^ k
    let j := shflSource mode base l n
    shflLane mode (2 ^ k) l n = if (base : Int) ≤ j ∧ j < base + (2 ^ k : Nat) then some j.toNat else none := by
  have hmod : l % 2 ^ k < 2 ^ k := Nat.mod_lt _ (Nat.two_pow_pos k)
  have hle : l % 2 ^ k ≤ l := Nat.mod_le _ _
  have hxor := xor_lt_two_pow_iff (x := l - (l - l % 2 ^ k)) (n := n) (k := k) (by omega)
  generalize 2 ^ k = w at *
  match mode with
  | 0 | 1 | 2 | _ + 3 =>
    simp only [shflLane, shflSource]
    exact ite_some_congr (by omega) (by omega)

/-- SHFL's result is the source lane's word, or the fill value where the segment has no such lane. -/
theorem shuffled_eq (mode seg : Nat) (own : Bool) (xs : List LaneVec) (l : Nat) (hseg : seg ≤ 5) :
    shuffled mode seg own xs l =
      ((shflLane mode (32 / 2 ^ seg) l (lane xs 1 l).toNat).map (lane xs 0)).getD
        (if own then lane xs 0 l else lane xs 2 l) := by
  have hw : 32 / 2 ^ seg = 2 ^ (5 - seg) := Nat.pow_div (m := 5) hseg two_pos
  rw [hw, shflLane_eq]
  simp only [shuffled, Nat.shiftRight_eq_div_pow, hw]
  split <;> rfl

/-! ### The rows -/

/-- A row of a cross-lane instruction, whatever its form. -/
def crossRow (i : Instr) (v : VForm) (xs : List Src) (g : LaneMask → List LaneVec → Nat → Word) : LaneRow :=
  { i := i, len := v.len, y := v.y, k := v.k, d := v.d, xs := xs, weight := 3, n := 0,
    res := fun m ys n _ => (g m ys n, Flags5.none) }

theorem rowXW_eq (i : Instr) (w : WForm) (xs : List Src) (g : LaneMask → List LaneVec → Nat → Word) :
    rowXW i w xs g = crossRow i (ofWForm Ty.i32 w) xs g := rfl

theorem rowXL_eq (i : Instr) (l : LForm) (xs : List Src) (g : LaneMask → List LaneVec → Nat → Word) :
    rowXL i l xs g = crossRow i (ofLForm l) xs g := rfl

theorem ofWForm_d_lt (ty : BitVec 4) (w : WForm) : (ofWForm ty w).d < 64 := w.d.isLt

theorem ofLForm_d_lt (l : LForm) : (ofLForm l).d < 64 := l.d.isLt

/-- SHFL takes effect with the result of R254, whatever its form. -/
theorem opShfl_takes {i : Instr} {v : VForm} {mode seg : Nat} {own : Bool} (hd : v.d < 64)
    (he : ∀ s, exec i s = opShfl mode v s) (hseg : bitsOf v.imm.toNat 2 0 = seg) (hle : seg ≤ 5)
    (hown : (v.cf == 66) = own) :
    (crossRow i v [srcAll v.a Ty.i32, src v.b Ty.i32, src v.c Ty.i32]
      (fun _ xs l => shuffled mode seg own xs l)).Takes := by
  refine LaneRow.takes_lanewise _ (0x30 + mode) _ hd rfl he (fun x _ l _ => Prod.ext ?_ rfl)
  simp only [crossRow, shuffled_eq _ _ _ _ _ hle, shflWidth, hseg, hown]
  show ((shflLane mode (32 / 2 ^ seg) l ((x.s 1).lane l).toNat).map (lane x.src 0)).getD _ = _
  cases shflLane mode (32 / 2 ^ seg) l ((x.s 1).lane l).toNat <;> rfl

/-- A legal SHFL names one of the five segment widths (R253). -/
theorem legalL_shfl {mode : Nat} {l : LForm} (hmode : mode < 4) (h : legalL (0x30 + mode) l = true) : l.imm.toNat ≤ 4 := by
  have hfields : legalFieldsL (0x30 + mode) l = (l.ty == 0#4 && l.mode == 0#3 && decide (l.imm.toNat ≤ 4)) := by
    match mode, hmode with
    | 0, _ | 1, _ | 2, _ | 3, _ => rfl
  rw [legalL, hfields] at h
  simp only [Bool.and_eq_true, decide_eq_true_eq] at h
  obtain ⟨⟨-, himm⟩, -⟩ := h
  exact himm

/-- The rows of SHFL in a mode take effect (R254). -/
theorem shflRows_take {mode : Nat} {iw : WForm → Instr} {il : LForm → Instr} {w : WForm} {l : LForm}
    (hw : ∀ s, exec (iw w) s = opShfl mode (ofWForm Ty.i32 w) s) (hl : ∀ s, exec (il l) s = opShfl mode (ofLForm l) s)
    (hmode : mode < 4) (hwf : (il l).wellFormed = legalL (0x30 + mode) l) :
    ∀ r ∈ shflRows mode iw il w l, r.i.wellFormed = true → r.Takes := by
  intro r hr hok
  simp only [shflRows, rowXW_eq, rowXL_eq, List.mem_cons, List.not_mem_nil, or_false] at hr
  obtain rfl | rfl := hr
  · exact opShfl_takes (ofWForm_d_lt _ w) hw (by simp [ofWForm, bitsOf]) (by decide) rfl
  · have himm : bitsOf l.imm.toNat 2 0 ≤ 4 :=
      (Nat.mod_le _ _).trans ((Nat.div_le_self _ _).trans (legalL_shfl hmode (hwf ▸ hok)))
    refine opShfl_takes (ofLForm_d_lt l) hl (bitsOf_low3 l.imm) (by rw [← bitsOf_low3]; omega) ?_
    rw [Bool.eq_iff_iff, beq_iff_eq, beq_iff_eq]
    exact BitVec.toNat_inj (y := 66#7)

/-- The model's mask of VOTE is the rule's (R255). -/
theorem voteMask_eq (m : LaneMask) (xs : List LaneVec) : voteMask m (xs.getD 0 (LaneVec.splat 0#32)) = voters m xs :=
  ofNat_sum_lanes m (fun j => lane xs 0 j != 0#32)

/-- The rows of VOTE in a mode take effect, where the mode's word is the rule's (R255). -/
theorem voteRows_take {mode : Nat} {g : LaneMask → List LaneVec → Word} {iw : WForm → Instr} {il : LForm → Instr}
    {w : WForm} {l : LForm} (hw : ∀ s, exec (iw w) s = opVote mode (ofWForm Ty.i32 w) s)
    (hl : ∀ s, exec (il l) s = opVote mode (ofLForm l) s)
    (hg : ∀ v s, opVote mode v s = vec (0x34 + mode) v.len v.y v.k v.d false [src v.a Ty.i32] true 3
      (fun i => lanewise i (fun _ => g i.m i.src)) s) :
    ∀ r ∈ voteRows g iw il w l, r.Takes := by
  intro r hr
  simp only [voteRows, rowXW_eq, rowXL_eq, List.mem_cons, List.not_mem_nil, or_false] at hr
  obtain rfl | rfl := hr
  · exact LaneRow.takes_lanewise _ (0x34 + mode) (fun i _ => g i.m i.src) (ofWForm_d_lt Ty.i32 w) rfl
      (fun s => (hw s).trans (hg _ s)) (fun _ _ _ _ => rfl)
  · exact LaneRow.takes_lanewise _ (0x34 + mode) (fun i _ => g i.m i.src) (ofLForm_d_lt l) rfl
      (fun s => (hl s).trans (hg _ s)) (fun _ _ _ _ => rfl)

/-- MATCH takes effect with the result of R256, whatever its form. -/
theorem opMatch_takes {i : Instr} {v : VForm} (hd : v.d < 64) (he : ∀ s, exec i s = opMatch v s) :
    (crossRow i v [src v.a Ty.i32] matching).Takes :=
  LaneRow.takes_lanewise _ 0x37 _ hd rfl he (fun x _ l _ =>
    Prod.ext (ofNat_sum_lanes x.m (fun k => lane x.src 0 k == lane x.src 0 l)).symm rfl)

/-- Settles O5: the rows of each instruction and mode, SHFL's by the segment that its source lane must lie in, VOTE's and
MATCH's by the bits of a mask that the model sums over the active lanes. -/
theorem crossLaneResults : Obligations.CrossLaneResults := by
  intro w l r hr hok
  simp only [crossRows, List.mem_append, or_assoc] at hr
  rcases hr with h | h | h | h | h | h | h | h
  · exact shflRows_take (fun _ => rfl) (fun _ => rfl) (by decide) rfl r h hok
  · exact shflRows_take (fun _ => rfl) (fun _ => rfl) (by decide) rfl r h hok
  · exact shflRows_take (fun _ => rfl) (fun _ => rfl) (by decide) rfl r h hok
  · exact shflRows_take (fun _ => rfl) (fun _ => rfl) (by decide) rfl r h hok
  · exact voteRows_take (mode := 0) (fun _ => rfl) (fun _ => rfl)
      (fun v s => by simp only [opVote, VIn.s, voteMask_eq]; rfl) r h
  · exact voteRows_take (mode := 1) (fun _ => rfl) (fun _ => rfl)
      (fun v s => by simp only [opVote, VIn.s, voteMask_eq]; rfl) r h
  · exact voteRows_take (mode := 2) (fun _ => rfl) (fun _ => rfl)
      (fun v s => by simp only [opVote, VIn.s, voteMask_eq]) r h
  · simp only [rowXW_eq, rowXL_eq, List.mem_cons, List.not_mem_nil, or_false] at h
    obtain rfl | rfl := h
    · exact opMatch_takes (ofWForm_d_lt Ty.i32 w) (fun _ => rfl)
    · exact opMatch_takes (ofLForm_d_lt l) (fun _ => rfl)

end Sys2Proof.Machine
end

section
/-!
SUPPORT. LRED and LSCAN (R55, R56, R257, R258): a vector instruction that gives its result as a whole, the scan entry by entry,
and the tree of an associative operation as a fold.
-/
namespace Sys2Proof.Machine

/-! ### Vector instructions that give their result as a whole -/

/-- A vector instruction without a second result, whose function gives the result `out` in the active lanes, leaves it. -/
theorem vec_done {op len d weight : Nat} {y k shape : Bool} {xs : List Src} {fn : VIn → Except (Nat × LaneMask) VOut}
    {s : State} {fid : Nat} {f : Fibre} {m : LaneMask} {o : VOut} {out : Nat → Word} {rs : Nat → BitVec 64 → BitVec 64}
    (hi : Issuing s fid f m) (hr : Readable s fid f m xs (if k then [] else [d])) (hs : shape = true) (hd : d < 64)
    (ho : fn { m := m, src := xs.map (srcVec s fid f m), rs := roundStates f } = .ok o) (hr2 : o.r2 = none)
    (hout : ∀ l < 32, out l = o.r.lane l)
    (hrs : ∀ i u, f.threads[i]? = some u → rs i u.rstate = o.rs.getD i u.rstate) :
    ∃ t, vec op len y k d false xs shape weight fn s = .next t ∧
      VecDone s t fid f m (if k then [] else [(d, out)]) out o.fl rs len weight := by
  obtain ⟨ha, hm, hf⟩ := hi
  obtain ⟨-, hwindow, -⟩ := id hr
  have hnext : vec op len y k d false xs shape weight fn s = .next (s.vecEffect
      { fid := fid, f := f, m := m, src := xs.map (srcVec s fid f m) } k d len weight o) := by
    rw [vec, ha]
    simp only [hm, Bool.false_eq_true, if_false]
    rw [fibreIssue_ready hf hr hs]
    simp only [ho]
  have hdests : vecDests k d o = if k then [] else [(d, o.r.lane)] := by rw [vecDests, hr2]
  have hwin : ∀ p ∈ vecDests k d o, p.1 < 64 ∧ p.1 < windowOf s f := by
    intro p hp
    cases k with
    | true => simp [hdests] at hp
    | false =>
      obtain rfl : p = (d, o.r.lane) := by simpa [hdests] using hp
      exact ⟨hd, hwindow d (by simp)⟩
  refine ⟨_, hnext, (vecEffect_done (i := { fid := fid, f := f, m := m, src := xs.map (srcVec s fid f m) }) hf hwin).congr
    ?_ ?_ (fun l hl _ => hout l hl) rfl hrs⟩
  · cases k <;> simp [hdests]
  · intro p hp
    cases k with
    | true => simp at hp
    | false =>
      obtain rfl : p = (d, out) := by simpa using hp
      exact ⟨(d, o.r.lane), by simp [hdests], rfl, fun l hl _ => hout l hl⟩

theorem LaneVec.of_congr {f g : Nat → Word} (h : ∀ l < 32, f l = g l) : LaneVec.of f = LaneVec.of g :=
  congrArg Vector.ofFn (funext fun i => h i.val i.isLt)

theorem getElem?_roundStates {f : Fibre} {i : Nat} {u : Thread} (h : f.threads[i]? = some u) :
    (roundStates f)[i]? = some u.rstate := by
  simp [roundStates, h]

/-- The rounding state of a lane as a vector function and as the statements read it. -/
theorem state_eq_threadState {v : VIn} {f : Fibre} (hv : v.rs = roundStates f) : v.state = threadState f := by
  funext j
  unfold threadState VIn.state
  rw [hv, List.getD_eq_getElem?_getD]
  cases h : f.threads[j]? with
  | none => simp [roundStates, h]
  | some u => simp [getElem?_roundStates h]

theorem state_of_thread {v : VIn} {f : Fibre} (hv : v.rs = roundStates f) {i : Nat} {u : Thread}
    (hu : f.threads[i]? = some u) : v.state i = u.rstate := by
  rw [state_eq_threadState hv, threadState, hu]

/-! ### Whole-fibre operations and their draws (R55) -/

/-- The rounding mode .rs (R43) as the model and as the statements test for it. -/
theorem toNat_beq_rs (mode : BitVec 3) : (mode.toNat == 4) = decide (mode = 4#3) := by
  rw [Bool.eq_iff_iff, beq_iff_eq, decide_eq_true_iff]
  exact BitVec.toNat_inj (y := 4#3)

/-- The draws of a thread that a whole-fibre operation takes (R55). -/
theorem drawsAt_fst (v : VIn) (mode : BitVec 3) (n j : Nat) :
    (drawsAt v j mode.toNat n).1 = (draws (drawCount mode n) (v.state j)).1 := by
  unfold drawsAt drawCount
  rw [toNat_beq_rs]
  by_cases h : mode = 4#3 <;> simp [h, draws]

/-- The states that those draws leave: the drawing thread's moves on, the others stand. -/
theorem drawsAt_snd {v : VIn} {f : Fibre} (hv : v.rs = roundStates f) (mode : BitVec 3) (n j : Nat) {i : Nat} {u : Thread}
    (hu : f.threads[i]? = some u) :
    (drawsAt v j mode.toNat n).2.getD i u.rstate =
      if i = j then (draws (drawCount mode n) u.rstate).2 else u.rstate := by
  have hrs : v.rs[i]? = some u.rstate := hv ▸ getElem?_roundStates hu
  have hstate := state_of_thread hv hu
  unfold drawsAt drawCount
  rw [toNat_beq_rs]
  by_cases h : mode = 4#3
  · by_cases e : i = j
    · subst e
      obtain ⟨hlt, -⟩ := List.getElem?_eq_some_iff.mp hrs
      simp [h, List.getD_eq_getElem?_getD, List.getElem?_set_self hlt, hstate]
    · simp [h, e, Ne.symm e, List.getD_eq_getElem?_getD, hrs]
  · simp [h, draws, List.getD_eq_getElem?_getD, hrs]

/-- What a whole-fibre operation gives, with `n` draws of the lowest active lane's thread under .rs (R55). -/
def wholeOut (mode : BitVec 3) (n : Nat)
    (out : LaneMask → List LaneVec → List Nat → (Nat → Word) × (Nat → Word) × Flags5) (v : VIn) : VOut :=
  let o := out v.m v.src (draws (drawCount mode n) (v.state (lowestLane v.m))).1
  { r := LaneVec.of o.1, r2 := none, fl := o.2.2, rs := (drawsAt v (lowestLane v.m) mode.toNat n).2 }

/-- A vector instruction of a whole-fibre operation with one result takes effect as `WholeTakes` says. -/
theorem wholeTakes_of_vec {i : Instr} {l : LForm} {xs : List Src} {op weight n : Nat}
    {out : LaneMask → List LaneVec → List Nat → (Nat → Word) × (Nat → Word) × Flags5}
    (he : ∀ s, exec i s = vec op 8 l.y l.k l.d.toNat false xs true weight (fun v => .ok (wholeOut l.mode n out v)) s) :
    WholeTakes i l xs false weight (drawCount l.mode n) out := by
  intro s fid f m th hi hth _ hr
  simp only [Bool.false_eq_true, if_false] at hr ⊢
  let v : VIn := { m := m, src := xs.map (srcVec s fid f m), rs := roundStates f }
  have hstate : v.state (lowestLane m) = th.rstate := state_of_thread rfl hth
  rw [he, ← hstate]
  exact vec_done (o := wholeOut l.mode n out v) hi hr rfl l.d.isLt rfl rfl (fun j hj => (LaneVec.lane_of _ j hj).symm)
    (fun i u hu => (drawsAt_snd rfl l.mode n _ hu).symm)

/-! ### LRED (R55, R257) -/

/-- LRED is the whole-fibre operation whose value is the tree of R55 over the inputs of R257. -/
theorem exec_lred (l : LForm) (s : State) :
    exec (.lred l) s = vec 0x89 8 l.y l.k l.d.toNat false [src (.sel l.a) l.ty] true 3
      (fun v => .ok (wholeOut l.mode 31 (reduction l) v)) s := by
  change execLred l s = _
  simp only [execLred, wholeOut, reduction, reduceInputs, LaneVec.splat, ← bitsOf_low3, ← drawsAt_fst]
  rfl

/-! ### LSCAN (R56, R258) -/

section
variable (l : LForm) (v : VIn) (xs : Nat → Word)

/-- The word and the flags of lane `k`'s own step of the scan: lane 0's input, or one node above the lane before. -/
def scanNode : Nat → Word × Flags5
  | 0 => scanFirst l.ty (xs 0)
  | k + 1 =>
    reduceNode l.ty (l.imm.extractLsb' 0 3).toNat (if !v.m.getLsbD (k + 1) && l.mode == 4#3 then 0 else l.mode.toNat)
      (if v.m.getLsbD (k + 1) then
        (if l.mode == 4#3 then drawValue (drawStep (v.state (k + 1))) else drawValue (v.state (k + 1))) else 0)
      (scanTo l v.m xs v.state k).1 (xs (k + 1))

/-- The rounding state that the scan leaves in lane `k`: an active lane above lane 0 draws under .rs (R56). -/
def scanState (mode : BitVec 3) (m : LaneMask) (k : Nat) (st : BitVec 64) : BitVec 64 :=
  if m.getLsbD k ∧ k ≠ 0 ∧ mode = 4#3 then drawStep st else st

/-- What the model's scan holds for lane `k`. -/
def scanEntry (k : Nat) : Word × Flags5 × BitVec 64 :=
  ((scanNode l v xs k).1, (scanNode l v xs k).2, scanState l.mode v.m k (v.state k))

theorem scanTo_succ (k : Nat) :
    scanTo l v.m xs v.state (k + 1) =
      ((scanNode l v xs (k + 1)).1, (scanTo l v.m xs v.state k).2 ||| (scanNode l v xs (k + 1)).2) := by
  simp only [scanTo, scanNode]
  cases v.m.getLsbD (k + 1) <;> simp

theorem scanTo_fst (k : Nat) : (scanTo l v.m xs v.state k).1 = (scanNode l v xs k).1 := by
  cases k with
  | zero => rfl
  | succ k => rw [scanTo_succ]

/-- The flags of the scan are those of all its steps. -/
theorem foldl_scanEntry_flags (n : Nat) :
    ((List.range (n + 1)).map (scanEntry l v xs)).foldl (fun a x => a ||| x.2.1) Flags5.none =
      (scanTo l v.m xs v.state n).2 := by
  induction n with
  | zero => simp [scanEntry, scanNode, scanTo, Flags5.none]
  | succ n ih => rw [List.range_succ, List.map_append, List.foldl_append, ih, scanTo_succ]; rfl

/-- One step of the model's scan. -/
theorem scanFrom_cons (k : Nat) (r : List Word) :
    scanFrom l.ty (l.imm.extractLsb' 0 3).toNat l.mode.toNat v (k + 1) (scanTo l v.m xs v.state k).1 (xs (k + 1) :: r) =
      scanEntry l v xs (k + 1) ::
        scanFrom l.ty (l.imm.extractLsb' 0 3).toNat l.mode.toNat v (k + 2) (scanTo l v.m xs v.state (k + 1)).1 r := by
  rw [scanFrom, scanTo_fst l v xs (k + 1)]
  simp only [scanEntry, scanNode, scanState, toNat_beq_rs]
  cases v.m.getLsbD (k + 1) <;> by_cases h : l.mode = 4#3 <;> simp [h]

/-- The model's scan from lane `k + 1` on, entry by entry. -/
theorem scanFrom_eq (n k : Nat) :
    scanFrom l.ty (l.imm.extractLsb' 0 3).toNat l.mode.toNat v (k + 1) (scanTo l v.m xs v.state k).1
      ((List.range' (k + 1) n).map xs) = (List.range' (k + 1) n).map (scanEntry l v xs) := by
  induction n generalizing k with
  | zero => rfl
  | succ n ih => rw [List.range'_succ, List.map_cons, List.map_cons, scanFrom_cons, ih]

end

/-- LSCAN's inputs by lane: the identity in inactive lanes (R257). -/
def scanInput (l : LForm) (v : VIn) (j : Nat) : Word :=
  if v.m.getLsbD j then laneElem l.ty (lane v.src 0 j) else reduceIdentity l.ty (l.imm.extractLsb' 0 3).toNat

/-- What LSCAN gives. -/
def scanOut (l : LForm) (v : VIn) : VOut :=
  { r := LaneVec.of (scanned l v.m (scanInput l v) v.state), r2 := none,
    fl := (scanTo l v.m (scanInput l v) v.state 31).2,
    rs := if v.rs.isEmpty then [] else (List.range 32).map (fun k => scanState l.mode v.m k (v.state k)) }

theorem scanEntries_word (l : LForm) (v : VIn) (xs : Nat → Word) {k : Nat} (hk : k < 32) :
    (((List.range 32).map (scanEntry l v xs)).getD k (0#32, Flags5.none, 0#64)).1 = (scanTo l v.m xs v.state k).1 := by
  simp [List.getD_eq_getElem?_getD, hk, scanEntry, scanTo_fst]

theorem reduceInputs_eq (l : LForm) (v : VIn) :
    reduceInputs l.ty (l.imm.extractLsb' 0 3).toNat v = scanInput l v 0 :: (List.range' 1 31).map (scanInput l v) := rfl

/-- The model's scan over all lanes. -/
theorem scan_entries (l : LForm) (v : VIn) :
    ((scanFirst l.ty (scanInput l v 0)).1, (scanFirst l.ty (scanInput l v 0)).2, v.state 0) ::
      scanFrom l.ty (l.imm.extractLsb' 0 3).toNat l.mode.toNat v 1 (scanFirst l.ty (scanInput l v 0)).1
        ((List.range' 1 31).map (scanInput l v)) = (List.range 32).map (scanEntry l v (scanInput l v)) := by
  have h := scanFrom_eq l v (scanInput l v) 31 0
  simp only [scanTo, Nat.zero_add] at h
  have h0 : scanEntry l v (scanInput l v) 0 =
      ((scanFirst l.ty (scanInput l v 0)).1, (scanFirst l.ty (scanInput l v 0)).2, v.state 0) := by
    simp [scanEntry, scanNode, scanState]
  rw [h, ← h0]
  rfl

/-- LSCAN is the vector instruction of the scan of R56 over the inputs of R257. -/
theorem exec_lscan (l : LForm) (s : State) :
    exec (.lscan l) s = vec 0x8A 8 l.y l.k l.d.toNat false [src (.sel l.a) l.ty] true 3
      (fun v => .ok (scanOut l v)) s := by
  change execLscan l s = _
  unfold execLscan
  simp only [ofLForm, bitsOf_low3]
  refine congrArg (fun fn => vec 0x8A 8 l.y l.k l.d.toNat false [src (.sel l.a) l.ty] true 3 fn s) (funext fun v => ?_)
  simp only [reduceInputs_eq, scan_entries, foldl_scanEntry_flags]
  simp only [scanOut, Except.ok.injEq, VOut.mk.injEq, true_and]
  refine ⟨LaneVec.of_congr fun j hj => ?_, ?_⟩
  · unfold scanned
    split
    · cases hlast : ((lanesOf v.m).filter (fun k => decide (k < j))).getLast? with
      | none => rfl
      | some k =>
        obtain ⟨hk, -⟩ := List.mem_filter.mp (List.mem_of_getLast? hlast)
        exact scanEntries_word l v _ ((mem_lanesOf _ _).mp hk).1
    · exact scanEntries_word l v _ hj
  · rw [List.map_map]
    rfl

/-- The rounding states that LSCAN leaves. -/
theorem scanOut_rs (l : LForm) {v : VIn} {f : Fibre} (hv : v.rs = roundStates f) {i : Nat} {u : Thread}
    (hu : f.threads[i]? = some u) : (scanOut l v).rs.getD i u.rstate = scanState l.mode v.m i u.rstate := by
  have hrs : v.rs[i]? = some u.rstate := hv ▸ getElem?_roundStates hu
  have hne : v.rs.isEmpty = false := by
    cases h : v.rs with
    | nil => simp [h] at hrs
    | cons => rfl
  have hstate := state_of_thread hv hu
  simp only [scanOut, hne, Bool.false_eq_true, if_false, List.getD_eq_getElem?_getD, List.getElem?_map]
  by_cases hi : i < 32
  · simp [List.getElem?_range hi, hstate]
  · simp [hi, scanState, BitVec.getLsbD_of_ge v.m i (by omega)]

/-- LSCAN takes effect with the scan of R56 (R258). -/
theorem lscan_takes (l : LForm) {s : State} {fid : Nat} {f : Fibre} {m : LaneMask} (hi : Issuing s fid f m)
    (hr : Readable s fid f m [src (.sel l.a) l.ty] (if l.k then [] else [l.d.toNat])) :
    let xs := fun j => if m.getLsbD j then laneElem l.ty (opdLane s fid f m (.sel l.a) l.ty j)
      else reduceIdentity l.ty (l.imm.extractLsb' 0 3).toNat
    ∃ t, exec (.lscan l) s = .next t ∧
      VecDone s t fid f m (if l.k then [] else [(l.d.toNat, scanned l m xs (threadState f))])
        (scanned l m xs (threadState f)) (scanTo l m xs (threadState f) 31).2
        (fun j st => if m.getLsbD j ∧ j ≠ 0 ∧ l.mode = 4#3 then drawStep st else st) 8 3 := by
  intro xs
  let v : VIn := { m := m, src := [src (.sel l.a) l.ty].map (srcVec s fid f m), rs := roundStates f }
  rw [exec_lscan, ← state_eq_threadState (v := v) rfl]
  refine vec_done (o := scanOut l v) hi hr rfl l.d.isLt rfl rfl (fun j hj => (LaneVec.lane_of _ j hj).symm) ?_
  exact fun i u hu => (scanOut_rs l (v := v) rfl hu).symm

/-! ### Integer reductions in any order (R257) -/

/-- An operation of LRED over a type is associative with the identity of R257, and `f` is what its node computes. -/
structure Reduces (t : BitVec 4) (op : Nat) (f : Word → Word → Word) : Prop where
  node : ∀ mode u x y, (reduceNode t op mode u x y).1 = f x y
  assoc : ∀ x y z, f (f x y) z = f x (f y z)
  left : ∀ x, f (reduceIdentity t op) x = x
  right : ∀ x, f x (reduceIdentity t op) = x

theorem length_reduceLevel (t : BitVec 4) (op mode : Nat) :
    ∀ (us : List Nat) (xs : List Word), (reduceLevel t op mode us xs).1.length = (xs.length + 1) / 2
  | us, _ :: _ :: r => by
    simp only [reduceLevel, List.length_cons, length_reduceLevel t op mode (us.drop 1) r]
    omega
  | _, [_] => by simp [reduceLevel]
  | _, [] => by simp [reduceLevel]

section
variable {t : BitVec 4} {op : Nat} {f : Word → Word → Word} (h : Reduces t op f)
include h

/-- A level of the tree keeps the fold of the operation. -/
theorem Reduces.foldl_level (mode : Nat) : ∀ (us : List Nat) (xs : List Word) (a : Word),
    (reduceLevel t op mode us xs).1.foldl f a = xs.foldl f a
  | us, x :: y :: r, a => by
    simp only [reduceLevel, List.foldl_cons, h.node, h.assoc, Reduces.foldl_level mode (us.drop 1) r]
  | _, [_], _ => by simp [reduceLevel]
  | _, [], _ => by simp [reduceLevel]

/-- The tree over a power of two of inputs is the fold of the operation. -/
theorem Reduces.tree_eq_foldl (mode : Nat) : ∀ (n : Nat) (us : List Nat) (xs : List Word), xs.length = 2 ^ n →
    (reduceTree t op mode n us xs).1 = xs.foldl f (reduceIdentity t op)
  | 0, us, xs, hlen => by
    obtain ⟨x, rfl⟩ := List.length_eq_one_iff.mp hlen
    exact (h.left x).symm
  | n + 1, us, xs, hlen => by
    have hhalf : (reduceLevel t op mode us xs).1.length = 2 ^ n := by
      rw [length_reduceLevel, hlen, Nat.pow_succ]; omega
    rw [← h.foldl_level mode us xs]
    exact Reduces.tree_eq_foldl mode n _ _ hhalf

end

/-- Over integers LRED's value is the fold of its operation over the active lanes alone (R257). -/
theorem Reduces.reduction_eq {l : LForm} {f : Word → Word → Word} (h : Reduces l.ty (l.imm.extractLsb' 0 3).toNat f)
    (hty : tyIn l.ty floatTypes = false) (m : LaneMask) (v : List LaneVec) (us : List Nat) :
    (reduction l m v us).1 0 =
      ((lanesOf m).map (fun j => lane v 0 j)).foldl f (reduceIdentity l.ty (l.imm.extractLsb' 0 3).toNat) := by
  rw [reduction]
  simp only
  rw [h.tree_eq_foldl _ 5 us _ (by simp), lanesOf, List.foldl_map, List.foldl_map, List.foldl_filter]
  congr 1
  funext a j
  cases m.getLsbD j with
  | true => simp only [if_true, laneElem, hty, Bool.false_eq_true, if_false]
  | false => simp only [Bool.false_eq_true, if_false, h.right]

/-! ### The operations over 32-bit integers -/

theorem intVal_i32 (x : Word) : intVal Ty.i32 x = x.toInt :=
  congrArg BitVec.toInt (BitVec.setWidth_eq x)

theorem intVal_n32 (x : Word) : intVal Ty.n32 x = x.toNat :=
  congrArg (fun y : Word => (y.toNat : Int)) (BitVec.setWidth_eq x)

/-- The lower of two lanes under an integer type. -/
def lowerLane (t : BitVec 4) (x y : Word) : Word := if intVal t x < intVal t y then x else y

/-- The higher of two lanes under an integer type. -/
def higherLane (t : BitVec 4) (x y : Word) : Word := if intVal t x < intVal t y then y else x

section
variable {t : BitVec 4} (ht : t = Ty.i32 ∨ t = Ty.n32)
include ht

theorem not_float_of_word32 : tyIn t floatTypes = false := by
  rcases ht with rfl | rfl <;> rfl

theorem intVal_inj {x y : Word} (h : intVal t x = intVal t y) : x = y := by
  rcases ht with rfl | rfl
  · exact BitVec.eq_of_toInt_eq (by simpa only [intVal_i32] using h)
  · exact BitVec.eq_of_toNat_eq (by simpa only [intVal_n32, Int.natCast_inj] using h)

/-- The identity of .min is the largest value of the type (R257). -/
theorem intVal_le_identity (x : Word) : intVal t x ≤ intVal t (reduceIdentity t 1) := by
  rcases ht with rfl | rfl
  · have hmax : (reduceIdentity Ty.i32 1).toInt = 2 ^ 31 - 1 := by decide
    rw [intVal_i32, intVal_i32, hmax]
    exact Int.le_sub_one_of_lt BitVec.toInt_lt
  · have hmax : (reduceIdentity Ty.n32 1).toNat = 2 ^ 32 - 1 := by decide
    rw [intVal_n32, intVal_n32, hmax]
    exact_mod_cast Nat.le_sub_one_of_lt x.isLt

/-- The identity of .max is the smallest value of the type (R257). -/
theorem identity_le_intVal (x : Word) : intVal t (reduceIdentity t 2) ≤ intVal t x := by
  rcases ht with rfl | rfl
  · have hmin : (reduceIdentity Ty.i32 2).toInt = -2 ^ 31 := by decide
    rw [intVal_i32, intVal_i32, hmin]
    exact BitVec.le_toInt x
  · have hmin : (reduceIdentity Ty.n32 2).toNat = 0 := by decide
    rw [intVal_n32, intVal_n32, hmin]
    exact Int.natCast_nonneg _

theorem reduces_add : Reduces t 0 (fun x y => x + y) where
  node _ _ _ _ := by simp [reduceNode, not_float_of_word32 ht]
  assoc := BitVec.add_assoc
  left x := by simp [reduceIdentity, not_float_of_word32 ht]
  right x := by simp [reduceIdentity, not_float_of_word32 ht]

theorem reduces_and : Reduces t 3 (fun x y => x &&& y) where
  node _ _ _ _ := by simp [reduceNode, not_float_of_word32 ht]
  assoc := BitVec.and_assoc
  left _ := BitVec.allOnes_and
  right _ := BitVec.and_allOnes

theorem reduces_or : Reduces t 4 (fun x y => x ||| y) where
  node _ _ _ _ := by simp [reduceNode, not_float_of_word32 ht]
  assoc := BitVec.or_assoc
  left _ := BitVec.zero_or
  right _ := BitVec.or_zero

theorem reduces_xor : Reduces t 5 (fun x y => x ^^^ y) where
  node _ _ _ _ := by simp [reduceNode, not_float_of_word32 ht]
  assoc := BitVec.xor_assoc
  left _ := BitVec.zero_xor
  right _ := BitVec.xor_zero

theorem reduces_lowerLane : Reduces t 1 (lowerLane t) where
  node _ _ x y := by
    have hint : tyIn t intTypes = true := by rcases ht with rfl | rfl <;> rfl
    simp [reduceNode, not_float_of_word32 ht, lowerLane, intVal_eq t hint]
  assoc x y z := by
    unfold lowerLane
    grind
  left x := by
    have := intVal_le_identity ht x
    exact if_neg (by omega)
  right x := by
    have hle := intVal_le_identity ht x
    unfold lowerLane
    split
    · rfl
    · exact intVal_inj ht (by omega)

theorem reduces_higherLane : Reduces t 2 (higherLane t) where
  node _ _ x y := by
    have hint : tyIn t intTypes = true := by rcases ht with rfl | rfl <;> rfl
    simp [reduceNode, not_float_of_word32 ht, higherLane, intVal_eq t hint]
  assoc x y z := by
    unfold higherLane
    grind
  left x := by
    have hle := identity_le_intVal ht x
    unfold higherLane
    split
    · rfl
    · exact intVal_inj ht (by omega)
  right x := by
    have := identity_le_intVal ht x
    exact if_neg (by omega)

end

theorem lowerLane_best (t : BitVec 4) (x y : Word) :
    (lowerLane t x y = x ∨ lowerLane t x y = y) ∧ intVal t (lowerLane t x y) ≤ intVal t x ∧
      intVal t (lowerLane t x y) ≤ intVal t y := by
  unfold lowerLane
  split
  · exact ⟨.inl rfl, by omega, by omega⟩
  · exact ⟨.inr rfl, by omega, by omega⟩

theorem higherLane_best (t : BitVec 4) (x y : Word) :
    (higherLane t x y = x ∨ higherLane t x y = y) ∧ -intVal t (higherLane t x y) ≤ -intVal t x ∧
      -intVal t (higherLane t x y) ≤ -intVal t y := by
  unfold higherLane
  split
  · exact ⟨.inr rfl, by omega, by omega⟩
  · exact ⟨.inl rfl, by omega, by omega⟩

section
variable {f : Word → Word → Word} {key : Word → Int}
  (hbest : ∀ x y, (f x y = x ∨ f x y = y) ∧ key (f x y) ≤ key x ∧ key (f x y) ≤ key y)
include hbest

/-- The fold of an operation that takes the argument of the lower key has the lowest key of the list. -/
theorem foldl_best (xs : List Word) (a : Word) :
    xs.foldl f a ∈ a :: xs ∧ ∀ x ∈ a :: xs, key (xs.foldl f a) ≤ key x := by
  induction xs generalizing a with
  | nil => simp
  | cons b xs ih =>
    obtain ⟨hpick, hfst, hsnd⟩ := hbest a b
    obtain ⟨hmem, hlow⟩ := ih (f a b)
    have hhead := hlow (f a b) List.mem_cons_self
    rw [List.foldl_cons]
    refine ⟨?_, fun x hx => ?_⟩
    · rcases List.mem_cons.mp hmem with e | e
      · rw [e]
        rcases hpick with e' | e' <;> simp [e']
      · exact List.mem_cons_of_mem _ (List.mem_cons_of_mem _ e)
    · rcases List.mem_cons.mp hx with rfl | hx
      · exact hhead.trans hfst
      · rcases List.mem_cons.mp hx with rfl | hx
        · exact hhead.trans hsnd
        · exact hlow x (List.mem_cons_of_mem _ hx)

/-- The same from the identity over a list that holds something. -/
theorem Reduces.foldl_best {t : BitVec 4} {op : Nat} (h : Reduces t op f) {xs : List Word} (hne : xs ≠ []) :
    xs.foldl f (reduceIdentity t op) ∈ xs ∧ ∀ x ∈ xs, key (xs.foldl f (reduceIdentity t op)) ≤ key x := by
  obtain ⟨x, r, rfl⟩ := List.exists_cons_of_ne_nil hne
  rw [List.foldl_cons, h.left]
  exact Machine.foldl_best hbest r x

end

theorem lanesOf_ne_nil {m : LaneMask} (hm : m ≠ 0#32) : lanesOf m ≠ [] := by
  intro hnil
  refine hm (BitVec.eq_of_getLsbD_eq fun j hj => ?_)
  by_contra hbit
  have : j ∈ lanesOf m := (mem_lanesOf m j).mpr ⟨hj, by simpa using hbit⟩
  simp [hnil] at this

/-- Settles O6: LRED as a whole-fibre operation, LSCAN entry by entry, and each integer operation's tree as the fold of an
associative operation whose identity the inactive lanes hold. -/
theorem reduceAndScan : Obligations.ReduceAndScan := by
  refine ⟨fun l => ⟨fun _ => wholeTakes_of_vec (exec_lred l), fun _ s fid f m hi hr => lscan_takes l hi hr⟩, ?_⟩
  intro l m v us hty hm w xs
  have hne : xs ≠ [] := by simpa [xs] using lanesOf_ne_nil hm
  have hfold : ∀ {op : BitVec 3} {f : Word → Word → Word}, l.imm.extractLsb' 0 3 = op → Reduces l.ty op.toNat f →
      w = xs.foldl f (reduceIdentity l.ty op.toNat) := by
    rintro _ f rfl h
    exact h.reduction_eq (not_float_of_word32 hty) m v us
  have hid : reduceIdentity l.ty 0 = 0#32 := by
    simp [reduceIdentity, not_float_of_word32 hty]
  refine ⟨fun h => ?_, fun h => ?_, fun h => ?_, fun h => ?_, fun h => ?_, fun h => ?_⟩
  · exact (hfold h (reduces_add hty)).trans (congrArg (xs.foldl _) hid)
  · rw [hfold h (reduces_lowerLane hty)]
    exact (reduces_lowerLane hty).foldl_best (lowerLane_best l.ty) hne
  · rw [hfold h (reduces_higherLane hty)]
    obtain ⟨hmem, hhigh⟩ := (reduces_higherLane hty).foldl_best (higherLane_best l.ty) hne
    exact ⟨hmem, fun x hx => Int.neg_le_neg_iff.mp (hhigh x hx)⟩
  · exact hfold h (reduces_and hty)
  · exact hfold h (reduces_or hty)
  · exact hfold h (reduces_xor hty)

end Sys2Proof.Machine
end
